-- ==== Sys2Proof/Word.lean ====
section
/-! DEFINITION. The bit-vector types of ZFD: bytes of the streams and of the history window, and the
16-bit and 32-bit values the spec gives a width (spec/00_scope.md R8, R9). -/

namespace Sys2Proof

/-- One byte: the unit of every stream and window access (spec/20_memory.md R75). -/
abbrev Byte := BitVec 8

/-- A 16-bit value: `CMF*256 + FLG`, LEN, NLEN, a half of the Adler-32 value. -/
abbrev Half := BitVec 16

/-- A 32-bit value: the bit accumulator, the trailer, the Adler-32 value. -/
abbrev Word := BitVec 32

end Sys2Proof
end

