-- ==== Sys2Proof/Config.lean ====
section
/-! DEFINITION. What an implementation fixes (spec/00_scope.md R6, spec/10_state.md R27), the constants of the
spec, and the shape of the two cursors a DECODE call is given (spec/20_memory.md R61 to R63). -/

namespace Sys2Proof

/-- The two OPEN parameters of ZFD (spec/92_eei_decisions.md section 1). -/
structure ZfdConfig where
  /-- the token INIT must be given -/
  version : Nat
  /-- the largest accepted window-size field CINFO -/
  maxCinfo : Nat
deriving DecidableEq, Repr

/-- The defaults the spec gives the parameters (D8, D9). DESIGN CHOICE: reset carries these (log entry 4); unsafe
only for a claim that reads them, and every claim is stated for all values of `cfg`. -/
def ZfdConfig.defaults : ZfdConfig := { version := 1, maxCinfo := 7 }

/-- Capacity of the history window in bytes (R6, R37). -/
def windowSize : Nat := 32768

/-- The modulus of the Adler-32 sums (spec/45_zlib_adler.md R262). -/
def adlerMod : Nat := 65521

/-- Sizes of the code-length, literal/length and distance alphabets (R6). -/
def nCl : Nat := 19
def nLl : Nat := 288
def nD : Nat := 32

/-- The input cursor of one DECODE call: the bytes available and unread, and the closed flag (R61). -/
structure InCursor where
  bytes : List Byte
  closed : Bool
deriving DecidableEq, Repr

/-- The output cursor of one DECODE call: the writable capacity and the closed flag (R62, R63). -/
structure OutCursor where
  cap : Nat
  closed : Bool
deriving DecidableEq, Repr

end Sys2Proof
end

