-- ==== Sys2Proof/Syntax.lean ====
section
/-! DEFINITION. The instructions of ZFD: one constructor for each row of spec/opcode_table.json, that is the 79
elements of the bitstream and the three host operations (spec/30_encoding.md R117). An element's operands are the
fields of its own row; the extra bits that follow a length, distance or repeat symbol are no part of the symbol
(the row matches the symbol value): the meaning of the instruction reads them in its second micro-step
(R115; log entry 9). -/

namespace Sys2Proof

/-- The elements and host operations of ZFD. -/
inductive Instr where
  /-- ZHDR: the 16-bit value `CMF*256 + FLG` (R91). -/
  | zhdr (x : Half)
  /-- ZTRL: the 32-bit trailer value, first byte most significant (R92). -/
  | ztrl (x : Word)
  /-- BLK.STORED: a block header with BTYPE 0; the operand is BFINAL (R93, R94). -/
  | blkStored (bfinal : Bool)
  /-- BLK.FIXED: BTYPE 1. -/
  | blkFixed (bfinal : Bool)
  /-- BLK.DYNAMIC: BTYPE 2. -/
  | blkDynamic (bfinal : Bool)
  /-- BLK.RESERVED: BTYPE 3. -/
  | blkReserved (bfinal : Bool)
  /-- S.LEN: the LEN and NLEN fields of a stored block (R95). -/
  | sLen (len nlen : Half)
  /-- RAW: one data byte of a stored block (R95). -/
  | raw (b : Byte)
  /-- D.COUNTS: HLIT, HDIST, HCLEN of a dynamic header (R96). -/
  | dCounts (hlit hdist hclen : Nat)
  /-- D.CLLEN: one code-length code length, 3 bits (R97). -/
  | dCllen (v : Nat)
  /-- CL.LEN: code-length symbol 0 to 15 (R98). -/
  | clLen (n : Nat)
  /-- CL.REP: code-length symbol 16. -/
  | clRep
  /-- CL.ZREP: code-length symbol 17. -/
  | clZrep
  /-- CL.ZREPL: code-length symbol 18. -/
  | clZrepl
  /-- LIT: literal/length symbol 0 to 255 (R100). -/
  | lit (b : Byte)
  /-- EOB: literal/length symbol 256. -/
  | eob
  | len257 | len258 | len259 | len260 | len261 | len262 | len263 | len264
  | len265 | len266 | len267 | len268 | len269 | len270 | len271 | len272
  | len273 | len274 | len275 | len276 | len277 | len278 | len279 | len280
  | len281 | len282 | len283 | len284 | len285
  | llRsvd286 | llRsvd287
  | dist00 | dist01 | dist02 | dist03 | dist04 | dist05 | dist06 | dist07
  | dist08 | dist09 | dist10 | dist11 | dist12 | dist13 | dist14 | dist15
  | dist16 | dist17 | dist18 | dist19 | dist20 | dist21 | dist22 | dist23
  | dist24 | dist25 | dist26 | dist27 | dist28 | dist29
  | dRsvd30 | dRsvd31
  /-- RESET (spec/46_host_operations.md R281). -/
  | reset
  /-- INIT with its version token (R283). -/
  | init (v : Nat)
  /-- DECODE with its two cursors, each possibly absent (R284). -/
  | decode (out : Option OutCursor) (inp : Option InCursor)
deriving DecidableEq, Repr

/-- The host operations; every other instruction is an element of the stream (R117, format HOST). -/
def Instr.isHost : Instr → Bool
  | .reset => true
  | .init _ => true
  | .decode _ _ => true
  | _ => false

end Sys2Proof
end

