-- ==== Sys2Proof/WellFormed.lean ====
section
/-! DEFINITION. Which instructions have an encoding: an operand held as a number must fit its field
(spec/30_encoding.md R96 to R98). Operands held as bit vectors fit by their type; an operand that fits but breaks a
constraint of the format (R113) is well formed: decoding it is what raises the error. -/

namespace Sys2Proof

/-- HLIT and HDIST are 5 bits, HCLEN 4, a code-length code length 3, a CL.LEN symbol is 0 to 15. -/
def WellFormed : Instr → Bool
  | .dCounts hlit hdist hclen => decide (hlit < 32) && decide (hdist < 32) && decide (hclen < 16)
  | .dCllen v => decide (v < 8)
  | .clLen n => decide (n < 16)
  | _ => true

end Sys2Proof
end

