-- ==== Sys2Proof/Decode.lean ====
section
/-! DEFINITION. The encodings of ZFD (spec/30_encoding.md): the constant tables, the canonical Huffman codes of a
length array (spec/41_huffman_tables.md R161 to R163), the decoder from a field value in its format to an
instruction (total, refusing by name), the encoder, and the stream bits of an element. -/

namespace Sys2Proof

/-! ## Constant tables -/

/-- `LBASE`, indexed by symbol - 257 (R104). -/
def lbase : List Nat :=
  [3, 4, 5, 6, 7, 8, 9, 10, 11, 13, 15, 17, 19, 23, 27, 31, 35, 43, 51, 59, 67, 83, 99, 115, 131, 163, 195, 227, 258]

/-- `LEXT`, indexed by symbol - 257 (R104). -/
def lext : List Nat :=
  [0, 0, 0, 0, 0, 0, 0, 0, 1, 1, 1, 1, 2, 2, 2, 2, 3, 3, 3, 3, 4, 4, 4, 4, 5, 5, 5, 5, 0]

/-- `DBASE`, indexed by the distance symbol (R105). -/
def dbase : List Nat :=
  [1, 2, 3, 4, 5, 7, 9, 13, 17, 25, 33, 49, 65, 97, 129, 193, 257, 385, 513, 769, 1025, 1537, 2049, 3073, 4097, 6145,
   8193, 12289, 16385, 24577]

/-- `DEXT`, indexed by the distance symbol (R105). -/
def dext : List Nat :=
  [0, 0, 0, 0, 1, 1, 2, 2, 3, 3, 4, 4, 5, 5, 6, 6, 7, 7, 8, 8, 9, 9, 10, 10, 11, 11, 12, 12, 13, 13]

/-- `CLORD`: the order in which the code-length code lengths arrive (R106). -/
def clord : List Nat := [16, 17, 18, 0, 8, 7, 9, 6, 10, 5, 11, 4, 12, 3, 13, 2, 14, 1, 15]

/-- `FIX_LL`: the literal/length lengths of a fixed block (R107). -/
def fixLl : List Nat :=
  List.replicate 144 8 ++ List.replicate 112 9 ++ List.replicate 24 7 ++ List.replicate 8 8

/-- `FIX_D`: the distance lengths of a fixed block (R108). -/
def fixD : List Nat := List.replicate 32 5

/-! ## Canonical codes -/

/-- `cnt[L]`: the number of symbols of length `L` (R161). -/
def cnt (len : List Nat) (L : Nat) : Nat := len.count L

/-- `maxl(len)`: the largest length; 0 when no symbol has a code (R161). -/
def maxl (len : List Nat) : Nat := len.foldr max 0

/-- `first[L]`: the first code of length `L`, with `first[0] = 0` and `cnt[0]` treated as 0 (R162). -/
def firstCode (len : List Nat) : Nat → Nat
  | 0 => 0
  | L + 1 => 2 * (firstCode len L + if L = 0 then 0 else cnt len L)

/-- `code[s]` (R162): symbols of one length get consecutive codes in symbol order from `first[L]` on, so the code of
`s` is `first[L]` plus the number of earlier symbols of its length. DEDUCED from the loop of R162 (log entry 16). -/
def codeOf (len : List Nat) (s : Nat) : Nat :=
  firstCode len (len.getD s 0) + (len.take s).count (len.getD s 0)

/-- The index of the `k`-th entry (from 0) of a list equal to `L`, counting indices from `i`. -/
def nthOfLength (L : Nat) : Nat → List Nat → Nat → Option Nat
  | _, [], _ => none
  | k, l :: ls, i =>
    if l = L then (match k with | 0 => some i | k + 1 => nthOfLength L k ls (i + 1))
    else nthOfLength L k ls (i + 1)

/-- The symbol `s` with `len[s] = L` and `code[s] = c`, if there is one (the test of R168). -/
def symbolOf (len : List Nat) (L c : Nat) : Option Nat :=
  if c < firstCode len L then none else nthOfLength L (c - firstCode len L) len 0

/-- `rev_L(v)`: the L-bit value whose bit `i` is bit `L-1-i` of `v` (spec/00_scope.md R9). -/
def rev : Nat → Nat → Nat
  | 0, _ => 0
  | L + 1, v => 2 * rev L v + v / 2 ^ L % 2

/-- The first match of R168: for `L` in 1 .. `k` ascending, the symbol whose code is the next `L` stream bits (the
first of them is bit 0 of `v` and the most significant code bit), with its length. -/
def findCode (len : List Nat) (v k : Nat) : Option (Nat × Nat) :=
  (List.range' 1 k).findSome? fun L => (symbolOf len L (rev L v)).map fun s => (s, L)

/-- The Kraft sum `K(len)` with `m = maxl(len)` (R163). -/
def kraft (len : List Nat) : Nat :=
  ((List.range' 1 (maxl len)).map fun L => cnt len L * 2 ^ (maxl len - L)).sum

/-! ## Decoding -/

/-- The spaces in which the rows of spec/opcode_table.json match (R117). -/
inductive Format where
  | zhdr | ztrl | bhdr | stored | raw | dynhdr | cllen | clsym | llsym | dsym | host
deriving DecidableEq, Repr

/-- The width of a format's value in bits (R117); HOST rows carry ordinals under a 2-bit mask. -/
def Format.width : Format → Nat
  | .zhdr => 16
  | .ztrl => 32
  | .bhdr => 3
  | .stored => 32
  | .raw => 8
  | .dynhdr => 14
  | .cllen => 3
  | .clsym => 5
  | .llsym => 9
  | .dsym => 5
  | .host => 2

/-- Why a value is no instruction of a format. -/
inductive DecodeError where
  /-- the value does not fit the format's field -/
  | tooWide (f : Format) (v : Nat)
  /-- the value fits the field and is no symbol of the alphabet (CLSYM 19 to 31, LLSYM 288 to 511, HOST 3) -/
  | noSuchSymbol (f : Format) (v : Nat)
deriving DecidableEq, Repr

/-- Literal/length symbols 256 to 287 in order (R100). -/
def llSymbols : List Instr :=
  [.eob, .len257, .len258, .len259, .len260, .len261, .len262, .len263,
   .len264, .len265, .len266, .len267, .len268, .len269, .len270, .len271,
   .len272, .len273, .len274, .len275, .len276, .len277, .len278, .len279,
   .len280, .len281, .len282, .len283, .len284, .len285, .llRsvd286, .llRsvd287]

/-- Distance symbols 0 to 31 in order (R101). -/
def dSymbols : List Instr :=
  [.dist00, .dist01, .dist02, .dist03, .dist04, .dist05, .dist06, .dist07,
   .dist08, .dist09, .dist10, .dist11, .dist12, .dist13, .dist14, .dist15,
   .dist16, .dist17, .dist18, .dist19, .dist20, .dist21, .dist22, .dist23,
   .dist24, .dist25, .dist26, .dist27, .dist28, .dist29, .dRsvd30, .dRsvd31]

/-- The block header of BTYPE `t` (R94). -/
def blockOfType (bfinal : Bool) : Nat → Instr
  | 0 => .blkStored bfinal
  | 1 => .blkFixed bfinal
  | 2 => .blkDynamic bfinal
  | _ => .blkReserved bfinal

/-- A symbol found in a list of instructions, or the error that names it. -/
def symbolIn (f : Format) (rows : List Instr) (i v : Nat) : Except DecodeError Instr :=
  match rows[i]? with
  | some x => .ok x
  | none => .error (.noSuchSymbol f v)

/-- The instruction whose field value in format `f` is `v` (spec/opcode_table.json, read as R117 says). The host's
operations have no bit pattern: their ordinals decode with operands of zeros. -/
def decode (f : Format) (v : Nat) : Except DecodeError Instr :=
  if 2 ^ f.width ≤ v then .error (.tooWide f v)
  else
    match f with
    | .zhdr => .ok (.zhdr (BitVec.ofNat 16 v))
    | .ztrl => .ok (.ztrl (BitVec.ofNat 32 v))
    | .bhdr => .ok (blockOfType (v % 2 == 1) (v / 2))
    | .stored => .ok (.sLen (BitVec.ofNat 16 v) (BitVec.ofNat 16 (v / 2 ^ 16)))
    | .raw => .ok (.raw (BitVec.ofNat 8 v))
    | .dynhdr => .ok (.dCounts (v % 32) (v / 32 % 32) (v / 1024))
    | .cllen => .ok (.dCllen v)
    | .clsym => if v < 16 then .ok (.clLen v) else symbolIn f [.clRep, .clZrep, .clZrepl] (v - 16) v
    | .llsym => if v < 256 then .ok (.lit (BitVec.ofNat 8 v)) else symbolIn f llSymbols (v - 256) v
    | .dsym => symbolIn f dSymbols v v
    | .host => symbolIn f [.reset, .init 0, .decode (some ⟨0, false⟩) (some ⟨[], false⟩)] v v

/-! ## Encoding -/

/-- The format an instruction's row stands in (R117). -/
def formatOf : Instr → Format
  | .zhdr _ => .zhdr
  | .ztrl _ => .ztrl
  | .blkStored _ => .bhdr
  | .blkFixed _ => .bhdr
  | .blkDynamic _ => .bhdr
  | .blkReserved _ => .bhdr
  | .sLen _ _ => .stored
  | .raw _ => .raw
  | .dCounts _ _ _ => .dynhdr
  | .dCllen _ => .cllen
  | .clLen _ => .clsym
  | .clRep => .clsym
  | .clZrep => .clsym
  | .clZrepl => .clsym
  | .lit _ => .llsym
  | .eob => .llsym
  | .len257 => .llsym
  | .len258 => .llsym
  | .len259 => .llsym
  | .len260 => .llsym
  | .len261 => .llsym
  | .len262 => .llsym
  | .len263 => .llsym
  | .len264 => .llsym
  | .len265 => .llsym
  | .len266 => .llsym
  | .len267 => .llsym
  | .len268 => .llsym
  | .len269 => .llsym
  | .len270 => .llsym
  | .len271 => .llsym
  | .len272 => .llsym
  | .len273 => .llsym
  | .len274 => .llsym
  | .len275 => .llsym
  | .len276 => .llsym
  | .len277 => .llsym
  | .len278 => .llsym
  | .len279 => .llsym
  | .len280 => .llsym
  | .len281 => .llsym
  | .len282 => .llsym
  | .len283 => .llsym
  | .len284 => .llsym
  | .len285 => .llsym
  | .llRsvd286 => .llsym
  | .llRsvd287 => .llsym
  | .dist00 => .dsym
  | .dist01 => .dsym
  | .dist02 => .dsym
  | .dist03 => .dsym
  | .dist04 => .dsym
  | .dist05 => .dsym
  | .dist06 => .dsym
  | .dist07 => .dsym
  | .dist08 => .dsym
  | .dist09 => .dsym
  | .dist10 => .dsym
  | .dist11 => .dsym
  | .dist12 => .dsym
  | .dist13 => .dsym
  | .dist14 => .dsym
  | .dist15 => .dsym
  | .dist16 => .dsym
  | .dist17 => .dsym
  | .dist18 => .dsym
  | .dist19 => .dsym
  | .dist20 => .dsym
  | .dist21 => .dsym
  | .dist22 => .dsym
  | .dist23 => .dsym
  | .dist24 => .dsym
  | .dist25 => .dsym
  | .dist26 => .dsym
  | .dist27 => .dsym
  | .dist28 => .dsym
  | .dist29 => .dsym
  | .dRsvd30 => .dsym
  | .dRsvd31 => .dsym
  | .reset => .host
  | .init _ => .host
  | .decode _ _ => .host

/-- The field value of an instruction in its format, bit 0 the first bit of the field (R117); a Huffman-coded element
is its symbol, a host operation its ordinal. -/
def encode : Instr → Nat
  | .zhdr x => x.toNat
  | .ztrl x => x.toNat
  | .blkStored f => f.toNat
  | .blkFixed f => 2 + f.toNat
  | .blkDynamic f => 4 + f.toNat
  | .blkReserved f => 6 + f.toNat
  | .sLen len nlen => nlen.toNat * 2 ^ 16 + len.toNat
  | .raw b => b.toNat
  | .dCounts hlit hdist hclen => hclen * 1024 + hdist * 32 + hlit
  | .dCllen v => v
  | .clLen n => n
  | .clRep => 16
  | .clZrep => 17
  | .clZrepl => 18
  | .lit b => b.toNat
  | .eob => 256
  | .len257 => 257
  | .len258 => 258
  | .len259 => 259
  | .len260 => 260
  | .len261 => 261
  | .len262 => 262
  | .len263 => 263
  | .len264 => 264
  | .len265 => 265
  | .len266 => 266
  | .len267 => 267
  | .len268 => 268
  | .len269 => 269
  | .len270 => 270
  | .len271 => 271
  | .len272 => 272
  | .len273 => 273
  | .len274 => 274
  | .len275 => 275
  | .len276 => 276
  | .len277 => 277
  | .len278 => 278
  | .len279 => 279
  | .len280 => 280
  | .len281 => 281
  | .len282 => 282
  | .len283 => 283
  | .len284 => 284
  | .len285 => 285
  | .llRsvd286 => 286
  | .llRsvd287 => 287
  | .dist00 => 0
  | .dist01 => 1
  | .dist02 => 2
  | .dist03 => 3
  | .dist04 => 4
  | .dist05 => 5
  | .dist06 => 6
  | .dist07 => 7
  | .dist08 => 8
  | .dist09 => 9
  | .dist10 => 10
  | .dist11 => 11
  | .dist12 => 12
  | .dist13 => 13
  | .dist14 => 14
  | .dist15 => 15
  | .dist16 => 16
  | .dist17 => 17
  | .dist18 => 18
  | .dist19 => 19
  | .dist20 => 20
  | .dist21 => 21
  | .dist22 => 22
  | .dist23 => 23
  | .dist24 => 24
  | .dist25 => 25
  | .dist26 => 26
  | .dist27 => 27
  | .dist28 => 28
  | .dist29 => 29
  | .dRsvd30 => 30
  | .dRsvd31 => 31
  | .reset => 0
  | .init _ => 1
  | .decode _ _ => 2

/-! ## Stream bits (the notation of R118: plain fields least significant bit first, Huffman codes most significant
bit first, bytes filled from bit 0 upward) -/

/-- The `n` bits of a plain field, first bit first (R71). -/
def plainBits (n v : Nat) : List Bool := (List.range n).map fun i => v / 2 ^ i % 2 == 1

/-- The `L` bits of a Huffman code, most significant first (R72). -/
def codeBits (L c : Nat) : List Bool := (plainBits L c).reverse

/-- The code of symbol `s` in the table of `len`; nothing when the symbol is unused. -/
def symbolBits (len : List Nat) (s : Nat) : List Bool := codeBits (len.getD s 0) (codeOf len s)

/-- The stream bits of an element, given the code-length, literal/length and distance tables in force; the byte
boundaries of R74 and the extra bits that follow a symbol are the writer's. The trailer's bytes are most significant
first (R73), the header's two bytes are CMF then FLG. -/
def streamBits (cl ll d : List Nat) (i : Instr) : List Bool :=
  match formatOf i with
  | .zhdr => plainBits 8 (encode i / 256) ++ plainBits 8 (encode i % 256)
  | .ztrl => plainBits 8 (encode i / 2 ^ 24) ++ plainBits 8 (encode i / 2 ^ 16 % 256)
      ++ plainBits 8 (encode i / 256 % 256) ++ plainBits 8 (encode i % 256)
  | .clsym => symbolBits cl (encode i)
  | .llsym => symbolBits ll (encode i)
  | .dsym => symbolBits d (encode i)
  | .host => []
  | f => plainBits f.width (encode i)

/-- The value of a list of bits, first bit in bit 0. -/
def bitsValue : List Bool → Nat
  | [] => 0
  | b :: bs => b.toNat + 2 * bitsValue bs

/-- `n` bytes holding a value, low byte first: bits packed into bytes from bit 0 upward (R118). -/
def packBytes : Nat → Nat → List Byte
  | 0, _ => []
  | n + 1, v => BitVec.ofNat 8 v :: packBytes n (v / 256)

/-- The bytes that hold a list of bits, the last one filled with zeros. -/
def bytesOfBits (bs : List Bool) : List Byte := packBytes ((bs.length + 7) / 8) (bitsValue bs)

/-- The largest index of a table whose entry does not exceed `n` (R119). -/
def lastNotAbove (base : List Nat) (n : Nat) : Nat := (base.filter (· ≤ n)).length - 1

/-- The pseudo-instruction `LEN n`: the length symbol and its extra field (R119). -/
def pseudoLen (n : Nat) : Nat × Nat := (257 + lastNotAbove lbase n, n - lbase.getD (lastNotAbove lbase n) 0)

/-- The pseudo-instruction `DIST d`: the distance symbol and its extra field (R119). -/
def pseudoDist (d : Nat) : Nat × Nat := (lastNotAbove dbase d, d - dbase.getD (lastNotAbove dbase d) 0)

/-! ## The host's question about table words -/

/-- The format in which a bare table word is read, where only its number of bits and its value are given. The rows of
spec/opcode_table.json stand in eleven formats whose values coincide (R117: a value selects a row within its format), so
the same word is the word of several rows. DESIGN CHOICE (log entry 11): of the formats of that width, the one with the
fewest rows whose match the word equals; failing that, the format whose operand fills the width. -/
def tableFormat (nbits w : Nat) : Format :=
  if nbits ≤ 8 then
    if w ≤ 2 then .host
    else if w = 4 ∨ w = 6 then .bhdr
    else if w = 16 ∨ w = 17 ∨ w = 18 then .clsym
    else if w < 32 then .dsym
    else .raw
  else if nbits ≤ 16 then (if w < 288 then .llsym else .zhdr)
  else if 0 < w ∧ w < 32 then .dsym
  else if w % 2 ^ 16 + w / 2 ^ 16 = 65535 then .stored
  else .ztrl

/-- The instruction the decoder reads from a table word (spec/opcode_table.json numbers a row's bits as the format's
value does, bit 0 lowest). -/
def decodeTableWord (nbits w : Nat) : Option Instr :=
  match decode (tableFormat nbits w) w with
  | .ok i => some i
  | .error _ => none

end Sys2Proof
end

