-- ==== Sys2Proof/Machine/State.lean ====
section
/-! DEFINITION. The state of one ZFD instance (spec/10_state.md), the statuses (spec/60_exceptions.md R300), the step
discriminants that are its program counter (R30), the cursors of the call in progress and the host's pending
operations, the reset state (R46), and the reasons a step can stop. -/

namespace Sys2Proof.Machine

/-- The 28 statuses (R300), in the table's order. -/
inductive Status where
  | ok
  | shortRead | shortWrite
  | badVersion | badArgument | initializerNotCalled | invalidCallSequence | closedForWrites | unexpectedEndOfFile
  | badHuffmanCodeOverSubscribed | badHuffmanCodeUnderSubscribed | badHuffmanCodeLengthCount
  | badHuffmanCodeLengthRepetition | badHuffmanCode | badHuffmanMinimumCodeLength | badDistance
  | badDistanceCodeCount | badFlateBlock | badLiteralLengthCodeCount | inconsistentStoredBlockLength
  | missingEndOfBlockCode | noHuffmanCodes
  | checksumMismatch | invalidZlibCompressionMethod | invalidZlibCompressionWindowSize | invalidZlibParityCheck
  | unsupportedPresetDictionary
  | internalInconsistency
deriving DecidableEq, Repr

/-- The lifecycle phases (R24, R325). -/
inductive Phase where
  | uninit | active | done | poisoned
deriving DecidableEq, Repr

/-- `z_step`, the Zlib Decoder's discriminant (R30). -/
inductive ZStep where
  | cmf | flg | flate | trailer | done
deriving DecidableEq, Repr

/-- `b_step`, the block loop's discriminant (R30). -/
inductive BStep where
  | header | stored | dynhdr | symbols | blockEnd | done
deriving DecidableEq, Repr

/-- `s_step`, the stored copy's discriminant (R30). -/
inductive SStep where
  | align | len | nlen | copy
deriving DecidableEq, Repr

/-- `d_step`, the dynamic header's discriminant (R30). -/
inductive DStep where
  | hlit | hdist | hclen | cllens | sym | extra | build
deriving DecidableEq, Repr

/-- `y_step`, the symbol loop's discriminant (R30). -/
inductive YStep where
  | litlen | emit | lextra | dsym | dextra | copy
deriving DecidableEq, Repr

/-- The micro-steps a state can be at (R30, R303). -/
inductive MicroStep where
  | zCmf | zFlg | zTrailer
  | bHeader | bEnd
  | sAlign | sLen | sNlen | sCopy
  | dHlit | dHdist | dHclen | dCllens | dSym | dExtra | dBuild
  | yLitlen | yEmit | yLextra | yDsym | yDextra | yCopy
deriving DecidableEq, Repr

/-- The three operations of the host (spec/46_host_operations.md R280). -/
inductive HostOp where
  | reset
  | init (v : Nat)
  | decode (out : Option OutCursor) (inp : Option InCursor)
deriving DecidableEq, Repr

/-- A pending operation of the host and when it is presented: `none`, once no call is in progress, as R294 asks of the
host; `some n`, after `n` more steps of the machine even if a call is in progress (R281, R291). DESIGN CHOICE (log
entry 3). -/
structure Request where
  op : HostOp
  overlapAfter : Option Nat
deriving DecidableEq, Repr

/-- The history window's contents: the locations whose byte is not 0, by rising address. What an unlisted location
reads as is `unlistedByte`. -/
abbrev Memory := List Host.Cell

/-- The reset value of a window location (R37, R46). -/
def unlistedByte : Byte := 0

/-- The whole state. Field names are the spec's register names; a count is a natural number, as spec/00_scope.md R14
allows (log entry 15). -/
structure State where
  /-- the parameters (R27); no step writes them (log entry 4) -/
  cfg : ZfdConfig
  /-- the bit accumulator, bit 0 the next bit of the stream (R21) -/
  bits : Word
  /-- `n_bits`, how many bits are buffered (R22) -/
  nBits : Nat
  /-- `in_total`, bytes taken from input cursors since INIT (R23) -/
  inTotal : Nat
  /-- lifecycle phase (R24) -/
  phase : Phase
  /-- a call is in progress (R25) -/
  busy : Bool
  /-- the status most recently returned by INIT or DECODE (R26) -/
  status : Status
  /-- the final-block flag (R28) -/
  final : Bool
  /-- the type field of the current block header (R29) -/
  btype : BitVec 2
  /-- the five step discriminants (R30) -/
  zStep : ZStep
  bStep : BStep
  sStep : SStep
  dStep : DStep
  yStep : YStep
  /-- `z_cmf`, the first header byte (R32) -/
  zCmf : Byte
  /-- `z_trl`, the trailer bytes so far, most significant first (R32) -/
  zTrl : Word
  /-- `z_trl_n`, how many trailer bytes have been read (R32) -/
  zTrlN : Nat
  /-- the Adler-32 accumulator (R33) -/
  adlerA : Half
  adlerB : Half
  /-- `s_len`, the stored block's length field (R34) -/
  sLen : Half
  /-- `s_rem`, stored bytes still to be copied (R34) -/
  sRem : Nat
  /-- the counts of a dynamic header (R35) -/
  nLit : Nat
  nDist : Nat
  nClen : Nat
  /-- `d_i`, the loop index of the dynamic header (R35) -/
  dI : Nat
  /-- `rep_sym` and `rep_val`, the repeat in progress (R35) -/
  repSym : Nat
  repVal : Nat
  /-- `y_lit`, a literal waiting for output space (R36) -/
  yLit : Byte
  /-- `y_lsym`, the length symbol (R36) -/
  yLsym : Nat
  /-- `y_length`, the match length (R36) -/
  yLength : Nat
  /-- `y_dsym`, the distance symbol (R36) -/
  yDsym : Nat
  /-- `y_dist`, the match distance (R36) -/
  yDist : Nat
  /-- `y_rem`, match bytes still to be copied (R36) -/
  yRem : Nat
  /-- the history window (R37) -/
  hist : Memory
  /-- bytes emitted since INIT (R38) -/
  produced : Nat
  /-- the code-length arrays (R39 to R41) -/
  clLen : List Nat
  llLen : List Nat
  dLen : List Nat
  /-- the input cursor of the call: unread bytes and the closed flag (R61; log entry 2) -/
  inBytes : List Byte
  inClosed : Bool
  /-- how many bytes the call has taken, its result `consumed` (R61) -/
  consumed : Nat
  /-- the output cursor of the call: capacity at its start and the closed flag (R62, R63) -/
  outCap : Nat
  outClosed : Bool
  /-- the bytes the call has appended, its result `written` (R62) -/
  outBytes : List Byte
  /-- the status last returned to a caller of the host; the model's own field (log entry 5) -/
  reply : Option Status
  /-- the host's pending operations, first one first; the model's own field (log entry 3) -/
  requests : List Request
deriving DecidableEq, Repr

/-- The machine right after reset (R46): phase UNINIT, every register at the table's value, no call in progress and
nothing pending. -/
def State.reset : State where
  cfg := ZfdConfig.defaults
  bits := 0
  nBits := 0
  inTotal := 0
  phase := .uninit
  busy := false
  status := .ok
  final := false
  btype := 0
  zStep := .cmf
  bStep := .header
  sStep := .align
  dStep := .hlit
  yStep := .litlen
  zCmf := 0
  zTrl := 0
  zTrlN := 0
  adlerA := 1
  adlerB := 0
  sLen := 0
  sRem := 0
  nLit := 0
  nDist := 0
  nClen := 0
  dI := 0
  repSym := 0
  repVal := 0
  yLit := 0
  yLsym := 0
  yLength := 0
  yDsym := 0
  yDist := 0
  yRem := 0
  hist := []
  produced := 0
  clLen := List.replicate nCl 0
  llLen := List.replicate nLl 0
  dLen := List.replicate nD 0
  inBytes := []
  inClosed := false
  consumed := 0
  outCap := 0
  outClosed := false
  outBytes := []
  reply := none
  requests := []

/-- Why the machine stops. No state reachable from reset meets either (the invariant of Safety.lean). -/
inductive Fault where
  /-- A call is in progress and the discriminants name no micro-step (Z_DONE or B_DONE, never current: R269, R184).
  Raised by the fetch. Safe: the machine stops where the spec has no move. -/
  | noCurrentMicroStep
  /-- A saved symbol or a decoded value is outside its declared range (R35, R36), so no element is current. Raised by
  the fetch. Safe: the machine stops where the spec has no such state. -/
  | noElement
deriving DecidableEq, Repr

/-- Why an instruction is not run. -/
inductive Refusal where
  /-- No meaning yet for the instruction; raised by exec's arm. Safe. -/
  | notModelled (mnemonic : String)
  /-- `exec` was handed an element although the current micro-step is none of that element's (the grammar of R90 does
  not admit it there). Raised by the element meanings; the fetch never hands one over out of place. Safe. -/
  | elementNotCurrent
deriving DecidableEq, Repr

/-- What one step or one meaning answers. -/
abbrev Answer := Host.Outcome State Fault Refusal

/-- The end of a primitive or a micro-step (spec/00_scope.md R12, R13): it completed with a value, it suspends, or it
raises a terminal status; the state is the one it leaves. -/
inductive Res (α : Type) where
  | ok (a : α) (s : State)
  | suspend (k : Status) (s : State)
  | raise (e : Status) (s : State)
deriving DecidableEq, Repr

/-- What the fetch finds at the current micro-step: an element to execute, a micro-step that ends no element, or
nothing. -/
inductive Fetched where
  /-- the element whose micro-step is current, its field consumed from the stream -/
  | element (i : Instr) (s : State)
  /-- a micro-step that reads part of an element, or none, and has been performed -/
  | internal (r : Res Unit)
  /-- no micro-step or no element is current -/
  | stuck (f : Fault)
deriving DecidableEq, Repr

end Sys2Proof.Machine
end

