-- ==== Sys2Proof/Machine/Ops.lean ====
section
/-! DEFINITION. The named operations of ZFD: the history window, the two stream primitives, the bit reader, the Adler-32
unit, `Emit` and `HistRead`, the three ways a DECODE call ends (suspend, raise, completion), the clean state, and the
micro-step the discriminants name. -/

namespace Sys2Proof.Machine

/-! ## The history window as memory (spec/20_memory.md R68) -/

/-- `MemRead(a, 1)`. -/
def memRead : Memory → Nat → Byte
  | [], _ => unlistedByte
  | (a', b) :: m, a => if a = a' then b else memRead m a

/-- A cell put in front of cells at higher addresses; a byte that an unlisted location reads as is not listed. -/
def consCell (a : Nat) (b : Byte) (m : Memory) : Memory := if b = unlistedByte then m else (a, b) :: m

/-- `MemWrite(a, 1, b)`: the canonical form is kept. -/
def memWrite : Memory → Nat → Byte → Memory
  | [], a, b => consCell a b []
  | (a', b') :: m, a, b =>
    if a < a' then consCell a b ((a', b') :: m)
    else if a = a' then consCell a b m
    else (a', b') :: memWrite m a b

/-- The canonical form from address `lo` on: addresses strictly rising, inside the window, and no listed byte equal to
what an unlisted location reads as. -/
def memWfFrom : Nat → Memory → Bool
  | _, [] => true
  | lo, (a, b) :: m => decide (lo ≤ a) && decide (a < windowSize) && decide (b ≠ unlistedByte) && memWfFrom (a + 1) m

/-- The canonical form of a window. -/
def Memory.wf (m : Memory) : Bool := memWfFrom 0 m

/-! ## Sequencing (spec/00_scope.md R13) -/

/-- Go on with the value of a primitive that completed; a suspension or an error ends the micro-step. -/
def Res.bind {α β : Type} (r : Res α) (f : α → State → Res β) : Res β :=
  match r with
  | .ok a s => f a s
  | .suspend k s => .suspend k s
  | .raise e s => .raise e s

/-! ## The stream primitives -/

/-- The input cursor with its first byte taken. -/
def dropInByte (rest : List Byte) (s : State) : State :=
  { s with inBytes := rest, inTotal := s.inTotal + 1, consumed := s.consumed + 1 }

/-- `PullByte()` (R64). -/
def pullByte (s : State) : Res Byte :=
  match s.inBytes with
  | b :: rest => .ok b (dropInByte rest s)
  | [] => if s.inClosed then .raise .unexpectedEndOfFile s else .suspend .shortRead s

/-- `NeedOut()` (R66): a test that changes nothing. -/
def needOut (s : State) : Res Unit :=
  if s.outBytes.length < s.outCap then .ok () s
  else if s.outClosed then .raise .closedForWrites s
  else .suspend .shortWrite s

/-! ## The bit reader (spec/40_bit_reader.md) -/

/-- The push of R141: a byte placed above the buffered bits. -/
def pushByte (b : Byte) (s : State) : State :=
  { s with bits := s.bits ||| (b.setWidth 32 <<< s.nBits), nBits := s.nBits + 8 }

/-- One byte pulled and pushed. -/
def pullPush (s : State) : Res Unit := (pullByte s).bind fun b t => .ok () (pushByte b t)

/-- At most `fuel` passes of the loop of `ensure(n)`; each pass buffers 8 more bits. -/
def ensureLoop (n : Nat) : Nat → State → Res Unit
  | 0, s => .ok () s
  | fuel + 1, s => if s.nBits < n then (pullPush s).bind fun _ t => ensureLoop n fuel t else .ok () s

/-- `ensure(n)` (R141): bytes are pulled only while fewer than `n` bits are buffered. -/
def ensure (n : Nat) (s : State) : Res Unit := ensureLoop n (n - s.nBits) s

/-- The value `take(n)` returns: the low `n` bits (R142). -/
def lowBits (n : Nat) (s : State) : Nat := s.bits.toNat % 2 ^ n

/-- The state `take(n)` leaves (R142). -/
def dropBits (n : Nat) (s : State) : State := { s with bits := s.bits >>> n, nBits := s.nBits - n }

/-- `need(n)`: `ensure(n)` then `take(n)` (R143). -/
def need (n : Nat) (s : State) : Res Nat := (ensure n s).bind fun _ t => .ok (lowBits n t) (dropBits n t)

/-- `align_to_byte()` (R144). -/
def alignToByte (s : State) : State := dropBits (s.nBits % 8) s

/-- `discard_bits()` (R145). -/
def discardBits (s : State) : State := { s with bits := 0, nBits := 0 }

/-! ## Checksum, output and window -/

/-- `AdlerUpdate(b)` (spec/45_zlib_adler.md R262); the second sum uses the new first one. -/
def adlerUpdate (b : Byte) (s : State) : State :=
  let a := (s.adlerA.toNat + b.toNat) % adlerMod
  { s with adlerA := BitVec.ofNat 16 a, adlerB := BitVec.ofNat 16 ((s.adlerB.toNat + a) % adlerMod) }

/-- The checksum value `{adler_b, adler_a}` (R33). -/
def adlerValue (s : State) : Word := s.adlerB ++ s.adlerA

/-- `Emit(b)` (spec/44_symbol_loop_window.md R246): window, count, checksum and output, in one action. -/
def emit (b : Byte) (s : State) : State :=
  adlerUpdate b
    { s with
      hist := memWrite s.hist (s.produced % windowSize) b
      produced := s.produced + 1
      outBytes := s.outBytes ++ [b] }

/-- `HistRead(d)` (R247). -/
def histRead (d : Nat) (s : State) : Byte := memRead s.hist ((s.produced - d) % windowSize)

/-- One byte to the output, if there is room for it: `NeedOut` then `Emit`. -/
def emitChecked (b : Byte) (s : State) : Res Unit := (needOut s).bind fun _ t => .ok () (emit b t)

/-! ## The ends of a call -/

/-- `suspend K` (spec/46_host_operations.md R288): the phase stays, the registers keep what the abandoned micro-step
pushed. The next DECODE call is the return from it (spec/60_exceptions.md R323). -/
def endSuspended (k : Status) (s : State) : State := { s with status := k, busy := false, reply := some k }

/-- `raise E` (spec/60_exceptions.md R320): the instance is poisoned. Registers other than phase, status and busy are
left as the abandoned micro-step left them, which R321 allows (log entry 8). -/
def endRaised (e : Status) (s : State) : State :=
  { s with phase := .poisoned, status := e, busy := false, reply := some e }

/-- Completion (R289). -/
def endDone (s : State) : State := { s with phase := .done, status := .ok, busy := false, reply := some .ok }

/-- The end of a micro-step as the next state of the machine. -/
def finish (r : Res Unit) : Answer :=
  match r with
  | .ok _ s => .next s
  | .suspend k s => .next (endSuspended k s)
  | .raise e s => .next (endRaised e s)

/-- Every register at its reset value (R46); the parameters and the host's pending operations are no registers, and a
call in progress is abandoned with its cursors void (R281; log entry 14). -/
def cleared (s : State) : State := { State.reset with cfg := s.cfg, requests := s.requests }

/-! ## The program counter -/

/-- The current micro-step, found by descending through the discriminants (R30). `Z_DONE` and `B_DONE` are never current
(R269, R184). -/
def microStep (s : State) : Option MicroStep :=
  match s.zStep with
  | .cmf => some .zCmf
  | .flg => some .zFlg
  | .trailer => some .zTrailer
  | .done => none
  | .flate =>
    match s.bStep with
    | .header => some .bHeader
    | .blockEnd => some .bEnd
    | .done => none
    | .stored =>
      match s.sStep with
      | .align => some .sAlign
      | .len => some .sLen
      | .nlen => some .sNlen
      | .copy => some .sCopy
    | .dynhdr =>
      match s.dStep with
      | .hlit => some .dHlit
      | .hdist => some .dHdist
      | .hclen => some .dHclen
      | .cllens => some .dCllens
      | .sym => some .dSym
      | .extra => some .dExtra
      | .build => some .dBuild
    | .symbols =>
      match s.yStep with
      | .litlen => some .yLitlen
      | .emit => some .yEmit
      | .lextra => some .yLextra
      | .dsym => some .yDsym
      | .dextra => some .yDextra
      | .copy => some .yCopy

/-- A meaning that stands at one micro-step only. -/
def atStep (m : MicroStep) (s : State) (a : Answer) : Answer :=
  if microStep s = some m then a else .refused .elementNotCurrent

end Sys2Proof.Machine
end

