-- ==== Sys2Proof/Machine/Flags.lean ====
section
/-! DEFINITION. Status codes and the one-bit conditions the spec computes. ZFD has no condition codes (spec/10_state.md
R43); what other machines keep in flags are here the tests of the header, of a stored block's lengths, of a dynamic
header's counts and of the trailer. -/

namespace Sys2Proof.Machine

/-- The 8-bit code of a status (spec/60_exceptions.md R300). -/
def Status.code : Status → Byte
  | .ok => 0x00
  | .shortRead => 0x01
  | .shortWrite => 0x02
  | .badVersion => 0x10
  | .badArgument => 0x11
  | .initializerNotCalled => 0x12
  | .invalidCallSequence => 0x13
  | .closedForWrites => 0x14
  | .unexpectedEndOfFile => 0x15
  | .badHuffmanCodeOverSubscribed => 0x20
  | .badHuffmanCodeUnderSubscribed => 0x21
  | .badHuffmanCodeLengthCount => 0x22
  | .badHuffmanCodeLengthRepetition => 0x23
  | .badHuffmanCode => 0x24
  | .badHuffmanMinimumCodeLength => 0x25
  | .badDistance => 0x26
  | .badDistanceCodeCount => 0x27
  | .badFlateBlock => 0x28
  | .badLiteralLengthCodeCount => 0x29
  | .inconsistentStoredBlockLength => 0x2A
  | .missingEndOfBlockCode => 0x2B
  | .noHuffmanCodes => 0x2C
  | .checksumMismatch => 0x30
  | .invalidZlibCompressionMethod => 0x31
  | .invalidZlibCompressionWindowSize => 0x32
  | .invalidZlibParityCheck => 0x33
  | .unsupportedPresetDictionary => 0x34
  | .internalInconsistency => 0x3F

/-- Every status other than `Ok`, `ShortRead` and `ShortWrite` is terminal (R301). -/
def Status.isTerminal : Status → Bool
  | .ok => false
  | .shortRead => false
  | .shortWrite => false
  | _ => true

/-- `(CMF*256 + FLG) mod 31 = 0` (spec/45_zlib_adler.md R264). -/
def headerParityOk (x : Half) : Bool := x.toNat % 31 == 0

/-- CM, CMF bits 3:0 (spec/30_encoding.md R91). -/
def headerMethod (x : Half) : Nat := x.toNat / 256 % 16

/-- CINFO, CMF bits 7:4 (R91). -/
def headerCinfo (x : Half) : Nat := x.toNat / 4096

/-- FDICT, FLG bit 5 (R91). -/
def headerFdict (x : Half) : Bool := x.toNat / 32 % 2 == 1

/-- The first failing check of the header: parity, method, window size, dictionary (R264, R265, R266). -/
def headerError (cfg : ZfdConfig) (x : Half) : Option Status :=
  if ¬ headerParityOk x then some .invalidZlibParityCheck
  else if headerMethod x ≠ 8 then some .invalidZlibCompressionMethod
  else if cfg.maxCinfo < headerCinfo x then some .invalidZlibCompressionWindowSize
  else if headerFdict x then some .unsupportedPresetDictionary
  else none

/-- `LEN = ~NLEN & 0xFFFF` (spec/42_block_loop_stored.md R187). -/
def storedLengthOk (len nlen : Half) : Bool := len == ~~~nlen

/-- The first failing count check of a dynamic header (spec/43_fixed_dynamic_header.md R205). -/
def countsError (nLit nDist : Nat) : Option Status :=
  if 286 < nLit then some .badLiteralLengthCodeCount
  else if 30 < nDist then some .badDistanceCodeCount
  else none

end Sys2Proof.Machine
end

