-- ==== Sys2Proof/Machine/Operands.lean ====
section
/-! DEFINITION. How operands are formed: the lookup of a Huffman symbol in the stream and the validation of a length
array (spec/41_huffman_tables.md R164 to R168), the extra-bits operands (spec/30_encoding.md R110), and the combined
length sequence of a dynamic header (spec/43_fixed_dynamic_header.md R216). -/

namespace Sys2Proof.Machine

/-! ## Huffman tables -/

/-- `SingleOne(len)`: exactly one entry is non-zero and that entry is 1 (R166). -/
def singleOne (len : List Nat) : Bool := len.filter (· ≠ 0) == [1]

/-- `Validate(len, allow_single)` (R164): the status it raises, if any. -/
def validate (len : List Nat) (allowSingle : Bool) : Option Status :=
  if len.all (· == 0) then some .noHuffmanCodes
  else if 2 ^ maxl len < kraft len then some .badHuffmanCodeOverSubscribed
  else if kraft len < 2 ^ maxl len then
    if allowSingle && singleOne len then none else some .badHuffmanCodeUnderSubscribed
  else none

/-- The loop of R168 with at most `fuel` pulls. -/
def huffLoop (len : List Nat) : Nat → State → Res Nat
  | 0, s =>
    match findCode len s.bits.toNat (min s.nBits (maxl len)) with
    | some (sym, L) => .ok sym (dropBits L s)
    | none => .raise .badHuffmanCode s
  | fuel + 1, s =>
    match findCode len s.bits.toNat (min s.nBits (maxl len)) with
    | some (sym, L) => .ok sym (dropBits L s)
    | none =>
      if maxl len ≤ s.nBits then .raise .badHuffmanCode s
      else (pullPush s).bind fun _ t => huffLoop len fuel t

/-- `HuffDecode(len)` (R168): a byte is pulled only while no code of the table matches and fewer than `maxl` bits are
buffered, so `maxl - n_bits` pulls are never exceeded. -/
def huffDecode (len : List Nat) (s : State) : Res Nat := huffLoop len (maxl len - s.nBits) s

/-! ## Extra-bits operands (R110) -/

/-- `base + need(n)`. -/
def needPlus (base n : Nat) (s : State) : Res Nat := (need n s).bind fun v t => .ok (base + v) t

/-- A length symbol's operand: `LBASE + LEXTRA` (R237). -/
def readLength (sym : Nat) (s : State) : Res Nat := needPlus (lbase.getD (sym - 257) 0) (lext.getD (sym - 257) 0) s

/-- A distance symbol's operand: `DBASE + DEXTRA` (R239). -/
def readDistance (sym : Nat) (s : State) : Res Nat := needPlus (dbase.getD sym 0) (dext.getD sym 0) s

/-! ## The combined length sequence (R216) -/

/-- `GetLen(i)`. -/
def getLen (i : Nat) (s : State) : Nat := if i < s.nLit then s.llLen.getD i 0 else s.dLen.getD (i - s.nLit) 0

/-- `SetLen(i, v)`. -/
def setLen (i v : Nat) (s : State) : State :=
  if i < s.nLit then { s with llLen := s.llLen.set i v } else { s with dLen := s.dLen.set (i - s.nLit) v }

/-- `for j in 0 .. r-1: SetLen(i + j, v)` (R209). -/
def fillLens (v : Nat) : Nat → Nat → State → State
  | 0, _, s => s
  | r + 1, i, s => fillLens v r (i + 1) (setLen i v s)

/-- The sequence still has an entry to define (R208). -/
def lengthDue (s : State) : Bool := s.dI ≠ s.nLit + s.nDist

end Sys2Proof.Machine
end

