-- ==== Sys2Proof/Machine/Blocks.lean ====
section
/-! DEFINITION. The block loop, the block headers and the stored block (spec/42_block_loop_stored.md,
spec/43_fixed_dynamic_header.md R201, R202). -/

namespace Sys2Proof.Machine

/-! ## Block headers -/

/-- What `B_HEADER` records of every header (R181). -/
def recordHeader (bfinal : Bool) (btype : BitVec 2) (s : State) : State := { s with final := bfinal, btype := btype }

/-- BLK.STORED (R182). -/
def execBlkStored (bfinal : Bool) (s : State) : Answer :=
  atStep .bHeader s (.next { recordHeader bfinal 0 s with sStep := .align, bStep := .stored })

/-- BLK.FIXED (R201): the constant tables come into force. -/
def execBlkFixed (bfinal : Bool) (s : State) : Answer :=
  atStep .bHeader s
    (.next { recordHeader bfinal 1 s with llLen := fixLl, dLen := fixD, yStep := .litlen, bStep := .symbols })

/-- BLK.DYNAMIC (R202). -/
def execBlkDynamic (bfinal : Bool) (s : State) : Answer :=
  atStep .bHeader s (.next { recordHeader bfinal 2 s with dStep := .hlit, bStep := .dynhdr })

/-- BLK.RESERVED (R183): always a terminal error. -/
def execBlkReserved (bfinal : Bool) (s : State) : Answer :=
  atStep .bHeader s (.next (endRaised .badFlateBlock (recordHeader bfinal 3 s)))

/-- `B_END` (R184): after the final block the residual bits are dropped and the trailer is due. -/
def stepBEnd (s : State) : State :=
  if s.final then { discardBits s with bStep := .done, zTrl := 0, zTrlN := 0, zStep := .trailer }
  else { s with bStep := .header }

/-! ## The stored block -/

/-- `S_ALIGN` (R185). -/
def stepSAlign (s : State) : State := { alignToByte s with sStep := .len }

/-- `S_LEN` (R186). -/
def stepSLen (s : State) : Res Unit :=
  (need 16 s).bind fun v t => .ok () { t with sLen := BitVec.ofNat 16 v, sStep := .nlen }

/-- S.LEN, at `S_NLEN` once NLEN has been read (R187): the complement check, then the copy begins. -/
def execSLen (len nlen : Half) (s : State) : Answer :=
  atStep .sNlen s <|
    if storedLengthOk len nlen then .next { s with sRem := len.toNat, sStep := .copy }
    else .next (endRaised .inconsistentStoredBlockLength s)

/-- `S_COPY` with nothing left to copy (R188). -/
def stepSCopyEnd (s : State) : State := { s with bStep := .blockEnd }

/-- RAW, at `S_COPY` once the byte has been pulled (R188). The fetch has tested the output space before it pulled the
byte, so the test made here passes in every step. -/
def execRaw (b : Byte) (s : State) : Answer :=
  atStep .sCopy s <|
    if s.sRem = 0 then .refused .elementNotCurrent
    else finish ((emitChecked b s).bind fun _ t => .ok () { t with sRem := t.sRem - 1 })

end Sys2Proof.Machine
end

