-- ==== Sys2Proof/Machine/Distances.lean ====
section
/-! DEFINITION. The distance alphabet and the back-reference engine (spec/44_symbol_loop_window.md R238 to R243): DIST00
to DIST29 and the two reserved symbols. -/

namespace Sys2Proof.Machine

/-- `Y_DEXTRA` (R239): the distance is formed and checked against the bytes produced so far. -/
def startCopy (sym : Nat) (s : State) : Res Unit :=
  (readDistance sym s).bind fun d t =>
    if t.produced < d then .raise .badDistance { t with yDist := d }
    else .ok () { t with yDist := d, yRem := t.yLength, yStep := .copy }

/-- `Y_COPY` (R240): one byte of the back-reference, read before it is written. -/
def copyByte (s : State) : Res Unit :=
  if s.yRem = 0 then .ok () { s with yStep := .litlen }
  else (emitChecked (histRead s.yDist s) s).bind fun _ t => .ok () { t with yRem := t.yRem - 1 }

/-- A distance symbol (R242): saved at `Y_DSYM`, completed at `Y_DEXTRA`, then the copy, one byte per micro-step. -/
def distanceElement (sym : Nat) (s : State) : Answer :=
  match microStep s with
  | some .yDsym => .next { s with yDsym := sym, yStep := .dextra }
  | some .yDextra => finish (startCopy sym s)
  | some .yCopy => finish (copyByte s)
  | _ => .refused .elementNotCurrent

/-- DIST00 (R242). -/
def execDist00 (s : State) : Answer := distanceElement 0 s

/-- DIST01 (R242). -/
def execDist01 (s : State) : Answer := distanceElement 1 s

/-- DIST02 (R242). -/
def execDist02 (s : State) : Answer := distanceElement 2 s

/-- DIST03 (R242). -/
def execDist03 (s : State) : Answer := distanceElement 3 s

/-- DIST04 (R242). -/
def execDist04 (s : State) : Answer := distanceElement 4 s

/-- DIST05 (R242). -/
def execDist05 (s : State) : Answer := distanceElement 5 s

/-- DIST06 (R242). -/
def execDist06 (s : State) : Answer := distanceElement 6 s

/-- DIST07 (R242). -/
def execDist07 (s : State) : Answer := distanceElement 7 s

/-- DIST08 (R242). -/
def execDist08 (s : State) : Answer := distanceElement 8 s

/-- DIST09 (R242). -/
def execDist09 (s : State) : Answer := distanceElement 9 s

/-- DIST10 (R242). -/
def execDist10 (s : State) : Answer := distanceElement 10 s

/-- DIST11 (R242). -/
def execDist11 (s : State) : Answer := distanceElement 11 s

/-- DIST12 (R242). -/
def execDist12 (s : State) : Answer := distanceElement 12 s

/-- DIST13 (R242). -/
def execDist13 (s : State) : Answer := distanceElement 13 s

/-- DIST14 (R242). -/
def execDist14 (s : State) : Answer := distanceElement 14 s

/-- DIST15 (R242). -/
def execDist15 (s : State) : Answer := distanceElement 15 s

/-- DIST16 (R242). -/
def execDist16 (s : State) : Answer := distanceElement 16 s

/-- DIST17 (R242). -/
def execDist17 (s : State) : Answer := distanceElement 17 s

/-- DIST18 (R242). -/
def execDist18 (s : State) : Answer := distanceElement 18 s

/-- DIST19 (R242). -/
def execDist19 (s : State) : Answer := distanceElement 19 s

/-- DIST20 (R242). -/
def execDist20 (s : State) : Answer := distanceElement 20 s

/-- DIST21 (R242). -/
def execDist21 (s : State) : Answer := distanceElement 21 s

/-- DIST22 (R242). -/
def execDist22 (s : State) : Answer := distanceElement 22 s

/-- DIST23 (R242). -/
def execDist23 (s : State) : Answer := distanceElement 23 s

/-- DIST24 (R242). -/
def execDist24 (s : State) : Answer := distanceElement 24 s

/-- DIST25 (R242). -/
def execDist25 (s : State) : Answer := distanceElement 25 s

/-- DIST26 (R242). -/
def execDist26 (s : State) : Answer := distanceElement 26 s

/-- DIST27 (R242). -/
def execDist27 (s : State) : Answer := distanceElement 27 s

/-- DIST28 (R242). -/
def execDist28 (s : State) : Answer := distanceElement 28 s

/-- DIST29 (R242). -/
def execDist29 (s : State) : Answer := distanceElement 29 s

/-- A distance symbol without meaning (R238). -/
def reservedDistance (s : State) : Answer := atStep .yDsym s (.next (endRaised .badHuffmanCode s))

/-- D.RSVD30 (R238). -/
def execDRsvd30 (s : State) : Answer := reservedDistance s

/-- D.RSVD31 (R238). -/
def execDRsvd31 (s : State) : Answer := reservedDistance s

end Sys2Proof.Machine
end

