-- ==== Sys2Proof/Machine/Dynamic.lean ====
section
/-! DEFINITION. The dynamic block header (spec/43_fixed_dynamic_header.md R203 to R216): D.COUNTS, D.CLLEN and the
code-length symbols, with the micro-steps that gather the counts and validate the tables. -/

namespace Sys2Proof.Machine

/-- `D_HLIT` (R203). -/
def stepDHlit (s : State) : Res Unit :=
  (need 5 s).bind fun v t => .ok () { t with nLit := v + 257, dStep := .hdist }

/-- `D_HDIST` (R204). -/
def stepDHdist (s : State) : Res Unit :=
  (need 5 s).bind fun v t => .ok () { t with nDist := v + 1, dStep := .hclen }

/-- The three length arrays with every entry 0 (R205). -/
def clearLengths (s : State) : State :=
  { s with clLen := List.replicate nCl 0, llLen := List.replicate nLl 0, dLen := List.replicate nD 0 }

/-- D.COUNTS, at `D_HCLEN` once HCLEN has been read (R205): the counts, the two checks, and the arrays cleared. The
registers `n_lit` and `n_dist` hold HLIT + 257 and HDIST + 1 already (R203, R204). -/
def execDCounts (hlit hdist hclen : Nat) (s : State) : Answer :=
  atStep .dHclen s <|
    let t := { s with nLit := hlit + 257, nDist := hdist + 1, nClen := hclen + 4 }
    match countsError (hlit + 257) (hdist + 1) with
    | some e => .next (endRaised e t)
    | none => .next { clearLengths t with dI := 0, dStep := .cllens }

/-- D.CLLEN, at `D_CLLENS` while lengths are missing (R206). -/
def execDCllen (v : Nat) (s : State) : Answer :=
  atStep .dCllens s <|
    if s.dI < s.nClen then .next { s with clLen := s.clLen.set (clord.getD s.dI 0) v, dI := s.dI + 1 }
    else .refused .elementNotCurrent

/-- `D_CLLENS` with all code-length code lengths read (R207): the code-length table is validated. -/
def stepDCllensEnd (s : State) : Res Unit :=
  match validate s.clLen false with
  | some e => .raise e s
  | none => .ok () { s with dI := 0, dStep := .sym }

/-- `D_SYM` with the sequence full (R208). -/
def stepDSymEnd (s : State) : State := { s with dStep := .build }

/-- CL.LEN (R211): one entry of the combined sequence. -/
def execClLen (n : Nat) (s : State) : Answer :=
  atStep .dSym s <|
    if lengthDue s then .next { setLen s.dI n s with dI := s.dI + 1 } else .refused .elementNotCurrent

/-- A repeat symbol decoded by `D_SYM` (R208): the symbol and the length it repeats are held for `D_EXTRA`. -/
def startRepeat (sym v : Nat) (s : State) : State := { s with repVal := v, repSym := sym, dStep := .extra }

/-- `D_EXTRA` (R209): `base + REPX` entries get the held length, unless the run passes the end of the sequence. -/
def runRepeat (w base : Nat) (s : State) : Res Unit :=
  (needPlus base w s).bind fun r t =>
    if t.nLit + t.nDist < t.dI + r then .raise .badHuffmanCodeLengthCount t
    else .ok () { fillLens t.repVal r t.dI t with dI := t.dI + r, dStep := .sym }

/-- A repeat element: `start` at `D_SYM` while an entry is due, the run of `base + need(w)` entries at `D_EXTRA`. -/
def repeatElement (w base : Nat) (start : Answer) (s : State) : Answer :=
  match microStep s with
  | some .dSym => if lengthDue s then start else .refused .elementNotCurrent
  | some .dExtra => finish (runRepeat w base s)
  | _ => .refused .elementNotCurrent

/-- CL.REP (R208, R209, R212): repeat the previous length 3 to 6 times; there must be one. -/
def execClRep (s : State) : Answer :=
  repeatElement 2 3
    (if s.dI = 0 then .next (endRaised .badHuffmanCodeLengthRepetition s)
     else .next (startRepeat 16 (getLen (s.dI - 1) s) s)) s

/-- CL.ZREP (R213): repeat zero 3 to 10 times. -/
def execClZrep (s : State) : Answer := repeatElement 3 3 (.next (startRepeat 17 0 s)) s

/-- CL.ZREPL (R214): repeat zero 11 to 138 times. -/
def execClZrepl (s : State) : Answer := repeatElement 7 11 (.next (startRepeat 18 0 s)) s

/-- The first failing check of `D_BUILD` (R210): end-of-block code, literal/length table, distance table. -/
def buildError (s : State) : Option Status :=
  if s.llLen.getD 256 0 = 0 then some .missingEndOfBlockCode
  else
    match validate s.llLen false with
    | some e => some e
    | none => validate s.dLen true

/-- `D_BUILD` (R210). -/
def stepDBuild (s : State) : Res Unit :=
  match buildError s with
  | some e => .raise e s
  | none => .ok () { s with yStep := .litlen, bStep := .symbols }

end Sys2Proof.Machine
end

