-- ==== Sys2Proof/Machine/HostOps.lean ====
section
/-! DEFINITION. The host's operations (spec/46_host_operations.md): RESET, INIT and DECODE's entry, and how a pending
operation is presented. -/

namespace Sys2Proof.Machine

/-- RESET (R281): every register at its reset value, also when a call is in progress, which is then abandoned. -/
def execReset (s : State) : Answer := .next (cleared s)

/-- A call presented while another is in progress (R291): that caller gets `InvalidCallSequence` and nothing changes. -/
def rejectCall (s : State) : Answer := .next { s with reply := some .invalidCallSequence }

/-- INIT (R283): accepted in every phase, always from a clean state. -/
def execInit (v : Nat) (s : State) : Answer :=
  if s.busy then rejectCall s
  else if v = s.cfg.version then
    .next { cleared s with phase := .active, status := .ok, reply := some .ok }
  else .next (endRaised .badVersion (cleared s))

/-- A DECODE call opened: busy, nothing consumed or written yet, its cursors in place; an absent cursor leaves an empty
one (R61, R62, R285, R286). -/
def openCall (out : Option OutCursor) (inp : Option InCursor) (s : State) : State :=
  { s with
    busy := true
    inBytes := (inp.map InCursor.bytes).getD []
    inClosed := (inp.map InCursor.closed).getD false
    consumed := 0
    outCap := (out.map OutCursor.cap).getD 0
    outClosed := (out.map OutCursor.closed).getD false
    outBytes := [] }

/-- The first entry check that applies (R285): the phase, then an absent cursor. -/
def entryError (out : Option OutCursor) (inp : Option InCursor) (phase : Phase) : Option Status :=
  match phase with
  | .uninit => some .initializerNotCalled
  | .done => some .invalidCallSequence
  | .poisoned => some .invalidCallSequence
  | .active => if out.isNone || inp.isNone then some .badArgument else none

/-- DECODE (R284, R285): the entry checks; if they pass, the call is in progress and the machine's next steps are its
micro-steps (R286), until one of them returns. -/
def execDecode (out : Option OutCursor) (inp : Option InCursor) (s : State) : Answer :=
  if s.busy then rejectCall s
  else
    match entryError out inp s.phase with
    | some e => .next (endRaised e (openCall out inp s))
    | none => .next (openCall out inp s)

/-- The instruction of a host operation. -/
def HostOp.toInstr : HostOp → Instr
  | .reset => .reset
  | .init v => .init v
  | .decode out inp => .decode out inp

/-- The operation the host presents now, with the request taken off the list (log entry 3). -/
def presented (s : State) : Option (HostOp × State) :=
  match s.requests with
  | [] => none
  | r :: rest =>
    match r.overlapAfter with
    | none => if s.busy then none else some (r.op, { s with requests := rest })
    | some 0 => some (r.op, { s with requests := rest })
    | some (_ + 1) => none

/-- One step of the machine passes before the first pending request is presented. -/
def tick (s : State) : State :=
  match s.requests with
  | ⟨op, some (n + 1)⟩ :: rest => { s with requests := ⟨op, some n⟩ :: rest }
  | _ => s

end Sys2Proof.Machine
end

