-- ==== Sys2Proof/Machine/Symbols.lean ====
section
/-! DEFINITION. The literal/length alphabet (spec/44_symbol_loop_window.md R230 to R237): LIT, EOB, LEN257 to LEN285 and
the two reserved symbols. -/

namespace Sys2Proof.Machine

/-- LIT (R232): at `Y_LITLEN` the byte is saved, at `Y_EMIT` it is emitted (R236). -/
def execLit (b : Byte) (s : State) : Answer :=
  match microStep s with
  | some .yLitlen => .next { s with yLit := b, yStep := .emit }
  | some .yEmit => finish ((emitChecked b s).bind fun _ t => .ok () { t with yStep := .litlen })
  | _ => .refused .elementNotCurrent

/-- EOB (R233): the block ends. -/
def execEob (s : State) : Answer := atStep .yLitlen s (.next { s with bStep := .blockEnd })

/-- A length symbol (R234): saved at `Y_LITLEN`; at `Y_LEXTRA` the extra bits are added to its base (R237). -/
def lengthElement (sym : Nat) (s : State) : Answer :=
  match microStep s with
  | some .yLitlen => .next { s with yLsym := sym, yStep := .lextra }
  | some .yLextra => finish ((readLength sym s).bind fun n t => .ok () { t with yLength := n, yStep := .dsym })
  | _ => .refused .elementNotCurrent

/-- LEN257 (R234). -/
def execLen257 (s : State) : Answer := lengthElement 257 s

/-- LEN258 (R234). -/
def execLen258 (s : State) : Answer := lengthElement 258 s

/-- LEN259 (R234). -/
def execLen259 (s : State) : Answer := lengthElement 259 s

/-- LEN260 (R234). -/
def execLen260 (s : State) : Answer := lengthElement 260 s

/-- LEN261 (R234). -/
def execLen261 (s : State) : Answer := lengthElement 261 s

/-- LEN262 (R234). -/
def execLen262 (s : State) : Answer := lengthElement 262 s

/-- LEN263 (R234). -/
def execLen263 (s : State) : Answer := lengthElement 263 s

/-- LEN264 (R234). -/
def execLen264 (s : State) : Answer := lengthElement 264 s

/-- LEN265 (R234). -/
def execLen265 (s : State) : Answer := lengthElement 265 s

/-- LEN266 (R234). -/
def execLen266 (s : State) : Answer := lengthElement 266 s

/-- LEN267 (R234). -/
def execLen267 (s : State) : Answer := lengthElement 267 s

/-- LEN268 (R234). -/
def execLen268 (s : State) : Answer := lengthElement 268 s

/-- LEN269 (R234). -/
def execLen269 (s : State) : Answer := lengthElement 269 s

/-- LEN270 (R234). -/
def execLen270 (s : State) : Answer := lengthElement 270 s

/-- LEN271 (R234). -/
def execLen271 (s : State) : Answer := lengthElement 271 s

/-- LEN272 (R234). -/
def execLen272 (s : State) : Answer := lengthElement 272 s

/-- LEN273 (R234). -/
def execLen273 (s : State) : Answer := lengthElement 273 s

/-- LEN274 (R234). -/
def execLen274 (s : State) : Answer := lengthElement 274 s

/-- LEN275 (R234). -/
def execLen275 (s : State) : Answer := lengthElement 275 s

/-- LEN276 (R234). -/
def execLen276 (s : State) : Answer := lengthElement 276 s

/-- LEN277 (R234). -/
def execLen277 (s : State) : Answer := lengthElement 277 s

/-- LEN278 (R234). -/
def execLen278 (s : State) : Answer := lengthElement 278 s

/-- LEN279 (R234). -/
def execLen279 (s : State) : Answer := lengthElement 279 s

/-- LEN280 (R234). -/
def execLen280 (s : State) : Answer := lengthElement 280 s

/-- LEN281 (R234). -/
def execLen281 (s : State) : Answer := lengthElement 281 s

/-- LEN282 (R234). -/
def execLen282 (s : State) : Answer := lengthElement 282 s

/-- LEN283 (R234). -/
def execLen283 (s : State) : Answer := lengthElement 283 s

/-- LEN284 (R234). -/
def execLen284 (s : State) : Answer := lengthElement 284 s

/-- LEN285 (R234). -/
def execLen285 (s : State) : Answer := lengthElement 285 s

/-- A literal/length symbol without meaning (R235). -/
def reservedLength (s : State) : Answer := atStep .yLitlen s (.next (endRaised .badHuffmanCode s))

/-- LL.RSVD286 (R235). -/
def execLlRsvd286 (s : State) : Answer := reservedLength s

/-- LL.RSVD287 (R235). -/
def execLlRsvd287 (s : State) : Answer := reservedLength s

end Sys2Proof.Machine
end

