-- ==== Sys2Proof/Machine/Zlib.lean ====
section
/-! DEFINITION. The zlib envelope (spec/45_zlib_adler.md): ZHDR, ZTRL, and the micro-steps that gather their first
bytes. -/

namespace Sys2Proof.Machine

/-- `Z_CMF` (R263): the first header byte is kept; no check is made on it alone. -/
def stepZCmf (s : State) : Res Unit :=
  (pullByte s).bind fun b t => .ok () { t with zCmf := b, zStep := .flg }

/-- `Z_TRAILER` while `z_trl_n < 4` (R268): one trailer byte, most significant first. -/
def stepZTrailerByte (s : State) : Res Unit :=
  (pullByte s).bind fun b t =>
    .ok () { t with zTrl := (t.zTrl <<< 8) ||| b.setWidth 32, zTrlN := t.zTrlN + 1 }

/-- ZHDR, at `Z_FLG` once FLG has been pulled (R264): the four checks in order, then the DEFLATE stream begins. -/
def execZhdr (x : Half) (s : State) : Answer :=
  atStep .zFlg s <|
    match headerError s.cfg x with
    | some e => .next (endRaised e s)
    | none => .next { s with zStep := .flate }

/-- ZTRL, at `Z_TRAILER` once all four bytes have been read (R268): the comparison that ends the stream; on equality
the call returns `Ok` (R289). -/
def execZtrl (x : Word) (s : State) : Answer :=
  atStep .zTrailer s <|
    if s.zTrlN < 4 then .refused .elementNotCurrent
    else if x = adlerValue s then .next (endDone { s with zStep := .done })
    else .next (endRaised .checksumMismatch s)

end Sys2Proof.Machine
end

