-- ==== Sys2Proof/Machine/Dispatch.lean ====
section
/-! DEFINITION. The dispatch of an instruction to its meaning: one arm per constructor of Instr. -/

namespace Sys2Proof.Machine

def exec (i : Instr) (s : State) : Host.Outcome State Fault Refusal :=
  match i with
  | .zhdr x => Sys2Proof.Machine.execZhdr x s
  | .ztrl x => Sys2Proof.Machine.execZtrl x s
  | .blkStored f => Sys2Proof.Machine.execBlkStored f s
  | .blkFixed f => Sys2Proof.Machine.execBlkFixed f s
  | .blkDynamic f => Sys2Proof.Machine.execBlkDynamic f s
  | .blkReserved f => Sys2Proof.Machine.execBlkReserved f s
  | .sLen len nlen => Sys2Proof.Machine.execSLen len nlen s
  | .raw b => Sys2Proof.Machine.execRaw b s
  | .dCounts hlit hdist hclen => Sys2Proof.Machine.execDCounts hlit hdist hclen s
  | .dCllen v => Sys2Proof.Machine.execDCllen v s
  | .clLen n => Sys2Proof.Machine.execClLen n s
  | .clRep => Sys2Proof.Machine.execClRep s
  | .clZrep => Sys2Proof.Machine.execClZrep s
  | .clZrepl => Sys2Proof.Machine.execClZrepl s
  | .lit b => Sys2Proof.Machine.execLit b s
  | .eob => Sys2Proof.Machine.execEob s
  | .len257 => Sys2Proof.Machine.execLen257 s
  | .len258 => Sys2Proof.Machine.execLen258 s
  | .len259 => Sys2Proof.Machine.execLen259 s
  | .len260 => Sys2Proof.Machine.execLen260 s
  | .len261 => Sys2Proof.Machine.execLen261 s
  | .len262 => Sys2Proof.Machine.execLen262 s
  | .len263 => Sys2Proof.Machine.execLen263 s
  | .len264 => Sys2Proof.Machine.execLen264 s
  | .len265 => Sys2Proof.Machine.execLen265 s
  | .len266 => Sys2Proof.Machine.execLen266 s
  | .len267 => Sys2Proof.Machine.execLen267 s
  | .len268 => Sys2Proof.Machine.execLen268 s
  | .len269 => Sys2Proof.Machine.execLen269 s
  | .len270 => Sys2Proof.Machine.execLen270 s
  | .len271 => Sys2Proof.Machine.execLen271 s
  | .len272 => Sys2Proof.Machine.execLen272 s
  | .len273 => Sys2Proof.Machine.execLen273 s
  | .len274 => Sys2Proof.Machine.execLen274 s
  | .len275 => Sys2Proof.Machine.execLen275 s
  | .len276 => Sys2Proof.Machine.execLen276 s
  | .len277 => Sys2Proof.Machine.execLen277 s
  | .len278 => Sys2Proof.Machine.execLen278 s
  | .len279 => Sys2Proof.Machine.execLen279 s
  | .len280 => Sys2Proof.Machine.execLen280 s
  | .len281 => Sys2Proof.Machine.execLen281 s
  | .len282 => Sys2Proof.Machine.execLen282 s
  | .len283 => Sys2Proof.Machine.execLen283 s
  | .len284 => Sys2Proof.Machine.execLen284 s
  | .len285 => Sys2Proof.Machine.execLen285 s
  | .llRsvd286 => Sys2Proof.Machine.execLlRsvd286 s
  | .llRsvd287 => Sys2Proof.Machine.execLlRsvd287 s
  | .dist00 => Sys2Proof.Machine.execDist00 s
  | .dist01 => Sys2Proof.Machine.execDist01 s
  | .dist02 => Sys2Proof.Machine.execDist02 s
  | .dist03 => Sys2Proof.Machine.execDist03 s
  | .dist04 => Sys2Proof.Machine.execDist04 s
  | .dist05 => Sys2Proof.Machine.execDist05 s
  | .dist06 => Sys2Proof.Machine.execDist06 s
  | .dist07 => Sys2Proof.Machine.execDist07 s
  | .dist08 => Sys2Proof.Machine.execDist08 s
  | .dist09 => Sys2Proof.Machine.execDist09 s
  | .dist10 => Sys2Proof.Machine.execDist10 s
  | .dist11 => Sys2Proof.Machine.execDist11 s
  | .dist12 => Sys2Proof.Machine.execDist12 s
  | .dist13 => Sys2Proof.Machine.execDist13 s
  | .dist14 => Sys2Proof.Machine.execDist14 s
  | .dist15 => Sys2Proof.Machine.execDist15 s
  | .dist16 => Sys2Proof.Machine.execDist16 s
  | .dist17 => Sys2Proof.Machine.execDist17 s
  | .dist18 => Sys2Proof.Machine.execDist18 s
  | .dist19 => Sys2Proof.Machine.execDist19 s
  | .dist20 => Sys2Proof.Machine.execDist20 s
  | .dist21 => Sys2Proof.Machine.execDist21 s
  | .dist22 => Sys2Proof.Machine.execDist22 s
  | .dist23 => Sys2Proof.Machine.execDist23 s
  | .dist24 => Sys2Proof.Machine.execDist24 s
  | .dist25 => Sys2Proof.Machine.execDist25 s
  | .dist26 => Sys2Proof.Machine.execDist26 s
  | .dist27 => Sys2Proof.Machine.execDist27 s
  | .dist28 => Sys2Proof.Machine.execDist28 s
  | .dist29 => Sys2Proof.Machine.execDist29 s
  | .dRsvd30 => Sys2Proof.Machine.execDRsvd30 s
  | .dRsvd31 => Sys2Proof.Machine.execDRsvd31 s
  | .reset => Sys2Proof.Machine.execReset s
  | .init v => Sys2Proof.Machine.execInit v s
  | .decode out inp => Sys2Proof.Machine.execDecode out inp s

end Sys2Proof.Machine
end

