-- ==== Sys2Proof/Machine/Fetch.lean ====
section
/-! DEFINITION. Fetching: the element the current micro-step of a call in progress works on (log entry 10). A
micro-step that reads the last part of an element takes it from the stream and decodes it; a micro-step that continues
an element finds it in the saved locals (spec/10_state.md R30 to R36); the remaining micro-steps end no element and are
performed here. At the end of the file stands how an instruction is placed where the next step finds it. -/

namespace Sys2Proof.Machine

/-- A field value read from the stream, decoded in its format. -/
def fetchField (f : Format) (r : Res Nat) : Fetched :=
  match r with
  | .suspend k s => .internal (.suspend k s)
  | .raise e s => .internal (.raise e s)
  | .ok v s =>
    match decode f v with
    | .ok i => .element i s
    | .error _ => .stuck .noElement

/-- The value of ZHDR once FLG has been pulled: `z_cmf * 256 + flg` (R264). -/
def readZhdr (s : State) : Res Nat := (pullByte s).bind fun b t => .ok (t.zCmf.toNat * 256 + b.toNat) t

/-- The value of S.LEN once NLEN has been read: `NLEN << 16 | LEN` (R117, R187). -/
def readStored (s : State) : Res Nat := (need 16 s).bind fun v t => .ok (v * 2 ^ 16 + t.sLen.toNat) t

/-- A data byte of a stored block: output space is tested before the byte is pulled (R188). -/
def readRaw (s : State) : Res Nat := (needOut s).bind fun _ t => (pullByte t).bind fun b u => .ok b.toNat u

/-- The value of D.COUNTS once HCLEN has been read: `HCLEN << 10 | HDIST << 5 | HLIT` (R117, R205). -/
def readCounts (s : State) : Res Nat :=
  (need 4 s).bind fun v t => .ok (v * 1024 + (t.nDist - 1) * 32 + (t.nLit - 257)) t

/-- The element or internal micro-step that is current while a call is in progress. -/
def fetch (s : State) : Fetched :=
  match microStep s with
  | none => .stuck .noCurrentMicroStep
  | some .zCmf => .internal (stepZCmf s)
  | some .zFlg => fetchField .zhdr (readZhdr s)
  | some .zTrailer => if s.zTrlN < 4 then .internal (stepZTrailerByte s) else fetchField .ztrl (.ok s.zTrl.toNat s)
  | some .bHeader => fetchField .bhdr (need 3 s)
  | some .bEnd => .internal (.ok () (stepBEnd s))
  | some .sAlign => .internal (.ok () (stepSAlign s))
  | some .sLen => .internal (stepSLen s)
  | some .sNlen => fetchField .stored (readStored s)
  | some .sCopy => if s.sRem = 0 then .internal (.ok () (stepSCopyEnd s)) else fetchField .raw (readRaw s)
  | some .dHlit => .internal (stepDHlit s)
  | some .dHdist => .internal (stepDHdist s)
  | some .dHclen => fetchField .dynhdr (readCounts s)
  | some .dCllens => if s.dI < s.nClen then fetchField .cllen (need 3 s) else .internal (stepDCllensEnd s)
  | some .dSym =>
    if lengthDue s then fetchField .clsym (huffDecode s.clLen s) else .internal (.ok () (stepDSymEnd s))
  | some .dExtra => fetchField .clsym (.ok s.repSym s)
  | some .dBuild => .internal (stepDBuild s)
  | some .yLitlen => fetchField .llsym (huffDecode s.llLen s)
  | some .yEmit => fetchField .llsym (.ok s.yLit.toNat s)
  | some .yLextra => fetchField .llsym (.ok s.yLsym s)
  | some .yDsym => fetchField .dsym (huffDecode s.dLen s)
  | some .yDextra => fetchField .dsym (.ok s.yDsym s)
  | some .yCopy => fetchField .dsym (.ok s.yDsym s)

/-! ## Placing an instruction (log entry 12) -/

/-- A call in progress with one byte of output space, nothing buffered and the given bytes to read. -/
def callWith (bytes : List Byte) (s : State) : State :=
  { s with
    phase := .active, busy := true, bits := 0, nBits := 0, inBytes := bytes, inClosed := false, consumed := 0,
    outCap := 1, outClosed := false, outBytes := [], requests := [] }

/-- A complete code-length code that gives every symbol a code: 13 of length 4, 6 of length 5. -/
def placedClLen : List Nat := List.replicate 13 4 ++ List.replicate 6 5

/-- The bytes that hold an element's bits under the fixed tables and `placedClLen`. -/
def placedBytes (i : Instr) : List Byte := bytesOfBits (streamBits placedClLen fixLl fixD i)

/-- An instruction placed where the next step finds it: a host operation at the head of the pending list, presented at
once; an element as the next bits of a call in progress whose micro-step is the one that ends the element's field. -/
def placeInstr (i : Instr) (s : State) : State :=
  match i with
  | .reset => { s with requests := ⟨.reset, some 0⟩ :: s.requests }
  | .init v => { s with requests := ⟨.init v, some 0⟩ :: s.requests }
  | .decode out inp => { s with requests := ⟨.decode out inp, some 0⟩ :: s.requests }
  | .zhdr x =>
    { callWith [BitVec.ofNat 8 x.toNat] s with zStep := .flg, zCmf := BitVec.ofNat 8 (x.toNat / 256) }
  | .ztrl x => { callWith [] s with zStep := .trailer, zTrl := x, zTrlN := 4 }
  | .sLen len nlen =>
    { callWith (packBytes 2 nlen.toNat) s with zStep := .flate, bStep := .stored, sStep := .nlen, sLen := len }
  | .raw b => { callWith [b] s with zStep := .flate, bStep := .stored, sStep := .copy, sRem := 1 }
  | .dCounts hlit hdist hclen =>
    { callWith (packBytes 1 hclen) s with
      zStep := .flate, bStep := .dynhdr, dStep := .hclen, nLit := hlit + 257, nDist := hdist + 1 }
  | i =>
    match formatOf i with
    | .bhdr => { callWith (placedBytes i) s with zStep := .flate, bStep := .header }
    | .cllen =>
      { callWith (placedBytes i) s with zStep := .flate, bStep := .dynhdr, dStep := .cllens, nClen := 4, dI := 0 }
    | .clsym =>
      { callWith (placedBytes i) s with
        zStep := .flate, bStep := .dynhdr, dStep := .sym, nLit := 257, nDist := 1, dI := 1, clLen := placedClLen }
    | .dsym => { callWith (placedBytes i) s with zStep := .flate, bStep := .symbols, yStep := .dsym, dLen := fixD }
    | _ =>
      { callWith (placedBytes i) s with
        zStep := .flate, bStep := .symbols, yStep := .litlen, llLen := fixLl, dLen := fixD }

/-- A table word placed where the next step finds it; a word that decodes to nothing changes nothing. -/
def placeTableWord (nbits w : Nat) (s : State) : State :=
  match decodeTableWord nbits w with
  | some i => placeInstr i s
  | none => s

end Sys2Proof.Machine
end

