-- ==== Sys2Proof/Machine/Step.lean ====
section
/-! DEFINITION. One step of the machine: an operation the host presents, or, while a call is in progress, its current
micro-step (spec/46_host_operations.md R286), or nothing while no call is in progress (spec/60_exceptions.md R327). -/

namespace Sys2Proof.Machine

/-- The end of what was fetched. -/
def runFetched (f : Fetched) : Host.Outcome State Fault Refusal :=
  match f with
  | .element i s => exec i s
  | .internal r => finish r
  | .stuck r => .fault r

/-- One step: a presented operation of the host comes first; otherwise the call in progress performs one micro-step; an
idle machine keeps its state (R311: nothing alters an instance between calls). -/
def step (s : State) : Host.Outcome State Fault Refusal :=
  match presented s with
  | some (op, t) => exec op.toInstr t
  | none => if s.busy then runFetched (fetch (tick s)) else .next (tick s)

/-- A table word's instruction where `step` finds it next (log entry 12). -/
def State.withFetchWord (s : State) (nbits w : Nat) : State := placeTableWord nbits w s

end Sys2Proof.Machine
end

