-- ==== Sys2Proof/Safety.lean ====
section
/-! DEFINITION. What counts as a state of ZFD: the ranges spec/10_state.md declares for its registers (R21 to R41), tied
to the micro-step at which they are read, and the bit reader's bound (spec/40_bit_reader.md R146). The terms the claims
use stand here too: the statuses a micro-step may return (spec/60_exceptions.md R303). -/

namespace Sys2Proof.Machine

/-- The stream bits that are still to be consumed, in stream order: the buffered bits, bit 0 first, then the bits of the
unread bytes of the input cursor (spec/00_scope.md R10, spec/40_bit_reader.md R140). -/
def pendingBits (s : State) : List Bool :=
  plainBits s.nBits s.bits.toNat ++ s.inBytes.flatMap fun b => plainBits 8 b.toNat

/-- The state `t` is `s` with bytes moved from the input cursor into the bit accumulator and bits taken from it: no
register but `bits`, `n_bits` and `in_total` differs, and of the call only its input (spec/00_scope.md R13). -/
def OnlyReader (s t : State) : Prop :=
  t = { s with
    bits := t.bits, nBits := t.nBits, inTotal := t.inTotal, inBytes := t.inBytes, consumed := t.consumed }

/-- The state after `k` bytes have been taken from the input cursor: they left it in order, once each, and were counted
(spec/20_memory.md R61, R64). -/
def TookBytes (k : Nat) (s t : State) : Prop :=
  k ≤ s.inBytes.length ∧ t.inBytes = s.inBytes.drop k ∧ t.inTotal = s.inTotal + k ∧ t.consumed = s.consumed + k

/-- A length array of `n` entries, none above `top` (R39 to R41). -/
def LensOk (len : List Nat) (n top : Nat) : Prop := len.length = n ∧ ∀ l ∈ len, l ≤ top

/-- No symbol from `top` on has a code. -/
def NoCodesFrom (top : Nat) (len : List Nat) : Prop := ∀ k, top ≤ k → len.getD k 0 = 0

/-- A dynamic header after the checks of R205: its counts, and the arrays' entries past the counts, which `D_HCLEN`
cleared and no later micro-step of the header writes (R210, R216). -/
def CountsOk (s : State) : Prop :=
  257 ≤ s.nLit ∧ s.nLit ≤ 286 ∧ 1 ≤ s.nDist ∧ s.nDist ≤ 30 ∧ s.btype = 2 ∧ NoCodesFrom s.nLit s.llLen ∧
    NoCodesFrom s.nDist s.dLen

/-- Where the tables in force come from: the constant arrays in a fixed block (R201); in a dynamic block arrays that give
the symbols without a meaning no code (R205, R235). -/
def TablesFromHeader (s : State) : Prop :=
  (s.btype = 1 ∧ s.llLen = fixLl ∧ s.dLen = fixD) ∨
    (s.btype = 2 ∧ NoCodesFrom 286 s.llLen ∧ NoCodesFrom 30 s.dLen)

/-- The tables of a Huffman block: the literal/length code is complete, the distance code too or has one code (R210). -/
def TablesOk (s : State) : Prop :=
  validate s.llLen false = none ∧ validate s.dLen true = none ∧ TablesFromHeader s

/-- The buffered bits before a Huffman symbol: fewer than a byte, or, after a suspension, bits that hold no code of the
table yet (R146, R168). -/
def AwaitsCode (len : List Nat) (s : State) : Prop :=
  s.nBits ≤ 7 ∨ (s.nBits < maxl len ∧ findCode len s.bits.toNat s.nBits = none)

/-- How many bits may be buffered at a micro-step (R22, R146): none where bytes are taken whole, fewer than a byte in
general, and what a suspended read has pushed. -/
def ReaderOk (s : State) : MicroStep → Prop
  | .zCmf => s.nBits = 0
  | .zFlg => s.nBits = 0
  | .zTrailer => s.nBits = 0
  | .sCopy => s.nBits = 0
  | .sLen => s.nBits = 0 ∨ s.nBits = 8
  | .sNlen => s.nBits = 0 ∨ s.nBits = 8
  | .dSym => s.nBits ≤ 7 ∨ (lengthDue s = true ∧ AwaitsCode s.clLen s)
  | .yLitlen => AwaitsCode s.llLen s
  | .yDsym => AwaitsCode s.dLen s
  | .yDextra => s.nBits ≤ 7 ∨ s.nBits < dext.getD s.yDsym 0
  | _ => s.nBits ≤ 7

/-- The ranges of the saved locals at a micro-step (R32 to R36) and the block type it belongs to (R29, R181); in the zlib
header the block loop waits at its first step, where reset put it (R264). -/
def LocalsOk (s : State) : MicroStep → Prop
  | .zCmf => s.bStep = .header
  | .zFlg => s.bStep = .header
  | .zTrailer => s.zTrlN ≤ 4
  | .sAlign => s.btype = 0
  | .sLen => s.btype = 0
  | .sNlen => s.btype = 0
  | .sCopy => s.btype = 0 ∧ s.sRem ≤ 65535
  | .dHlit => s.btype = 2
  | .dHdist => s.btype = 2 ∧ 257 ≤ s.nLit ∧ s.nLit ≤ 288
  | .dHclen => s.btype = 2 ∧ 257 ≤ s.nLit ∧ s.nLit ≤ 288 ∧ 1 ≤ s.nDist ∧ s.nDist ≤ 32
  | .dCllens => CountsOk s ∧ 4 ≤ s.nClen ∧ s.nClen ≤ 19 ∧ s.dI ≤ s.nClen
  | .dSym => CountsOk s ∧ validate s.clLen false = none ∧ s.dI ≤ s.nLit + s.nDist
  | .dExtra =>
    CountsOk s ∧ validate s.clLen false = none ∧ s.dI < s.nLit + s.nDist ∧ 16 ≤ s.repSym ∧ s.repSym ≤ 18 ∧
      (s.repSym = 16 → 1 ≤ s.dI) ∧ s.repVal ≤ 15
  | .dBuild => CountsOk s ∧ s.dI = s.nLit + s.nDist
  | .yLitlen => TablesOk s
  | .yEmit => TablesOk s
  | .yLextra => TablesOk s ∧ 257 ≤ s.yLsym ∧ s.yLsym ≤ 285
  | .yDsym => TablesOk s ∧ 3 ≤ s.yLength ∧ s.yLength ≤ 258
  | .yDextra => TablesOk s ∧ 3 ≤ s.yLength ∧ s.yLength ≤ 258 ∧ s.yDsym ≤ 29
  | .yCopy =>
    TablesOk s ∧ s.yLength ≤ 258 ∧ s.yRem ≤ s.yLength ∧ s.yDsym ≤ 29 ∧ 1 ≤ s.yDist ∧ s.yDist ≤ 32768 ∧
      s.yDist ≤ s.produced
  | _ => True

/-- The invariant of the machine: the window in canonical form and written only where bytes have been produced, the
buffered bits inside `n_bits`, the arrays and the checksum in range, the call inside its output space, and, while the
instance is active, a current micro-step whose registers are in range. -/
structure Inv (s : State) : Prop where
  window : s.hist.wf = true
  written : ∀ c ∈ s.hist, c.1 < s.produced
  bits : s.bits.toNat < 2 ^ s.nBits
  nBits : s.nBits ≤ 22
  clLen : LensOk s.clLen nCl 7
  llLen : LensOk s.llLen nLl 15
  dLen : LensOk s.dLen nD 15
  adler : s.adlerA.toNat < adlerMod ∧ s.adlerB.toNat < adlerMod
  output : s.outBytes.length ≤ s.outCap
  busy : s.busy = true → s.phase = .active
  active : s.phase = .active → ∃ m, microStep s = some m ∧ ReaderOk s m ∧ LocalsOk s m

/-! ## The terms of the statements -/

/-- Micro-step `m` is the one the next step performs: a call is in progress and the host presents nothing (R286). -/
def Runs (m : MicroStep) (s : State) : Prop := s.busy = true ∧ presented s = none ∧ microStep s = some m

/-- The call that was at `s` has ended with `raise e` in `t` (spec/60_exceptions.md R320): what is defined after a
terminal error (R321), and what the caller has got, is stated; no other register is. -/
def Raised (e : Status) (s t : State) : Prop :=
  t.phase = .poisoned ∧ t.status = e ∧ t.busy = false ∧ t.reply = some e ∧ t.outBytes = s.outBytes ∧
    t.inBytes = s.inBytes ∧ t.consumed = s.consumed

/-- The answer is `raise e` out of state `s`. -/
def Raises (e : Status) (s : State) (a : Answer) : Prop := ∃ t, a = .next t ∧ Raised e s t

/-- The answer is `suspend k` out of state `s` (spec/46_host_operations.md R288): nothing but the call's end. -/
def Suspends (k : Status) (s : State) (a : Answer) : Prop :=
  a = .next { s with status := k, busy := false, reply := some k }

/-- A read that does not complete ends the call with its own suspension or error, in the state it left. -/
def EndsWithRead {α : Type} (r : Res α) (a : Answer) : Prop :=
  (∀ k u, r = .suspend k u → Suspends k u a) ∧ (∀ e u, r = .raise e u → Raises e u a)

/-- Every register but `phase` and `status` holds the value of the reset table (spec/10_state.md R46). -/
def RegistersAtReset (s : State) : Prop :=
  s.bits = 0 ∧ s.nBits = 0 ∧ s.inTotal = 0 ∧ s.busy = false ∧ s.final = false ∧ s.btype = 0 ∧
  s.zStep = .cmf ∧ s.bStep = .header ∧ s.sStep = .align ∧ s.dStep = .hlit ∧ s.yStep = .litlen ∧
  s.zCmf = 0 ∧ s.zTrl = 0 ∧ s.zTrlN = 0 ∧ s.adlerA = 1 ∧ s.adlerB = 0 ∧ s.sLen = 0 ∧ s.sRem = 0 ∧
  s.nLit = 0 ∧ s.nDist = 0 ∧ s.nClen = 0 ∧ s.dI = 0 ∧ s.repSym = 0 ∧ s.repVal = 0 ∧
  s.yLit = 0 ∧ s.yLsym = 0 ∧ s.yLength = 0 ∧ s.yDsym = 0 ∧ s.yDist = 0 ∧ s.yRem = 0 ∧
  (∀ a, memRead s.hist a = 0) ∧ s.produced = 0 ∧
  s.clLen = List.replicate 19 0 ∧ s.llLen = List.replicate 288 0 ∧ s.dLen = List.replicate 32 0

/-- What the model holds beside the registers is empty: the list of window locations that are not 0 (log entry 7), and
the cursors of a call with its results (log entries 2 and 14). -/
def NothingHeld (s : State) : Prop :=
  s.hist = [] ∧ s.inBytes = [] ∧ s.inClosed = false ∧ s.consumed = 0 ∧ s.outCap = 0 ∧ s.outClosed = false ∧
  s.outBytes = []

/-- `n` steps of the machine. -/
def runSteps : Nat → State → Answer
  | 0, s => .next s
  | n + 1, s =>
    match step s with
    | .next t => runSteps n t
    | .fault r => .fault r
    | .refused r => .refused r

/-- The call in progress at `s` ends in `t`: its run reaches `t`, in which no call is in progress. With nothing pending an
idle machine keeps its state, so there is at most one such `t`. -/
def CallEnds (s t : State) : Prop := ∃ n, runSteps n s = .next t ∧ t.busy = false

/-- The loop of R162 that hands out the codes: symbol by symbol, the next code of its length; `next` starts as `first`. -/
def assignCodes : List Nat → (Nat → Nat) → List (Option Nat)
  | [], _ => []
  | l :: ls, next =>
    if l = 0 then none :: assignCodes ls next
    else some (next l) :: assignCodes ls fun k => if k = l then next k + 1 else next k

/-- The table of spec/44_symbol_loop_window.md R234: length element, LLSYM, `y_length` without the extra bits, and how many
extra bits follow. -/
def lengthRows : List (Instr × Nat × Nat × Nat) :=
  [(.len257, 257, 3, 0), (.len258, 258, 4, 0), (.len259, 259, 5, 0), (.len260, 260, 6, 0), (.len261, 261, 7, 0),
   (.len262, 262, 8, 0), (.len263, 263, 9, 0), (.len264, 264, 10, 0), (.len265, 265, 11, 1),
   (.len266, 266, 13, 1), (.len267, 267, 15, 1), (.len268, 268, 17, 1), (.len269, 269, 19, 2),
   (.len270, 270, 23, 2), (.len271, 271, 27, 2), (.len272, 272, 31, 2), (.len273, 273, 35, 3),
   (.len274, 274, 43, 3), (.len275, 275, 51, 3), (.len276, 276, 59, 3), (.len277, 277, 67, 4),
   (.len278, 278, 83, 4), (.len279, 279, 99, 4), (.len280, 280, 115, 4), (.len281, 281, 131, 5),
   (.len282, 282, 163, 5), (.len283, 283, 195, 5), (.len284, 284, 227, 5), (.len285, 285, 258, 0)]

/-- The table of R242: distance element, DSYM, `y_dist` without the extra bits, and how many extra bits follow. -/
def distanceRows : List (Instr × Nat × Nat × Nat) :=
  [(.dist00, 0, 1, 0), (.dist01, 1, 2, 0), (.dist02, 2, 3, 0), (.dist03, 3, 4, 0), (.dist04, 4, 5, 1),
   (.dist05, 5, 7, 1), (.dist06, 6, 9, 2), (.dist07, 7, 13, 2), (.dist08, 8, 17, 3), (.dist09, 9, 25, 3),
   (.dist10, 10, 33, 4), (.dist11, 11, 49, 4), (.dist12, 12, 65, 5), (.dist13, 13, 97, 5), (.dist14, 14, 129, 6),
   (.dist15, 15, 193, 6), (.dist16, 16, 257, 7), (.dist17, 17, 385, 7), (.dist18, 18, 513, 8),
   (.dist19, 19, 769, 8), (.dist20, 20, 1025, 9), (.dist21, 21, 1537, 9), (.dist22, 22, 2049, 10),
   (.dist23, 23, 3073, 10), (.dist24, 24, 4097, 11), (.dist25, 25, 6145, 11), (.dist26, 26, 8193, 12),
   (.dist27, 27, 12289, 12), (.dist28, 28, 16385, 13), (.dist29, 29, 24577, 13)]

/-- The statuses a micro-step may return (R303), `Ok` for the comparing `Z_TRAILER` among them; `Z_TRAILER` and
`D_CLLENS` have one row for reading and one for comparing or validating. -/
def mayReturn (s : State) : MicroStep → List Status
  | .zCmf => [.shortRead, .unexpectedEndOfFile]
  | .zFlg =>
    [.shortRead, .unexpectedEndOfFile, .invalidZlibParityCheck, .invalidZlibCompressionMethod,
     .invalidZlibCompressionWindowSize, .unsupportedPresetDictionary]
  | .zTrailer => if s.zTrlN < 4 then [.shortRead, .unexpectedEndOfFile] else [.checksumMismatch, .ok]
  | .bHeader => [.shortRead, .unexpectedEndOfFile, .badFlateBlock]
  | .bEnd => []
  | .sAlign => []
  | .sLen => [.shortRead, .unexpectedEndOfFile]
  | .sNlen => [.shortRead, .unexpectedEndOfFile, .inconsistentStoredBlockLength]
  | .sCopy => [.shortWrite, .closedForWrites, .shortRead, .unexpectedEndOfFile]
  | .dHlit => [.shortRead, .unexpectedEndOfFile]
  | .dHdist => [.shortRead, .unexpectedEndOfFile]
  | .dHclen => [.shortRead, .unexpectedEndOfFile, .badLiteralLengthCodeCount, .badDistanceCodeCount]
  | .dCllens =>
    if s.dI < s.nClen then [.shortRead, .unexpectedEndOfFile]
    else [.noHuffmanCodes, .badHuffmanCodeOverSubscribed, .badHuffmanCodeUnderSubscribed]
  | .dSym => [.shortRead, .unexpectedEndOfFile, .badHuffmanCodeLengthRepetition]
  | .dExtra => [.shortRead, .unexpectedEndOfFile, .badHuffmanCodeLengthCount]
  | .dBuild =>
    [.missingEndOfBlockCode, .noHuffmanCodes, .badHuffmanCodeOverSubscribed, .badHuffmanCodeUnderSubscribed]
  | .yLitlen => [.shortRead, .unexpectedEndOfFile, .badHuffmanCode]
  | .yEmit => [.shortWrite, .closedForWrites]
  | .yLextra => [.shortRead, .unexpectedEndOfFile]
  | .yDsym => [.shortRead, .unexpectedEndOfFile, .badHuffmanCode]
  | .yDextra => [.shortRead, .unexpectedEndOfFile, .badDistance]
  | .yCopy => [.shortWrite, .closedForWrites]

end Sys2Proof.Machine
end

