-- ==== Sys2Proof/Certificates/Slice0/Obligations.lean ====
section
/-! DEFINITION. The statements for the provers, in the order of OBLIGATIONS.json: reset and the host's operations, the
step, the encodings, one statement for each rule of the micro-steps, the reader, the Huffman tables, the window and the
checksum, and the properties of the whole machine. `tick s` is `s` with one step of the host's schedule passed (log entry
3): it differs from `s` in the list of pending operations only. -/

open Sys2Proof Sys2Proof.Machine

/-! ## Reset and the host's operations -/

/-- R281, R283, R46: RESET and INIT, also while a call is in progress (RESET) and from every phase. The status returned
is recorded in the model's field `reply` (log entry 5); that the cursors of a call are emptied (log entries 2 and 14), that
an emptied window lists no location (log entry 7), and that the parameters and the pending operations stay (log entries 4
and 3) is the model's. -/
def Obligations.ResetAndInitClear : Prop :=
  NothingHeld State.reset ∧ State.reset.reply = none ∧ State.reset.requests = [] ∧
  ∀ s : State,
    (∃ t, exec .reset s = .next t ∧ RegistersAtReset t ∧ NothingHeld t ∧ t.phase = .uninit ∧ t.status = .ok ∧
      t.reply = none ∧ t.cfg = s.cfg ∧ t.requests = s.requests) ∧
    (∀ v, s.busy = true → exec (.init v) s = .next { s with reply := some .invalidCallSequence }) ∧
    (∀ v, s.busy = false → v = s.cfg.version →
      ∃ t, exec (.init v) s = .next t ∧ RegistersAtReset t ∧ NothingHeld t ∧ t.phase = .active ∧ t.status = .ok ∧
        t.reply = some .ok ∧ t.cfg = s.cfg ∧ t.requests = s.requests) ∧
    (∀ v, s.busy = false → v ≠ s.cfg.version →
      ∃ t, exec (.init v) s = .next t ∧ RegistersAtReset t ∧ NothingHeld t ∧ t.phase = .poisoned ∧
        t.status = .badVersion ∧ t.reply = some .badVersion ∧ t.cfg = s.cfg ∧ t.requests = s.requests)

/-- R46, R342: the value of every register right after reset, after RESET, and after an INIT outside a call, which then
sets `phase` and `status` as R283 says. Of the model's own fields nothing is stated here. -/
def Obligations.ResetValues : Prop :=
  (RegistersAtReset State.reset ∧ State.reset.phase = .uninit ∧ State.reset.status = .ok ∧
    adlerValue State.reset = 0x00000001) ∧
  (∀ s : State, ∃ t, exec .reset s = .next t ∧ RegistersAtReset t ∧ t.phase = .uninit ∧ t.status = .ok) ∧
  ∀ (s : State) (v : Nat), s.busy = false →
    ∃ t, exec (.init v) s = .next t ∧ RegistersAtReset t ∧
      (v = s.cfg.version → t.phase = .active ∧ t.status = .ok) ∧
      (v ≠ s.cfg.version → t.phase = .poisoned ∧ t.status = .badVersion)

/-- R285: the entry checks of DECODE in their order; with all of them passed the call is open and nothing else of the
state has changed. -/
def Obligations.DecodeEntry : Prop :=
  ∀ (s : State) (out : Option OutCursor) (inp : Option InCursor),
    let fails := fun (e : Status) =>
      ∃ t, exec (.decode out inp) s = .next t ∧ t.phase = .poisoned ∧ t.status = e ∧ t.busy = false ∧
        t.reply = some e ∧ t.consumed = 0 ∧ t.outBytes = []
    (s.busy = true → exec (.decode out inp) s = .next { s with reply := some .invalidCallSequence }) ∧
    (s.busy = false → s.phase = .uninit → fails .initializerNotCalled) ∧
    (s.busy = false → s.phase = .done → fails .invalidCallSequence) ∧
    (s.busy = false → s.phase = .poisoned → fails .invalidCallSequence) ∧
    (s.busy = false → s.phase = .active → out = none ∨ inp = none → fails .badArgument) ∧
    (∀ o i, s.busy = false → s.phase = .active → out = some o → inp = some i →
      exec (.decode out inp) s = .next
        { s with
          busy := true, inBytes := i.bytes, inClosed := i.closed, consumed := 0,
          outCap := o.cap, outClosed := o.closed, outBytes := [] })

/-- R291: a DECODE or INIT presented while a call is in progress gets `InvalidCallSequence` and changes nothing; the
answer is recorded in the model's own field `reply` (log entry 5). -/
def Obligations.OverlappingCallsRejected : Prop :=
  ∀ (s : State) (op : HostOp) (t : State), s.busy = true → presented s = some (op, t) → op ≠ .reset →
    step s = .next { t with reply := some .invalidCallSequence } ∧
      t = { s with requests := t.requests }

/-- R280, R311: what a step does when the host presents an operation, and that an idle machine keeps its state. When a
pending operation is presented is the model's convention (log entry 3). -/
def Obligations.HostOperationsRun : Prop :=
  (∀ (s : State) (op : HostOp) (rest : List Request), s.busy = false → s.requests = ⟨op, none⟩ :: rest →
    step s = exec op.toInstr { s with requests := rest }) ∧
  (∀ (s : State) (op : HostOp) (rest : List Request), s.requests = ⟨op, some 0⟩ :: rest →
    step s = exec op.toInstr { s with requests := rest }) ∧
  (∀ s : State, s.busy = false → s.requests = [] → step s = .next s) ∧
  (∀ (s : State) (op : HostOp) (n : Nat) (rest : List Request), s.busy = false →
    s.requests = ⟨op, some (n + 1)⟩ :: rest → step s = .next { s with requests := ⟨op, some n⟩ :: rest })

/-! ## The step and the encodings -/

/-- R286, R117: while a call is in progress a step reads the current element's field from the stream, decodes it in its
format, and is `exec` of the instruction that field is; an element's later micro-steps are `exec` of the element that
the saved locals name. -/
def Obligations.StepRunsDecodedElement : Prop :=
  ∀ (s : State) (i : Instr) (v : Nat) (u : State),
    (Runs .zFlg s → readZhdr (tick s) = .ok v u → decode .zhdr v = .ok i → step s = exec i u) ∧
    (Runs .zTrailer s → 4 ≤ s.zTrlN → decode .ztrl s.zTrl.toNat = .ok i → step s = exec i (tick s)) ∧
    (Runs .bHeader s → need 3 (tick s) = .ok v u → decode .bhdr v = .ok i → step s = exec i u) ∧
    (Runs .sNlen s → readStored (tick s) = .ok v u → decode .stored v = .ok i → step s = exec i u) ∧
    (Runs .sCopy s → s.sRem ≠ 0 → readRaw (tick s) = .ok v u → decode .raw v = .ok i → step s = exec i u) ∧
    (Runs .dHclen s → readCounts (tick s) = .ok v u → decode .dynhdr v = .ok i → step s = exec i u) ∧
    (Runs .dCllens s → s.dI < s.nClen → need 3 (tick s) = .ok v u → decode .cllen v = .ok i → step s = exec i u) ∧
    (Runs .dSym s → s.dI ≠ s.nLit + s.nDist → huffDecode s.clLen (tick s) = .ok v u → decode .clsym v = .ok i →
      step s = exec i u) ∧
    (Runs .dExtra s → decode .clsym s.repSym = .ok i → step s = exec i (tick s)) ∧
    (Runs .yLitlen s → huffDecode s.llLen (tick s) = .ok v u → decode .llsym v = .ok i → step s = exec i u) ∧
    (Runs .yEmit s → step s = exec (.lit s.yLit) (tick s)) ∧
    (Runs .yLextra s → decode .llsym s.yLsym = .ok i → step s = exec i (tick s)) ∧
    (Runs .yDsym s → huffDecode s.dLen (tick s) = .ok v u → decode .dsym v = .ok i → step s = exec i u) ∧
    (Runs .yDextra s → decode .dsym s.yDsym = .ok i → step s = exec i (tick s)) ∧
    (Runs .yCopy s → decode .dsym s.yDsym = .ok i → step s = exec i (tick s))

/-- R91 to R98, R232, R234, R242: a few words written out from the encodings, and their stream bits under the fixed
tables, first bit first. -/
def Obligations.WrittenOutWords : Prop :=
  decode .zhdr 0x789C = .ok (.zhdr 0x789C) ∧ decode .bhdr 0b011 = .ok (.blkFixed true) ∧
  decode .bhdr 0b110 = .ok (.blkReserved false) ∧ decode .stored 0xFFFC0003 = .ok (.sLen 3 0xFFFC) ∧
  decode .dynhdr (11 * 1024 + 29 * 32 + 30) = .ok (.dCounts 30 29 11) ∧ decode .clsym 18 = .ok .clZrepl ∧
  decode .llsym 0x61 = .ok (.lit 0x61) ∧ decode .llsym 258 = .ok .len258 ∧ decode .dsym 29 = .ok .dist29 ∧
  symbolBits fixLl 0x61 = [true, false, false, true, false, false, false, true] ∧
  symbolBits fixLl 256 = [false, false, false, false, false, false, false] ∧
  symbolBits fixLl 280 = [true, true, false, false, false, false, false, false] ∧
  symbolBits fixD 29 = [true, true, true, false, true]

/-- R117: no bit of an encoding is dropped; every element with every operand its field admits comes back. -/
def Obligations.DecodeOfEncode : Prop :=
  ∀ i : Instr, WellFormed i = true → i.isHost = false → decode (formatOf i) (encode i) = .ok i

/-- R117: a value of a format is the word of one element only, so no two rows of a format overlap. -/
def Obligations.EncodeOfDecode : Prop :=
  ∀ (f : Format) (v : Nat) (i : Instr), f ≠ .host → decode f v = .ok i →
    formatOf i = f ∧ encode i = v ∧ WellFormed i = true ∧ i.isHost = false

/-! ## The zlib envelope -/

/-- R263. -/
def Obligations.FirstHeaderByte : Prop :=
  ∀ s : State, Runs .zCmf s →
    EndsWithRead (pullByte (tick s)) (step s) ∧
    ∀ b rest, s.inBytes = b :: rest →
      step s = .next
        { tick s with
          inBytes := rest, inTotal := s.inTotal + 1, consumed := s.consumed + 1, zCmf := b, zStep := .flg }

/-- R264, R265, R266: the second header byte is read, then the four checks in their order. -/
def Obligations.HeaderChecks : Prop :=
  (∀ s : State, Runs .zFlg s →
    EndsWithRead (pullByte (tick s)) (step s) ∧
    ∀ b rest, s.inBytes = b :: rest →
      step s = exec (.zhdr (BitVec.ofNat 16 (s.zCmf.toNat * 256 + b.toNat)))
        { tick s with inBytes := rest, inTotal := s.inTotal + 1, consumed := s.consumed + 1 }) ∧
  ∀ (s : State) (x : Half), microStep s = some .zFlg →
    (x.toNat % 31 ≠ 0 → Raises .invalidZlibParityCheck s (exec (.zhdr x) s)) ∧
    (x.toNat % 31 = 0 → x.toNat / 256 % 16 ≠ 8 → Raises .invalidZlibCompressionMethod s (exec (.zhdr x) s)) ∧
    (x.toNat % 31 = 0 → x.toNat / 256 % 16 = 8 → s.cfg.maxCinfo < x.toNat / 4096 →
      Raises .invalidZlibCompressionWindowSize s (exec (.zhdr x) s)) ∧
    (x.toNat % 31 = 0 → x.toNat / 256 % 16 = 8 → x.toNat / 4096 ≤ s.cfg.maxCinfo → x.toNat / 32 % 2 = 1 →
      Raises .unsupportedPresetDictionary s (exec (.zhdr x) s)) ∧
    (x.toNat % 31 = 0 → x.toNat / 256 % 16 = 8 → x.toNat / 4096 ≤ s.cfg.maxCinfo → x.toNat / 32 % 2 = 0 →
      exec (.zhdr x) s = .next { s with zStep := .flate })

/-- R268: four trailer bytes, most significant first, then the comparison that ends the stream. -/
def Obligations.TrailerComparison : Prop :=
  (∀ s : State, Runs .zTrailer s → s.zTrlN < 4 →
    EndsWithRead (pullByte (tick s)) (step s) ∧
    ∀ b rest, s.inBytes = b :: rest →
      step s = .next
        { tick s with
          inBytes := rest, inTotal := s.inTotal + 1, consumed := s.consumed + 1,
          zTrl := (s.zTrl <<< 8) ||| b.setWidth 32, zTrlN := s.zTrlN + 1 }) ∧
  (∀ s : State, Runs .zTrailer s → s.zTrlN = 4 → step s = exec (.ztrl s.zTrl) (tick s)) ∧
  ∀ (s : State) (x : Word), microStep s = some .zTrailer → s.zTrlN = 4 →
    (x ≠ s.adlerB ++ s.adlerA → Raises .checksumMismatch s (exec (.ztrl x) s)) ∧
    (x = s.adlerB ++ s.adlerA →
      exec (.ztrl x) s = .next
        { s with zStep := .done, phase := .done, status := .ok, busy := false, reply := some .ok })

/-! ## The block loop and the stored block -/

/-- R181, R182, R183 and the header part of R201 and R202. -/
def Obligations.BlockHeader : Prop :=
  (∀ s : State, Runs .bHeader s →
    EndsWithRead (need 3 (tick s)) (step s) ∧
    ∀ v u, need 3 (tick s) = .ok v u →
      step s =
        exec (match v / 2 with
          | 0 => .blkStored (v % 2 == 1)
          | 1 => .blkFixed (v % 2 == 1)
          | 2 => .blkDynamic (v % 2 == 1)
          | _ => .blkReserved (v % 2 == 1)) u) ∧
  ∀ (s : State) (f : Bool), microStep s = some .bHeader →
    exec (.blkStored f) s = .next { s with final := f, btype := 0, sStep := .align, bStep := .stored } ∧
    exec (.blkFixed f) s = .next
      { s with
        final := f, btype := 1,
        llLen := List.replicate 144 8 ++ List.replicate 112 9 ++ List.replicate 24 7 ++ List.replicate 8 8,
        dLen := List.replicate 32 5, yStep := .litlen, bStep := .symbols } ∧
    exec (.blkDynamic f) s = .next { s with final := f, btype := 2, dStep := .hlit, bStep := .dynhdr } ∧
    Raises .badFlateBlock s (exec (.blkReserved f) s)

/-- R184. -/
def Obligations.BlockEnd : Prop :=
  ∀ s : State, Runs .bEnd s →
    (s.final = true → step s = .next
      { tick s with bits := 0, nBits := 0, bStep := .done, zTrl := 0, zTrlN := 0, zStep := .trailer }) ∧
    (s.final = false → step s = .next { tick s with bStep := .header })

/-- R185, R144, R186: the step to the byte boundary, which leaves nothing buffered when less than a byte was; then LEN,
low byte first; with one byte available it stays buffered and the retry takes only the second. -/
def Obligations.StoredAlignAndLength : Prop :=
  (∀ s : State, Runs .sAlign s →
    step s = .next
      { tick s with bits := s.bits >>> (s.nBits % 8), nBits := s.nBits - s.nBits % 8, sStep := .len } ∧
    (s.nBits ≤ 7 → s.nBits - s.nBits % 8 = 0)) ∧
  (∀ s : State, Runs .sLen s →
    EndsWithRead (need 16 (tick s)) (step s) ∧
    ∀ v u, need 16 (tick s) = .ok v u → step s = .next { u with sLen := BitVec.ofNat 16 v, sStep := .nlen }) ∧
  (∀ (s : State) (b0 b1 : Byte) (rest : List Byte), Runs .sLen s → s.nBits = 0 → s.bits = 0 →
    s.inBytes = b0 :: b1 :: rest →
    step s = .next
      { tick s with
        inBytes := rest, inTotal := s.inTotal + 2, consumed := s.consumed + 2, sLen := b1 ++ b0, sStep := .nlen }) ∧
  (∀ (s : State) (b0 : Byte), Runs .sLen s → s.nBits = 0 → s.bits = 0 → s.inBytes = [b0] → s.inClosed = false →
    step s = .next
      { tick s with
        inBytes := [], inTotal := s.inTotal + 1, consumed := s.consumed + 1, bits := b0.setWidth 32, nBits := 8,
        status := .shortRead, busy := false, reply := some .shortRead }) ∧
  (∀ (s : State) (b0 b1 : Byte) (rest : List Byte), Runs .sLen s → s.nBits = 8 → s.bits = b0.setWidth 32 →
    s.inBytes = b1 :: rest →
    step s = .next
      { tick s with
        inBytes := rest, inTotal := s.inTotal + 1, consumed := s.consumed + 1, bits := 0, nBits := 0,
        sLen := b1 ++ b0, sStep := .nlen })

/-- R187. -/
def Obligations.StoredComplement : Prop :=
  (∀ s : State, Runs .sNlen s →
    EndsWithRead (need 16 (tick s)) (step s) ∧
    ∀ v u, need 16 (tick s) = .ok v u → step s = exec (.sLen s.sLen (BitVec.ofNat 16 v)) u) ∧
  ∀ (s : State) (len nlen : Half), microStep s = some .sNlen →
    (len.toNat + nlen.toNat ≠ 0xFFFF → Raises .inconsistentStoredBlockLength s (exec (.sLen len nlen) s)) ∧
    (len.toNat + nlen.toNat = 0xFFFF →
      exec (.sLen len nlen) s = .next { s with sRem := len.toNat, sStep := .copy })

/-- R188: output space is tested before the byte is pulled. -/
def Obligations.StoredCopy : Prop :=
  (∀ s : State, Runs .sCopy s → s.sRem = 0 → step s = .next { tick s with bStep := .blockEnd }) ∧
  (∀ s : State, Runs .sCopy s → s.sRem ≠ 0 →
    EndsWithRead (needOut (tick s)) (step s) ∧
    (s.outBytes.length < s.outCap →
      EndsWithRead (pullByte (tick s)) (step s) ∧
      ∀ b rest, s.inBytes = b :: rest →
        step s = exec (.raw b)
          { tick s with inBytes := rest, inTotal := s.inTotal + 1, consumed := s.consumed + 1 })) ∧
  ∀ (s : State) (b : Byte), microStep s = some .sCopy → s.sRem ≠ 0 → s.outBytes.length < s.outCap →
    exec (.raw b) s = .next { emit b s with sRem := s.sRem - 1 }

/-! ## The dynamic block header -/

/-- R203, R204, R205: the three counts, the two checks, literal/length first, then the three arrays cleared. The
element's operands are the fields HLIT and HDIST, which `n_lit` and `n_dist` hold already (log entry 9). -/
def Obligations.DynamicHeaderCounts : Prop :=
  (∀ s : State, Runs .dHlit s →
    EndsWithRead (need 5 (tick s)) (step s) ∧
    ∀ v u, need 5 (tick s) = .ok v u →
      v < 32 ∧ step s = .next { u with nLit := v + 257, dStep := .hdist }) ∧
  (∀ s : State, Runs .dHdist s →
    EndsWithRead (need 5 (tick s)) (step s) ∧
    ∀ v u, need 5 (tick s) = .ok v u →
      v < 32 ∧ step s = .next { u with nDist := v + 1, dStep := .hclen }) ∧
  (∀ s : State, Runs .dHclen s →
    EndsWithRead (need 4 (tick s)) (step s) ∧
    ∀ v u, need 4 (tick s) = .ok v u → 257 ≤ s.nLit → s.nLit ≤ 288 → 1 ≤ s.nDist → s.nDist ≤ 32 →
      v < 16 ∧ step s = exec (.dCounts (s.nLit - 257) (s.nDist - 1) v) u) ∧
  ∀ (s : State) (hlit hdist hclen : Nat), microStep s = some .dHclen →
    (29 < hlit → Raises .badLiteralLengthCodeCount s (exec (.dCounts hlit hdist hclen) s)) ∧
    (hlit ≤ 29 → 29 < hdist → Raises .badDistanceCodeCount s (exec (.dCounts hlit hdist hclen) s)) ∧
    (hlit ≤ 29 → hdist ≤ 29 →
      exec (.dCounts hlit hdist hclen) s = .next
        { s with
          nLit := hlit + 257, nDist := hdist + 1, nClen := hclen + 4, clLen := List.replicate 19 0,
          llLen := List.replicate 288 0, dLen := List.replicate 32 0, dI := 0, dStep := .cllens })

/-- R206, R207, R97: the code-length code lengths in the order of the permutation, then the table's validation. -/
def Obligations.CodeLengthCode : Prop :=
  (∀ s : State, Runs .dCllens s → s.dI < s.nClen →
    EndsWithRead (need 3 (tick s)) (step s) ∧
    ∀ v u, need 3 (tick s) = .ok v u → v < 8 ∧ step s = exec (.dCllen v) u) ∧
  (∀ (s : State) (v : Nat), microStep s = some .dCllens → s.dI < s.nClen →
    exec (.dCllen v) s = .next
      { s with
        clLen := s.clLen.set
          ([16, 17, 18, 0, 8, 7, 9, 6, 10, 5, 11, 4, 12, 3, 13, 2, 14, 1, 15].getD s.dI 0) v,
        dI := s.dI + 1 }) ∧
  (∀ s : State, Runs .dCllens s → s.dI = s.nClen →
    (∀ e, validate s.clLen false = some e → Raises e s (step s)) ∧
    (validate s.clLen false = none → step s = .next { tick s with dI := 0, dStep := .sym }))

/-- R208, R211, R216: a code-length symbol; the three repeat symbols are held for their extra bits. -/
def Obligations.CodeLengthSymbols : Prop :=
  (∀ s : State, Runs .dSym s → s.dI = s.nLit + s.nDist → step s = .next { tick s with dStep := .build }) ∧
  (∀ s : State, Runs .dSym s → s.dI ≠ s.nLit + s.nDist →
    EndsWithRead (huffDecode s.clLen (tick s)) (step s) ∧
    ∀ c u, huffDecode s.clLen (tick s) = .ok c u →
      (c ≤ 15 → step s = exec (.clLen c) u) ∧ (c = 16 → step s = exec .clRep u) ∧
        (c = 17 → step s = exec .clZrep u) ∧ (c = 18 → step s = exec .clZrepl u)) ∧
  ∀ s : State, microStep s = some .dSym → s.dI ≠ s.nLit + s.nDist →
    (∀ n, s.dI < s.nLit → exec (.clLen n) s = .next { s with llLen := s.llLen.set s.dI n, dI := s.dI + 1 }) ∧
    (∀ n, s.nLit ≤ s.dI →
      exec (.clLen n) s = .next { s with dLen := s.dLen.set (s.dI - s.nLit) n, dI := s.dI + 1 }) ∧
    (s.dI = 0 → Raises .badHuffmanCodeLengthRepetition s (exec .clRep s)) ∧
    (0 < s.dI → s.dI - 1 < s.nLit →
      exec .clRep s = .next { s with repVal := s.llLen.getD (s.dI - 1) 0, repSym := 16, dStep := .extra }) ∧
    (0 < s.dI → s.nLit ≤ s.dI - 1 →
      exec .clRep s = .next { s with repVal := s.dLen.getD (s.dI - 1 - s.nLit) 0, repSym := 16, dStep := .extra }) ∧
    exec .clZrep s = .next { s with repVal := 0, repSym := 17, dStep := .extra } ∧
    exec .clZrepl s = .next { s with repVal := 0, repSym := 18, dStep := .extra }

/-- R209, R212, R213, R214: a run of 3 to 6, 3 to 10 or 11 to 138 equal entries, refused whole where it would pass the
end of the sequence; it writes those entries of the combined sequence and nothing else. -/
def Obligations.RepeatRuns : Prop :=
  ∀ row ∈ [(Instr.clRep, 16, 2, 3), (.clZrep, 17, 3, 3), (.clZrepl, 18, 7, 11)],
    let i := row.1; let sym := row.2.1; let w := row.2.2.1; let base := row.2.2.2
    (∀ s : State, Runs .dExtra s → s.repSym = sym → step s = exec i (tick s)) ∧
    ∀ s : State, microStep s = some .dExtra →
      EndsWithRead (need w s) (exec i s) ∧
      ∀ v u, need w s = .ok v u →
        (s.nLit + s.nDist < s.dI + (base + v) → Raises .badHuffmanCodeLengthCount u (exec i s)) ∧
        (s.dI + (base + v) ≤ s.nLit + s.nDist → s.nLit ≤ s.llLen.length → s.nDist ≤ s.dLen.length →
          ∃ t, exec i s = .next t ∧
            t = { u with llLen := t.llLen, dLen := t.dLen, dI := s.dI + (base + v), dStep := .sym } ∧
            t.llLen.length = s.llLen.length ∧ t.dLen.length = s.dLen.length ∧
            (∀ k, k < s.nLit + s.nDist →
              getLen k t = if s.dI ≤ k ∧ k < s.dI + (base + v) then s.repVal else getLen k s) ∧
            (∀ k, s.nLit ≤ k → t.llLen.getD k 0 = s.llLen.getD k 0) ∧
            (∀ k, s.nDist ≤ k → t.dLen.getD k 0 = s.dLen.getD k 0))

/-- R210: the end-of-block test, the literal/length table, the distance table, in this order. -/
def Obligations.BuildTables : Prop :=
  ∀ s : State, Runs .dBuild s →
    (s.llLen.getD 256 0 = 0 → Raises .missingEndOfBlockCode s (step s)) ∧
    (s.llLen.getD 256 0 ≠ 0 → ∀ e, validate s.llLen false = some e → Raises e s (step s)) ∧
    (s.llLen.getD 256 0 ≠ 0 → validate s.llLen false = none → ∀ e, validate s.dLen true = some e →
      Raises e s (step s)) ∧
    (s.llLen.getD 256 0 ≠ 0 → validate s.llLen false = none → validate s.dLen true = none →
      step s = .next { tick s with yStep := .litlen, bStep := .symbols })

/-! ## The symbol loop -/

/-- R231, R232, R233, R236: what a literal/length symbol does at `Y_LITLEN`; a literal is saved and then emitted, the
end-of-block symbol ends the block. -/
def Obligations.LiteralsAndEndOfBlock : Prop :=
  (∀ s : State, Runs .yLitlen s →
    EndsWithRead (huffDecode s.llLen (tick s)) (step s) ∧
    ∀ v u, huffDecode s.llLen (tick s) = .ok v u →
      (v < 256 → step s = .next { u with yLit := BitVec.ofNat 8 v, yStep := .emit }) ∧
      (v = 256 → step s = .next { u with bStep := .blockEnd }) ∧
      (257 ≤ v → v ≤ 285 → step s = .next { u with yLsym := v, yStep := .lextra }) ∧
      (v = 286 ∨ v = 287 → Raises .badHuffmanCode u (step s))) ∧
  (∀ (s : State) (b : Byte), microStep s = some .yLitlen →
    exec (.lit b) s = .next { s with yLit := b, yStep := .emit }) ∧
  (∀ s : State, microStep s = some .yLitlen → exec .eob s = .next { s with bStep := .blockEnd }) ∧
  (∀ s : State, Runs .yEmit s → step s = exec (.lit s.yLit) (tick s)) ∧
  (∀ (s : State) (b : Byte), microStep s = some .yEmit →
    EndsWithRead (needOut s) (exec (.lit b) s) ∧
    (s.outBytes.length < s.outCap → exec (.lit b) s = .next { emit b s with yStep := .litlen }))

/-- R234, R237: the 29 length elements, LEN257 to LEN285, row by row of the table, with their fixed-block codes. -/
def Obligations.LengthElements : Prop :=
  ∀ row ∈ lengthRows,
    let i := row.1; let sym := row.2.1; let base := row.2.2.1; let ext := row.2.2.2
    decode .llsym sym = .ok i ∧ fixLl.getD sym 0 = (if sym < 280 then 7 else 8) ∧
    codeOf fixLl sym = (if sym < 280 then sym - 256 else 0b11000000 + (sym - 280)) ∧
    (∀ s : State, microStep s = some .yLitlen → exec i s = .next { s with yLsym := sym, yStep := .lextra }) ∧
    (∀ s : State, Runs .yLextra s → s.yLsym = sym → step s = exec i (tick s)) ∧
    (∀ s : State, microStep s = some .yLextra →
      EndsWithRead (need ext s) (exec i s) ∧
      ∀ v u, need ext s = .ok v u → exec i s = .next { u with yLength := base + v, yStep := .dsym }) ∧
    (∀ s : State, microStep s = some .yLextra → ext ≤ s.nBits →
      exec i s = .next
        { s with
          bits := s.bits >>> ext, nBits := s.nBits - ext, yLength := base + s.bits.toNat % 2 ^ ext,
          yStep := .dsym })

/-- R235, R238, R205: the four symbols without a meaning: their fixed-block codes, the error each raises, and that a
dynamic block gives them no code, from `D_BUILD` to the end of the block, so that decoding one is decoding in a fixed
block. -/
def Obligations.ReservedSymbols : Prop :=
  decode .llsym 286 = .ok .llRsvd286 ∧ decode .llsym 287 = .ok .llRsvd287 ∧
  decode .dsym 30 = .ok .dRsvd30 ∧ decode .dsym 31 = .ok .dRsvd31 ∧
  symbolBits fixLl 286 = [true, true, false, false, false, true, true, false] ∧
  symbolBits fixLl 287 = [true, true, false, false, false, true, true, true] ∧
  symbolBits fixD 30 = [true, true, true, true, false] ∧ symbolBits fixD 31 = [true, true, true, true, true] ∧
  (∀ s : State, microStep s = some .yLitlen →
    Raises .badHuffmanCode s (exec .llRsvd286 s) ∧ Raises .badHuffmanCode s (exec .llRsvd287 s)) ∧
  (∀ s : State, microStep s = some .yDsym →
    Raises .badHuffmanCode s (exec .dRsvd30 s) ∧ Raises .badHuffmanCode s (exec .dRsvd31 s)) ∧
  (∀ (m : MicroStep) (s : State), Inv s → Runs m s →
    m ∈ [.dBuild, .yLitlen, .yEmit, .yLextra, .yDsym, .yDextra, .yCopy] → s.btype = 2 →
    s.llLen.getD 286 0 = 0 ∧ s.llLen.getD 287 0 = 0 ∧ s.dLen.getD 30 0 = 0 ∧ s.dLen.getD 31 0 = 0) ∧
  (∀ (s : State) (v : Nat) (u : State), Inv s → Runs .yLitlen s → huffDecode s.llLen (tick s) = .ok v u →
    286 ≤ v → s.btype = 1 ∧ s.llLen = fixLl) ∧
  (∀ (s : State) (v : Nat) (u : State), Inv s → Runs .yDsym s → huffDecode s.dLen (tick s) = .ok v u →
    30 ≤ v → s.btype = 1 ∧ s.dLen = fixD)

/-- R242, R238, R239: the 30 distance elements, DIST00 to DIST29, row by row of the table, up to the distance check. -/
def Obligations.DistanceElements : Prop :=
  (∀ s : State, Runs .yDsym s →
    EndsWithRead (huffDecode s.dLen (tick s)) (step s) ∧
    ∀ v u, huffDecode s.dLen (tick s) = .ok v u →
      (v ≤ 29 → step s = .next { u with yDsym := v, yStep := .dextra }) ∧
      (v = 30 ∨ v = 31 → Raises .badHuffmanCode u (step s))) ∧
  ∀ row ∈ distanceRows,
    let i := row.1; let sym := row.2.1; let base := row.2.2.1; let ext := row.2.2.2
    decode .dsym sym = .ok i ∧ fixD.getD sym 0 = 5 ∧ codeOf fixD sym = sym ∧
    (∀ s : State, microStep s = some .yDsym → exec i s = .next { s with yDsym := sym, yStep := .dextra }) ∧
    (∀ s : State, Runs .yDextra s → s.yDsym = sym → step s = exec i (tick s)) ∧
    (∀ s : State, microStep s = some .yDextra →
      EndsWithRead (need ext s) (exec i s) ∧
      ∀ v u, need ext s = .ok v u →
        (s.produced < base + v → Raises .badDistance u (exec i s)) ∧
        (base + v ≤ s.produced →
          exec i s = .next { u with yDist := base + v, yRem := s.yLength, yStep := .copy })) ∧
    (∀ s : State, microStep s = some .yDextra → ext ≤ s.nBits → base + s.bits.toNat % 2 ^ ext ≤ s.produced →
      exec i s = .next
        { s with
          bits := s.bits >>> ext, nBits := s.nBits - ext, yDist := base + s.bits.toNat % 2 ^ ext,
          yRem := s.yLength, yStep := .copy })

/-- R240, R247: one byte of a back-reference per micro-step, read from the window before it is emitted. -/
def Obligations.CopyOneByte : Prop :=
  ∀ row ∈ distanceRows,
    let i := row.1; let sym := row.2.1
    (∀ s : State, Runs .yCopy s → s.yDsym = sym → step s = exec i (tick s)) ∧
    ∀ s : State, microStep s = some .yCopy →
      (s.yRem = 0 → exec i s = .next { s with yStep := .litlen }) ∧
      (s.yRem ≠ 0 → EndsWithRead (needOut s) (exec i s)) ∧
      (s.yRem ≠ 0 → s.outBytes.length < s.outCap →
        exec i s = .next
          { emit (memRead s.hist ((s.produced - s.yDist) % 32768)) s with yRem := s.yRem - 1 })

/-! ## The stream primitives and the bit reader -/

/-- R64, R66. -/
def Obligations.StreamPrimitives : Prop :=
  ∀ s : State,
    (∀ b rest, s.inBytes = b :: rest →
      pullByte s = .ok b { s with inBytes := rest, inTotal := s.inTotal + 1, consumed := s.consumed + 1 }) ∧
    (s.inBytes = [] → s.inClosed = true → pullByte s = .raise .unexpectedEndOfFile s) ∧
    (s.inBytes = [] → s.inClosed = false → pullByte s = .suspend .shortRead s) ∧
    (0 < s.outCap - s.outBytes.length → needOut s = .ok () s) ∧
    (s.outCap - s.outBytes.length = 0 → s.outClosed = true → needOut s = .raise .closedForWrites s) ∧
    (s.outCap - s.outBytes.length = 0 → s.outClosed = false → needOut s = .suspend .shortWrite s)

/-- R141, R142, R143, R144, R145: the loop of `ensure` pass by pass, `take`, `need`, and the two ways bits are dropped. -/
def Obligations.BitReaderOperations : Prop :=
  ∀ (s : State) (n : Nat),
    (n ≤ s.nBits → ensure n s = .ok () s) ∧
    (∀ b rest, s.nBits < n → s.inBytes = b :: rest →
      ensure n s = ensure n
        { s with
          inBytes := rest, inTotal := s.inTotal + 1, consumed := s.consumed + 1,
          bits := s.bits ||| (b.setWidth 32 <<< s.nBits), nBits := s.nBits + 8 }) ∧
    (s.nBits < n → s.inBytes = [] → s.inClosed = false → ensure n s = .suspend .shortRead s) ∧
    (s.nBits < n → s.inBytes = [] → s.inClosed = true → ensure n s = .raise .unexpectedEndOfFile s) ∧
    (n ≤ s.nBits →
      need n s = .ok (s.bits.toNat % 2 ^ n) { s with bits := s.bits >>> n, nBits := s.nBits - n }) ∧
    (∀ u, ensure n s = .ok () u → need n s = need n u) ∧
    (∀ k u, ensure n s = .suspend k u → need n s = .suspend k u) ∧
    (∀ e u, ensure n s = .raise e u → need n s = .raise e u) ∧
    alignToByte s = { s with bits := s.bits >>> (s.nBits % 8), nBits := s.nBits - s.nBits % 8 } ∧
    discardBits s = { s with bits := 0, nBits := 0 }

/-- R65, R71, R140: a field of `n` bits is the next `n` bits of the stream, first bit lowest, and reading it takes from
the stream those bits and nothing else; a read that does not complete has buffered everything available, fewer than `n`
bits, and lost nothing. -/
def Obligations.FieldsAreStreamBits : Prop :=
  ∀ (s : State) (n : Nat), s.bits.toNat < 2 ^ s.nBits → n ≤ 24 →
    (∀ v t, need n s = .ok v t →
      v < 2 ^ n ∧ pendingBits s = plainBits n v ++ pendingBits t ∧ OnlyReader s t ∧ (∃ k, TookBytes k s t) ∧
        t.bits.toNat < 2 ^ t.nBits) ∧
    (∀ k t, need n s = .suspend k t →
      k = .shortRead ∧ s.inClosed = false ∧ t.inBytes = [] ∧ t.nBits < n ∧ pendingBits t = pendingBits s ∧
        OnlyReader s t) ∧
    (∀ e t, need n s = .raise e t →
      e = .unexpectedEndOfFile ∧ s.inClosed = true ∧ t.inBytes = [] ∧ t.nBits < n) ∧
    (n ≤ (pendingBits s).length → ∃ v t, need n s = .ok v t)

/-! ## Huffman tables -/

/-- R162: the closed form of the model's codes is what the loop of the rule hands out (log entry 16). -/
def Obligations.CodesAreAssignedInOrder : Prop :=
  ∀ len : List Nat,
    firstCode len 0 = 0 ∧ firstCode len 1 = 0 ∧
    (∀ L, 2 ≤ L → firstCode len L = (firstCode len (L - 1) + cnt len (L - 1)) <<< 1) ∧
    (assignCodes len (firstCode len)).length = len.length ∧
    ∀ s, s < len.length →
      (assignCodes len (firstCode len))[s]? =
        some (if len.getD s 0 = 0 then none else some (codeOf len s))

/-- R163, R166: a table that is not over-subscribed gives a prefix code whose codes fit their lengths; with the Kraft sum
at its bound every string of the longest length starts with a code. -/
def Obligations.CanonicalCodeIsPrefixCode : Prop :=
  ∀ len : List Nat, kraft len ≤ 2 ^ maxl len →
    (∀ a b, a < len.length → b < len.length → len.getD a 0 ≠ 0 → len.getD b 0 ≠ 0 →
      symbolBits len a <+: symbolBits len b → a = b) ∧
    (∀ a, a < len.length → len.getD a 0 ≠ 0 → codeOf len a < 2 ^ len.getD a 0) ∧
    (kraft len = 2 ^ maxl len → ∀ bs : List Bool, bs.length = maxl len →
      ∃ a, a < len.length ∧ len.getD a 0 ≠ 0 ∧ symbolBits len a <+: bs)

/-- R164, R165, R166: what validation answers, in the rule's words; the three failures exclude one another. -/
def Obligations.TableValidation : Prop :=
  ∀ (len : List Nat) (allowSingle : Bool),
    ((∀ l ∈ len, l = 0) → validate len allowSingle = some .noHuffmanCodes) ∧
    ((∃ l ∈ len, l ≠ 0) → 2 ^ maxl len < kraft len →
      validate len allowSingle = some .badHuffmanCodeOverSubscribed) ∧
    ((∃ l ∈ len, l ≠ 0) → kraft len = 2 ^ maxl len → validate len allowSingle = none) ∧
    ((∃ l ∈ len, l ≠ 0) → kraft len < 2 ^ maxl len → allowSingle = true → len.filter (· ≠ 0) = [1] →
      validate len allowSingle = none) ∧
    ((∃ l ∈ len, l ≠ 0) → kraft len < 2 ^ maxl len → allowSingle = false ∨ len.filter (· ≠ 0) ≠ [1] →
      validate len allowSingle = some .badHuffmanCodeUnderSubscribed)

/-- R168: one pass of the loop of `HuffDecode` with the buffered bits: the shortest code that matches is taken; with as
many bits as the longest code and no match the code is bad; else a byte is pulled. -/
def Obligations.HuffDecodeLoop : Prop :=
  ∀ (len : List Nat) (s : State),
    let matches_ := fun (L sym : Nat) =>
      1 ≤ L ∧ L ≤ s.nBits ∧ L ≤ maxl len ∧ sym < len.length ∧ len.getD sym 0 = L ∧
        codeOf len sym = rev L (s.bits.toNat % 2 ^ L)
    (∀ L sym, matches_ L sym → (∀ j sym', j < L → ¬ matches_ j sym') →
      huffDecode len s = .ok sym { s with bits := s.bits >>> L, nBits := s.nBits - L }) ∧
    ((∀ L sym, ¬ matches_ L sym) → maxl len ≤ s.nBits → huffDecode len s = .raise .badHuffmanCode s) ∧
    ((∀ L sym, ¬ matches_ L sym) → s.nBits < maxl len →
      (∀ b rest, s.inBytes = b :: rest →
        huffDecode len s = huffDecode len
          { s with
            inBytes := rest, inTotal := s.inTotal + 1, consumed := s.consumed + 1,
            bits := s.bits ||| (b.setWidth 32 <<< s.nBits), nBits := s.nBits + 8 }) ∧
      (s.inBytes = [] → s.inClosed = false → huffDecode len s = .suspend .shortRead s) ∧
      (s.inBytes = [] → s.inClosed = true → huffDecode len s = .raise .unexpectedEndOfFile s))

/-- R168, R72, R163: with a table that is not over-subscribed `HuffDecode` answers a symbol exactly when that symbol's
code, most significant bit first, stands at the front of the stream; it takes that code and nothing else. -/
def Obligations.HuffDecodeReadsTheCode : Prop :=
  ∀ (len : List Nat) (s : State), s.bits.toNat < 2 ^ s.nBits → maxl len ≤ 15 → kraft len ≤ 2 ^ maxl len →
    (∀ sym t, huffDecode len s = .ok sym t →
      sym < len.length ∧ len.getD sym 0 ≠ 0 ∧ pendingBits s = symbolBits len sym ++ pendingBits t ∧
        OnlyReader s t ∧ (∃ k, TookBytes k s t) ∧ t.bits.toNat < 2 ^ t.nBits) ∧
    (∀ sym rest, sym < len.length → len.getD sym 0 ≠ 0 → pendingBits s = symbolBits len sym ++ rest →
      ∃ t, huffDecode len s = .ok sym t ∧ pendingBits t = rest) ∧
    (∀ k t, huffDecode len s = .suspend k t →
      k = .shortRead ∧ s.inClosed = false ∧ t.inBytes = [] ∧ pendingBits t = pendingBits s ∧ OnlyReader s t) ∧
    (kraft len = 2 ^ maxl len → ∀ e t, huffDecode len s = .raise e t → e = .unexpectedEndOfFile)

/-- R90, R117, R118: an element's stream bits at the front of the stream are read as that element: one step is `exec` of
it, with exactly those bits taken. For the block header, the code-length code lengths and the three Huffman-coded
alphabets; a Huffman-coded symbol must have a code in the table in force. -/
def Obligations.StreamBitsDecodeToTheirElement : Prop :=
  ∀ (s : State) (i : Instr) (rest : List Bool), Inv s → WellFormed i = true →
    pendingBits s = streamBits s.clLen s.llLen s.dLen i ++ rest →
    (formatOf i = .bhdr ∧ Runs .bHeader s ∨
      formatOf i = .cllen ∧ Runs .dCllens s ∧ s.dI < s.nClen ∨
      formatOf i = .clsym ∧ Runs .dSym s ∧ s.dI ≠ s.nLit + s.nDist ∧ s.clLen.getD (encode i) 0 ≠ 0 ∨
      formatOf i = .llsym ∧ Runs .yLitlen s ∧ s.llLen.getD (encode i) 0 ≠ 0 ∨
      formatOf i = .dsym ∧ Runs .yDsym s ∧ s.dLen.getD (encode i) 0 ≠ 0) →
    ∃ u, step s = exec i u ∧ pendingBits u = rest ∧ OnlyReader (tick s) u

/-! ## Output, window and checksum -/

/-- R246, R247, R262, R68: the four effects of `Emit`, and what the window holds after it. -/
def Obligations.EmitEffects : Prop :=
  ∀ (s : State) (b : Byte),
    let a := (s.adlerA.toNat + b.toNat) % 65521
    emit b s =
      { s with
        hist := memWrite s.hist (s.produced % 32768) b, produced := s.produced + 1,
        adlerA := BitVec.ofNat 16 a, adlerB := BitVec.ofNat 16 ((s.adlerB.toNat + a) % 65521),
        outBytes := s.outBytes ++ [b] } ∧
    (∀ d, histRead d s = memRead s.hist ((s.produced - d) % 32768)) ∧
    (s.hist.wf = true → ∀ x, memRead (emit b s).hist x = if x = s.produced % 32768 then b else memRead s.hist x)

/-- R262, R33: the checksum of the whole output in closed form: the two sums modulo 65521. -/
def Obligations.AdlerClosedForm : Prop :=
  ∀ (s : State) (bs : List Byte), s.adlerA = 1 → s.adlerB = 0 →
    (bs.foldl (fun t b => adlerUpdate b t) s).adlerA.toNat = (1 + (bs.map BitVec.toNat).sum) % 65521 ∧
    (bs.foldl (fun t b => adlerUpdate b t) s).adlerB.toNat =
      (bs.length + ((List.range bs.length).map fun i => (bs.length - i) * (bs.getD i 0).toNat).sum) % 65521

/-- R69, R248: after `P` bytes emitted from an empty window, location `a` holds output byte
`P - 1 - ((P - 1 - a) mod 32768)` when that number is not negative. -/
def Obligations.WindowHoldsTheLastBytes : Prop :=
  ∀ (s : State) (bs : List Byte) (a : Nat), s.hist = [] → s.produced = 0 → a < 32768 →
    let n : Int := (bs.length : Int) - 1 - ((bs.length : Int) - 1 - a) % 32768
    let t := bs.foldl (fun u b => emit b u) s
    t.produced = bs.length ∧ t.outBytes = s.outBytes ++ bs ∧
    (0 ≤ n → memRead t.hist a = bs.getD n.toNat 0) ∧ (n < 0 → memRead t.hist a = 0)

/-- R241, R79: a back-reference run byte by byte: where it overlaps itself it repeats what it has just written. -/
def Obligations.OverlappingCopyRepeats : Prop :=
  ∀ s : State, Inv s → Runs .yCopy s → s.requests = [] → s.yRem ≤ s.outCap - s.outBytes.length →
    ∃ t out, runSteps s.yRem s = .next t ∧ t.outBytes = s.outBytes ++ out ∧ out.length = s.yRem ∧
      t.produced = s.produced + s.yRem ∧ t.yRem = 0 ∧ microStep t = some .yCopy ∧
      ∀ j, j < s.yRem →
        out[j]? = some (if j < s.yDist then memRead s.hist ((s.produced - s.yDist + j) % 32768)
          else out.getD (j - s.yDist) 0)

/-! ## The whole machine -/

/-- R67, R68, R246: what an instruction leaves of the window. A host operation clears it whole or leaves it; an element
leaves every byte of it, unless it is RAW at `S_COPY`, LIT at `Y_EMIT` or a distance at `Y_COPY` and has emitted, and
then every byte but the one at the write position. -/
def Obligations.WindowFrame : Prop :=
  ∀ (i : Instr) (s t : State), exec i s = .next t → s.hist.wf = true →
    (t.produced = s.produced → i ≠ .reset → (∀ v, i ≠ .init v) → ∀ a, memRead t.hist a = memRead s.hist a) ∧
    (t.produced ≠ s.produced → i.isHost = false →
      t.produced = s.produced + 1 ∧ (∀ a, a ≠ s.produced % 32768 → memRead t.hist a = memRead s.hist a) ∧
        (microStep s = some .sCopy ∧ formatOf i = .raw ∨ microStep s = some .yEmit ∧ formatOf i = .llsym ∨
          microStep s = some .yCopy ∧ formatOf i = .dsym)) ∧
    (i = .reset ∨ (∃ v, i = .init v) → t.hist = [] ∨ t.hist = s.hist)

/-- R21 to R23, R28 to R41: each register is written by the micro-steps its rule names and by no other; the parameters
are never written. Stated of every step of a call that does not end in a terminal error, after which R321 leaves the
registers open. `D_HCLEN` writes `n_lit` and `n_dist` as its element's operands, the values they hold (log entry 9). -/
def Obligations.RegisterOwnership : Prop :=
  ∀ (m : MicroStep) (s t : State), Runs m s → step s = .next t →
    t.cfg = s.cfg ∧
    (t.phase ≠ .poisoned →
      (m ∈ [.zCmf, .zFlg, .zTrailer, .sCopy, .dBuild, .yEmit, .yCopy] → t.bits = s.bits ∧ t.nBits = s.nBits) ∧
      (m ∈ [.bEnd, .sAlign, .dBuild, .yEmit, .yCopy] → t.inTotal = s.inTotal) ∧
      (m ∉ [.zCmf, .zFlg, .zTrailer, .bEnd] → t.zStep = s.zStep) ∧
      (m ∉ [.bHeader, .bEnd, .sCopy, .dBuild, .yLitlen] → t.bStep = s.bStep) ∧
      (m ∉ [.bHeader, .sAlign, .sLen, .sNlen] → t.sStep = s.sStep) ∧
      (m ∉ [.bHeader, .dHlit, .dHdist, .dHclen, .dCllens, .dSym, .dExtra] → t.dStep = s.dStep) ∧
      (m ∉ [.bHeader, .dBuild, .yLitlen, .yEmit, .yLextra, .yDsym, .yDextra, .yCopy] → t.yStep = s.yStep) ∧
      (m ≠ .bHeader → t.final = s.final ∧ t.btype = s.btype) ∧
      (m ≠ .zCmf → t.zCmf = s.zCmf) ∧
      (m ∉ [.zTrailer, .bEnd] → t.zTrl = s.zTrl ∧ t.zTrlN = s.zTrlN) ∧
      (m ∉ [.sCopy, .yEmit, .yCopy] →
        t.adlerA = s.adlerA ∧ t.adlerB = s.adlerB ∧ t.hist = s.hist ∧ t.produced = s.produced) ∧
      (m ≠ .sLen → t.sLen = s.sLen) ∧
      (m ∉ [.sNlen, .sCopy] → t.sRem = s.sRem) ∧
      (m ≠ .dHlit → m ≠ .dHclen ∨ Inv s → t.nLit = s.nLit) ∧
      (m ≠ .dHdist → m ≠ .dHclen ∨ Inv s → t.nDist = s.nDist) ∧
      (m ≠ .dHclen → t.nClen = s.nClen) ∧
      (m ∉ [.dHclen, .dCllens, .dSym, .dExtra] → t.dI = s.dI) ∧
      (m ≠ .dSym → t.repSym = s.repSym ∧ t.repVal = s.repVal) ∧
      (m ≠ .yLitlen → t.yLit = s.yLit ∧ t.yLsym = s.yLsym) ∧
      (m ≠ .yLextra → t.yLength = s.yLength) ∧
      (m ≠ .yDsym → t.yDsym = s.yDsym) ∧
      (m ≠ .yDextra → t.yDist = s.yDist) ∧
      (m ∉ [.yDextra, .yCopy] → t.yRem = s.yRem) ∧
      (m ∉ [.dHclen, .dCllens] → t.clLen = s.clLen) ∧
      (m ∉ [.bHeader, .dHclen, .dSym, .dExtra] → t.llLen = s.llLen ∧ t.dLen = s.dLen))

/-- R61, R62, R67, R76: what one step of a call does to the two cursors: bytes leave the input in order and are counted,
at most one byte is appended to the output, always with the window write and the checksum update; the cursors' flags and
capacity are constant. -/
def Obligations.CursorDiscipline : Prop :=
  ∀ (m : MicroStep) (s t : State), Runs m s → step s = .next t →
    (∃ k, TookBytes k s t) ∧ t.inClosed = s.inClosed ∧ t.outCap = s.outCap ∧ t.outClosed = s.outClosed ∧
    (t.outBytes = s.outBytes ∧ t.produced = s.produced ∧ t.hist = s.hist ∧ t.adlerA = s.adlerA ∧
        t.adlerB = s.adlerB ∨
      ∃ b, s.outBytes.length < s.outCap ∧ t.outBytes = s.outBytes ++ [b] ∧ t.produced = s.produced + 1 ∧
        t.hist = memWrite s.hist (s.produced % 32768) b ∧ t.adlerA = (adlerUpdate b s).adlerA ∧
        t.adlerB = (adlerUpdate b s).adlerB)

/-- R13, R31, R322, R288: a micro-step that suspends has had no effect but whole bytes pushed into the accumulator, none
at all when it suspends for output; no buffered bit is lost and the stream still to be consumed is the same. One that
raises has produced no output. Neither changes a discriminant. -/
def Obligations.PreciseReturns : Prop :=
  ∀ (m : MicroStep) (s t : State), Runs m s → step s = .next t → t.busy = false →
    (t.phase = s.phase → s.phase ≠ .poisoned → s.phase ≠ .done →
      ∃ u k, OnlyReader (tick s) u ∧ TookBytes k (tick s) u ∧ u.nBits = s.nBits + 8 * k ∧
        (Inv s → pendingBits u = pendingBits s ∧ plainBits s.nBits u.bits.toNat = plainBits s.nBits s.bits.toNat) ∧
        (t = { u with status := .shortRead, busy := false, reply := some .shortRead } ∨
          u = tick s ∧ t = { u with status := .shortWrite, busy := false, reply := some .shortWrite })) ∧
    (t.phase = .poisoned → t.outBytes = s.outBytes ∧ t.produced = s.produced ∧ t.hist = s.hist) ∧
    (t.phase ≠ .done →
      t.zStep = s.zStep ∧ t.bStep = s.bStep ∧ t.sStep = s.sStep ∧ t.dStep = s.dStep ∧ t.yStep = s.yStep) ∧
    (t.phase = .poisoned ∨ t.phase = .done ∨ t.phase = s.phase)

/-- R303: the complete list of the statuses each micro-step can return, and that a call which goes on returns none. -/
def Obligations.StatusesOfEachMicroStep : Prop :=
  ∀ (m : MicroStep) (s t : State), Inv s → Runs m s → step s = .next t →
    (t.busy = true ∧ t.phase = .active ∧ t.status = s.status ∧ t.reply = s.reply) ∨
      (t.busy = false ∧ t.reply = some t.status ∧ t.status ∈ mayReturn s m ∧
        (t.status = .ok ∧ t.phase = .done ∨
          (t.status = .shortRead ∨ t.status = .shortWrite) ∧ t.phase = .active ∨
          t.status.isTerminal = true ∧ t.phase = .poisoned))

/-- R288, R65, R64, R66: why a call suspended or ran out: at `ShortRead` nothing is left of the input and it is not
closed, at `ShortWrite` the output space is used up and not closed; closed cursors give the two errors. -/
def Obligations.WhyACallSuspends : Prop :=
  ∀ (m : MicroStep) (s t : State), Inv s → Runs m s → step s = .next t → t.busy = false →
    (t.status = .shortRead → t.inBytes = [] ∧ t.inClosed = false) ∧
    (t.status = .shortWrite → t.outBytes.length = t.outCap ∧ t.outClosed = false) ∧
    (t.status = .unexpectedEndOfFile → t.inBytes = [] ∧ t.inClosed = true) ∧
    (t.status = .closedForWrites → t.outBytes.length = t.outCap ∧ t.outClosed = true)

/-- R146, R22: after a micro-step that completes fewer than eight bits are buffered, and never more than 22. -/
def Obligations.BufferedBitsBound : Prop :=
  ∀ (m : MicroStep) (s t : State), Inv s → Runs m s → step s = .next t →
    (t.busy = true ∨ t.phase = .done → t.nBits ≤ 7) ∧ t.nBits ≤ 22

/-- The invariant of Safety.lean (the ranges of R21 to R41, R146) is kept by every step: an element, an internal
micro-step, an operation of the host, or nothing. -/
def Obligations.StepKeepsInvariant : Prop :=
  ∀ s t : State, Inv s → step s = .next t → Inv t

/-- The invariant holds of a machine right after reset. -/
def Obligations.InvariantAtReset : Prop := Inv State.reset

/-- From a state that meets the invariant no step faults and none is refused: an error of the stream is a return to the
host (R320), never a stuck machine. -/
def Obligations.StepNeverStops : Prop :=
  ∀ s : State, Inv s → ∃ t, step s = .next t

/-- R268, R289: `Ok` is returned, and the phase becomes DONE, exactly by the comparison of a whole trailer that equals the
checksum; no call returns `Ok` for partial progress. -/
def Obligations.DoneMeansVerified : Prop :=
  ∀ (m : MicroStep) (s t : State), Inv s → Runs m s → step s = .next t →
    (t.phase = .done ↔ m = .zTrailer ∧ s.zTrlN = 4 ∧ s.zTrl = adlerValue s) ∧
    (t.phase = .done → t.status = .ok ∧ t.busy = false ∧ t.reply = some .ok) ∧
    (t.busy = false → t.reply = some .ok → t.phase = .done)

/-- R24, R290, R325: the phase changes only as the transition table says. -/
def Obligations.PhaseTable : Prop :=
  ∀ s t : State, Inv s → step s = .next t → t.phase ≠ s.phase →
    (∃ u, presented s = some (.reset, u) ∧ t.phase = .uninit) ∨
    (∃ v u, presented s = some (.init v, u) ∧ s.busy = false ∧
      t.phase = if v = s.cfg.version then .active else .poisoned) ∨
    (∃ out inp u, presented s = some (.decode out inp, u) ∧ s.busy = false ∧ t.phase = .poisoned ∧
      (s.phase = .uninit ∧ t.status = .initializerNotCalled ∨ s.phase = .done ∧ t.status = .invalidCallSequence ∨
        s.phase = .active ∧ (out = none ∨ inp = none) ∧ t.status = .badArgument)) ∨
    (presented s = none ∧ s.busy = true ∧ s.phase = .active ∧ t.busy = false ∧
      (t.phase = .done ∧ t.status = .ok ∨ t.phase = .poisoned ∧ t.status.isTerminal = true))

/-- R286: every call with finite cursors ends, within a number of micro-steps bounded by the bits and the output space
that are left when it begins. -/
def Obligations.EveryCallEnds : Prop :=
  ∀ s : State, Inv s → s.busy = true → s.requests = [] →
    ∃ n t, n ≤ 4 * (8 * s.inBytes.length + s.nBits + (s.outCap - s.outBytes.length)) + 4 ∧
      runSteps n s = .next t ∧ t.busy = false

/-- R13, R323: a micro-step suspended for want of input and run again with more input does what it would have done with
all of it at once. -/
def Obligations.ResumedMicroStepIsExact : Prop :=
  ∀ (m : MicroStep) (s t : State) (more : List Byte) (c : Bool), Inv s → Runs m s → s.requests = [] →
    step s = .next t → t.busy = false → t.status = .shortRead →
    step { s with inBytes := s.inBytes ++ more, inClosed := c } =
      step { t with busy := true, status := s.status, reply := s.reply, inBytes := more, inClosed := c }

/-- R65: a micro-step that completes does not look at the input beyond the bytes it takes, nor at the closed flag. -/
def Obligations.NoLookahead : Prop :=
  ∀ (m : MicroStep) (s t : State) (more : List Byte) (c : Bool), Inv s → Runs m s → s.requests = [] →
    step s = .next t → t.busy = true ∨ t.phase = .done →
    step { s with inBytes := s.inBytes ++ more, inClosed := c } =
      .next { t with inBytes := t.inBytes ++ more, inClosed := c }

/-- R295, R82: a stream decoded in two calls, split at any input byte or at any output capacity, gives the status, the
output and the consumption of one call over both parts; if it has not failed, it leaves the same registers too. -/
def Obligations.SplitCallsCompose : Prop :=
  ∀ (s t u : State) (o₁ o₂ : OutCursor) (i₁ : InCursor) (more : List Byte) (c : Bool),
    Inv s → s.phase = .active → s.busy = false → s.requests = [] →
    CallEnds (openCall (some o₁) (some i₁) s) t → t.phase = .active →
    CallEnds (openCall (some o₂) (some ⟨t.inBytes ++ more, c⟩) t) u →
    ∃ w, CallEnds (openCall (some ⟨t.outBytes.length + o₂.cap, o₂.closed⟩) (some ⟨i₁.bytes ++ more, c⟩) s) w ∧
      w.status = u.status ∧ w.phase = u.phase ∧ w.outBytes = t.outBytes ++ u.outBytes ∧
      w.consumed = t.consumed + u.consumed ∧ w.inBytes = u.inBytes ∧
      (u.phase ≠ .poisoned →
        w = { u with
          outBytes := t.outBytes ++ u.outBytes, consumed := t.consumed + u.consumed,
          outCap := t.outBytes.length + o₂.cap })

/-- R293: a call retried without anything new suspends again, with nothing consumed, nothing written and no register
changed. After `ShortRead` the retry offers output space, as R312 gives the output condition precedence in `S_COPY`. -/
def Obligations.RetryIsIdempotent : Prop :=
  ∀ (m : MicroStep) (s t : State) (o : OutCursor) (i : InCursor), Inv s → Runs m s → s.requests = [] →
    step s = .next t → t.busy = false →
    (t.status = .shortRead → 0 < o.cap → i = ⟨[], false⟩ →
      step (openCall (some o) (some i) t) = .next
        { openCall (some o) (some i) t with busy := false, reply := some .shortRead }) ∧
    (t.status = .shortRead → 0 < o.cap → i = ⟨[], true⟩ →
      Raises .unexpectedEndOfFile (openCall (some o) (some i) t) (step (openCall (some o) (some i) t))) ∧
    (t.status = .shortWrite → o = ⟨0, false⟩ →
      step (openCall (some o) (some i) t) = .next
        { openCall (some o) (some i) t with busy := false, reply := some .shortWrite }) ∧
    (t.status = .shortWrite → o = ⟨0, true⟩ →
      Raises .closedForWrites (openCall (some o) (some i) t) (step (openCall (some o) (some i) t)))

/-- R169, R328: the two reserved statuses are returned by no step. -/
def Obligations.ReservedStatusesNeverReturned : Prop :=
  ∀ s t : State, step s = .next t →
    (t.status = .badHuffmanMinimumCodeLength ∨ t.status = .internalInconsistency → t.status = s.status) ∧
    (t.reply = some .badHuffmanMinimumCodeLength ∨ t.reply = some .internalInconsistency → t.reply = s.reply)

/-- R300, R301: the 8-bit codes, one for each status, and which statuses are terminal. -/
def Obligations.StatusCodes : Prop :=
  (∀ k k' : Status, k.code = k'.code → k = k') ∧
  (∀ k : Status, k.isTerminal = false ↔ k = .ok ∨ k = .shortRead ∨ k = .shortWrite) ∧
  Status.ok.code = 0x00 ∧ Status.shortRead.code = 0x01 ∧ Status.shortWrite.code = 0x02 ∧
  Status.badVersion.code = 0x10 ∧ Status.badArgument.code = 0x11 ∧ Status.initializerNotCalled.code = 0x12 ∧
  Status.invalidCallSequence.code = 0x13 ∧ Status.closedForWrites.code = 0x14 ∧
  Status.unexpectedEndOfFile.code = 0x15 ∧ Status.badHuffmanCodeOverSubscribed.code = 0x20 ∧
  Status.badHuffmanCodeUnderSubscribed.code = 0x21 ∧ Status.badHuffmanCodeLengthCount.code = 0x22 ∧
  Status.badHuffmanCodeLengthRepetition.code = 0x23 ∧ Status.badHuffmanCode.code = 0x24 ∧
  Status.badHuffmanMinimumCodeLength.code = 0x25 ∧ Status.badDistance.code = 0x26 ∧
  Status.badDistanceCodeCount.code = 0x27 ∧ Status.badFlateBlock.code = 0x28 ∧
  Status.badLiteralLengthCodeCount.code = 0x29 ∧ Status.inconsistentStoredBlockLength.code = 0x2A ∧
  Status.missingEndOfBlockCode.code = 0x2B ∧ Status.noHuffmanCodes.code = 0x2C ∧
  Status.checksumMismatch.code = 0x30 ∧ Status.invalidZlibCompressionMethod.code = 0x31 ∧
  Status.invalidZlibCompressionWindowSize.code = 0x32 ∧ Status.invalidZlibParityCheck.code = 0x33 ∧
  Status.unsupportedPresetDictionary.code = 0x34 ∧ Status.internalInconsistency.code = 0x3F

/-- R90: an element executes only where the grammar admits it: `exec` never faults, an operation of the host always
answers a next state, and an element is refused only as `elementNotCurrent` (log entry 13). -/
def Obligations.ElementsOnlyWhereCurrent : Prop :=
  ∀ (i : Instr) (s : State),
    ((∃ t, exec i s = .next t) ∨ i.isHost = false ∧ exec i s = .refused .elementNotCurrent) ∧
    (∀ m, microStep s = some m →
      (formatOf i = .bhdr → (∃ t, exec i s = .next t) → m = .bHeader) ∧
      (formatOf i = .zhdr → (∃ t, exec i s = .next t) → m = .zFlg) ∧
      (formatOf i = .ztrl → (∃ t, exec i s = .next t) → m = .zTrailer ∧ 4 ≤ s.zTrlN) ∧
      (formatOf i = .stored → (∃ t, exec i s = .next t) → m = .sNlen) ∧
      (formatOf i = .raw → (∃ t, exec i s = .next t) → m = .sCopy ∧ s.sRem ≠ 0) ∧
      (formatOf i = .dynhdr → (∃ t, exec i s = .next t) → m = .dHclen) ∧
      (formatOf i = .cllen → (∃ t, exec i s = .next t) → m = .dCllens ∧ s.dI < s.nClen) ∧
      (formatOf i = .clsym → (∃ t, exec i s = .next t) → m = .dSym ∧ s.dI ≠ s.nLit + s.nDist ∨ m = .dExtra) ∧
      (formatOf i = .llsym → (∃ t, exec i s = .next t) → m = .yLitlen ∨ m = .yEmit ∨ m = .yLextra) ∧
      (formatOf i = .dsym → (∃ t, exec i s = .next t) → m = .yDsym ∨ m = .yDextra ∨ m = .yCopy))
end

