-- ==== Sys2Proof/Laws/State.lean ====
section
/-! SUPPORT. What each named update of the state does to each field: one lemma per update, a clause per field, so that
`simp` reads any field of an updated state and no later proof unfolds a record update. -/

namespace Sys2Proof.Machine

/-- A byte taken from the input cursor: the cursor, `in_total` and `consumed` (R64). -/
@[simp] theorem dropInByte_fields (rest : List Byte) (s : State) :
    (dropInByte rest s).cfg = s.cfg ∧ (dropInByte rest s).bits = s.bits ∧ (dropInByte rest s).nBits = s.nBits ∧
      (dropInByte rest s).inTotal = s.inTotal + 1 ∧ (dropInByte rest s).phase = s.phase ∧
      (dropInByte rest s).busy = s.busy ∧ (dropInByte rest s).status = s.status ∧
      (dropInByte rest s).final = s.final ∧ (dropInByte rest s).btype = s.btype ∧
      (dropInByte rest s).zStep = s.zStep ∧ (dropInByte rest s).bStep = s.bStep ∧
      (dropInByte rest s).sStep = s.sStep ∧ (dropInByte rest s).dStep = s.dStep ∧
      (dropInByte rest s).yStep = s.yStep ∧ (dropInByte rest s).zCmf = s.zCmf ∧ (dropInByte rest s).zTrl = s.zTrl ∧
      (dropInByte rest s).zTrlN = s.zTrlN ∧ (dropInByte rest s).adlerA = s.adlerA ∧
      (dropInByte rest s).adlerB = s.adlerB ∧ (dropInByte rest s).sLen = s.sLen ∧
      (dropInByte rest s).sRem = s.sRem ∧ (dropInByte rest s).nLit = s.nLit ∧ (dropInByte rest s).nDist = s.nDist ∧
      (dropInByte rest s).nClen = s.nClen ∧ (dropInByte rest s).dI = s.dI ∧ (dropInByte rest s).repSym = s.repSym ∧
      (dropInByte rest s).repVal = s.repVal ∧ (dropInByte rest s).yLit = s.yLit ∧
      (dropInByte rest s).yLsym = s.yLsym ∧ (dropInByte rest s).yLength = s.yLength ∧
      (dropInByte rest s).yDsym = s.yDsym ∧ (dropInByte rest s).yDist = s.yDist ∧
      (dropInByte rest s).yRem = s.yRem ∧ (dropInByte rest s).hist = s.hist ∧
      (dropInByte rest s).produced = s.produced ∧ (dropInByte rest s).clLen = s.clLen ∧
      (dropInByte rest s).llLen = s.llLen ∧ (dropInByte rest s).dLen = s.dLen ∧ (dropInByte rest s).inBytes = rest ∧
      (dropInByte rest s).inClosed = s.inClosed ∧ (dropInByte rest s).consumed = s.consumed + 1 ∧
      (dropInByte rest s).outCap = s.outCap ∧ (dropInByte rest s).outClosed = s.outClosed ∧
      (dropInByte rest s).outBytes = s.outBytes ∧ (dropInByte rest s).reply = s.reply ∧
      (dropInByte rest s).requests = s.requests :=
  ⟨rfl, rfl, rfl, rfl, rfl, rfl, rfl, rfl, rfl, rfl, rfl, rfl, rfl, rfl, rfl, rfl, rfl, rfl, rfl, rfl, rfl, rfl,
    rfl, rfl, rfl, rfl, rfl, rfl, rfl, rfl, rfl, rfl, rfl, rfl, rfl, rfl, rfl, rfl, rfl, rfl, rfl, rfl, rfl, rfl,
    rfl, rfl⟩

/-- The push (R141): `bits` and `n_bits`. -/
@[simp] theorem pushByte_fields (b : Byte) (s : State) :
    (pushByte b s).cfg = s.cfg ∧ (pushByte b s).bits = s.bits ||| (b.setWidth 32 <<< s.nBits) ∧
      (pushByte b s).nBits = s.nBits + 8 ∧ (pushByte b s).inTotal = s.inTotal ∧ (pushByte b s).phase = s.phase ∧
      (pushByte b s).busy = s.busy ∧ (pushByte b s).status = s.status ∧ (pushByte b s).final = s.final ∧
      (pushByte b s).btype = s.btype ∧ (pushByte b s).zStep = s.zStep ∧ (pushByte b s).bStep = s.bStep ∧
      (pushByte b s).sStep = s.sStep ∧ (pushByte b s).dStep = s.dStep ∧ (pushByte b s).yStep = s.yStep ∧
      (pushByte b s).zCmf = s.zCmf ∧ (pushByte b s).zTrl = s.zTrl ∧ (pushByte b s).zTrlN = s.zTrlN ∧
      (pushByte b s).adlerA = s.adlerA ∧ (pushByte b s).adlerB = s.adlerB ∧ (pushByte b s).sLen = s.sLen ∧
      (pushByte b s).sRem = s.sRem ∧ (pushByte b s).nLit = s.nLit ∧ (pushByte b s).nDist = s.nDist ∧
      (pushByte b s).nClen = s.nClen ∧ (pushByte b s).dI = s.dI ∧ (pushByte b s).repSym = s.repSym ∧
      (pushByte b s).repVal = s.repVal ∧ (pushByte b s).yLit = s.yLit ∧ (pushByte b s).yLsym = s.yLsym ∧
      (pushByte b s).yLength = s.yLength ∧ (pushByte b s).yDsym = s.yDsym ∧ (pushByte b s).yDist = s.yDist ∧
      (pushByte b s).yRem = s.yRem ∧ (pushByte b s).hist = s.hist ∧ (pushByte b s).produced = s.produced ∧
      (pushByte b s).clLen = s.clLen ∧ (pushByte b s).llLen = s.llLen ∧ (pushByte b s).dLen = s.dLen ∧
      (pushByte b s).inBytes = s.inBytes ∧ (pushByte b s).inClosed = s.inClosed ∧
      (pushByte b s).consumed = s.consumed ∧ (pushByte b s).outCap = s.outCap ∧
      (pushByte b s).outClosed = s.outClosed ∧ (pushByte b s).outBytes = s.outBytes ∧
      (pushByte b s).reply = s.reply ∧ (pushByte b s).requests = s.requests :=
  ⟨rfl, rfl, rfl, rfl, rfl, rfl, rfl, rfl, rfl, rfl, rfl, rfl, rfl, rfl, rfl, rfl, rfl, rfl, rfl, rfl, rfl, rfl,
    rfl, rfl, rfl, rfl, rfl, rfl, rfl, rfl, rfl, rfl, rfl, rfl, rfl, rfl, rfl, rfl, rfl, rfl, rfl, rfl, rfl, rfl,
    rfl, rfl⟩

/-- The state `take(n)` leaves (R142). -/
@[simp] theorem dropBits_fields (n : Nat) (s : State) :
    (dropBits n s).cfg = s.cfg ∧ (dropBits n s).bits = s.bits >>> n ∧ (dropBits n s).nBits = s.nBits - n ∧
      (dropBits n s).inTotal = s.inTotal ∧ (dropBits n s).phase = s.phase ∧ (dropBits n s).busy = s.busy ∧
      (dropBits n s).status = s.status ∧ (dropBits n s).final = s.final ∧ (dropBits n s).btype = s.btype ∧
      (dropBits n s).zStep = s.zStep ∧ (dropBits n s).bStep = s.bStep ∧ (dropBits n s).sStep = s.sStep ∧
      (dropBits n s).dStep = s.dStep ∧ (dropBits n s).yStep = s.yStep ∧ (dropBits n s).zCmf = s.zCmf ∧
      (dropBits n s).zTrl = s.zTrl ∧ (dropBits n s).zTrlN = s.zTrlN ∧ (dropBits n s).adlerA = s.adlerA ∧
      (dropBits n s).adlerB = s.adlerB ∧ (dropBits n s).sLen = s.sLen ∧ (dropBits n s).sRem = s.sRem ∧
      (dropBits n s).nLit = s.nLit ∧ (dropBits n s).nDist = s.nDist ∧ (dropBits n s).nClen = s.nClen ∧
      (dropBits n s).dI = s.dI ∧ (dropBits n s).repSym = s.repSym ∧ (dropBits n s).repVal = s.repVal ∧
      (dropBits n s).yLit = s.yLit ∧ (dropBits n s).yLsym = s.yLsym ∧ (dropBits n s).yLength = s.yLength ∧
      (dropBits n s).yDsym = s.yDsym ∧ (dropBits n s).yDist = s.yDist ∧ (dropBits n s).yRem = s.yRem ∧
      (dropBits n s).hist = s.hist ∧ (dropBits n s).produced = s.produced ∧ (dropBits n s).clLen = s.clLen ∧
      (dropBits n s).llLen = s.llLen ∧ (dropBits n s).dLen = s.dLen ∧ (dropBits n s).inBytes = s.inBytes ∧
      (dropBits n s).inClosed = s.inClosed ∧ (dropBits n s).consumed = s.consumed ∧
      (dropBits n s).outCap = s.outCap ∧ (dropBits n s).outClosed = s.outClosed ∧
      (dropBits n s).outBytes = s.outBytes ∧ (dropBits n s).reply = s.reply ∧ (dropBits n s).requests = s.requests :=
  ⟨rfl, rfl, rfl, rfl, rfl, rfl, rfl, rfl, rfl, rfl, rfl, rfl, rfl, rfl, rfl, rfl, rfl, rfl, rfl, rfl, rfl, rfl,
    rfl, rfl, rfl, rfl, rfl, rfl, rfl, rfl, rfl, rfl, rfl, rfl, rfl, rfl, rfl, rfl, rfl, rfl, rfl, rfl, rfl, rfl,
    rfl, rfl⟩

/-- `align_to_byte()` (R144). -/
@[simp] theorem alignToByte_fields (s : State) :
    (alignToByte s).cfg = s.cfg ∧ (alignToByte s).bits = s.bits >>> (s.nBits % 8) ∧
      (alignToByte s).nBits = s.nBits - s.nBits % 8 ∧ (alignToByte s).inTotal = s.inTotal ∧
      (alignToByte s).phase = s.phase ∧ (alignToByte s).busy = s.busy ∧ (alignToByte s).status = s.status ∧
      (alignToByte s).final = s.final ∧ (alignToByte s).btype = s.btype ∧ (alignToByte s).zStep = s.zStep ∧
      (alignToByte s).bStep = s.bStep ∧ (alignToByte s).sStep = s.sStep ∧ (alignToByte s).dStep = s.dStep ∧
      (alignToByte s).yStep = s.yStep ∧ (alignToByte s).zCmf = s.zCmf ∧ (alignToByte s).zTrl = s.zTrl ∧
      (alignToByte s).zTrlN = s.zTrlN ∧ (alignToByte s).adlerA = s.adlerA ∧ (alignToByte s).adlerB = s.adlerB ∧
      (alignToByte s).sLen = s.sLen ∧ (alignToByte s).sRem = s.sRem ∧ (alignToByte s).nLit = s.nLit ∧
      (alignToByte s).nDist = s.nDist ∧ (alignToByte s).nClen = s.nClen ∧ (alignToByte s).dI = s.dI ∧
      (alignToByte s).repSym = s.repSym ∧ (alignToByte s).repVal = s.repVal ∧ (alignToByte s).yLit = s.yLit ∧
      (alignToByte s).yLsym = s.yLsym ∧ (alignToByte s).yLength = s.yLength ∧ (alignToByte s).yDsym = s.yDsym ∧
      (alignToByte s).yDist = s.yDist ∧ (alignToByte s).yRem = s.yRem ∧ (alignToByte s).hist = s.hist ∧
      (alignToByte s).produced = s.produced ∧ (alignToByte s).clLen = s.clLen ∧ (alignToByte s).llLen = s.llLen ∧
      (alignToByte s).dLen = s.dLen ∧ (alignToByte s).inBytes = s.inBytes ∧ (alignToByte s).inClosed = s.inClosed ∧
      (alignToByte s).consumed = s.consumed ∧ (alignToByte s).outCap = s.outCap ∧
      (alignToByte s).outClosed = s.outClosed ∧ (alignToByte s).outBytes = s.outBytes ∧
      (alignToByte s).reply = s.reply ∧ (alignToByte s).requests = s.requests :=
  ⟨rfl, rfl, rfl, rfl, rfl, rfl, rfl, rfl, rfl, rfl, rfl, rfl, rfl, rfl, rfl, rfl, rfl, rfl, rfl, rfl, rfl, rfl,
    rfl, rfl, rfl, rfl, rfl, rfl, rfl, rfl, rfl, rfl, rfl, rfl, rfl, rfl, rfl, rfl, rfl, rfl, rfl, rfl, rfl, rfl,
    rfl, rfl⟩

/-- `discard_bits()` (R145). -/
@[simp] theorem discardBits_fields (s : State) :
    (discardBits s).cfg = s.cfg ∧ (discardBits s).bits = 0 ∧ (discardBits s).nBits = 0 ∧
      (discardBits s).inTotal = s.inTotal ∧ (discardBits s).phase = s.phase ∧ (discardBits s).busy = s.busy ∧
      (discardBits s).status = s.status ∧ (discardBits s).final = s.final ∧ (discardBits s).btype = s.btype ∧
      (discardBits s).zStep = s.zStep ∧ (discardBits s).bStep = s.bStep ∧ (discardBits s).sStep = s.sStep ∧
      (discardBits s).dStep = s.dStep ∧ (discardBits s).yStep = s.yStep ∧ (discardBits s).zCmf = s.zCmf ∧
      (discardBits s).zTrl = s.zTrl ∧ (discardBits s).zTrlN = s.zTrlN ∧ (discardBits s).adlerA = s.adlerA ∧
      (discardBits s).adlerB = s.adlerB ∧ (discardBits s).sLen = s.sLen ∧ (discardBits s).sRem = s.sRem ∧
      (discardBits s).nLit = s.nLit ∧ (discardBits s).nDist = s.nDist ∧ (discardBits s).nClen = s.nClen ∧
      (discardBits s).dI = s.dI ∧ (discardBits s).repSym = s.repSym ∧ (discardBits s).repVal = s.repVal ∧
      (discardBits s).yLit = s.yLit ∧ (discardBits s).yLsym = s.yLsym ∧ (discardBits s).yLength = s.yLength ∧
      (discardBits s).yDsym = s.yDsym ∧ (discardBits s).yDist = s.yDist ∧ (discardBits s).yRem = s.yRem ∧
      (discardBits s).hist = s.hist ∧ (discardBits s).produced = s.produced ∧ (discardBits s).clLen = s.clLen ∧
      (discardBits s).llLen = s.llLen ∧ (discardBits s).dLen = s.dLen ∧ (discardBits s).inBytes = s.inBytes ∧
      (discardBits s).inClosed = s.inClosed ∧ (discardBits s).consumed = s.consumed ∧
      (discardBits s).outCap = s.outCap ∧ (discardBits s).outClosed = s.outClosed ∧
      (discardBits s).outBytes = s.outBytes ∧ (discardBits s).reply = s.reply ∧
      (discardBits s).requests = s.requests :=
  ⟨rfl, rfl, rfl, rfl, rfl, rfl, rfl, rfl, rfl, rfl, rfl, rfl, rfl, rfl, rfl, rfl, rfl, rfl, rfl, rfl, rfl, rfl,
    rfl, rfl, rfl, rfl, rfl, rfl, rfl, rfl, rfl, rfl, rfl, rfl, rfl, rfl, rfl, rfl, rfl, rfl, rfl, rfl, rfl, rfl,
    rfl, rfl⟩

/-- `AdlerUpdate(b)` (R262). -/
@[simp] theorem adlerUpdate_fields (b : Byte) (s : State) :
    (adlerUpdate b s).cfg = s.cfg ∧ (adlerUpdate b s).bits = s.bits ∧ (adlerUpdate b s).nBits = s.nBits ∧
      (adlerUpdate b s).inTotal = s.inTotal ∧ (adlerUpdate b s).phase = s.phase ∧ (adlerUpdate b s).busy = s.busy ∧
      (adlerUpdate b s).status = s.status ∧ (adlerUpdate b s).final = s.final ∧ (adlerUpdate b s).btype = s.btype ∧
      (adlerUpdate b s).zStep = s.zStep ∧ (adlerUpdate b s).bStep = s.bStep ∧ (adlerUpdate b s).sStep = s.sStep ∧
      (adlerUpdate b s).dStep = s.dStep ∧ (adlerUpdate b s).yStep = s.yStep ∧ (adlerUpdate b s).zCmf = s.zCmf ∧
      (adlerUpdate b s).zTrl = s.zTrl ∧ (adlerUpdate b s).zTrlN = s.zTrlN ∧
      (adlerUpdate b s).adlerA = BitVec.ofNat 16 ((s.adlerA.toNat + b.toNat) % adlerMod) ∧
      (adlerUpdate b s).adlerB = BitVec.ofNat 16 ((s.adlerB.toNat + (s.adlerA.toNat + b.toNat) % adlerMod) % adlerMod) ∧
      (adlerUpdate b s).sLen = s.sLen ∧ (adlerUpdate b s).sRem = s.sRem ∧ (adlerUpdate b s).nLit = s.nLit ∧
      (adlerUpdate b s).nDist = s.nDist ∧ (adlerUpdate b s).nClen = s.nClen ∧ (adlerUpdate b s).dI = s.dI ∧
      (adlerUpdate b s).repSym = s.repSym ∧ (adlerUpdate b s).repVal = s.repVal ∧ (adlerUpdate b s).yLit = s.yLit ∧
      (adlerUpdate b s).yLsym = s.yLsym ∧ (adlerUpdate b s).yLength = s.yLength ∧
      (adlerUpdate b s).yDsym = s.yDsym ∧ (adlerUpdate b s).yDist = s.yDist ∧ (adlerUpdate b s).yRem = s.yRem ∧
      (adlerUpdate b s).hist = s.hist ∧ (adlerUpdate b s).produced = s.produced ∧
      (adlerUpdate b s).clLen = s.clLen ∧ (adlerUpdate b s).llLen = s.llLen ∧ (adlerUpdate b s).dLen = s.dLen ∧
      (adlerUpdate b s).inBytes = s.inBytes ∧ (adlerUpdate b s).inClosed = s.inClosed ∧
      (adlerUpdate b s).consumed = s.consumed ∧ (adlerUpdate b s).outCap = s.outCap ∧
      (adlerUpdate b s).outClosed = s.outClosed ∧ (adlerUpdate b s).outBytes = s.outBytes ∧
      (adlerUpdate b s).reply = s.reply ∧ (adlerUpdate b s).requests = s.requests :=
  ⟨rfl, rfl, rfl, rfl, rfl, rfl, rfl, rfl, rfl, rfl, rfl, rfl, rfl, rfl, rfl, rfl, rfl, rfl, rfl, rfl, rfl, rfl,
    rfl, rfl, rfl, rfl, rfl, rfl, rfl, rfl, rfl, rfl, rfl, rfl, rfl, rfl, rfl, rfl, rfl, rfl, rfl, rfl, rfl, rfl,
    rfl, rfl⟩

/-- `Emit(b)` (R246). -/
@[simp] theorem emit_fields (b : Byte) (s : State) :
    (emit b s).cfg = s.cfg ∧ (emit b s).bits = s.bits ∧ (emit b s).nBits = s.nBits ∧
      (emit b s).inTotal = s.inTotal ∧ (emit b s).phase = s.phase ∧ (emit b s).busy = s.busy ∧
      (emit b s).status = s.status ∧ (emit b s).final = s.final ∧ (emit b s).btype = s.btype ∧
      (emit b s).zStep = s.zStep ∧ (emit b s).bStep = s.bStep ∧ (emit b s).sStep = s.sStep ∧
      (emit b s).dStep = s.dStep ∧ (emit b s).yStep = s.yStep ∧ (emit b s).zCmf = s.zCmf ∧
      (emit b s).zTrl = s.zTrl ∧ (emit b s).zTrlN = s.zTrlN ∧
      (emit b s).adlerA = BitVec.ofNat 16 ((s.adlerA.toNat + b.toNat) % adlerMod) ∧
      (emit b s).adlerB = BitVec.ofNat 16 ((s.adlerB.toNat + (s.adlerA.toNat + b.toNat) % adlerMod) % adlerMod) ∧
      (emit b s).sLen = s.sLen ∧ (emit b s).sRem = s.sRem ∧ (emit b s).nLit = s.nLit ∧ (emit b s).nDist = s.nDist ∧
      (emit b s).nClen = s.nClen ∧ (emit b s).dI = s.dI ∧ (emit b s).repSym = s.repSym ∧
      (emit b s).repVal = s.repVal ∧ (emit b s).yLit = s.yLit ∧ (emit b s).yLsym = s.yLsym ∧
      (emit b s).yLength = s.yLength ∧ (emit b s).yDsym = s.yDsym ∧ (emit b s).yDist = s.yDist ∧
      (emit b s).yRem = s.yRem ∧ (emit b s).hist = memWrite s.hist (s.produced % windowSize) b ∧
      (emit b s).produced = s.produced + 1 ∧ (emit b s).clLen = s.clLen ∧ (emit b s).llLen = s.llLen ∧
      (emit b s).dLen = s.dLen ∧ (emit b s).inBytes = s.inBytes ∧ (emit b s).inClosed = s.inClosed ∧
      (emit b s).consumed = s.consumed ∧ (emit b s).outCap = s.outCap ∧ (emit b s).outClosed = s.outClosed ∧
      (emit b s).outBytes = s.outBytes ++ [b] ∧ (emit b s).reply = s.reply ∧ (emit b s).requests = s.requests :=
  ⟨rfl, rfl, rfl, rfl, rfl, rfl, rfl, rfl, rfl, rfl, rfl, rfl, rfl, rfl, rfl, rfl, rfl, rfl, rfl, rfl, rfl, rfl,
    rfl, rfl, rfl, rfl, rfl, rfl, rfl, rfl, rfl, rfl, rfl, rfl, rfl, rfl, rfl, rfl, rfl, rfl, rfl, rfl, rfl, rfl,
    rfl, rfl⟩

/-- `suspend K` (R288). -/
@[simp] theorem endSuspended_fields (k : Status) (s : State) :
    (endSuspended k s).cfg = s.cfg ∧ (endSuspended k s).bits = s.bits ∧ (endSuspended k s).nBits = s.nBits ∧
      (endSuspended k s).inTotal = s.inTotal ∧ (endSuspended k s).phase = s.phase ∧
      (endSuspended k s).busy = false ∧ (endSuspended k s).status = k ∧ (endSuspended k s).final = s.final ∧
      (endSuspended k s).btype = s.btype ∧ (endSuspended k s).zStep = s.zStep ∧ (endSuspended k s).bStep = s.bStep ∧
      (endSuspended k s).sStep = s.sStep ∧ (endSuspended k s).dStep = s.dStep ∧ (endSuspended k s).yStep = s.yStep ∧
      (endSuspended k s).zCmf = s.zCmf ∧ (endSuspended k s).zTrl = s.zTrl ∧ (endSuspended k s).zTrlN = s.zTrlN ∧
      (endSuspended k s).adlerA = s.adlerA ∧ (endSuspended k s).adlerB = s.adlerB ∧
      (endSuspended k s).sLen = s.sLen ∧ (endSuspended k s).sRem = s.sRem ∧ (endSuspended k s).nLit = s.nLit ∧
      (endSuspended k s).nDist = s.nDist ∧ (endSuspended k s).nClen = s.nClen ∧ (endSuspended k s).dI = s.dI ∧
      (endSuspended k s).repSym = s.repSym ∧ (endSuspended k s).repVal = s.repVal ∧
      (endSuspended k s).yLit = s.yLit ∧ (endSuspended k s).yLsym = s.yLsym ∧
      (endSuspended k s).yLength = s.yLength ∧ (endSuspended k s).yDsym = s.yDsym ∧
      (endSuspended k s).yDist = s.yDist ∧ (endSuspended k s).yRem = s.yRem ∧ (endSuspended k s).hist = s.hist ∧
      (endSuspended k s).produced = s.produced ∧ (endSuspended k s).clLen = s.clLen ∧
      (endSuspended k s).llLen = s.llLen ∧ (endSuspended k s).dLen = s.dLen ∧
      (endSuspended k s).inBytes = s.inBytes ∧ (endSuspended k s).inClosed = s.inClosed ∧
      (endSuspended k s).consumed = s.consumed ∧ (endSuspended k s).outCap = s.outCap ∧
      (endSuspended k s).outClosed = s.outClosed ∧ (endSuspended k s).outBytes = s.outBytes ∧
      (endSuspended k s).reply = some k ∧ (endSuspended k s).requests = s.requests :=
  ⟨rfl, rfl, rfl, rfl, rfl, rfl, rfl, rfl, rfl, rfl, rfl, rfl, rfl, rfl, rfl, rfl, rfl, rfl, rfl, rfl, rfl, rfl,
    rfl, rfl, rfl, rfl, rfl, rfl, rfl, rfl, rfl, rfl, rfl, rfl, rfl, rfl, rfl, rfl, rfl, rfl, rfl, rfl, rfl, rfl,
    rfl, rfl⟩

/-- `raise E` (R320). -/
@[simp] theorem endRaised_fields (e : Status) (s : State) :
    (endRaised e s).cfg = s.cfg ∧ (endRaised e s).bits = s.bits ∧ (endRaised e s).nBits = s.nBits ∧
      (endRaised e s).inTotal = s.inTotal ∧ (endRaised e s).phase = .poisoned ∧ (endRaised e s).busy = false ∧
      (endRaised e s).status = e ∧ (endRaised e s).final = s.final ∧ (endRaised e s).btype = s.btype ∧
      (endRaised e s).zStep = s.zStep ∧ (endRaised e s).bStep = s.bStep ∧ (endRaised e s).sStep = s.sStep ∧
      (endRaised e s).dStep = s.dStep ∧ (endRaised e s).yStep = s.yStep ∧ (endRaised e s).zCmf = s.zCmf ∧
      (endRaised e s).zTrl = s.zTrl ∧ (endRaised e s).zTrlN = s.zTrlN ∧ (endRaised e s).adlerA = s.adlerA ∧
      (endRaised e s).adlerB = s.adlerB ∧ (endRaised e s).sLen = s.sLen ∧ (endRaised e s).sRem = s.sRem ∧
      (endRaised e s).nLit = s.nLit ∧ (endRaised e s).nDist = s.nDist ∧ (endRaised e s).nClen = s.nClen ∧
      (endRaised e s).dI = s.dI ∧ (endRaised e s).repSym = s.repSym ∧ (endRaised e s).repVal = s.repVal ∧
      (endRaised e s).yLit = s.yLit ∧ (endRaised e s).yLsym = s.yLsym ∧ (endRaised e s).yLength = s.yLength ∧
      (endRaised e s).yDsym = s.yDsym ∧ (endRaised e s).yDist = s.yDist ∧ (endRaised e s).yRem = s.yRem ∧
      (endRaised e s).hist = s.hist ∧ (endRaised e s).produced = s.produced ∧ (endRaised e s).clLen = s.clLen ∧
      (endRaised e s).llLen = s.llLen ∧ (endRaised e s).dLen = s.dLen ∧ (endRaised e s).inBytes = s.inBytes ∧
      (endRaised e s).inClosed = s.inClosed ∧ (endRaised e s).consumed = s.consumed ∧
      (endRaised e s).outCap = s.outCap ∧ (endRaised e s).outClosed = s.outClosed ∧
      (endRaised e s).outBytes = s.outBytes ∧ (endRaised e s).reply = some e ∧ (endRaised e s).requests = s.requests :=
  ⟨rfl, rfl, rfl, rfl, rfl, rfl, rfl, rfl, rfl, rfl, rfl, rfl, rfl, rfl, rfl, rfl, rfl, rfl, rfl, rfl, rfl, rfl,
    rfl, rfl, rfl, rfl, rfl, rfl, rfl, rfl, rfl, rfl, rfl, rfl, rfl, rfl, rfl, rfl, rfl, rfl, rfl, rfl, rfl, rfl,
    rfl, rfl⟩

/-- Completion (R289). -/
@[simp] theorem endDone_fields (s : State) :
    (endDone s).cfg = s.cfg ∧ (endDone s).bits = s.bits ∧ (endDone s).nBits = s.nBits ∧
      (endDone s).inTotal = s.inTotal ∧ (endDone s).phase = .done ∧ (endDone s).busy = false ∧
      (endDone s).status = .ok ∧ (endDone s).final = s.final ∧ (endDone s).btype = s.btype ∧
      (endDone s).zStep = s.zStep ∧ (endDone s).bStep = s.bStep ∧ (endDone s).sStep = s.sStep ∧
      (endDone s).dStep = s.dStep ∧ (endDone s).yStep = s.yStep ∧ (endDone s).zCmf = s.zCmf ∧
      (endDone s).zTrl = s.zTrl ∧ (endDone s).zTrlN = s.zTrlN ∧ (endDone s).adlerA = s.adlerA ∧
      (endDone s).adlerB = s.adlerB ∧ (endDone s).sLen = s.sLen ∧ (endDone s).sRem = s.sRem ∧
      (endDone s).nLit = s.nLit ∧ (endDone s).nDist = s.nDist ∧ (endDone s).nClen = s.nClen ∧
      (endDone s).dI = s.dI ∧ (endDone s).repSym = s.repSym ∧ (endDone s).repVal = s.repVal ∧
      (endDone s).yLit = s.yLit ∧ (endDone s).yLsym = s.yLsym ∧ (endDone s).yLength = s.yLength ∧
      (endDone s).yDsym = s.yDsym ∧ (endDone s).yDist = s.yDist ∧ (endDone s).yRem = s.yRem ∧
      (endDone s).hist = s.hist ∧ (endDone s).produced = s.produced ∧ (endDone s).clLen = s.clLen ∧
      (endDone s).llLen = s.llLen ∧ (endDone s).dLen = s.dLen ∧ (endDone s).inBytes = s.inBytes ∧
      (endDone s).inClosed = s.inClosed ∧ (endDone s).consumed = s.consumed ∧ (endDone s).outCap = s.outCap ∧
      (endDone s).outClosed = s.outClosed ∧ (endDone s).outBytes = s.outBytes ∧ (endDone s).reply = some .ok ∧
      (endDone s).requests = s.requests :=
  ⟨rfl, rfl, rfl, rfl, rfl, rfl, rfl, rfl, rfl, rfl, rfl, rfl, rfl, rfl, rfl, rfl, rfl, rfl, rfl, rfl, rfl, rfl,
    rfl, rfl, rfl, rfl, rfl, rfl, rfl, rfl, rfl, rfl, rfl, rfl, rfl, rfl, rfl, rfl, rfl, rfl, rfl, rfl, rfl, rfl,
    rfl, rfl⟩

/-- What a block header records (R181). -/
@[simp] theorem recordHeader_fields (f : Bool) (t : BitVec 2) (s : State) :
    (recordHeader f t s).cfg = s.cfg ∧ (recordHeader f t s).bits = s.bits ∧ (recordHeader f t s).nBits = s.nBits ∧
      (recordHeader f t s).inTotal = s.inTotal ∧ (recordHeader f t s).phase = s.phase ∧
      (recordHeader f t s).busy = s.busy ∧ (recordHeader f t s).status = s.status ∧ (recordHeader f t s).final = f ∧
      (recordHeader f t s).btype = t ∧ (recordHeader f t s).zStep = s.zStep ∧ (recordHeader f t s).bStep = s.bStep ∧
      (recordHeader f t s).sStep = s.sStep ∧ (recordHeader f t s).dStep = s.dStep ∧
      (recordHeader f t s).yStep = s.yStep ∧ (recordHeader f t s).zCmf = s.zCmf ∧
      (recordHeader f t s).zTrl = s.zTrl ∧ (recordHeader f t s).zTrlN = s.zTrlN ∧
      (recordHeader f t s).adlerA = s.adlerA ∧ (recordHeader f t s).adlerB = s.adlerB ∧
      (recordHeader f t s).sLen = s.sLen ∧ (recordHeader f t s).sRem = s.sRem ∧ (recordHeader f t s).nLit = s.nLit ∧
      (recordHeader f t s).nDist = s.nDist ∧ (recordHeader f t s).nClen = s.nClen ∧ (recordHeader f t s).dI = s.dI ∧
      (recordHeader f t s).repSym = s.repSym ∧ (recordHeader f t s).repVal = s.repVal ∧
      (recordHeader f t s).yLit = s.yLit ∧ (recordHeader f t s).yLsym = s.yLsym ∧
      (recordHeader f t s).yLength = s.yLength ∧ (recordHeader f t s).yDsym = s.yDsym ∧
      (recordHeader f t s).yDist = s.yDist ∧ (recordHeader f t s).yRem = s.yRem ∧
      (recordHeader f t s).hist = s.hist ∧ (recordHeader f t s).produced = s.produced ∧
      (recordHeader f t s).clLen = s.clLen ∧ (recordHeader f t s).llLen = s.llLen ∧
      (recordHeader f t s).dLen = s.dLen ∧ (recordHeader f t s).inBytes = s.inBytes ∧
      (recordHeader f t s).inClosed = s.inClosed ∧ (recordHeader f t s).consumed = s.consumed ∧
      (recordHeader f t s).outCap = s.outCap ∧ (recordHeader f t s).outClosed = s.outClosed ∧
      (recordHeader f t s).outBytes = s.outBytes ∧ (recordHeader f t s).reply = s.reply ∧
      (recordHeader f t s).requests = s.requests :=
  ⟨rfl, rfl, rfl, rfl, rfl, rfl, rfl, rfl, rfl, rfl, rfl, rfl, rfl, rfl, rfl, rfl, rfl, rfl, rfl, rfl, rfl, rfl,
    rfl, rfl, rfl, rfl, rfl, rfl, rfl, rfl, rfl, rfl, rfl, rfl, rfl, rfl, rfl, rfl, rfl, rfl, rfl, rfl, rfl, rfl,
    rfl, rfl⟩

/-- The arrays cleared by `D_HCLEN` (R205). -/
@[simp] theorem clearLengths_fields (s : State) :
    (clearLengths s).cfg = s.cfg ∧ (clearLengths s).bits = s.bits ∧ (clearLengths s).nBits = s.nBits ∧
      (clearLengths s).inTotal = s.inTotal ∧ (clearLengths s).phase = s.phase ∧ (clearLengths s).busy = s.busy ∧
      (clearLengths s).status = s.status ∧ (clearLengths s).final = s.final ∧ (clearLengths s).btype = s.btype ∧
      (clearLengths s).zStep = s.zStep ∧ (clearLengths s).bStep = s.bStep ∧ (clearLengths s).sStep = s.sStep ∧
      (clearLengths s).dStep = s.dStep ∧ (clearLengths s).yStep = s.yStep ∧ (clearLengths s).zCmf = s.zCmf ∧
      (clearLengths s).zTrl = s.zTrl ∧ (clearLengths s).zTrlN = s.zTrlN ∧ (clearLengths s).adlerA = s.adlerA ∧
      (clearLengths s).adlerB = s.adlerB ∧ (clearLengths s).sLen = s.sLen ∧ (clearLengths s).sRem = s.sRem ∧
      (clearLengths s).nLit = s.nLit ∧ (clearLengths s).nDist = s.nDist ∧ (clearLengths s).nClen = s.nClen ∧
      (clearLengths s).dI = s.dI ∧ (clearLengths s).repSym = s.repSym ∧ (clearLengths s).repVal = s.repVal ∧
      (clearLengths s).yLit = s.yLit ∧ (clearLengths s).yLsym = s.yLsym ∧ (clearLengths s).yLength = s.yLength ∧
      (clearLengths s).yDsym = s.yDsym ∧ (clearLengths s).yDist = s.yDist ∧ (clearLengths s).yRem = s.yRem ∧
      (clearLengths s).hist = s.hist ∧ (clearLengths s).produced = s.produced ∧
      (clearLengths s).clLen = List.replicate nCl 0 ∧ (clearLengths s).llLen = List.replicate nLl 0 ∧
      (clearLengths s).dLen = List.replicate nD 0 ∧ (clearLengths s).inBytes = s.inBytes ∧
      (clearLengths s).inClosed = s.inClosed ∧ (clearLengths s).consumed = s.consumed ∧
      (clearLengths s).outCap = s.outCap ∧ (clearLengths s).outClosed = s.outClosed ∧
      (clearLengths s).outBytes = s.outBytes ∧ (clearLengths s).reply = s.reply ∧
      (clearLengths s).requests = s.requests :=
  ⟨rfl, rfl, rfl, rfl, rfl, rfl, rfl, rfl, rfl, rfl, rfl, rfl, rfl, rfl, rfl, rfl, rfl, rfl, rfl, rfl, rfl, rfl,
    rfl, rfl, rfl, rfl, rfl, rfl, rfl, rfl, rfl, rfl, rfl, rfl, rfl, rfl, rfl, rfl, rfl, rfl, rfl, rfl, rfl, rfl,
    rfl, rfl⟩

/-- A repeat symbol held for `D_EXTRA` (R208). -/
@[simp] theorem startRepeat_fields (sym v : Nat) (s : State) :
    (startRepeat sym v s).cfg = s.cfg ∧ (startRepeat sym v s).bits = s.bits ∧
      (startRepeat sym v s).nBits = s.nBits ∧ (startRepeat sym v s).inTotal = s.inTotal ∧
      (startRepeat sym v s).phase = s.phase ∧ (startRepeat sym v s).busy = s.busy ∧
      (startRepeat sym v s).status = s.status ∧ (startRepeat sym v s).final = s.final ∧
      (startRepeat sym v s).btype = s.btype ∧ (startRepeat sym v s).zStep = s.zStep ∧
      (startRepeat sym v s).bStep = s.bStep ∧ (startRepeat sym v s).sStep = s.sStep ∧
      (startRepeat sym v s).dStep = .extra ∧ (startRepeat sym v s).yStep = s.yStep ∧
      (startRepeat sym v s).zCmf = s.zCmf ∧ (startRepeat sym v s).zTrl = s.zTrl ∧
      (startRepeat sym v s).zTrlN = s.zTrlN ∧ (startRepeat sym v s).adlerA = s.adlerA ∧
      (startRepeat sym v s).adlerB = s.adlerB ∧ (startRepeat sym v s).sLen = s.sLen ∧
      (startRepeat sym v s).sRem = s.sRem ∧ (startRepeat sym v s).nLit = s.nLit ∧
      (startRepeat sym v s).nDist = s.nDist ∧ (startRepeat sym v s).nClen = s.nClen ∧
      (startRepeat sym v s).dI = s.dI ∧ (startRepeat sym v s).repSym = sym ∧ (startRepeat sym v s).repVal = v ∧
      (startRepeat sym v s).yLit = s.yLit ∧ (startRepeat sym v s).yLsym = s.yLsym ∧
      (startRepeat sym v s).yLength = s.yLength ∧ (startRepeat sym v s).yDsym = s.yDsym ∧
      (startRepeat sym v s).yDist = s.yDist ∧ (startRepeat sym v s).yRem = s.yRem ∧
      (startRepeat sym v s).hist = s.hist ∧ (startRepeat sym v s).produced = s.produced ∧
      (startRepeat sym v s).clLen = s.clLen ∧ (startRepeat sym v s).llLen = s.llLen ∧
      (startRepeat sym v s).dLen = s.dLen ∧ (startRepeat sym v s).inBytes = s.inBytes ∧
      (startRepeat sym v s).inClosed = s.inClosed ∧ (startRepeat sym v s).consumed = s.consumed ∧
      (startRepeat sym v s).outCap = s.outCap ∧ (startRepeat sym v s).outClosed = s.outClosed ∧
      (startRepeat sym v s).outBytes = s.outBytes ∧ (startRepeat sym v s).reply = s.reply ∧
      (startRepeat sym v s).requests = s.requests :=
  ⟨rfl, rfl, rfl, rfl, rfl, rfl, rfl, rfl, rfl, rfl, rfl, rfl, rfl, rfl, rfl, rfl, rfl, rfl, rfl, rfl, rfl, rfl,
    rfl, rfl, rfl, rfl, rfl, rfl, rfl, rfl, rfl, rfl, rfl, rfl, rfl, rfl, rfl, rfl, rfl, rfl, rfl, rfl, rfl, rfl,
    rfl, rfl⟩

/-- A DECODE call opened (R285). -/
@[simp] theorem openCall_fields (out : Option OutCursor) (inp : Option InCursor) (s : State) :
    (openCall out inp s).cfg = s.cfg ∧ (openCall out inp s).bits = s.bits ∧ (openCall out inp s).nBits = s.nBits ∧
      (openCall out inp s).inTotal = s.inTotal ∧ (openCall out inp s).phase = s.phase ∧
      (openCall out inp s).busy = true ∧ (openCall out inp s).status = s.status ∧
      (openCall out inp s).final = s.final ∧ (openCall out inp s).btype = s.btype ∧
      (openCall out inp s).zStep = s.zStep ∧ (openCall out inp s).bStep = s.bStep ∧
      (openCall out inp s).sStep = s.sStep ∧ (openCall out inp s).dStep = s.dStep ∧
      (openCall out inp s).yStep = s.yStep ∧ (openCall out inp s).zCmf = s.zCmf ∧
      (openCall out inp s).zTrl = s.zTrl ∧ (openCall out inp s).zTrlN = s.zTrlN ∧
      (openCall out inp s).adlerA = s.adlerA ∧ (openCall out inp s).adlerB = s.adlerB ∧
      (openCall out inp s).sLen = s.sLen ∧ (openCall out inp s).sRem = s.sRem ∧ (openCall out inp s).nLit = s.nLit ∧
      (openCall out inp s).nDist = s.nDist ∧ (openCall out inp s).nClen = s.nClen ∧ (openCall out inp s).dI = s.dI ∧
      (openCall out inp s).repSym = s.repSym ∧ (openCall out inp s).repVal = s.repVal ∧
      (openCall out inp s).yLit = s.yLit ∧ (openCall out inp s).yLsym = s.yLsym ∧
      (openCall out inp s).yLength = s.yLength ∧ (openCall out inp s).yDsym = s.yDsym ∧
      (openCall out inp s).yDist = s.yDist ∧ (openCall out inp s).yRem = s.yRem ∧
      (openCall out inp s).hist = s.hist ∧ (openCall out inp s).produced = s.produced ∧
      (openCall out inp s).clLen = s.clLen ∧ (openCall out inp s).llLen = s.llLen ∧
      (openCall out inp s).dLen = s.dLen ∧ (openCall out inp s).inBytes = (inp.map InCursor.bytes).getD [] ∧
      (openCall out inp s).inClosed = (inp.map InCursor.closed).getD false ∧ (openCall out inp s).consumed = 0 ∧
      (openCall out inp s).outCap = (out.map OutCursor.cap).getD 0 ∧
      (openCall out inp s).outClosed = (out.map OutCursor.closed).getD false ∧ (openCall out inp s).outBytes = [] ∧
      (openCall out inp s).reply = s.reply ∧ (openCall out inp s).requests = s.requests :=
  ⟨rfl, rfl, rfl, rfl, rfl, rfl, rfl, rfl, rfl, rfl, rfl, rfl, rfl, rfl, rfl, rfl, rfl, rfl, rfl, rfl, rfl, rfl,
    rfl, rfl, rfl, rfl, rfl, rfl, rfl, rfl, rfl, rfl, rfl, rfl, rfl, rfl, rfl, rfl, rfl, rfl, rfl, rfl, rfl, rfl,
    rfl, rfl⟩

/-- `SetLen(i, v)` (R216). -/
@[simp] theorem setLen_fields (i v : Nat) (s : State) :
    (setLen i v s).cfg = s.cfg ∧ (setLen i v s).bits = s.bits ∧ (setLen i v s).nBits = s.nBits ∧
      (setLen i v s).inTotal = s.inTotal ∧ (setLen i v s).phase = s.phase ∧ (setLen i v s).busy = s.busy ∧
      (setLen i v s).status = s.status ∧ (setLen i v s).final = s.final ∧ (setLen i v s).btype = s.btype ∧
      (setLen i v s).zStep = s.zStep ∧ (setLen i v s).bStep = s.bStep ∧ (setLen i v s).sStep = s.sStep ∧
      (setLen i v s).dStep = s.dStep ∧ (setLen i v s).yStep = s.yStep ∧ (setLen i v s).zCmf = s.zCmf ∧
      (setLen i v s).zTrl = s.zTrl ∧ (setLen i v s).zTrlN = s.zTrlN ∧ (setLen i v s).adlerA = s.adlerA ∧
      (setLen i v s).adlerB = s.adlerB ∧ (setLen i v s).sLen = s.sLen ∧ (setLen i v s).sRem = s.sRem ∧
      (setLen i v s).nLit = s.nLit ∧ (setLen i v s).nDist = s.nDist ∧ (setLen i v s).nClen = s.nClen ∧
      (setLen i v s).dI = s.dI ∧ (setLen i v s).repSym = s.repSym ∧ (setLen i v s).repVal = s.repVal ∧
      (setLen i v s).yLit = s.yLit ∧ (setLen i v s).yLsym = s.yLsym ∧ (setLen i v s).yLength = s.yLength ∧
      (setLen i v s).yDsym = s.yDsym ∧ (setLen i v s).yDist = s.yDist ∧ (setLen i v s).yRem = s.yRem ∧
      (setLen i v s).hist = s.hist ∧ (setLen i v s).produced = s.produced ∧ (setLen i v s).clLen = s.clLen ∧
      (setLen i v s).llLen = (if i < s.nLit then s.llLen.set i v else s.llLen) ∧
      (setLen i v s).dLen = (if i < s.nLit then s.dLen else s.dLen.set (i - s.nLit) v) ∧
      (setLen i v s).inBytes = s.inBytes ∧ (setLen i v s).inClosed = s.inClosed ∧
      (setLen i v s).consumed = s.consumed ∧ (setLen i v s).outCap = s.outCap ∧
      (setLen i v s).outClosed = s.outClosed ∧ (setLen i v s).outBytes = s.outBytes ∧
      (setLen i v s).reply = s.reply ∧ (setLen i v s).requests = s.requests := by
  unfold setLen
  split <;> simp [*]

/-- A run of the combined sequence writes the two arrays only (R209). -/
@[simp] theorem fillLens_fields (v r i : Nat) (s : State) :
    (fillLens v r i s).cfg = s.cfg ∧ (fillLens v r i s).bits = s.bits ∧ (fillLens v r i s).nBits = s.nBits ∧
      (fillLens v r i s).inTotal = s.inTotal ∧ (fillLens v r i s).phase = s.phase ∧
      (fillLens v r i s).busy = s.busy ∧ (fillLens v r i s).status = s.status ∧ (fillLens v r i s).final = s.final ∧
      (fillLens v r i s).btype = s.btype ∧ (fillLens v r i s).zStep = s.zStep ∧ (fillLens v r i s).bStep = s.bStep ∧
      (fillLens v r i s).sStep = s.sStep ∧ (fillLens v r i s).dStep = s.dStep ∧ (fillLens v r i s).yStep = s.yStep ∧
      (fillLens v r i s).zCmf = s.zCmf ∧ (fillLens v r i s).zTrl = s.zTrl ∧ (fillLens v r i s).zTrlN = s.zTrlN ∧
      (fillLens v r i s).adlerA = s.adlerA ∧ (fillLens v r i s).adlerB = s.adlerB ∧
      (fillLens v r i s).sLen = s.sLen ∧ (fillLens v r i s).sRem = s.sRem ∧ (fillLens v r i s).nLit = s.nLit ∧
      (fillLens v r i s).nDist = s.nDist ∧ (fillLens v r i s).nClen = s.nClen ∧ (fillLens v r i s).dI = s.dI ∧
      (fillLens v r i s).repSym = s.repSym ∧ (fillLens v r i s).repVal = s.repVal ∧
      (fillLens v r i s).yLit = s.yLit ∧ (fillLens v r i s).yLsym = s.yLsym ∧
      (fillLens v r i s).yLength = s.yLength ∧ (fillLens v r i s).yDsym = s.yDsym ∧
      (fillLens v r i s).yDist = s.yDist ∧ (fillLens v r i s).yRem = s.yRem ∧ (fillLens v r i s).hist = s.hist ∧
      (fillLens v r i s).produced = s.produced ∧ (fillLens v r i s).clLen = s.clLen ∧
      (fillLens v r i s).inBytes = s.inBytes ∧ (fillLens v r i s).inClosed = s.inClosed ∧
      (fillLens v r i s).consumed = s.consumed ∧ (fillLens v r i s).outCap = s.outCap ∧
      (fillLens v r i s).outClosed = s.outClosed ∧ (fillLens v r i s).outBytes = s.outBytes ∧
      (fillLens v r i s).reply = s.reply ∧ (fillLens v r i s).requests = s.requests := by
  induction r generalizing i s with
  | zero => simp [fillLens]
  | succ r ih => simp [fillLens, ih]

/-- Every register at its reset value (R46, R281). -/
@[simp] theorem cleared_fields (s : State) :
    (cleared s).cfg = s.cfg ∧ (cleared s).bits = State.reset.bits ∧ (cleared s).nBits = State.reset.nBits ∧
      (cleared s).inTotal = State.reset.inTotal ∧ (cleared s).phase = State.reset.phase ∧
      (cleared s).busy = State.reset.busy ∧ (cleared s).status = State.reset.status ∧
      (cleared s).final = State.reset.final ∧ (cleared s).btype = State.reset.btype ∧
      (cleared s).zStep = State.reset.zStep ∧ (cleared s).bStep = State.reset.bStep ∧
      (cleared s).sStep = State.reset.sStep ∧ (cleared s).dStep = State.reset.dStep ∧
      (cleared s).yStep = State.reset.yStep ∧ (cleared s).zCmf = State.reset.zCmf ∧
      (cleared s).zTrl = State.reset.zTrl ∧ (cleared s).zTrlN = State.reset.zTrlN ∧
      (cleared s).adlerA = State.reset.adlerA ∧ (cleared s).adlerB = State.reset.adlerB ∧
      (cleared s).sLen = State.reset.sLen ∧ (cleared s).sRem = State.reset.sRem ∧
      (cleared s).nLit = State.reset.nLit ∧ (cleared s).nDist = State.reset.nDist ∧
      (cleared s).nClen = State.reset.nClen ∧ (cleared s).dI = State.reset.dI ∧
      (cleared s).repSym = State.reset.repSym ∧ (cleared s).repVal = State.reset.repVal ∧
      (cleared s).yLit = State.reset.yLit ∧ (cleared s).yLsym = State.reset.yLsym ∧
      (cleared s).yLength = State.reset.yLength ∧ (cleared s).yDsym = State.reset.yDsym ∧
      (cleared s).yDist = State.reset.yDist ∧ (cleared s).yRem = State.reset.yRem ∧
      (cleared s).hist = State.reset.hist ∧ (cleared s).produced = State.reset.produced ∧
      (cleared s).clLen = State.reset.clLen ∧ (cleared s).llLen = State.reset.llLen ∧
      (cleared s).dLen = State.reset.dLen ∧ (cleared s).inBytes = State.reset.inBytes ∧
      (cleared s).inClosed = State.reset.inClosed ∧ (cleared s).consumed = State.reset.consumed ∧
      (cleared s).outCap = State.reset.outCap ∧ (cleared s).outClosed = State.reset.outClosed ∧
      (cleared s).outBytes = State.reset.outBytes ∧ (cleared s).reply = State.reset.reply ∧
      (cleared s).requests = s.requests :=
  ⟨rfl, rfl, rfl, rfl, rfl, rfl, rfl, rfl, rfl, rfl, rfl, rfl, rfl, rfl, rfl, rfl, rfl, rfl, rfl, rfl, rfl, rfl,
    rfl, rfl, rfl, rfl, rfl, rfl, rfl, rfl, rfl, rfl, rfl, rfl, rfl, rfl, rfl, rfl, rfl, rfl, rfl, rfl, rfl, rfl,
    rfl, rfl⟩

/-- The passing of a step touches no register of ZFD (log entry 3). -/
@[simp] theorem tick_fields (s : State) :
    (tick s).cfg = s.cfg ∧ (tick s).bits = s.bits ∧ (tick s).nBits = s.nBits ∧ (tick s).inTotal = s.inTotal ∧
      (tick s).phase = s.phase ∧ (tick s).busy = s.busy ∧ (tick s).status = s.status ∧ (tick s).final = s.final ∧
      (tick s).btype = s.btype ∧ (tick s).zStep = s.zStep ∧ (tick s).bStep = s.bStep ∧ (tick s).sStep = s.sStep ∧
      (tick s).dStep = s.dStep ∧ (tick s).yStep = s.yStep ∧ (tick s).zCmf = s.zCmf ∧ (tick s).zTrl = s.zTrl ∧
      (tick s).zTrlN = s.zTrlN ∧ (tick s).adlerA = s.adlerA ∧ (tick s).adlerB = s.adlerB ∧ (tick s).sLen = s.sLen ∧
      (tick s).sRem = s.sRem ∧ (tick s).nLit = s.nLit ∧ (tick s).nDist = s.nDist ∧ (tick s).nClen = s.nClen ∧
      (tick s).dI = s.dI ∧ (tick s).repSym = s.repSym ∧ (tick s).repVal = s.repVal ∧ (tick s).yLit = s.yLit ∧
      (tick s).yLsym = s.yLsym ∧ (tick s).yLength = s.yLength ∧ (tick s).yDsym = s.yDsym ∧
      (tick s).yDist = s.yDist ∧ (tick s).yRem = s.yRem ∧ (tick s).hist = s.hist ∧ (tick s).produced = s.produced ∧
      (tick s).clLen = s.clLen ∧ (tick s).llLen = s.llLen ∧ (tick s).dLen = s.dLen ∧ (tick s).inBytes = s.inBytes ∧
      (tick s).inClosed = s.inClosed ∧ (tick s).consumed = s.consumed ∧ (tick s).outCap = s.outCap ∧
      (tick s).outClosed = s.outClosed ∧ (tick s).outBytes = s.outBytes ∧ (tick s).reply = s.reply := by
  unfold tick
  split <;> simp

/-- A machine with nothing pending is not changed by the passing of a step. -/
theorem tick_of_no_requests {s : State} (h : s.requests = []) : tick s = s := by
  unfold tick; rw [h]

/-- A machine with nothing pending is presented nothing. -/
theorem presented_of_no_requests {s : State} (h : s.requests = []) : presented s = none := by
  unfold presented; rw [h]

/-- The current micro-step depends on the five discriminants alone (R30). -/
theorem microStep_congr {s t : State} (hz : s.zStep = t.zStep) (hb : s.bStep = t.bStep) (hs : s.sStep = t.sStep)
    (hd : s.dStep = t.dStep) (hy : s.yStep = t.yStep) : microStep s = microStep t := by
  unfold microStep; rw [hz, hb, hs, hd, hy]

end Sys2Proof.Machine
end

