-- ==== Sys2Proof/Laws/Reader.lean ====
section
/-! SUPPORT. The laws of the stream primitives and of the bit reader (spec/20_memory.md R64 to R66,
spec/40_bit_reader.md): for each operation, everything it can answer. -/

namespace Sys2Proof.Machine

/-! ## Lists of bits -/

@[simp] theorem plainBits_length (n v : Nat) : (plainBits n v).length = n := by simp [plainBits]

@[simp] theorem plainBits_zero (v : Nat) : plainBits 0 v = [] := rfl

theorem plainBits_add (n m v : Nat) : plainBits (n + m) v = plainBits n v ++ plainBits m (v / 2 ^ n) := by
  simp only [plainBits, List.range_add, List.map_append, List.map_map]
  congr 1
  apply List.map_congr_left
  intro i _
  simp [Nat.pow_add, Nat.div_div_eq_div_mul]

theorem plainBits_succ (n v : Nat) : plainBits (n + 1) v = (v % 2 == 1) :: plainBits n (v / 2) := by
  rw [Nat.add_comm, plainBits_add]
  simp [plainBits]

/-- A field of `n` bits is determined by the low `n` bits of its value. -/
theorem plainBits_congr {n v w : Nat} (h : v % 2 ^ n = w % 2 ^ n) : plainBits n v = plainBits n w := by
  induction n generalizing v w with
  | zero => rfl
  | succ n ih =>
    have h0 : v % 2 = w % 2 := by
      have := congrArg (· % 2) h
      simpa [Nat.pow_succ, Nat.mod_mul_left_mod] using this
    have h1 : v / 2 % 2 ^ n = w / 2 % 2 ^ n := by
      have := congrArg (· / 2) h
      rw [Nat.pow_succ, Nat.mul_comm] at this
      simpa [Nat.mod_mul_right_div_self] using this
    rw [plainBits_succ, plainBits_succ, ih h1, h0]

theorem plainBits_mod (n v : Nat) : plainBits n (v % 2 ^ n) = plainBits n v := plainBits_congr (by simp)

/-- Two values of `n` bits with the same bits are equal. -/
theorem plainBits_inj {n v w : Nat} (h : plainBits n v = plainBits n w) : v % 2 ^ n = w % 2 ^ n := by
  induction n generalizing v w with
  | zero => simp [Nat.mod_one]
  | succ n ih =>
    rw [plainBits_succ, plainBits_succ, List.cons.injEq] at h
    have h1 := ih h.2
    have h0 : v % 2 = w % 2 := by
      have := h.1
      rcases Nat.mod_two_eq_zero_or_one v with hv | hv <;> rcases Nat.mod_two_eq_zero_or_one w with hw | hw <;>
        simp [hv, hw] at this ⊢
    rw [Nat.pow_succ, Nat.mul_comm, Nat.mod_mul, Nat.mod_mul, h0, h1]

/-! ## The primitives -/

/-- Everything `PullByte` can answer (R64). -/
theorem pullByte_cases (s : State) :
    (∃ b rest, s.inBytes = b :: rest ∧ pullByte s = .ok b (dropInByte rest s)) ∨
      (s.inBytes = [] ∧ s.inClosed = true ∧ pullByte s = .raise .unexpectedEndOfFile s) ∨
        (s.inBytes = [] ∧ s.inClosed = false ∧ pullByte s = .suspend .shortRead s) := by
  unfold pullByte
  cases h : s.inBytes with
  | cons b rest => exact .inl ⟨b, rest, rfl, rfl⟩
  | nil =>
    cases hc : s.inClosed
    · exact .inr (.inr ⟨rfl, rfl, by simp⟩)
    · exact .inr (.inl ⟨rfl, rfl, by simp⟩)

/-- Everything `NeedOut` can answer (R66). -/
theorem needOut_cases (s : State) :
    (s.outBytes.length < s.outCap ∧ needOut s = .ok () s) ∨
      (s.outCap ≤ s.outBytes.length ∧ s.outClosed = true ∧ needOut s = .raise .closedForWrites s) ∨
        (s.outCap ≤ s.outBytes.length ∧ s.outClosed = false ∧ needOut s = .suspend .shortWrite s) := by
  unfold needOut
  split
  · exact .inl ⟨‹_›, rfl⟩
  · cases hc : s.outClosed
    · exact .inr (.inr ⟨by omega, rfl, by simp⟩)
    · exact .inr (.inl ⟨by omega, rfl, by simp⟩)

/-! ## What bytes moved into the accumulator leave alone -/

theorem OnlyReader.refl (s : State) : OnlyReader s s := rfl

theorem OnlyReader.trans {s t u : State} (h : OnlyReader s t) (h' : OnlyReader t u) : OnlyReader s u := by
  unfold OnlyReader at *
  rw [h'] ; rw [h]

theorem TookBytes.refl (s : State) : TookBytes 0 s s := by simp [TookBytes]

theorem TookBytes.trans {j k : Nat} {s t u : State} (h : TookBytes j s t) (h' : TookBytes k t u) :
    TookBytes (j + k) s u := by
  unfold TookBytes at *
  obtain ⟨h1, h2, h3, h4⟩ := h
  obtain ⟨h1', h2', h3', h4'⟩ := h'
  rw [h2, List.length_drop] at h1'
  refine ⟨by omega, ?_, by omega, by omega⟩
  rw [h2', h2, List.drop_drop]

/-! ## The push (R141) -/

theorem pushByte_toNat {s : State} (b : Byte) (hb : s.bits.toNat < 2 ^ s.nBits) (hn : s.nBits ≤ 24) :
    (pushByte b s).bits.toNat = s.bits.toNat + b.toNat * 2 ^ s.nBits := by
  have hb8 : b.toNat < 2 ^ 8 := b.isLt
  have hp : 2 ^ s.nBits ≤ 2 ^ 24 := Nat.pow_le_pow_right (by norm_num) hn
  have hlt : b.toNat * 2 ^ s.nBits < 2 ^ 32 :=
    calc b.toNat * 2 ^ s.nBits < 2 ^ 8 * 2 ^ s.nBits := Nat.mul_lt_mul_of_pos_right hb8 (Nat.two_pow_pos _)
      _ ≤ 2 ^ 8 * 2 ^ 24 := Nat.mul_le_mul_left _ hp
      _ = 2 ^ 32 := by norm_num
  have hb32 : b.toNat % 2 ^ 32 = b.toNat := Nat.mod_eq_of_lt (by omega)
  have := Nat.shiftLeft_add_eq_or_of_lt hb b.toNat
  simp only [pushByte_fields, BitVec.toNat_or, BitVec.toNat_shiftLeft, BitVec.toNat_setWidth, hb32,
    Nat.shiftLeft_eq, Nat.mod_eq_of_lt hlt]
  rw [Nat.or_comm, ← Nat.shiftLeft_eq, ← this, Nat.shiftLeft_eq, Nat.add_comm]

theorem pushByte_lt {s : State} (b : Byte) (hb : s.bits.toNat < 2 ^ s.nBits) (hn : s.nBits ≤ 24) :
    (pushByte b s).bits.toNat < 2 ^ (s.nBits + 8) := by
  rw [pushByte_toNat b hb hn, Nat.pow_add]
  have : b.toNat + 1 ≤ 2 ^ 8 := b.isLt
  calc s.bits.toNat + b.toNat * 2 ^ s.nBits < 2 ^ s.nBits + b.toNat * 2 ^ s.nBits := by omega
    _ = (b.toNat + 1) * 2 ^ s.nBits := by ring
    _ ≤ 2 ^ 8 * 2 ^ s.nBits := Nat.mul_le_mul_right _ this
    _ = 2 ^ s.nBits * 2 ^ 8 := by ring

/-- A push keeps the stream: the byte's bits follow the buffered ones. -/
theorem pushByte_plainBits {s : State} (b : Byte) (hb : s.bits.toNat < 2 ^ s.nBits) (hn : s.nBits ≤ 24) :
    plainBits (s.nBits + 8) (pushByte b s).bits.toNat = plainBits s.nBits s.bits.toNat ++ plainBits 8 b.toNat := by
  rw [pushByte_toNat b hb hn, plainBits_add]
  congr 1
  · exact plainBits_congr (by simp)
  · rw [Nat.add_mul_div_right _ _ (Nat.two_pow_pos _), Nat.div_eq_of_lt hb, Nat.zero_add]

/-- Everything one pass of the reader's loop can answer. -/
theorem pullPush_cases (s : State) :
    (∃ b rest, s.inBytes = b :: rest ∧ pullPush s = .ok () (pushByte b (dropInByte rest s))) ∨
      (s.inBytes = [] ∧ s.inClosed = true ∧ pullPush s = .raise .unexpectedEndOfFile s) ∨
        (s.inBytes = [] ∧ s.inClosed = false ∧ pullPush s = .suspend .shortRead s) := by
  unfold pullPush
  rcases pullByte_cases s with ⟨b, rest, h, hp⟩ | ⟨h, hc, hp⟩ | ⟨h, hc, hp⟩
  · exact .inl ⟨b, rest, h, by simp [hp, Res.bind]⟩
  · exact .inr (.inl ⟨h, hc, by simp [hp, Res.bind]⟩)
  · exact .inr (.inr ⟨h, hc, by simp [hp, Res.bind]⟩)

/-- What moving bytes into the accumulator keeps: the registers, the stream, and the bits above `n_bits` at zero. -/
structure Buffered (s t : State) : Prop where
  only : OnlyReader s t
  took : ∃ k, TookBytes k s t ∧ t.nBits = s.nBits + 8 * k
  bits : t.bits.toNat < 2 ^ t.nBits
  stream : pendingBits t = pendingBits s

theorem Buffered.refl {s : State} (hb : s.bits.toNat < 2 ^ s.nBits) : Buffered s s :=
  ⟨.refl s, ⟨0, .refl s, by omega⟩, hb, rfl⟩

theorem Buffered.trans {s t u : State} (h : Buffered s t) (h' : Buffered t u) : Buffered s u := by
  obtain ⟨k, hk, hn⟩ := h.took
  obtain ⟨k', hk', hn'⟩ := h'.took
  exact ⟨h.only.trans h'.only, ⟨k + k', hk.trans hk', by omega⟩, h'.bits, h'.stream.trans h.stream⟩

theorem buffered_push {s : State} {b : Byte} {rest : List Byte} (h : s.inBytes = b :: rest)
    (hb : s.bits.toNat < 2 ^ s.nBits) (hn : s.nBits ≤ 24) : Buffered s (pushByte b (dropInByte rest s)) := by
  refine ⟨by simp [OnlyReader, pushByte, dropInByte], ⟨1, ?_, rfl⟩, ?_, ?_⟩
  · simp [TookBytes, pushByte, dropInByte, h]
  · exact pushByte_lt (s := dropInByte rest s) b hb hn
  · have := pushByte_plainBits (s := dropInByte rest s) b hb hn
    simp only [dropInByte_fields] at this
    have hn' : (pushByte b (dropInByte rest s)).nBits = s.nBits + 8 := rfl
    have hi : (pushByte b (dropInByte rest s)).inBytes = rest := rfl
    rw [pendingBits, hn', hi, this, pendingBits, h, List.flatMap_cons, List.append_assoc]

/-! ## `ensure` and `need` -/

/-- How a read that wants more bits than the input holds ends: everything available is buffered (R64, R141). -/
inductive Starved (s : State) {α : Type} : Res α → State → Prop
  | short (t : State) : t.inClosed = false → t.inBytes = [] → Buffered s t → Starved s (.suspend .shortRead t) t
  | closed (t : State) : t.inClosed = true → t.inBytes = [] → Buffered s t →
      Starved s (.raise .unexpectedEndOfFile t) t

theorem Starved.buffered {α : Type} {s t : State} {r : Res α} (h : Starved s r t) : Buffered s t := by
  cases h <;> assumption

theorem Buffered.closed {s t : State} (h : Buffered s t) : t.inClosed = s.inClosed := by
  rw [h.only]

theorem ensureLoop_cases {n fuel : Nat} {s : State} (hb : s.bits.toNat < 2 ^ s.nBits) (hn : n ≤ 24)
    (hf : n ≤ s.nBits + fuel) :
    (∃ t, ensureLoop n fuel s = .ok () t ∧ Buffered s t ∧ n ≤ t.nBits ∧ (t = s ∨ t.nBits < n + 8)) ∨
      (∃ t, Starved s (ensureLoop n fuel s) t ∧ t.nBits < n) := by
  induction fuel generalizing s with
  | zero => exact .inl ⟨s, rfl, .refl hb, by omega, .inl rfl⟩
  | succ fuel ih =>
    unfold ensureLoop
    split
    · rcases pullPush_cases s with ⟨b, rest, h, hp⟩ | ⟨h, hc, hp⟩ | ⟨h, hc, hp⟩
      · have hB := buffered_push h hb (by omega)
        simp only [hp, Res.bind]
        rcases ih (s := pushByte b (dropInByte rest s)) hB.bits
          (by simp; omega) with
          ⟨t, ht, hBt, hle, hlt⟩ | ⟨t, ht, hlt⟩
        · refine .inl ⟨t, ht, hB.trans hBt, hle, .inr ?_⟩
          rcases hlt with rfl | hlt
          · simp; omega
          · exact hlt
        · refine .inr ⟨t, ?_, hlt⟩
          generalize ensureLoop n fuel (pushByte b (dropInByte rest s)) = r at ht
          cases ht with
          | short _ h1 h2 h3 => exact .short t h1 h2 (hB.trans h3)
          | closed _ h1 h2 h3 => exact .closed t h1 h2 (hB.trans h3)
      · exact .inr ⟨s, by simpa [hp, Res.bind] using .closed s hc h (.refl hb), ‹_›⟩
      · exact .inr ⟨s, by simpa [hp, Res.bind] using .short s hc h (.refl hb), ‹_›⟩
    · exact .inl ⟨s, rfl, .refl hb, by omega, .inl rfl⟩

/-- Everything `ensure(n)` can answer (R141). -/
theorem ensure_cases {n : Nat} {s : State} (hb : s.bits.toNat < 2 ^ s.nBits) (hn : n ≤ 24) :
    (∃ t, ensure n s = .ok () t ∧ Buffered s t ∧ n ≤ t.nBits ∧ (t = s ∨ t.nBits < n + 8)) ∨
      (∃ t, Starved s (ensure n s) t ∧ t.nBits < n) :=
  ensureLoop_cases hb hn (by omega)

/-- `ensure(n)` with enough bits buffered does nothing (R141). -/
theorem ensure_of_le {n : Nat} {s : State} (h : n ≤ s.nBits) : ensure n s = .ok () s := by
  unfold ensure
  rw [Nat.sub_eq_zero_of_le h]
  rfl

/-- `take(n)` takes the first `n` bits of the stream (R142). -/
theorem pendingBits_take {n : Nat} {s : State} (h : n ≤ s.nBits) :
    pendingBits s = plainBits n (lowBits n s) ++ pendingBits (dropBits n s) := by
  have hs : s.nBits = n + (s.nBits - n) := by omega
  simp only [pendingBits, lowBits, dropBits_fields, plainBits_mod, ← List.append_assoc]
  congr 1
  conv_lhs => rw [hs, plainBits_add]
  congr 2
  simp [BitVec.toNat_ushiftRight, Nat.shiftRight_eq_div_pow]

theorem dropBits_lt {n : Nat} {s : State} (hb : s.bits.toNat < 2 ^ s.nBits) (h : n ≤ s.nBits) :
    (dropBits n s).bits.toNat < 2 ^ (dropBits n s).nBits := by
  simp only [dropBits_fields, BitVec.toNat_ushiftRight, Nat.shiftRight_eq_div_pow]
  rw [Nat.div_lt_iff_lt_mul (Nat.two_pow_pos _), ← Nat.pow_add]
  rwa [Nat.sub_add_cancel h]

/-- What a completed read of `n` bits has done: the registers it leaves alone, the bytes it took, and the value it read
from the front of the stream. -/
structure ReadOk (s t : State) (bs : List Bool) : Prop where
  only : OnlyReader s t
  took : ∃ k, TookBytes k s t
  bits : t.bits.toNat < 2 ^ t.nBits
  stream : pendingBits s = bs ++ pendingBits t

theorem OnlyReader.dropBits {s t : State} (h : OnlyReader s t) (n : Nat) : OnlyReader s (dropBits n t) := by
  unfold OnlyReader at *
  simp only [Sys2Proof.Machine.dropBits]
  rw [h]

theorem Buffered.take {n : Nat} {s t : State} (h : Buffered s t) (hn : n ≤ t.nBits) :
    ReadOk s (dropBits n t) (plainBits n (lowBits n t)) := by
  obtain ⟨k, hk, -⟩ := h.took
  refine ⟨h.only.dropBits n, ⟨k, ?_⟩, dropBits_lt h.bits hn, ?_⟩
  · simpa [TookBytes] using hk
  · rw [← h.stream]; exact pendingBits_take hn

/-- Everything `need(n)` can answer (R143). -/
theorem need_cases {n : Nat} {s : State} (hb : s.bits.toNat < 2 ^ s.nBits) (hn : n ≤ 24) :
    (∃ v t, need n s = .ok v t ∧ v < 2 ^ n ∧ ReadOk s t (plainBits n v) ∧
        (t.nBits = s.nBits - n ∧ n ≤ s.nBits ∨ t.nBits < 8)) ∨
      (∃ t, Starved s (need n s) t ∧ t.nBits < n) := by
  unfold need
  rcases ensure_cases hb hn with ⟨t, ht, hB, hle, hlt⟩ | ⟨t, ht, hlt⟩
  · refine .inl ⟨lowBits n t, dropBits n t, by simp [ht, Res.bind], Nat.mod_lt _ (Nat.two_pow_pos _), hB.take hle, ?_⟩
    rcases hlt with rfl | hlt
    · exact .inl ⟨rfl, hle⟩
    · right; simp; omega
  · refine .inr ⟨t, ?_, hlt⟩
    generalize ensure n s = r at ht
    cases ht with
    | short _ h1 h2 h3 => exact .short t h1 h2 h3
    | closed _ h1 h2 h3 => exact .closed t h1 h2 h3

/-- `need(n)` with enough bits buffered (R142). -/
theorem need_of_le {n : Nat} {s : State} (h : n ≤ s.nBits) : need n s = .ok (lowBits n s) (dropBits n s) := by
  simp [need, ensure_of_le h, Res.bind]

end Sys2Proof.Machine
end

