-- ==== Sys2Proof/Laws/Huffman.lean ====
section
/-! SUPPORT. The laws of the Huffman tables (spec/41_huffman_tables.md): which symbol a code stands for, that a complete
code always matches, and everything `HuffDecode` can answer. -/

namespace Sys2Proof.Machine

/-! ## Symbols and codes -/

theorem nthOfLength_eq_some {L k i s : Nat} {len : List Nat} :
    nthOfLength L k len i = some s ↔
      i ≤ s ∧ s - i < len.length ∧ len.getD (s - i) 0 = L ∧ (len.take (s - i)).count L = k := by
  induction len generalizing k i with
  | nil => simp [nthOfLength]
  | cons l ls ih =>
    have shift : ∀ k', (i + 1 ≤ s ∧ s - (i + 1) < ls.length ∧ ls.getD (s - (i + 1)) 0 = L ∧
        (ls.take (s - (i + 1))).count L = k') ↔
          (i < s ∧ s - i < (l :: ls).length ∧ (l :: ls).getD (s - i) 0 = L ∧
            ((l :: ls).take (s - i)).count L = k' + if l = L then 1 else 0) := by
      intro k'
      constructor
      · rintro ⟨h1, h2, h3, h4⟩
        obtain ⟨d, hd⟩ : ∃ d, s - i = d + 1 := ⟨s - i - 1, by omega⟩
        have hd' : s - (i + 1) = d := by omega
        rw [hd'] at h2 h3 h4
        rw [hd]
        refine ⟨by omega, by simpa using h2, by simpa using h3, ?_⟩
        by_cases hl : l = L <;> simp [hl, h4]
      · rintro ⟨h1, h2, h3, h4⟩
        obtain ⟨d, hd⟩ : ∃ d, s - i = d + 1 := ⟨s - i - 1, by omega⟩
        have hd' : s - (i + 1) = d := by omega
        rw [hd] at h2 h3 h4
        rw [hd']
        refine ⟨by omega, by simpa using h2, by simpa using h3, ?_⟩
        by_cases hl : l = L <;> simp [hl] at h4 ⊢ <;> exact h4
    unfold nthOfLength
    by_cases hl : l = L
    · simp only [hl, if_true]
      cases k with
      | zero =>
        simp only [Option.some.injEq]
        constructor
        · rintro rfl; simp
        · rintro ⟨h1, h2, h3, h4⟩
          by_contra hne
          obtain ⟨d, hd⟩ : ∃ d, s - i = d + 1 := ⟨s - i - 1, by omega⟩
          rw [hd] at h4
          simp at h4
      | succ k =>
        rw [ih, shift]
        simp only [hl, if_true]
        constructor
        · rintro ⟨h1, h⟩; exact ⟨by omega, h⟩
        · rintro ⟨h1, h2, h3, h4⟩
          refine ⟨?_, h2, h3, h4⟩
          by_contra hne
          have : s - i = 0 := by omega
          rw [this] at h4
          simp at h4
    · simp only [hl, if_false]
      rw [ih, shift]
      simp only [hl, if_false, Nat.add_zero]
      constructor
      · rintro ⟨h1, h⟩; exact ⟨by omega, h⟩
      · rintro ⟨h1, h2, h3, h4⟩
        refine ⟨?_, h2, h3, h4⟩
        by_contra hne
        have : s - i = 0 := by omega
        rw [this] at h3
        exact hl (by simpa using h3)

/-- The test of R168: `symbolOf` finds the symbol whose length is `L` and whose code is `c`, and only that one. -/
theorem symbolOf_eq_some {len : List Nat} {L c s : Nat} :
    symbolOf len L c = some s ↔ s < len.length ∧ len.getD s 0 = L ∧ codeOf len s = c := by
  unfold symbolOf codeOf
  split
  · rename_i h
    simp only [reduceCtorEq, false_iff, not_and]
    rintro - rfl hc
    omega
  · rename_i h
    rw [nthOfLength_eq_some]
    simp only [Nat.zero_le, Nat.sub_zero, true_and]
    constructor
    · rintro ⟨h1, rfl, h3⟩; exact ⟨h1, rfl, by omega⟩
    · rintro ⟨h1, rfl, h3⟩; exact ⟨h1, rfl, by omega⟩

theorem nthOfLength_isSome {L k i : Nat} {len : List Nat} : (nthOfLength L k len i).isSome = decide (k < len.count L) := by
  induction len generalizing k i with
  | nil => simp [nthOfLength]
  | cons l ls ih =>
    unfold nthOfLength
    by_cases hl : l = L
    · cases k with
      | zero => simp [hl]
      | succ k => simp [hl, ih]
    · simp [hl, ih]

/-- There is a symbol of length `L` and code `c` exactly when `c` lies among the `cnt[L]` codes from `first[L]` on. -/
theorem symbolOf_isSome {len : List Nat} {L c : Nat} :
    (symbolOf len L c).isSome = true ↔ firstCode len L ≤ c ∧ c < firstCode len L + cnt len L := by
  unfold symbolOf cnt
  split
  · simp; omega
  · rw [nthOfLength_isSome]; simp; omega

/-! ## Bit order (R72) -/

theorem rev_lt (L v : Nat) : rev L v < 2 ^ L := by
  induction L with
  | zero => simp [rev]
  | succ L ih => have := Nat.mod_lt (v / 2 ^ L) (y := 2) (by norm_num); simp only [rev, Nat.pow_succ]; omega

/-- The reversed code depends on the low bits only. -/
theorem rev_congr {L v w : Nat} (h : v % 2 ^ L = w % 2 ^ L) : rev L v = rev L w := by
  induction L with
  | zero => rfl
  | succ L ih =>
    have h0 : v % 2 ^ L = w % 2 ^ L := by
      have := congrArg (· % 2 ^ L) h
      simpa [Nat.pow_succ, Nat.mod_mul_right_mod] using this
    have h1 : v / 2 ^ L % 2 = w / 2 ^ L % 2 := by
      have := congrArg (· / 2 ^ L) h
      simpa [Nat.pow_succ, Nat.mod_mul_right_div_self] using this
    simp [rev, ih h0, h1]

/-- `L` stream bits are the code whose most significant bit comes first (R72). -/
theorem codeBits_rev (L v : Nat) : codeBits L (rev L v) = plainBits L v := by
  induction L with
  | zero => rfl
  | succ L ih =>
    have hm : (2 * rev L v + v / 2 ^ L % 2) / 2 = rev L v := by omega
    have h2 : (2 * rev L v + v / 2 ^ L % 2) % 2 = v / 2 ^ L % 2 := by omega
    rw [codeBits, rev, plainBits_succ, hm, h2, List.reverse_cons, ← codeBits, ih, plainBits_add]
    simp [plainBits]

theorem codeBits_length (L c : Nat) : (codeBits L c).length = L := by simp [codeBits]

/-! ## The first match (R168) -/

theorem findCode_eq_some {len : List Nat} {v k s L : Nat} (h : findCode len v k = some (s, L)) :
    1 ≤ L ∧ L ≤ k ∧ symbolOf len L (rev L v) = some s ∧ ∀ j, 1 ≤ j → j < L → symbolOf len j (rev j v) = none := by
  unfold findCode at h
  rw [List.findSome?_eq_some_iff] at h
  obtain ⟨l₁, a, l₂, h1, h2, h3⟩ := h
  have hlen : l₁.length < k := by
    have := congrArg List.length h1
    simp at this; omega
  have hget : ∀ j, j < k → (List.range' 1 k)[j]? = some (1 + j) := by
    intro j hj; simp [hj]
  have ha : a = 1 + l₁.length := by
    have := hget l₁.length hlen
    rw [h1] at this
    simpa using this
  simp only [Option.map_eq_some_iff, Prod.mk.injEq] at h2
  obtain ⟨s', hs', rfl, rfl⟩ := h2
  refine ⟨by omega, by omega, hs', fun j hj hlt => ?_⟩
  have hmem : j ∈ l₁ := by
    have := hget (j - 1) (by omega)
    rw [h1, List.getElem?_append_left (by omega)] at this
    exact List.mem_of_getElem? (by rw [this]; congr 1; omega)
  simpa using h3 j hmem

theorem findCode_eq_none {len : List Nat} {v k : Nat} :
    findCode len v k = none ↔ ∀ L, 1 ≤ L → L ≤ k → symbolOf len L (rev L v) = none := by
  simp only [findCode, List.findSome?_eq_none_iff, List.mem_range'_1, Option.map_eq_none_iff]
  constructor
  · intro h L h1 h2; exact h L ⟨h1, by omega⟩
  · intro h L hL; exact h L hL.1 (by omega)

/-! ## `HuffDecode` (R168) -/

/-- The candidates R168 tries: the codes no longer than what is buffered, and no longer than the table's longest. -/
def lookup (len : List Nat) (s : State) : Option (Nat × Nat) := findCode len s.bits.toNat (min s.nBits (maxl len))

/-- What a match consumes: the code of the symbol, read from the front of the stream. -/
theorem lookup_spec {len : List Nat} {s : State} {sym L : Nat} (h : lookup len s = some (sym, L)) :
    1 ≤ L ∧ L ≤ s.nBits ∧ L ≤ maxl len ∧ sym < len.length ∧ len.getD sym 0 = L ∧
      symbolBits len sym = plainBits L (lowBits L s) := by
  obtain ⟨h1, h2, h3, -⟩ := findCode_eq_some h
  rw [symbolOf_eq_some] at h3
  obtain ⟨h4, h5, h6⟩ := h3
  refine ⟨h1, by omega, by omega, h4, h5, ?_⟩
  rw [symbolBits, h5, h6, codeBits_rev, lowBits, plainBits_mod]

/-- Everything the loop of `HuffDecode` can answer. -/
theorem huffLoop_cases {len : List Nat} {fuel : Nat} {s : State} (hb : s.bits.toNat < 2 ^ s.nBits)
    (hm : maxl len ≤ 24) (hf : maxl len ≤ s.nBits + fuel) :
    (∃ sym L t, Buffered s t ∧ lookup len t = some (sym, L) ∧ huffLoop len fuel s = .ok sym (dropBits L t) ∧
        (t = s ∨ s.nBits < L ∧ t.nBits < L + 8)) ∨
      (∃ t, Starved s (huffLoop len fuel s) t ∧ t.nBits < maxl len ∧ lookup len t = none) ∨
        (∃ t, Buffered s t ∧ maxl len ≤ t.nBits ∧ (t = s ∨ t.nBits < maxl len + 8) ∧ lookup len t = none ∧
          huffLoop len fuel s = .raise .badHuffmanCode t) := by
  induction fuel generalizing s with
  | zero =>
    unfold huffLoop
    rw [← lookup]
    cases hl : lookup len s with
    | some p => exact .inl ⟨p.1, p.2, s, .refl hb, hl, rfl, .inl rfl⟩
    | none => exact .inr (.inr ⟨s, .refl hb, by omega, .inl rfl, hl, rfl⟩)
  | succ fuel ih =>
    unfold huffLoop
    rw [← lookup]
    cases hl : lookup len s with
    | some p => exact .inl ⟨p.1, p.2, s, .refl hb, hl, rfl, .inl rfl⟩
    | none =>
      simp only
      split
      · exact .inr (.inr ⟨s, .refl hb, ‹_›, .inl rfl, hl, rfl⟩)
      · rcases pullPush_cases s with ⟨b, rest, h, hp⟩ | ⟨h, hc, hp⟩ | ⟨h, hc, hp⟩
        · have hB := buffered_push h hb (by omega)
          simp only [hp, Res.bind]
          rcases ih (s := pushByte b (dropInByte rest s)) hB.bits (by simp; omega) with
            ⟨sym, L, t, hBt, hlt, he, hor⟩ | ⟨t, ht, hlt, hn⟩ | ⟨t, hBt, hle, hor, hn, he⟩
          · refine .inl ⟨sym, L, t, hB.trans hBt, hlt, he, .inr ?_⟩
            have hsL : s.nBits < L := by
              by_contra hle
              obtain ⟨h1, h2, h3, -⟩ := findCode_eq_some hlt
              have := findCode_eq_none.1 hl L h1 (by omega)
              rw [← rev_congr (v := t.bits.toNat)] at this
              · rw [this] at h3; cases h3
              · have e := (hB.trans hBt).stream
                obtain ⟨k, -, hk⟩ := (hB.trans hBt).took
                have e' := congrArg (List.take L) e
                have ht' : t.nBits = L + (t.nBits - L) := by omega
                have hs' : s.nBits = L + (s.nBits - L) := by omega
                rw [pendingBits, pendingBits, ht', hs', plainBits_add, plainBits_add, List.append_assoc,
                  List.append_assoc, List.take_left' (by simp), List.take_left' (by simp)] at e'
                exact plainBits_inj e'
            refine ⟨hsL, ?_⟩
            rcases hor with rfl | ⟨-, hlt'⟩
            · simp; omega
            · exact hlt'
          · refine .inr (.inl ⟨t, ?_, hlt, hn⟩)
            generalize huffLoop len fuel (pushByte b (dropInByte rest s)) = r at ht
            cases ht with
            | short _ h1 h2 h3 => exact .short t h1 h2 (hB.trans h3)
            | closed _ h1 h2 h3 => exact .closed t h1 h2 (hB.trans h3)
          · refine .inr (.inr ⟨t, hB.trans hBt, hle, .inr ?_, hn, he⟩)
            rcases hor with rfl | hor
            · simp; omega
            · exact hor
        · exact .inr (.inl ⟨s, by simpa [hp, Res.bind] using .closed s hc h (.refl hb), by omega, hl⟩)
        · exact .inr (.inl ⟨s, by simpa [hp, Res.bind] using .short s hc h (.refl hb), by omega, hl⟩)

/-- Everything `HuffDecode(len)` can answer (R168): a symbol whose code it took from the front of the stream; a wait for
more input while nothing matches; or `BadHuffmanCode` when as many bits as the longest code has match nothing. -/
theorem huffDecode_cases {len : List Nat} {s : State} (hb : s.bits.toNat < 2 ^ s.nBits) (hm : maxl len ≤ 24) :
    (∃ sym t, huffDecode len s = .ok sym t ∧ sym < len.length ∧ 1 ≤ len.getD sym 0 ∧
        ReadOk s t (symbolBits len sym) ∧
        (t.nBits + len.getD sym 0 = s.nBits ∧ lookup len s ≠ none ∨ t.nBits < 8)) ∨
      (∃ t, Starved s (huffDecode len s) t ∧ t.nBits < maxl len ∧ lookup len t = none) ∨
        (∃ t, Buffered s t ∧ maxl len ≤ t.nBits ∧ (t = s ∨ t.nBits < maxl len + 8) ∧ lookup len t = none ∧
          huffDecode len s = .raise .badHuffmanCode t) := by
  rcases huffLoop_cases (len := len) (fuel := maxl len - s.nBits) hb hm (by omega) with
    ⟨sym, L, t, hB, hl, he, hor⟩ | h | h
  · obtain ⟨h1, h2, h3, h4, h5, h6⟩ := lookup_spec hl
    refine .inl ⟨sym, dropBits L t, he, h4, by omega, ?_, ?_⟩
    · rw [h6]; exact hB.take h2
    · rcases hor with rfl | ⟨-, hlt⟩
      · exact .inl ⟨by simp only [dropBits_fields]; omega, by simp [hl]⟩
      · right; simp only [dropBits_fields]; omega
  · exact .inr (.inl h)
  · exact .inr (.inr h)

/-! ## Complete codes (R163) -/

theorem le_maxl {len : List Nat} {l : Nat} (h : l ∈ len) : l ≤ maxl len := by
  induction len with
  | nil => cases h
  | cons a len ih =>
    simp only [maxl, List.foldr_cons]
    rcases List.mem_cons.1 h with rfl | h
    · omega
    · have := ih h; unfold maxl at this; omega

theorem maxl_le {len : List Nat} {n : Nat} (h : ∀ l ∈ len, l ≤ n) : maxl len ≤ n := by
  induction len with
  | nil => simp [maxl]
  | cons a len ih =>
    have h1 := h a List.mem_cons_self
    have h2 := ih fun l hl => h l (List.mem_cons_of_mem _ hl)
    simp only [maxl, List.foldr_cons] at *
    omega

/-- The codes of length below `L`, left-aligned at length `m`, fill exactly the numbers below `first[L]` there. -/
theorem firstCode_scaled (len : List Nat) {L m : Nat} (h : L ≤ m) :
    firstCode len L * 2 ^ (m - L) = ((List.range' 1 (L - 1)).map fun j => cnt len j * 2 ^ (m - j)).sum := by
  induction L with
  | zero => simp [firstCode]
  | succ L ih =>
    have h2 : (2 : Nat) ^ (m - L) = 2 * 2 ^ (m - (L + 1)) := by rw [← Nat.pow_succ']; congr 1; omega
    cases L with
    | zero => simp [firstCode]
    | succ L =>
      have hr : List.range' 1 (L + 1) = List.range' 1 L ++ [L + 1] := by
        rw [List.range'_1_concat]; congr 2; omega
      simp only [Nat.add_sub_cancel] at ih ⊢
      rw [hr, List.map_append, List.sum_append, ← ih (by omega)]
      rw [firstCode]
      simp only [Nat.add_eq_zero_iff, one_ne_zero, and_false, if_false, List.map_cons, List.map_nil, List.sum_cons,
        List.sum_nil, Nat.add_zero]
      rw [h2]
      ring

/-- In a complete code every string of `maxl` bits starts with a code (R163, R168). -/
theorem findCode_of_complete {len : List Nat} (hk : kraft len = 2 ^ maxl len) {v k : Nat} (h : maxl len ≤ k) :
    findCode len v k ≠ none := by
  intro hn
  rw [findCode_eq_none] at hn
  have top : ∀ L, L ≤ maxl len → firstCode len (L + 1) ≤ 2 * rev L v ∨ L = 0 := by
    intro L
    induction L with
    | zero => intro _; exact .inr rfl
    | succ L ih =>
      intro hL
      left
      have hle : firstCode len (L + 1) ≤ rev (L + 1) v := by
        rcases ih (by omega) with h | rfl
        · simp only [rev]; omega
        · simp [firstCode]
      have hns : ¬ (symbolOf len (L + 1) (rev (L + 1) v)).isSome = true := by
        rw [hn (L + 1) (by omega) (by omega)]; simp
      rw [symbolOf_isSome] at hns
      rw [firstCode]
      simp only [Nat.add_eq_zero_iff, one_ne_zero, and_false, if_false]
      omega
  have hm : firstCode len (maxl len + 1) = 2 * 2 ^ maxl len := by
    have := firstCode_scaled len (L := maxl len + 1) (m := maxl len + 1) le_rfl
    simp only [Nat.sub_self, Nat.pow_zero, Nat.mul_one, Nat.add_sub_cancel] at this
    rw [this, ← hk, kraft, ← List.sum_map_mul_left]
    congr 1
    apply List.map_congr_left
    intro j hj
    simp only [List.mem_range'_1] at hj
    have : (2 : Nat) ^ (maxl len + 1 - j) = 2 * 2 ^ (maxl len - j) := by rw [← Nat.pow_succ']; congr 1; omega
    rw [this]; ring
  rcases top (maxl len) le_rfl with h | h
  · have := rev_lt (maxl len) v; omega
  · rw [h] at hm
    simp [firstCode] at hm

/-! ## Validation (R164 to R166) -/

/-- A table accepted without the single-symbol provision is a complete code. -/
theorem kraft_of_validate {len : List Nat} (h : validate len false = none) : kraft len = 2 ^ maxl len := by
  unfold validate at h
  split at h
  · cases h
  · split at h
    · cases h
    · split at h
      · simp at h
      · omega

/-- Everything the validation of a length array can raise. -/
theorem validate_cases {len : List Nat} {a : Bool} {e : Status} (h : validate len a = some e) :
    e = .noHuffmanCodes ∨ e = .badHuffmanCodeOverSubscribed ∨ e = .badHuffmanCodeUnderSubscribed := by
  unfold validate at h
  split at h
  · cases h; simp
  · split at h
    · cases h; simp
    · split at h
      · split at h
        · cases h
        · cases h; simp
      · cases h

/-- An array with every entry 0 is an array of the right shape. -/
theorem lensOk_replicate (n top : Nat) : LensOk (List.replicate n 0) n top :=
  ⟨List.length_replicate, fun l hl => by rw [List.eq_of_mem_replicate hl]; omega⟩

/-- Writing an entry keeps the shape of a length array. -/
theorem LensOk.set {len : List Nat} {n top v : Nat} (h : LensOk len n top) (i : Nat) (hv : v ≤ top) :
    LensOk (len.set i v) n top := by
  refine ⟨by simp [h.1], fun l hl => ?_⟩
  rcases List.mem_or_eq_of_mem_set hl with hl | rfl
  · exact h.2 l hl
  · exact hv

/-- The fixed tables are arrays of the right shape, and complete codes (R107, R108). -/
theorem fixLl_ok : LensOk fixLl nLl 15 := ⟨by decide +kernel, by decide +kernel⟩
theorem fixD_ok : LensOk fixD nD 15 := ⟨by decide +kernel, by decide +kernel⟩
theorem fixLl_valid : validate fixLl false = none := by decide +kernel
theorem fixD_valid : validate fixD true = none := by decide +kernel

end Sys2Proof.Machine
end

