-- ==== Sys2Proof/Laws/Elements.lean ====
section
/-! SUPPORT. Which meaning a decoded symbol has: one lemma per alphabet, so that a proof over all symbols of an alphabet
needs no case per symbol (spec/30_encoding.md R98, R100, R101). -/

namespace Sys2Proof.Machine

theorem decode_clsym_len {v : Nat} (h : v < 16) : decode .clsym v = .ok (.clLen v) := by
  simp [decode, Format.width, h]
  omega

theorem decode_lit {v : Nat} (h : v < 256) : decode .llsym v = .ok (.lit (BitVec.ofNat 8 v)) := by
  simp [decode, Format.width, h]
  omega

theorem decode_eob : decode .llsym 256 = .ok .eob := rfl

/-- A length symbol is decoded to an instruction whose meaning is that of a length element of its number. -/
theorem exec_length {v : Nat} (h : 257 ≤ v) (h' : v ≤ 285) :
    ∃ i, decode .llsym v = .ok i ∧ ∀ s, exec i s = lengthElement v s := by
  interval_cases v <;> exact ⟨_, rfl, fun _ => rfl⟩

/-- A distance symbol is decoded to an instruction whose meaning is that of a distance element of its number. -/
theorem exec_distance {v : Nat} (h : v ≤ 29) : ∃ i, decode .dsym v = .ok i ∧ ∀ s, exec i s = distanceElement v s := by
  interval_cases v <;> exact ⟨_, rfl, fun _ => rfl⟩

/-- The two literal/length symbols without a meaning raise `BadHuffmanCode` (R235). -/
theorem exec_llRsvd {v : Nat} (h : 286 ≤ v) (h' : v ≤ 287) :
    ∃ i, decode .llsym v = .ok i ∧ ∀ s, exec i s = atStep .yLitlen s (.next (endRaised .badHuffmanCode s)) := by
  interval_cases v <;> exact ⟨_, rfl, fun _ => rfl⟩

/-- The two distance symbols without a meaning raise `BadHuffmanCode` (R238). -/
theorem exec_dRsvd {v : Nat} (h : 30 ≤ v) (h' : v ≤ 31) :
    ∃ i, decode .dsym v = .ok i ∧ ∀ s, exec i s = atStep .yDsym s (.next (endRaised .badHuffmanCode s)) := by
  interval_cases v <;> exact ⟨_, rfl, fun _ => rfl⟩

end Sys2Proof.Machine
end

