-- ==== Sys2Proof/Laws/Memory.lean ====
section
/-! SUPPORT. The laws of the history window: a read after a write, and the canonical form every write keeps. -/

namespace Sys2Proof.Machine

/-- A write reads back at its address and leaves every other address alone; no canonical form is needed below. -/
theorem memRead_consCell {m : Memory} {lo a : Nat} (b : Byte) (h : memWfFrom lo m = true) (hlt : a < lo) (x : Nat) :
    memRead (consCell a b m) x = if x = a then b else memRead m x := by
  have absent : memRead m a = unlistedByte := by
    clear b
    induction m generalizing lo with
    | nil => rfl
    | cons c m ih =>
      obtain ⟨a', b'⟩ := c
      simp only [memWfFrom, Bool.and_eq_true, decide_eq_true_eq] at h
      have : a ≠ a' := by omega
      simpa [memRead, this] using ih h.2 (by omega)
  by_cases hb : b = unlistedByte
  · by_cases hx : x = a
    · simp [consCell, hb, hx, absent]
    · simp [consCell, hb, hx]
  · simp [consCell, hb, memRead]

/-- `MemRead` after `MemWrite` (R68). -/
theorem memRead_memWrite {m : Memory} {lo : Nat} (h : memWfFrom lo m = true) (a : Nat) (b : Byte) (x : Nat) :
    memRead (memWrite m a b) x = if x = a then b else memRead m x := by
  induction m generalizing lo with
  | nil => exact memRead_consCell b (lo := a + 1) rfl (by omega) x
  | cons c m ih =>
    obtain ⟨a', b'⟩ := c
    have h' := h
    simp only [memWfFrom, Bool.and_eq_true, decide_eq_true_eq] at h
    unfold memWrite
    split
    · refine memRead_consCell b (lo := a') ?_ (by omega) x
      simp only [memWfFrom, Bool.and_eq_true, decide_eq_true_eq]
      exact ⟨⟨⟨le_refl _, h.1.1.2⟩, h.1.2⟩, h.2⟩
    · split
      · subst_vars
        rw [memRead_consCell b h.2 (by omega)]
        by_cases hx : x = a' <;> simp [memRead, hx]
      · by_cases hx : x = a'
        · have : x ≠ a := by omega
          simp [memRead, hx]
          omega
        · simp only [memRead, hx, if_false]
          exact ih h.2

theorem memWfFrom_mono {m : Memory} {lo lo' : Nat} (h : memWfFrom lo m = true) (hl : lo' ≤ lo) :
    memWfFrom lo' m = true := by
  cases m with
  | nil => rfl
  | cons c m =>
    simp only [memWfFrom, Bool.and_eq_true, decide_eq_true_eq] at h ⊢
    exact ⟨⟨⟨by omega, h.1.1.2⟩, h.1.2⟩, h.2⟩

theorem memWfFrom_consCell {m : Memory} {lo a : Nat} (b : Byte) (h : memWfFrom (a + 1) m = true) (hl : lo ≤ a)
    (ha : a < windowSize) : memWfFrom lo (consCell a b m) = true := by
  unfold consCell
  split
  · exact memWfFrom_mono h (by omega)
  · simp only [memWfFrom, Bool.and_eq_true, decide_eq_true_eq]
    exact ⟨⟨⟨hl, ha⟩, ‹_›⟩, h⟩

/-- `MemWrite` inside the window keeps the canonical form. -/
theorem memWfFrom_memWrite {m : Memory} {lo a : Nat} (b : Byte) (h : memWfFrom lo m = true) (hl : lo ≤ a)
    (ha : a < windowSize) : memWfFrom lo (memWrite m a b) = true := by
  induction m generalizing lo with
  | nil => exact memWfFrom_consCell b rfl hl ha
  | cons c m ih =>
    obtain ⟨a', b'⟩ := c
    have h' := h
    simp only [memWfFrom, Bool.and_eq_true, decide_eq_true_eq] at h
    unfold memWrite
    split
    · refine memWfFrom_consCell b ?_ hl ha
      simp only [memWfFrom, Bool.and_eq_true, decide_eq_true_eq]
      exact ⟨⟨⟨by omega, h.1.1.2⟩, h.1.2⟩, h.2⟩
    · split
      · subst_vars
        exact memWfFrom_consCell b h.2 hl ha
      · simp only [memWfFrom, Bool.and_eq_true, decide_eq_true_eq]
        exact ⟨⟨⟨h.1.1.1, h.1.1.2⟩, h.1.2⟩, ih h.2 (by omega)⟩

/-- The canonical form of the window is kept by every write at an address of the window. -/
theorem wf_memWrite {m : Memory} {a : Nat} (b : Byte) (h : m.wf = true) (ha : a < windowSize) :
    (memWrite m a b).wf = true := memWfFrom_memWrite b h (Nat.zero_le a) ha

/-- A listed cell of a written window is the one written or one listed before. -/
theorem mem_memWrite {m : Memory} {a : Nat} {b : Byte} {c : Host.Cell} (h : c ∈ memWrite m a b) :
    c.1 = a ∨ c ∈ m := by
  induction m with
  | nil =>
    unfold memWrite consCell at h
    split at h
    · exact .inr h
    · simp only [List.mem_singleton] at h
      exact .inl (by rw [h])
  | cons d m ih =>
    obtain ⟨a', b'⟩ := d
    unfold memWrite at h
    split at h
    · unfold consCell at h
      split at h
      · exact .inr h
      · rcases List.mem_cons.1 h with h | h
        · exact .inl (by rw [h])
        · exact .inr h
    · split at h
      · unfold consCell at h
        split at h
        · exact .inr (List.mem_cons_of_mem _ h)
        · rcases List.mem_cons.1 h with h | h
          · exact .inl (by rw [h])
          · exact .inr (List.mem_cons_of_mem _ h)
      · rcases List.mem_cons.1 h with h | h
        · exact .inr (by rw [h]; exact List.mem_cons_self)
        · rcases ih h with h | h
          · exact .inl h
          · exact .inr (List.mem_cons_of_mem _ h)

/-- The window of a machine right after reset is canonical. -/
theorem wf_reset : (State.reset.hist).wf = true := rfl

end Sys2Proof.Machine
end

