-- ==== Sys2Proof/Laws/PerInstr.lean ====
section
/-! SUPPORT. Statements about every instruction as syntax, one lemma per constructor. Family EncodeFits: the encoding of
a well-formed instruction fits the field of its format (spec/30_encoding.md R117). -/

namespace Sys2Proof.Laws.EncodeFits

/-- A well-formed instruction's field value fits its format's width. -/
def Statement (i : Instr) : Prop := WellFormed i = true → encode i < 2 ^ (formatOf i).width

/-- An encoding below the format's bound satisfies the statement. -/
theorem of_lt {i : Instr} (h : encode i < 2 ^ (formatOf i).width) : Statement i := fun _ => h

theorem zhdr (x : Half) : Statement (.zhdr x) := of_lt x.isLt
theorem ztrl (x : Word) : Statement (.ztrl x) := of_lt x.isLt
theorem blkStored (f : Bool) : Statement (.blkStored f) := of_lt (by cases f <;> decide)
theorem blkFixed (f : Bool) : Statement (.blkFixed f) := of_lt (by cases f <;> decide)
theorem blkDynamic (f : Bool) : Statement (.blkDynamic f) := of_lt (by cases f <;> decide)
theorem blkReserved (f : Bool) : Statement (.blkReserved f) := of_lt (by cases f <;> decide)

theorem sLen (len nlen : Half) : Statement (.sLen len nlen) := of_lt (by
  have := len.isLt; have := nlen.isLt
  simp only [encode, formatOf, Format.width]; omega)

theorem raw (b : Byte) : Statement (.raw b) := of_lt b.isLt

theorem dCounts (hlit hdist hclen : Nat) : Statement (.dCounts hlit hdist hclen) := by
  intro h
  simp only [WellFormed, Bool.and_eq_true, decide_eq_true_eq] at h
  simp only [encode, formatOf, Format.width]; omega

theorem dCllen (v : Nat) : Statement (.dCllen v) := by
  intro h
  simpa [WellFormed, encode, formatOf, Format.width] using h

theorem clLen (n : Nat) : Statement (.clLen n) := by
  intro h
  have : n < 16 := by simpa [WellFormed] using h
  simp only [encode, formatOf, Format.width]; omega

theorem clRep : Statement .clRep := of_lt (by decide)
theorem clZrep : Statement .clZrep := of_lt (by decide)
theorem clZrepl : Statement .clZrepl := of_lt (by decide)

theorem lit (b : Byte) : Statement (.lit b) := of_lt (by
  have := b.isLt
  simp only [encode, formatOf, Format.width]; omega)

theorem eob : Statement .eob := of_lt (by decide)
theorem len257 : Statement .len257 := of_lt (by decide)
theorem len258 : Statement .len258 := of_lt (by decide)
theorem len259 : Statement .len259 := of_lt (by decide)
theorem len260 : Statement .len260 := of_lt (by decide)
theorem len261 : Statement .len261 := of_lt (by decide)
theorem len262 : Statement .len262 := of_lt (by decide)
theorem len263 : Statement .len263 := of_lt (by decide)
theorem len264 : Statement .len264 := of_lt (by decide)
theorem len265 : Statement .len265 := of_lt (by decide)
theorem len266 : Statement .len266 := of_lt (by decide)
theorem len267 : Statement .len267 := of_lt (by decide)
theorem len268 : Statement .len268 := of_lt (by decide)
theorem len269 : Statement .len269 := of_lt (by decide)
theorem len270 : Statement .len270 := of_lt (by decide)
theorem len271 : Statement .len271 := of_lt (by decide)
theorem len272 : Statement .len272 := of_lt (by decide)
theorem len273 : Statement .len273 := of_lt (by decide)
theorem len274 : Statement .len274 := of_lt (by decide)
theorem len275 : Statement .len275 := of_lt (by decide)
theorem len276 : Statement .len276 := of_lt (by decide)
theorem len277 : Statement .len277 := of_lt (by decide)
theorem len278 : Statement .len278 := of_lt (by decide)
theorem len279 : Statement .len279 := of_lt (by decide)
theorem len280 : Statement .len280 := of_lt (by decide)
theorem len281 : Statement .len281 := of_lt (by decide)
theorem len282 : Statement .len282 := of_lt (by decide)
theorem len283 : Statement .len283 := of_lt (by decide)
theorem len284 : Statement .len284 := of_lt (by decide)
theorem len285 : Statement .len285 := of_lt (by decide)
theorem llRsvd286 : Statement .llRsvd286 := of_lt (by decide)
theorem llRsvd287 : Statement .llRsvd287 := of_lt (by decide)
theorem dist00 : Statement .dist00 := of_lt (by decide)
theorem dist01 : Statement .dist01 := of_lt (by decide)
theorem dist02 : Statement .dist02 := of_lt (by decide)
theorem dist03 : Statement .dist03 := of_lt (by decide)
theorem dist04 : Statement .dist04 := of_lt (by decide)
theorem dist05 : Statement .dist05 := of_lt (by decide)
theorem dist06 : Statement .dist06 := of_lt (by decide)
theorem dist07 : Statement .dist07 := of_lt (by decide)
theorem dist08 : Statement .dist08 := of_lt (by decide)
theorem dist09 : Statement .dist09 := of_lt (by decide)
theorem dist10 : Statement .dist10 := of_lt (by decide)
theorem dist11 : Statement .dist11 := of_lt (by decide)
theorem dist12 : Statement .dist12 := of_lt (by decide)
theorem dist13 : Statement .dist13 := of_lt (by decide)
theorem dist14 : Statement .dist14 := of_lt (by decide)
theorem dist15 : Statement .dist15 := of_lt (by decide)
theorem dist16 : Statement .dist16 := of_lt (by decide)
theorem dist17 : Statement .dist17 := of_lt (by decide)
theorem dist18 : Statement .dist18 := of_lt (by decide)
theorem dist19 : Statement .dist19 := of_lt (by decide)
theorem dist20 : Statement .dist20 := of_lt (by decide)
theorem dist21 : Statement .dist21 := of_lt (by decide)
theorem dist22 : Statement .dist22 := of_lt (by decide)
theorem dist23 : Statement .dist23 := of_lt (by decide)
theorem dist24 : Statement .dist24 := of_lt (by decide)
theorem dist25 : Statement .dist25 := of_lt (by decide)
theorem dist26 : Statement .dist26 := of_lt (by decide)
theorem dist27 : Statement .dist27 := of_lt (by decide)
theorem dist28 : Statement .dist28 := of_lt (by decide)
theorem dist29 : Statement .dist29 := of_lt (by decide)
theorem dRsvd30 : Statement .dRsvd30 := of_lt (by decide)
theorem dRsvd31 : Statement .dRsvd31 := of_lt (by decide)
theorem reset : Statement .reset := of_lt (by decide)
theorem init (v : Nat) : Statement (.init v) := of_lt (show 1 < 2 ^ 2 by decide)
theorem decode (out : Option OutCursor) (inp : Option InCursor) : Statement (.decode out inp) :=
  of_lt (show 2 < 2 ^ 2 by decide)

end Sys2Proof.Laws.EncodeFits
end

