-- ==== Sys2Proof/Laws/Step.lean ====
section
/-! SUPPORT. What a step of a call does, said once: the micro-step it fetches, how a read that does not complete ends it,
which discriminants a micro-step names, and what the operations on the length sequence and on the output leave. -/

set_option Elab.async false

namespace Sys2Proof.Machine

/-! ## The step of a call in progress -/

/-- A step that runs a micro-step is the end of what is fetched there (R286). -/
theorem step_of_runs {m : MicroStep} {s : State} (h : Runs m s) :
    step s = runFetched (fetch (tick s)) ∧ microStep (tick s) = some m := by
  obtain ⟨h1, h2, h3⟩ := h
  refine ⟨by simp [step, h2, h1], ?_⟩
  rw [← h3]
  exact microStep_congr (by simp) (by simp) (by simp) (by simp) (by simp)

/-- An element that is decoded is executed. -/
theorem runFetched_ok {f : Format} {v : Nat} {s : State} {i : Instr} (h : decode f v = .ok i) :
    runFetched (fetchField f (.ok v s)) = exec i s := by
  simp only [fetchField, h, runFetched]

/-- A micro-step that begins with a read ends with it where the read does not complete (R13). -/
theorem finish_bind_ends {α : Type} (r : Res α) (f : α → State → Res Unit) : EndsWithRead r (finish (r.bind f)) := by
  constructor
  · rintro k u rfl; rfl
  · rintro e u rfl; exact ⟨_, rfl, by simp [Raised]⟩

theorem fetchField_ends (f : Format) (r : Res Nat) : EndsWithRead r (runFetched (fetchField f r)) := by
  constructor
  · rintro k u rfl; rfl
  · rintro e u rfl; exact ⟨_, rfl, by simp [Raised]⟩

theorem fetchField_bind_ends {α : Type} (f : Format) (r : Res α) (g : α → State → Res Nat) :
    EndsWithRead r (runFetched (fetchField f (r.bind g))) := by
  constructor
  · rintro k u rfl; rfl
  · rintro e u rfl; exact ⟨_, rfl, by simp [Raised]⟩

theorem raises_endRaised (e : Status) (s : State) : Raises e s (.next (endRaised e s)) := ⟨_, rfl, by simp [Raised]⟩

/-! ## What reading leaves alone -/

theorem OnlyReader.microStep {s t : State} (h : OnlyReader s t) : microStep t = microStep s := by
  unfold OnlyReader at h; rw [h]; rfl

theorem OnlyReader.localsOk {s t : State} {m : MicroStep} (h : OnlyReader s t) (h' : LocalsOk s m) : LocalsOk t m := by
  unfold OnlyReader at h; rw [h]; cases m <;> exact h'

theorem ensureLoop_only {n fuel : Nat} {s t : State} (h : ensureLoop n fuel s = .ok () t) : OnlyReader s t := by
  induction fuel generalizing s with
  | zero => cases h; exact .refl _
  | succ fuel ih =>
    rw [ensureLoop] at h
    split at h
    · rcases pullPush_cases s with ⟨b, rest, -, hp⟩ | ⟨-, -, hp⟩ | ⟨-, -, hp⟩
      · rw [hp] at h
        exact .trans (by simp [OnlyReader, pushByte, dropInByte]) (ih h)
      · rw [hp] at h; cases h
      · rw [hp] at h; cases h
    · cases h; exact .refl _

/-- A field that is read, whatever is buffered: its range, and that only the reader's registers change. -/
theorem need_ok {n v : Nat} {s t : State} (h : need n s = .ok v t) : v < 2 ^ n ∧ OnlyReader s t := by
  unfold need ensure at h
  cases he : ensureLoop n (n - s.nBits) s with
  | ok x u => rw [he] at h; cases h; exact ⟨Nat.mod_lt _ (Nat.two_pow_pos n), (ensureLoop_only he).dropBits n⟩
  | suspend k u => rw [he] at h; cases h
  | raise e u => rw [he] at h; cases h

theorem huffLoop_only {len : List Nat} {fuel sym : Nat} {s t : State} (h : huffLoop len fuel s = .ok sym t) :
    OnlyReader s t := by
  induction fuel generalizing s with
  | zero =>
    unfold huffLoop at h
    split at h
    · cases h; exact (OnlyReader.refl s).dropBits _
    · cases h
  | succ fuel ih =>
    unfold huffLoop at h
    split at h
    · cases h; exact (OnlyReader.refl s).dropBits _
    · split at h
      · cases h
      · rcases pullPush_cases s with ⟨b, rest, -, hp⟩ | ⟨-, -, hp⟩ | ⟨-, -, hp⟩
        · rw [hp] at h
          exact .trans (by simp [OnlyReader, pushByte, dropInByte]) (ih h)
        · rw [hp] at h; cases h
        · rw [hp] at h; cases h

/-- Reading a symbol changes the reader's registers only. -/
theorem huffDecode_only {len : List Nat} {sym : Nat} {s t : State} (h : huffDecode len s = .ok sym t) :
    OnlyReader s t := huffLoop_only h

theorem needPlus_bind {β : Type} (base n : Nat) (s : State) (f : Nat → State → Res β) :
    (needPlus base n s).bind f = (need n s).bind fun v t => f (base + v) t := by
  unfold needPlus
  cases need n s <;> rfl

/-! ## The micro-step and the discriminants (R30) -/

/-- The discriminants that name a micro-step, from `z_step` down. -/
def discriminants : MicroStep → ZStep × Option BStep × Option SStep × Option DStep × Option YStep
  | .zCmf => (.cmf, none, none, none, none)
  | .zFlg => (.flg, none, none, none, none)
  | .zTrailer => (.trailer, none, none, none, none)
  | .bHeader => (.flate, some .header, none, none, none)
  | .bEnd => (.flate, some .blockEnd, none, none, none)
  | .sAlign => (.flate, some .stored, some .align, none, none)
  | .sLen => (.flate, some .stored, some .len, none, none)
  | .sNlen => (.flate, some .stored, some .nlen, none, none)
  | .sCopy => (.flate, some .stored, some .copy, none, none)
  | .dHlit => (.flate, some .dynhdr, none, some .hlit, none)
  | .dHdist => (.flate, some .dynhdr, none, some .hdist, none)
  | .dHclen => (.flate, some .dynhdr, none, some .hclen, none)
  | .dCllens => (.flate, some .dynhdr, none, some .cllens, none)
  | .dSym => (.flate, some .dynhdr, none, some .sym, none)
  | .dExtra => (.flate, some .dynhdr, none, some .extra, none)
  | .dBuild => (.flate, some .dynhdr, none, some .build, none)
  | .yLitlen => (.flate, some .symbols, none, none, some .litlen)
  | .yEmit => (.flate, some .symbols, none, none, some .emit)
  | .yLextra => (.flate, some .symbols, none, none, some .lextra)
  | .yDsym => (.flate, some .symbols, none, none, some .dsym)
  | .yDextra => (.flate, some .symbols, none, none, some .dextra)
  | .yCopy => (.flate, some .symbols, none, none, some .copy)

/-- The current micro-step fixes the discriminants down to its own. -/
theorem discriminants_of_microStep {s : State} {m : MicroStep} (h : microStep s = some m) :
    s.zStep = (discriminants m).1 ∧ (∀ b ∈ (discriminants m).2.1, s.bStep = b) ∧
      (∀ x ∈ (discriminants m).2.2.1, s.sStep = x) ∧ (∀ x ∈ (discriminants m).2.2.2.1, s.dStep = x) ∧
        ∀ x ∈ (discriminants m).2.2.2.2, s.yStep = x := by
  unfold microStep at h
  split at h <;> rename_i hz
  case _ => cases h; simp [discriminants, hz]
  case _ => cases h; simp [discriminants, hz]
  case _ => cases h; simp [discriminants, hz]
  case _ => cases h
  case _ =>
    split at h <;> rename_i hb
    case _ => cases h; simp [discriminants, hz, hb]
    case _ => cases h; simp [discriminants, hz, hb]
    case _ => cases h
    all_goals
      split at h <;> rename_i hx <;> cases h <;> simp [discriminants, hz, hb, hx]

/-! ## The ranges of the extra-bits operands (R104, R105) -/

theorem length_range {v : Nat} (h : 257 ≤ v) (h' : v ≤ 285) :
    lext.getD (v - 257) 0 ≤ 5 ∧ 3 ≤ lbase.getD (v - 257) 0 ∧
      lbase.getD (v - 257) 0 + 2 ^ lext.getD (v - 257) 0 ≤ 259 := by
  interval_cases v <;> decide

theorem distance_range {v : Nat} (h : v ≤ 29) :
    dext.getD v 0 ≤ 13 ∧ 1 ≤ dbase.getD v 0 ∧ dbase.getD v 0 + 2 ^ dext.getD v 0 ≤ 32769 := by
  interval_cases v <;> decide

/-! ## The combined length sequence (R216) -/

theorem getLen_setLen {s : State} {i v k : Nat} (hi : i < s.nLit + s.nDist) (hk : k < s.nLit + s.nDist)
    (h1 : s.nLit ≤ s.llLen.length) (h2 : s.nDist ≤ s.dLen.length) :
    getLen k (setLen i v s) = if k = i then v else getLen k s := by
  simp only [getLen, setLen_fields]
  by_cases hkl : k < s.nLit
  · by_cases hil : i < s.nLit
    · simp only [hkl, hil, if_true]
      by_cases he : k = i
      · subst he; simp [List.getD_eq_getElem?_getD, show k < s.llLen.length by omega]
      · simp only [he, if_false]
        rw [List.getD_eq_getElem?_getD, List.getD_eq_getElem?_getD, List.getElem?_set_ne (by omega)]
    · simp only [hkl, hil, if_true, if_false]
      rw [if_neg (by omega)]
  · by_cases hil : i < s.nLit
    · simp only [hkl, hil, if_true, if_false]
      rw [if_neg (by omega)]
    · simp only [hkl, hil, if_false]
      by_cases he : k = i
      · subst he; simp [List.getD_eq_getElem?_getD, show k - s.nLit < s.dLen.length by omega]
      · simp only [he, if_false]
        rw [List.getD_eq_getElem?_getD, List.getD_eq_getElem?_getD, List.getElem?_set_ne (by omega)]

/-- Writing an entry of the combined sequence gives no code past the counts. -/
theorem setLen_noCodes {s : State} {i v : Nat} (hi : i < s.nLit + s.nDist) (h1 : NoCodesFrom s.nLit s.llLen)
    (h2 : NoCodesFrom s.nDist s.dLen) :
    NoCodesFrom s.nLit (setLen i v s).llLen ∧ NoCodesFrom s.nDist (setLen i v s).dLen := by
  simp only [setLen_fields]
  constructor <;> intro k hk <;> split
  · rw [List.getD_eq_getElem?_getD, List.getElem?_set_ne (by omega), ← List.getD_eq_getElem?_getD]; exact h1 k hk
  · exact h1 k hk
  · exact h2 k hk
  · rw [List.getD_eq_getElem?_getD, List.getElem?_set_ne (by omega), ← List.getD_eq_getElem?_getD]; exact h2 k hk

/-- Nor does a run inside the sequence (R209). -/
theorem fillLens_noCodes {v r i : Nat} {s : State} (hi : i + r ≤ s.nLit + s.nDist) (h1 : NoCodesFrom s.nLit s.llLen)
    (h2 : NoCodesFrom s.nDist s.dLen) :
    NoCodesFrom s.nLit (fillLens v r i s).llLen ∧ NoCodesFrom s.nDist (fillLens v r i s).dLen := by
  induction r generalizing i s with
  | zero => exact ⟨h1, h2⟩
  | succ r ih =>
    obtain ⟨h1', h2'⟩ := setLen_noCodes (v := v) (i := i) (by omega) h1 h2
    have := ih (i := i + 1) (s := setLen i v s) (by simp only [setLen_fields]; omega) (by simpa only [setLen_fields] using h1')
      (by simpa only [setLen_fields] using h2')
    simp only [setLen_fields] at this
    exact this

theorem noCodesFrom_replicate (top n : Nat) : NoCodesFrom top (List.replicate n 0) := by
  intro k _
  rw [List.getD_eq_getElem?_getD, List.getElem?_replicate]
  split <;> rfl

/-- A symbol that has a code in a dynamic block has a meaning (R235, R238). -/
theorem TablesFromHeader.fixed {s : State} (h : TablesFromHeader s)
    (hc : (∃ k, 286 ≤ k ∧ s.llLen.getD k 0 ≠ 0) ∨ ∃ k, 30 ≤ k ∧ s.dLen.getD k 0 ≠ 0) :
    s.btype = 1 ∧ s.llLen = fixLl ∧ s.dLen = fixD := by
  rcases h with h | ⟨-, h1, h2⟩
  · exact h
  · rcases hc with ⟨k, hk, hn⟩ | ⟨k, hk, hn⟩
    · exact absurd (h1 k hk) hn
    · exact absurd (h2 k hk) hn

/-! ## `Emit` -/

/-- What `Emit` keeps of the window and the checksum: the canonical form, locations written only below `produced`, and
sums below 65521 (R246, R262). -/
theorem emit_keeps {s : State} (b : Byte) (hw : s.hist.wf = true) (hp : ∀ c ∈ s.hist, c.1 < s.produced) :
    (emit b s).hist.wf = true ∧ (∀ c ∈ (emit b s).hist, c.1 < (emit b s).produced) ∧
      (emit b s).adlerA.toNat < adlerMod ∧ (emit b s).adlerB.toNat < adlerMod := by
  have hm : ∀ x, x % adlerMod < adlerMod := fun x => Nat.mod_lt _ (by decide)
  have hm2 : ∀ x, x % adlerMod < 2 ^ 16 := fun x => lt_trans (hm x) (by decide)
  refine ⟨wf_memWrite b hw (Nat.mod_lt _ (by decide)), fun c hc => ?_, ?_, ?_⟩
  · have hl := Nat.mod_le s.produced windowSize
    simp only [emit_fields] at hc ⊢
    rcases mem_memWrite hc with h | h
    · omega
    · exact Nat.lt_succ_of_lt (hp c h)
  · simp only [emit_fields, BitVec.toNat_ofNat]; rw [Nat.mod_eq_of_lt (hm2 _)]; exact hm _
  · simp only [emit_fields, BitVec.toNat_ofNat]; rw [Nat.mod_eq_of_lt (hm2 _)]; exact hm _

/-- Everything emitting one byte with the test for room can do (R66, R246). -/
theorem emitChecked_cases (b : Byte) (s : State) :
    (s.outBytes.length < s.outCap ∧ emitChecked b s = .ok () (emit b s)) ∨
      (s.outCap ≤ s.outBytes.length ∧ s.outClosed = true ∧ emitChecked b s = .raise .closedForWrites s) ∨
        (s.outCap ≤ s.outBytes.length ∧ s.outClosed = false ∧ emitChecked b s = .suspend .shortWrite s) := by
  unfold emitChecked
  rcases needOut_cases s with ⟨h, ho⟩ | ⟨h, hc, ho⟩ | ⟨h, hc, ho⟩
  · exact .inl ⟨h, by simp [ho, Res.bind]⟩
  · exact .inr (.inl ⟨h, hc, by simp [ho, Res.bind]⟩)
  · exact .inr (.inr ⟨h, hc, by simp [ho, Res.bind]⟩)

end Sys2Proof.Machine
end

