-- ==== Sys2Proof/Tests/Slice0.lean ====
section
/-! SUPPORT. The model's own tests: the ill-formed terms that WellFormed refuses, words written out from the encodings of
the spec, single steps taken from the spec's examples and test vectors, and, for every statement with hypotheses, concrete
states and operands that meet them. -/

set_option Elab.async false

namespace Sys2Proof.Tests

open Sys2Proof Sys2Proof.Machine

/-! ## Small states -/

/-- A call in progress at a step of the zlib envelope, with the bytes to read and room for one byte. -/
def atZ (z : ZStep) (inp : List Byte) : State :=
  { State.reset with phase := .active, busy := true, zStep := z, inBytes := inp, outCap := 1 }

def atB (b : BStep) (inp : List Byte) : State := { atZ .flate inp with bStep := b }

def atS (x : SStep) (inp : List Byte) : State := { atB .stored inp with sStep := x }

def atD (d : DStep) (inp : List Byte) : State := { atB .dynhdr inp with btype := 2, dStep := d, nLit := 257, nDist := 1 }

/-- In the symbol loop of a fixed block. -/
def atY (y : YStep) (inp : List Byte) : State := { atB .symbols inp with btype := 1, yStep := y, llLen := fixLl, dLen := fixD }

/-- One step leads to a next state of which a test holds. -/
def stepTo (s : State) (p : State → Bool) : Bool :=
  match step s with
  | .next t => p t
  | _ => false

/-- One meaning leads to a next state of which a test holds. -/
def execTo (i : Instr) (s : State) (p : State → Bool) : Bool :=
  match exec i s with
  | .next t => p t
  | _ => false

/-- The call ended with a status. -/
def returned (k : Status) (t : State) : Bool := !t.busy && t.status == k && t.reply == some k

/-! ## Well-formedness: one ill-formed term for each check -/

theorem test_wf_hlit : WellFormed (.dCounts 32 0 0) = false := by decide
theorem test_wf_hdist : WellFormed (.dCounts 0 32 0) = false := by decide
theorem test_wf_hclen : WellFormed (.dCounts 0 0 16) = false := by decide
theorem test_wf_cllen : WellFormed (.dCllen 8) = false := by decide
theorem test_wf_clsym : WellFormed (.clLen 16) = false := by decide
theorem test_wf_accepts : WellFormed (.dCounts 31 31 15) = true ∧ WellFormed (.dCllen 7) = true := by decide

/-! ## Decoding: a word of every row, written out from spec/30_encoding.md and spec/44_symbol_loop_window.md -/

/-- R91, R92: `78 9C` is CMF*256 + FLG = 30876; a trailer's first byte is its most significant. -/
theorem test_decode_envelope :
    decode .zhdr 0b0111100010011100 = .ok (.zhdr 30876) ∧ decode .ztrl 0x024D0127 = .ok (.ztrl 0x024D0127) := by
  decide +kernel

/-- R93, R94: BFINAL is bit 0, BTYPE bits 2:1. -/
theorem test_decode_headers :
    decode .bhdr 0b000 = .ok (.blkStored false) ∧ decode .bhdr 0b011 = .ok (.blkFixed true) ∧
      decode .bhdr 0b100 = .ok (.blkDynamic false) ∧ decode .bhdr 0b111 = .ok (.blkReserved true) := by decide +kernel

/-- R95, R187: bytes `03 00 FC FF` are LEN 3 and NLEN 0xFFFC; a data byte is itself. -/
theorem test_decode_stored :
    decode .stored 0xFFFC0003 = .ok (.sLen 3 0xFFFC) ∧ decode .raw 0x61 = .ok (.raw 0x61) := by decide +kernel

/-- R96, R97, R98: HLIT lowest, then HDIST, then HCLEN; the code-length alphabet. -/
theorem test_decode_dynamic :
    decode .dynhdr 0b1110_00011_11101 = .ok (.dCounts 29 3 14) ∧ decode .cllen 0b101 = .ok (.dCllen 5) ∧
      decode .clsym 0b01111 = .ok (.clLen 15) ∧ decode .clsym 0b10000 = .ok .clRep ∧
      decode .clsym 0b10001 = .ok .clZrep ∧ decode .clsym 0b10010 = .ok .clZrepl := by decide +kernel

/-- R100: literals are 0 to 255, the end of block is 256. -/
theorem test_decode_literals :
    decode .llsym 0x61 = .ok (.lit 0x61) ∧ decode .llsym 255 = .ok (.lit 255) ∧ decode .llsym 256 = .ok .eob := by
  decide +kernel

/-- R234, R235: the length symbols. -/
theorem test_decode_lengths : ∀ p ∈ ([(257, .len257), (258, .len258), (259, .len259), (260, .len260), (261, .len261), (262, .len262), (263, .len263),
   (264, .len264), (265, .len265), (266, .len266), (267, .len267), (268, .len268), (269, .len269), (270, .len270),
   (271, .len271), (272, .len272), (273, .len273), (274, .len274), (275, .len275), (276, .len276), (277, .len277),
   (278, .len278), (279, .len279), (280, .len280), (281, .len281), (282, .len282), (283, .len283), (284, .len284),
   (285, .len285), (286, .llRsvd286), (287, .llRsvd287)] : List (Nat × Instr)),
    decode .llsym p.1 = .ok p.2 := by decide +kernel

/-- R242, R238: the distance symbols. -/
theorem test_decode_distances : ∀ p ∈ ([(0, .dist00), (1, .dist01), (2, .dist02), (3, .dist03), (4, .dist04), (5, .dist05), (6, .dist06), (7, .dist07),
   (8, .dist08), (9, .dist09), (10, .dist10), (11, .dist11), (12, .dist12), (13, .dist13), (14, .dist14),
   (15, .dist15), (16, .dist16), (17, .dist17), (18, .dist18), (19, .dist19), (20, .dist20), (21, .dist21),
   (22, .dist22), (23, .dist23), (24, .dist24), (25, .dist25), (26, .dist26), (27, .dist27), (28, .dist28),
   (29, .dist29), (30, .dRsvd30), (31, .dRsvd31)] : List (Nat × Instr)),
    decode .dsym p.1 = .ok p.2 := by decide +kernel

/-- R117: the host's rows carry the ordinals 0, 1, 2. -/
theorem test_decode_host :
    decode .host 0 = .ok .reset ∧ decode .host 1 = .ok (.init 0) ∧
      decode .host 2 = .ok (.decode (some ⟨0, false⟩) (some ⟨[], false⟩)) := by decide +kernel

/-- R98, R100: values that are no symbol are refused by name. -/
theorem test_decode_refuses :
    decode .clsym 19 = .error (.noSuchSymbol .clsym 19) ∧ decode .llsym 288 = .error (.noSuchSymbol .llsym 288) ∧
      decode .dsym 32 = .error (.tooWide .dsym 32) ∧ decode .host 3 = .error (.noSuchSymbol .host 3) := by
  decide +kernel

/-- The fixed codes of R234: length symbol, code length, code. -/
theorem test_fixed_length_codes : ∀ p ∈ ([(257, 7, 0b0000001), (258, 7, 0b0000010), (259, 7, 0b0000011), (260, 7, 0b0000100), (261, 7, 0b0000101),
   (262, 7, 0b0000110), (263, 7, 0b0000111), (264, 7, 0b0001000), (265, 7, 0b0001001), (266, 7, 0b0001010),
   (267, 7, 0b0001011), (268, 7, 0b0001100), (269, 7, 0b0001101), (270, 7, 0b0001110), (271, 7, 0b0001111),
   (272, 7, 0b0010000), (273, 7, 0b0010001), (274, 7, 0b0010010), (275, 7, 0b0010011), (276, 7, 0b0010100),
   (277, 7, 0b0010101), (278, 7, 0b0010110), (279, 7, 0b0010111), (280, 8, 0b11000000), (281, 8, 0b11000001),
   (282, 8, 0b11000010), (283, 8, 0b11000011), (284, 8, 0b11000100), (285, 8, 0b11000101)] : List (Nat × Nat × Nat)),
    fixLl.getD p.1 0 = p.2.1 ∧ codeOf fixLl p.1 = p.2.2 := by decide +kernel

/-- The fixed codes of R242: distance symbol, code length, code. -/
theorem test_fixed_distance_codes : ∀ p ∈ ([(0, 5, 0b00000), (1, 5, 0b00001), (2, 5, 0b00010), (3, 5, 0b00011), (4, 5, 0b00100), (5, 5, 0b00101),
   (6, 5, 0b00110), (7, 5, 0b00111), (8, 5, 0b01000), (9, 5, 0b01001), (10, 5, 0b01010), (11, 5, 0b01011),
   (12, 5, 0b01100), (13, 5, 0b01101), (14, 5, 0b01110), (15, 5, 0b01111), (16, 5, 0b10000), (17, 5, 0b10001),
   (18, 5, 0b10010), (19, 5, 0b10011), (20, 5, 0b10100), (21, 5, 0b10101), (22, 5, 0b10110), (23, 5, 0b10111),
   (24, 5, 0b11000), (25, 5, 0b11001), (26, 5, 0b11010), (27, 5, 0b11011), (28, 5, 0b11100), (29, 5, 0b11101)] : List (Nat × Nat × Nat)),
    fixD.getD p.1 0 = p.2.1 ∧ codeOf fixD p.1 = p.2.2 := by decide +kernel

/-- R107: the first and last code of each run of the fixed literal/length code. -/
theorem test_fixed_literal_codes :
    codeOf fixLl 0 = 0b00110000 ∧ codeOf fixLl 143 = 0b10111111 ∧ codeOf fixLl 144 = 0b110010000 ∧
      codeOf fixLl 255 = 0b111111111 ∧ codeOf fixLl 256 = 0 ∧ codeOf fixLl 279 = 0b0010111 ∧
      codeOf fixLl 280 = 0b11000000 ∧ codeOf fixLl 287 = 0b11000111 := by decide +kernel

/-- R162: the two worked examples. -/
theorem test_codes_of_examples :
    (List.range 4).map (codeOf [2, 1, 3, 3]) = [0b10, 0b0, 0b110, 0b111] ∧
      (List.range 8).map (codeOf [3, 3, 3, 3, 3, 2, 4, 4]) = [0b010, 0b011, 0b100, 0b101, 0b110, 0b00, 0b1110, 0b1111] := by
  decide +kernel

/-- R119: `LEN 258` is symbol 285, never symbol 284; `DIST 32768` is symbol 29 with extra field 8191. -/
theorem test_pseudo : pseudoLen 258 = (285, 0) ∧ pseudoLen 257 = (284, 30) ∧ pseudoDist 32768 = (29, 8191) := by
  decide +kernel

/-! ## The reader and the tables -/

/-- R141: `bits = 0b101`, `n_bits = 3`, `ensure(9)` with next byte 0xC4 gives 0x625 and 11. -/
theorem test_ensure :
    (match ensure 9 { atZ .cmf [0xC4] with bits := 0b101, nBits := 3 } with
      | .ok _ t => t.bits == 0x625 && t.nBits == 11
      | _ => false) = true := by decide +kernel

/-- R142: `take(3)` of 0x625 returns 5 and leaves 0xC4 with 8 bits. -/
theorem test_take :
    let s := { atZ .cmf [] with bits := 0x625, nBits := 11 }
    lowBits 3 s = 5 ∧ (dropBits 3 s).bits = 0xC4 ∧ (dropBits 3 s).nBits = 8 := by decide +kernel

/-- R144: five buffered bits are dropped. -/
theorem test_align : (alignToByte { atZ .cmf [] with bits := 0b10011, nBits := 5 }).nBits = 0 := by decide +kernel

/-- R168: with lengths (2, 1, 3, 3) the bits 0b011 are symbol 2, three bits long. -/
theorem test_huffDecode :
    (match huffDecode [2, 1, 3, 3] { atZ .cmf [] with bits := 0b011, nBits := 3 } with
      | .ok sym t => sym == 2 && t.nBits == 0
      | _ => false) = true := by decide +kernel

/-- R164: the corner cases of validation. -/
theorem test_validate :
    validate [1] false = some .badHuffmanCodeUnderSubscribed ∧ validate [1] true = none ∧ validate [1, 1] false = none ∧
      validate [1, 1, 1] true = some .badHuffmanCodeOverSubscribed ∧
      validate [2, 2, 2] true = some .badHuffmanCodeUnderSubscribed ∧
      validate [0, 0] true = some .noHuffmanCodes := by decide +kernel

/-! ## Single steps -/

/-- R263: CMF is kept, nothing is checked. -/
theorem test_zCmf : stepTo (atZ .cmf [0x88]) (fun t => t.zCmf == 0x88 && t.zStep == .flg && t.busy) = true := by
  decide +kernel

/-- R264: the examples of the rule. -/
theorem test_zhdr_accepts : stepTo { atZ .flg [0x9C] with zCmf := 0x78 } (fun t => t.zStep == .flate) = true := by
  decide +kernel

theorem test_zhdr_refuses :
    execTo (.zhdr 0x789D) (atZ .flg []) (returned .invalidZlibParityCheck) = true ∧
      execTo (.zhdr 0x799B) (atZ .flg []) (returned .invalidZlibParityCheck) = true ∧
      execTo (.zhdr 0x7709) (atZ .flg []) (returned .invalidZlibCompressionMethod) = true ∧
      execTo (.zhdr 0x881C) (atZ .flg []) (returned .invalidZlibCompressionWindowSize) = true ∧
      execTo (.zhdr 0x78BB) (atZ .flg []) (returned .unsupportedPresetDictionary) = true := by decide +kernel

/-- R268: empty output has the checksum 1. -/
theorem test_ztrl :
    execTo (.ztrl 1) { atZ .trailer [] with zTrlN := 4 } (fun t => t.phase == .done && returned .ok t) = true ∧
      execTo (.ztrl 2) { atZ .trailer [] with zTrlN := 4 }
        (fun t => t.phase == .poisoned && returned .checksumMismatch t) = true := by decide +kernel

/-- R181: byte 0x03 is a final fixed block. -/
theorem test_blkFixed :
    stepTo (atB .header [0x03])
      (fun t => t.final && t.btype == 1 && t.bStep == .symbols && t.nBits == 5 && t.llLen.getD 256 0 == 7) = true := by
  decide +kernel

theorem test_blkStored :
    stepTo (atB .header [0x01]) (fun t => t.final && t.bStep == .stored && t.sStep == .align) = true := by decide +kernel

theorem test_blkDynamic :
    stepTo (atB .header [0x04]) (fun t => !t.final && t.bStep == .dynhdr && t.dStep == .hlit) = true := by decide +kernel

/-- R183: byte 0x06 is a reserved block. -/
theorem test_blkReserved : stepTo (atB .header [0x06]) (returned .badFlateBlock) = true := by decide +kernel

/-- R187: `03 00 FC FF` is accepted, `03 00 FC FE` is not. -/
theorem test_sLen :
    stepTo { atS .nlen [0xFC, 0xFF] with sLen := 3 } (fun t => t.sRem == 3 && t.sStep == .copy) = true ∧
      stepTo { atS .nlen [0xFC, 0xFE] with sLen := 3 } (returned .inconsistentStoredBlockLength) = true := by
  decide +kernel

/-- R188, R262: `a` copied from the input; the checksum becomes 0x00620062. -/
theorem test_raw :
    stepTo { atS .copy [0x61] with sRem := 1 }
      (fun t => t.sRem == 0 && t.outBytes == [0x61] && adlerValue t == 0x00620062 && memRead t.hist 0 == 0x61) = true := by
  decide +kernel

/-- R188, R312: with neither output space nor input the output condition wins. -/
theorem test_raw_output_first :
    stepTo { atS .copy [] with sRem := 1, outCap := 0 } (returned .shortWrite) = true := by decide +kernel

/-- R205: HLIT 30 and HDIST 30 are too many, literal/length first. -/
theorem test_dCounts :
    execTo (.dCounts 30 30 0) (atD .hclen []) (returned .badLiteralLengthCodeCount) = true ∧
      execTo (.dCounts 29 30 0) (atD .hclen []) (returned .badDistanceCodeCount) = true := by decide +kernel

/-- R206: the fourth length is that of symbol 0. -/
theorem test_dCllen :
    execTo (.dCllen 5) { atD .cllens [] with dI := 3, nClen := 4 }
      (fun t => t.clLen.getD 0 9 == 5 && t.dI == 4) = true := by decide +kernel

/-- R211: at `d_i = 97`, `CL.LEN 1` sets `ll_len[97]`. -/
theorem test_clLen :
    execTo (.clLen 1) { atD .sym [] with dI := 97 } (fun t => t.llLen.getD 97 9 == 1 && t.dI == 98) = true := by
  decide +kernel

/-- R208, R212: no previous length; previous entry 8 and REPX 3 give six more entries of 8. -/
theorem test_clRep :
    execTo .clRep (atD .sym []) (returned .badHuffmanCodeLengthRepetition) = true ∧
      execTo .clRep { atD .extra [0x03] with dI := 10, repSym := 16, repVal := 8 }
        (fun t => t.dI == 16 && t.llLen.getD 10 0 == 8 && t.llLen.getD 15 0 == 8 && t.llLen.getD 16 9 == 0) = true := by
  decide +kernel

/-- R213: the run may start at `d_i = 0`. -/
theorem test_clZrep :
    execTo .clZrep (atD .sym []) (fun t => t.repSym == 17 && t.repVal == 0 && t.dStep == .extra) = true ∧
      execTo .clZrep { atD .extra [0x00] with dI := 256, repSym := 17 } (returned .badHuffmanCodeLengthCount) = true := by
  decide +kernel

/-- R214: REPX 86 gives 97 zeros. -/
theorem test_clZrepl :
    execTo .clZrepl { atD .extra [86] with repSym := 18 } (fun t => t.dI == 97 && t.dStep == .sym) = true := by
  decide +kernel

/-- R232: the fixed code of 0x61 is `10010001`, its first bit in bit 0 of the byte. -/
theorem test_lit : stepTo (atY .litlen [0b10001001]) (fun t => t.yLit == 0x61 && t.yStep == .emit) = true := by
  decide +kernel

theorem test_lit_emitted :
    stepTo { atY .emit [] with yLit := 0x61 } (fun t => t.outBytes == [0x61] && t.yStep == .litlen) = true := by
  decide +kernel

/-- R233: seven zero bits end a fixed block. -/
theorem test_eob : stepTo (atY .litlen [0x80]) (fun t => t.bStep == .blockEnd && t.nBits == 1) = true := by decide +kernel

/-- R237: symbol 284 with LEXTRA 31 is length 258, the same as symbol 285. -/
theorem test_len284 :
    stepTo { atY .lextra [31] with yLsym := 284 } (fun t => t.yLength == 258 && t.nBits == 3) = true := by decide +kernel

theorem test_len285 : stepTo { atY .lextra [] with yLsym := 285 } (fun t => t.yLength == 258) = true := by decide +kernel

/-- R235: the fixed code `11000110` is a symbol without a meaning. -/
theorem test_llRsvd286 : stepTo (atY .litlen [0b01100011]) (returned .badHuffmanCode) = true := by decide +kernel

/-- R242: symbol 29 with DEXTRA 8191 is distance 32768. -/
theorem test_dist29 :
    stepTo { atY .dextra [0xFF, 0x1F] with yDsym := 29, produced := 32768, yLength := 3 }
      (fun t => t.yDist == 32768 && t.yRem == 3 && t.yStep == .copy) = true := by decide +kernel

/-- R239: a match as the first element of a stream fails. -/
theorem test_dist00 : stepTo { atY .dextra [] with yDsym := 0, yLength := 3 } (returned .badDistance) = true := by
  decide +kernel

/-- R241: output so far `ab`, distance 2: the next byte is `a`. -/
theorem test_copy :
    stepTo { atY .copy [] with hist := [(0, 0x61), (1, 0x62)], produced := 2, yDist := 2, yRem := 5 }
      (fun t => t.outBytes == [0x61] && t.yRem == 4 && memRead t.hist 2 == 0x61) = true := by decide +kernel

/-- R238: the fixed code `11110` is distance symbol 30. -/
theorem test_dRsvd30 : stepTo (atY .dsym [0b01111]) (returned .badHuffmanCode) = true := by decide +kernel

/-- R281, R283, R285: the operations of the host. -/
theorem test_reset : execTo .reset (atY .copy []) (fun t => t.phase == .uninit && !t.busy && t.nBits == 0) = true := by
  decide +kernel

theorem test_init :
    execTo (.init 1) State.reset (fun t => t.phase == .active && returned .ok t) = true ∧
      execTo (.init 2) State.reset (fun t => t.phase == .poisoned && returned .badVersion t) = true := by decide +kernel

theorem test_decode :
    execTo (.decode none none) State.reset (fun t => t.phase == .poisoned && returned .initializerNotCalled t) = true ∧
      execTo (.decode (some ⟨0, false⟩) none) { State.reset with phase := .active }
        (fun t => t.phase == .poisoned && returned .badArgument t) = true := by decide +kernel

/-- spec/95_test_vectors.md V1: the first step of a program's run, from reset with the two operations of the host pending. -/
theorem test_program_starts :
    stepTo { State.reset with
        requests := [⟨.init 1, none⟩, ⟨.decode (some ⟨0, false⟩) (some ⟨[0x78, 0x9C], false⟩), none⟩] }
      (fun t => t.phase == .active && t.requests.length == 1) = true := by decide +kernel

/-- Placing a table word: the decoder's instruction is what the next step runs (log entries 11, 12). -/
theorem test_withFetchWord :
    decodeTableWord 16 30876 = some (.zhdr 30876) ∧ decodeTableWord 9 258 = some .len258 ∧
      stepTo (State.reset.withFetchWord 16 258) (fun t => t.yLsym == 258 && t.yStep == .lextra) = true ∧
      stepTo (State.reset.withFetchWord 16 30876) (fun t => t.zStep == .flate) = true := by decide +kernel

/-! ## Witnesses: the hypotheses of the statements can be met, for each clause where there are several -/

/-- A read completes with a value of which a test holds. -/
def okWith (r : Res Nat) (p : Nat → Bool) : Bool :=
  match r with
  | .ok v _ => p v
  | _ => false

theorem okWith_spec {r : Res Nat} {p : Nat → Bool} (h : okWith r p = true) : ∃ v u, r = .ok v u ∧ p v = true := by
  cases r with
  | ok v u => exact ⟨v, u, rfl, h⟩
  | suspend k u => cases h
  | raise e u => cases h

/-- The current element is read and decoded. -/
def decodesTo (f : Format) (r : Res Nat) : Bool :=
  okWith r fun v => match decode f v with | .ok _ => true | .error _ => false

theorem decodesTo_spec {f : Format} {r : Res Nat} (h : decodesTo f r = true) :
    ∃ v u i, r = .ok v u ∧ decode f v = .ok i := by
  obtain ⟨v, u, hr, hp⟩ := okWith_spec h
  cases hd : decode f v with
  | ok i => exact ⟨v, u, i, hr, hd⟩
  | error e => rw [hd] at hp; cases hp

theorem runs_of {m : MicroStep} {s : State} (h1 : s.busy = true) (h2 : s.requests = []) (h3 : microStep s = some m) :
    Runs m s := ⟨h1, by simp [presented, h2], h3⟩

/-- A state whose window, arrays, sums and output are in range, at a micro-step whose registers are, meets the
invariant. -/
theorem inv_at {s : State} {m : MicroStep} (hw : s.hist.wf = true ∧ ∀ c ∈ s.hist, c.1 < s.produced)
    (hb : s.bits.toNat < 2 ^ s.nBits ∧ s.nBits ≤ 22)
    (hl : LensOk s.clLen nCl 7 ∧ LensOk s.llLen nLl 15 ∧ LensOk s.dLen nD 15)
    (ha : s.adlerA.toNat < adlerMod ∧ s.adlerB.toNat < adlerMod) (ho : s.outBytes.length ≤ s.outCap)
    (hp : s.phase = .active) (hm : microStep s = some m) (hr : ReaderOk s m) (hx : LocalsOk s m) : Inv s :=
  ⟨hw.1, hw.2, hb.1, hb.2, hl.1, hl.2.1, hl.2.2, ha, ho, fun _ => hp, fun _ => ⟨m, hm, hr, hx⟩⟩

theorem lens_reset : LensOk State.reset.clLen nCl 7 ∧ LensOk State.reset.llLen nLl 15 ∧ LensOk State.reset.dLen nD 15 :=
  ⟨lensOk_replicate _ _, lensOk_replicate _ _, lensOk_replicate _ _⟩

theorem lens_fixed : LensOk State.reset.clLen nCl 7 ∧ LensOk fixLl nLl 15 ∧ LensOk fixD nD 15 :=
  ⟨lensOk_replicate _ _, fixLl_ok, fixD_ok⟩

theorem counts_reset (s : State) (h : s.nLit = 257 ∧ s.nDist = 1 ∧ s.btype = 2)
    (hl : s.llLen = List.replicate 288 0 ∧ s.dLen = List.replicate 32 0) : CountsOk s := by
  obtain ⟨h1, h2, h3⟩ := h
  refine ⟨by omega, by omega, by omega, by omega, h3, ?_, ?_⟩
  · rw [hl.1]; exact noCodesFrom_replicate _ _
  · rw [hl.2]; exact noCodesFrom_replicate _ _

theorem sums_reset : State.reset.adlerA.toNat < adlerMod ∧ State.reset.adlerB.toNat < adlerMod := by decide

theorem tables_fixed : validate fixLl false = none ∧ validate fixD true = none ∧
    ((1 : BitVec 2) = 1 ∧ fixLl = fixLl ∧ fixD = fixD ∨
      (1 : BitVec 2) = 2 ∧ NoCodesFrom 286 fixLl ∧ NoCodesFrom 30 fixD) :=
  ⟨fixLl_valid, fixD_valid, .inl ⟨rfl, rfl, rfl⟩⟩

theorem placed_valid : validate placedClLen false = none := by decide +kernel

theorem placed_lens : LensOk placedClLen nCl 7 := ⟨by decide, by decide⟩

/-- At the first header byte, with a byte to read. -/
def sCmf : State := atZ .cmf [0x78]
/-- At the first header byte, with nothing to read. -/
def sCmfEmpty : State := atZ .cmf []
/-- At the comparison of the trailer of an empty stream. -/
def sTrailer : State := { atZ .trailer [] with zTrlN := 4, zTrl := 1 }
/-- At a block header, byte 0x03 next. -/
def sHeader : State := atB .header [0x03]
/-- At the code-length code lengths of a dynamic header. -/
def sCllens : State := { atD .cllens [0x05] with nClen := 4 }
/-- At a code-length symbol, with the code that gives every symbol a code. -/
def sSym : State := { atD .sym [0x00] with clLen := placedClLen }
/-- At a literal/length symbol of a fixed block, the end of block next. -/
def sLitlen : State := atY .litlen [0x80]
/-- At a literal with no output space. -/
def sEmitFull : State := { atY .emit [] with outCap := 0 }
/-- At a distance symbol of a fixed block. -/
def sDsym : State := { atY .dsym [0x00] with yLength := 3 }
/-- In a copy of two bytes at distance 1, with one byte produced. -/
def sCopy : State :=
  { atY .copy [] with hist := [(0, 0x61)], produced := 1, yLength := 3, yDist := 1, yRem := 2, outCap := 2 }

theorem inv_sCmf : Inv sCmf :=
  inv_at (m := .zCmf) ⟨rfl, by simp [sCmf, atZ, State.reset]⟩ (by decide) lens_reset sums_reset (by decide) rfl rfl rfl rfl

theorem inv_sCmfEmpty : Inv sCmfEmpty :=
  inv_at (m := .zCmf) ⟨rfl, by simp [sCmfEmpty, atZ, State.reset]⟩ (by decide) lens_reset sums_reset (by decide) rfl rfl
    rfl rfl

theorem inv_sTrailer : Inv sTrailer :=
  inv_at (m := .zTrailer) ⟨rfl, by simp [sTrailer, atZ, State.reset]⟩ (by decide) lens_reset sums_reset (by decide) rfl
    rfl rfl (Nat.le_refl 4)

theorem inv_sHeader : Inv sHeader :=
  inv_at (m := .bHeader) ⟨rfl, by simp [sHeader, atB, atZ, State.reset]⟩ (by decide) lens_reset sums_reset (by decide)
    rfl rfl (Nat.zero_le 7) trivial

theorem inv_sCllens : Inv sCllens :=
  inv_at (m := .dCllens) ⟨rfl, by simp [sCllens, atD, atB, atZ, State.reset]⟩ (by decide) lens_reset sums_reset
    (by decide) rfl rfl (Nat.zero_le 7) ⟨counts_reset _ ⟨rfl, rfl, rfl⟩ ⟨rfl, rfl⟩, by decide, by decide, by decide⟩

theorem inv_sSym : Inv sSym :=
  inv_at (m := .dSym) ⟨rfl, by simp [sSym, atD, atB, atZ, State.reset]⟩ (by decide)
    ⟨placed_lens, lensOk_replicate _ _, lensOk_replicate _ _⟩ sums_reset (by decide) rfl rfl (.inl (by decide))
    ⟨counts_reset _ ⟨rfl, rfl, rfl⟩ ⟨rfl, rfl⟩, placed_valid, by decide⟩

theorem inv_sLitlen : Inv sLitlen :=
  inv_at (m := .yLitlen) ⟨rfl, by simp [sLitlen, atY, atB, atZ, State.reset]⟩ (by decide) lens_fixed sums_reset
    (by decide) rfl rfl (.inl (by decide)) tables_fixed

theorem inv_sEmitFull : Inv sEmitFull :=
  inv_at (m := .yEmit) ⟨rfl, by simp [sEmitFull, atY, atB, atZ, State.reset]⟩ (by decide) lens_fixed sums_reset
    (by decide) rfl rfl (Nat.zero_le 7) tables_fixed

theorem inv_sDsym : Inv sDsym :=
  inv_at (m := .yDsym) ⟨rfl, by simp [sDsym, atY, atB, atZ, State.reset]⟩ (by decide) lens_fixed sums_reset
    (by decide) rfl rfl (.inl (by decide)) ⟨tables_fixed, by decide, by decide⟩

theorem inv_sCopy : Inv sCopy :=
  inv_at (m := .yCopy) ⟨by decide, by decide⟩ (by decide) lens_fixed sums_reset (by decide) rfl rfl (Nat.zero_le 7)
    ⟨tables_fixed, by decide, by decide, by decide, by decide, by decide, by decide⟩

theorem witness_ResetAndInitClear :
    State.reset.busy = false ∧ 1 = State.reset.cfg.version ∧ 2 ≠ State.reset.cfg.version ∧ sCmf.busy = true := by decide

theorem witness_ResetValues :
    State.reset.busy = false ∧ 1 = State.reset.cfg.version ∧ 2 ≠ State.reset.cfg.version := by decide

theorem witness_DecodeEntry :
    sCmf.busy = true ∧ State.reset.busy = false ∧ State.reset.phase = .uninit ∧
      ({ State.reset with phase := .done } : State).phase = .done ∧
      ({ State.reset with phase := .poisoned } : State).phase = .poisoned ∧
      ({ State.reset with phase := .active } : State).busy = false ∧
      (none : Option OutCursor) = none ∧ some (⟨0, false⟩ : OutCursor) = some ⟨0, false⟩ ∧
      some (⟨[], true⟩ : InCursor) = some ⟨[], true⟩ := by decide

theorem witness_OverlappingCallsRejected :
    ({ sCmf with requests := [⟨.init 1, some 0⟩] } : State).busy = true ∧
      presented { sCmf with requests := [⟨.init 1, some 0⟩] } = some (.init 1, sCmf) ∧ HostOp.init 1 ≠ .reset :=
  ⟨rfl, rfl, by decide⟩

theorem witness_HostOperationsRun :
    (State.reset.busy = false ∧
      ({ State.reset with requests := [⟨.reset, none⟩] } : State).requests = ⟨.reset, none⟩ :: []) ∧
    ({ sCmf with requests := [⟨.reset, some 0⟩] } : State).requests = ⟨.reset, some 0⟩ :: [] ∧
    State.reset.requests = [] ∧
    ({ State.reset with requests := [⟨.reset, some 1⟩] } : State).requests = ⟨.reset, some (0 + 1)⟩ :: [] :=
  ⟨⟨rfl, rfl⟩, rfl, rfl, rfl⟩

theorem witness_StepRunsDecodedElement :
    (Runs .zFlg (atZ .flg [0x9C]) ∧ decodesTo .zhdr (readZhdr (tick (atZ .flg [0x9C]))) = true) ∧
    (Runs .zTrailer sTrailer ∧ 4 ≤ sTrailer.zTrlN ∧ decode .ztrl sTrailer.zTrl.toNat = .ok (.ztrl 1)) ∧
    (Runs .bHeader sHeader ∧ decodesTo .bhdr (need 3 (tick sHeader)) = true) ∧
    (Runs .sNlen (atS .nlen [0xFC, 0xFF]) ∧ decodesTo .stored (readStored (tick (atS .nlen [0xFC, 0xFF]))) = true) ∧
    (Runs .sCopy { atS .copy [0x61] with sRem := 1 } ∧
      decodesTo .raw (readRaw (tick { atS .copy [0x61] with sRem := 1 })) = true) ∧
    (Runs .dHclen (atD .hclen [0x0F]) ∧ decodesTo .dynhdr (readCounts (tick (atD .hclen [0x0F]))) = true) ∧
    (Runs .dCllens sCllens ∧ sCllens.dI < sCllens.nClen ∧ decodesTo .cllen (need 3 (tick sCllens)) = true) ∧
    (Runs .dSym sSym ∧ sSym.dI ≠ sSym.nLit + sSym.nDist ∧
      decodesTo .clsym (huffDecode sSym.clLen (tick sSym)) = true) ∧
    (Runs .dExtra { atD .extra [] with repSym := 18 } ∧ decode .clsym 18 = .ok .clZrepl) ∧
    (Runs .yLitlen sLitlen ∧ decodesTo .llsym (huffDecode sLitlen.llLen (tick sLitlen)) = true) ∧
    Runs .yEmit (atY .emit []) ∧
    (Runs .yLextra { atY .lextra [] with yLsym := 257 } ∧ decode .llsym 257 = .ok .len257) ∧
    (Runs .yDsym sDsym ∧ decodesTo .dsym (huffDecode sDsym.dLen (tick sDsym)) = true) ∧
    (Runs .yDextra (atY .dextra []) ∧ decode .dsym (atY .dextra []).yDsym = .ok .dist00) ∧
    (Runs .yCopy sCopy ∧ decode .dsym sCopy.yDsym = .ok .dist00) := by
  refine ⟨⟨runs_of rfl rfl rfl, ?_⟩, ⟨runs_of rfl rfl rfl, ?_, ?_⟩, ⟨runs_of rfl rfl rfl, ?_⟩, ⟨runs_of rfl rfl rfl, ?_⟩,
    ⟨runs_of rfl rfl rfl, ?_⟩, ⟨runs_of rfl rfl rfl, ?_⟩, ⟨runs_of rfl rfl rfl, ?_, ?_⟩, ⟨runs_of rfl rfl rfl, ?_, ?_⟩,
    ⟨runs_of rfl rfl rfl, rfl⟩, ⟨runs_of rfl rfl rfl, ?_⟩, runs_of rfl rfl rfl, ⟨runs_of rfl rfl rfl, rfl⟩,
    ⟨runs_of rfl rfl rfl, ?_⟩, ⟨runs_of rfl rfl rfl, rfl⟩, ⟨runs_of rfl rfl rfl, rfl⟩⟩ <;> decide +kernel

theorem witness_DecodeOfEncode :
    WellFormed (.dCounts 31 31 15) = true ∧ (Instr.dCounts 31 31 15).isHost = false ∧
      WellFormed (.clLen 15) = true ∧ (Instr.clLen 15).isHost = false := by decide

theorem witness_EncodeOfDecode :
    Format.dynhdr ≠ .host ∧ decode .dynhdr (2 ^ 14 - 1) = .ok (.dCounts 31 31 15) ∧
      Format.llsym ≠ .host ∧ decode .llsym 287 = .ok .llRsvd287 := by decide +kernel

theorem witness_FirstHeaderByte : Runs .zCmf sCmf ∧ sCmf.inBytes = 0x78 :: [] := ⟨runs_of rfl rfl rfl, rfl⟩

theorem witness_HeaderChecks :
    Runs .zFlg (atZ .flg [0x9C]) ∧ microStep (atZ .flg []) = some .zFlg ∧
    (0x789D : Half).toNat % 31 ≠ 0 ∧
    ((0x7709 : Half).toNat % 31 = 0 ∧ (0x7709 : Half).toNat / 256 % 16 ≠ 8) ∧
    ((0x881C : Half).toNat % 31 = 0 ∧ (0x881C : Half).toNat / 256 % 16 = 8 ∧
      (atZ .flg []).cfg.maxCinfo < (0x881C : Half).toNat / 4096) ∧
    ((0x78BB : Half).toNat % 31 = 0 ∧ (0x78BB : Half).toNat / 256 % 16 = 8 ∧
      (0x78BB : Half).toNat / 4096 ≤ (atZ .flg []).cfg.maxCinfo ∧ (0x78BB : Half).toNat / 32 % 2 = 1) ∧
    ((0x789C : Half).toNat % 31 = 0 ∧ (0x789C : Half).toNat / 256 % 16 = 8 ∧
      (0x789C : Half).toNat / 4096 ≤ (atZ .flg []).cfg.maxCinfo ∧ (0x789C : Half).toNat / 32 % 2 = 0) :=
  ⟨runs_of rfl rfl rfl, rfl, by decide, by decide, by decide, by decide, by decide⟩

theorem witness_TrailerComparison :
    (Runs .zTrailer { atZ .trailer [0x01] with zTrlN := 3 } ∧ 3 < 4) ∧ Runs .zTrailer sTrailer ∧ sTrailer.zTrlN = 4 ∧
      (1 : Word) = sTrailer.adlerB ++ sTrailer.adlerA ∧ (2 : Word) ≠ sTrailer.adlerB ++ sTrailer.adlerA :=
  ⟨⟨runs_of rfl rfl rfl, by decide⟩, runs_of rfl rfl rfl, rfl, by decide, by decide⟩

theorem witness_BlockHeader :
    Runs .bHeader sHeader ∧ okWith (need 3 (tick sHeader)) (· == 3) = true ∧ microStep sHeader = some .bHeader :=
  ⟨runs_of rfl rfl rfl, by decide +kernel, rfl⟩

theorem witness_BlockEnd :
    (Runs .bEnd { atB .blockEnd [] with final := true } ∧ Runs .bEnd (atB .blockEnd [])) ∧
      (atB .blockEnd []).final = false := ⟨⟨runs_of rfl rfl rfl, runs_of rfl rfl rfl⟩, rfl⟩

theorem witness_StoredAlignAndLength :
    (Runs .sAlign { atS .align [] with nBits := 7 } ∧ 7 ≤ 7) ∧
    (Runs .sLen (atS .len [3, 0]) ∧ okWith (need 16 (tick (atS .len [3, 0]))) (· == 3) = true) ∧
    ((atS .len [3, 0]).nBits = 0 ∧ (atS .len [3, 0]).bits = 0 ∧ (atS .len [3, 0]).inBytes = 3 :: 0 :: []) ∧
    (Runs .sLen (atS .len [3]) ∧ (atS .len [3]).inBytes = [3] ∧ (atS .len [3]).inClosed = false) ∧
    (Runs .sLen { atS .len [0] with nBits := 8, bits := 3 } ∧
      ({ atS .len [0] with nBits := 8, bits := 3 } : State).bits = (3 : Byte).setWidth 32) :=
  ⟨⟨runs_of rfl rfl rfl, by decide⟩, ⟨runs_of rfl rfl rfl, by decide +kernel⟩, ⟨rfl, rfl, rfl⟩,
    ⟨runs_of rfl rfl rfl, rfl, rfl⟩, ⟨runs_of rfl rfl rfl, by decide⟩⟩

theorem witness_StoredComplement :
    Runs .sNlen (atS .nlen [0xFC, 0xFF]) ∧ okWith (need 16 (tick (atS .nlen [0xFC, 0xFF]))) (· == 0xFFFC) = true ∧
      microStep (atS .nlen []) = some .sNlen ∧ (3 : Half).toNat + (0xFFFC : Half).toNat = 0xFFFF ∧
      (3 : Half).toNat + (0xFEFC : Half).toNat ≠ 0xFFFF :=
  ⟨runs_of rfl rfl rfl, by decide +kernel, rfl, by decide, by decide⟩

theorem witness_StoredCopy :
    (Runs .sCopy (atS .copy []) ∧ (atS .copy []).sRem = 0) ∧
    (Runs .sCopy { atS .copy [0x61] with sRem := 1 } ∧ (1 : Nat) ≠ 0 ∧
      (atS .copy [0x61]).outBytes.length < (atS .copy [0x61]).outCap ∧ (atS .copy [0x61]).inBytes = 0x61 :: []) :=
  ⟨⟨runs_of rfl rfl rfl, rfl⟩, runs_of rfl rfl rfl, by decide, by decide, rfl⟩

theorem witness_DynamicHeaderCounts :
    (Runs .dHlit (atD .hlit [31]) ∧ okWith (need 5 (tick (atD .hlit [31]))) (· == 31) = true) ∧
    (Runs .dHdist (atD .hdist [31]) ∧ okWith (need 5 (tick (atD .hdist [31]))) (· == 31) = true) ∧
    (Runs .dHclen { atD .hclen [15] with nLit := 288, nDist := 32 } ∧
      okWith (need 4 (tick { atD .hclen [15] with nLit := 288, nDist := 32 })) (· == 15) = true) ∧
    microStep (atD .hclen []) = some .dHclen ∧ (29 : Nat) < 30 ∧ (29 : Nat) ≤ 29 :=
  ⟨⟨runs_of rfl rfl rfl, by decide +kernel⟩, ⟨runs_of rfl rfl rfl, by decide +kernel⟩,
    ⟨runs_of rfl rfl rfl, by decide +kernel⟩, rfl, by decide, by decide⟩

theorem witness_CodeLengthCode :
    (Runs .dCllens { atD .cllens [7] with nClen := 19, dI := 18 } ∧
      okWith (need 3 (tick { atD .cllens [7] with nClen := 19, dI := 18 })) (· == 7) = true) ∧
    (microStep sCllens = some .dCllens ∧ sCllens.dI < sCllens.nClen) ∧
    (Runs .dCllens { sCllens with dI := 4 } ∧ validate sCllens.clLen false = some .noHuffmanCodes) ∧
    (Runs .dCllens { sCllens with dI := 4, clLen := placedClLen } ∧ validate placedClLen false = none) :=
  ⟨⟨runs_of rfl rfl rfl, by decide +kernel⟩, ⟨rfl, by decide⟩, ⟨runs_of rfl rfl rfl, by decide +kernel⟩,
    runs_of rfl rfl rfl, placed_valid⟩

theorem witness_CodeLengthSymbols :
    (Runs .dSym { sSym with dI := 258 } ∧ 258 = sSym.nLit + sSym.nDist) ∧
    (Runs .dSym sSym ∧ sSym.dI ≠ sSym.nLit + sSym.nDist ∧ sSym.dI < sSym.nLit ∧ sSym.dI = 0) ∧
    (microStep { sSym with dI := 257 } = some .dSym ∧ 257 ≠ sSym.nLit + sSym.nDist ∧ sSym.nLit ≤ 257 ∧
      257 - 1 < sSym.nLit) ∧
    (microStep { sSym with dI := 258, nDist := 2 } = some .dSym ∧ 258 ≠ 257 + 2 ∧ sSym.nLit ≤ 258 - 1) ∧
    okWith (huffDecode placedClLen (tick sSym)) (· == 0) = true ∧
    okWith (huffDecode placedClLen { sSym with inBytes := [0b10111] }) (· == 16) = true ∧
    okWith (huffDecode placedClLen { sSym with inBytes := [0b01111] }) (· == 17) = true ∧
    okWith (huffDecode placedClLen { sSym with inBytes := [0b11111] }) (· == 18) = true :=
  ⟨⟨runs_of rfl rfl rfl, rfl⟩, ⟨runs_of rfl rfl rfl, by decide, by decide, rfl⟩,
    ⟨rfl, by decide, by decide, by decide⟩, ⟨rfl, by decide, by decide⟩, by decide +kernel, by decide +kernel,
    by decide +kernel, by decide +kernel⟩

theorem witness_RepeatRuns :
    (Instr.clRep, 16, 2, 3) ∈ [(Instr.clRep, 16, 2, 3), (.clZrep, 17, 3, 3), (.clZrepl, 18, 7, 11)] ∧
    Runs .dExtra { atD .extra [0] with repSym := 16, dI := 255 } ∧
    okWith (need 2 { atD .extra [0] with repSym := 16, dI := 255 }) (fun v => 255 + (3 + v) == 257 + 1) = true ∧
    okWith (need 2 { atD .extra [1] with repSym := 16, dI := 255 }) (fun v => decide (257 + 1 < 255 + (3 + v))) = true ∧
    257 ≤ (atD .extra [0]).llLen.length ∧ 1 ≤ (atD .extra [0]).dLen.length :=
  ⟨by decide, runs_of rfl rfl rfl, by decide +kernel, by decide +kernel, by decide +kernel, by decide +kernel⟩

theorem witness_BuildTables :
    (Runs .dBuild (atD .build []) ∧ (atD .build []).llLen.getD 256 0 = 0) ∧
    (Runs .dBuild { atD .build [] with llLen := List.replicate 256 0 ++ [1] } ∧
      validate (List.replicate 256 0 ++ [1]) false = some .badHuffmanCodeUnderSubscribed) ∧
    (Runs .dBuild { atD .build [] with llLen := fixLl } ∧ fixLl.getD 256 0 ≠ 0 ∧ validate fixLl false = none ∧
      validate (atD .build []).dLen true = some .noHuffmanCodes) ∧
    (Runs .dBuild { atD .build [] with llLen := fixLl, dLen := fixD } ∧ validate fixD true = none) :=
  ⟨⟨runs_of rfl rfl rfl, by decide +kernel⟩, ⟨runs_of rfl rfl rfl, by decide +kernel⟩,
    ⟨runs_of rfl rfl rfl, by decide +kernel, fixLl_valid, by decide +kernel⟩, runs_of rfl rfl rfl, fixD_valid⟩

theorem witness_LiteralsAndEndOfBlock :
    Runs .yLitlen sLitlen ∧ microStep sLitlen = some .yLitlen ∧ Runs .yEmit (atY .emit []) ∧
      (atY .emit []).outBytes.length < (atY .emit []).outCap ∧
      okWith (huffDecode fixLl (tick (atY .litlen [0b10001001]))) (· == 0x61) = true ∧
      okWith (huffDecode fixLl (tick sLitlen)) (· == 256) = true ∧
      okWith (huffDecode fixLl (tick (atY .litlen [0b00100011]))) (· == 284) = true ∧
      okWith (huffDecode fixLl (tick (atY .litlen [0b01100011]))) (· == 286) = true :=
  ⟨runs_of rfl rfl rfl, rfl, runs_of rfl rfl rfl, by decide, by decide +kernel, by decide +kernel, by decide +kernel,
    by decide +kernel⟩

theorem witness_LengthElements :
    (Instr.len284, 284, 227, 5) ∈ lengthRows ∧ microStep sLitlen = some .yLitlen ∧
    Runs .yLextra { atY .lextra [31] with yLsym := 284 } ∧
    okWith (need 5 { atY .lextra [31] with yLsym := 284 }) (· == 31) = true ∧
    (microStep { atY .lextra [] with nBits := 5, bits := 31 } = some .yLextra ∧ 5 ≤ 5) :=
  ⟨by decide, rfl, runs_of rfl rfl rfl, by decide +kernel, rfl, by decide⟩

/-- At a literal/length symbol of a dynamic block that codes symbols 0 and 256 and distance symbol 0. -/
def sDynamic : State :=
  { atY .litlen [0x00] with
    btype := 2, llLen := 1 :: List.replicate 255 0 ++ [1] ++ List.replicate 31 0, dLen := 1 :: List.replicate 31 0 }

theorem noCodesFrom_of {top : Nat} {len : List Nat} (h : (len.drop top).all (· == 0) = true) : NoCodesFrom top len := by
  intro k hk
  rw [List.getD_eq_getElem?_getD]
  cases he : len[k]? with
  | none => rfl
  | some l =>
    have hd : (len.drop top)[k - top]? = some l := by rw [List.getElem?_drop, Nat.add_sub_cancel' hk, he]
    simpa using List.all_eq_true.1 h l (List.mem_of_getElem? hd)

theorem inv_sDynamic : Inv sDynamic :=
  inv_at (m := .yLitlen) ⟨rfl, fun c hc => absurd hc (List.not_mem_nil)⟩ (by decide)
    ⟨lensOk_replicate _ _, ⟨by decide +kernel, by decide +kernel⟩, ⟨by decide +kernel, by decide +kernel⟩⟩ sums_reset
    (by decide) rfl rfl (.inl (by decide))
    ⟨by decide +kernel, by decide +kernel,
      .inr ⟨rfl, noCodesFrom_of (by decide +kernel), noCodesFrom_of (by decide +kernel)⟩⟩

/-- At symbol 286 of a fixed block. -/
def sReserved : State := atY .litlen [0b01100011]

/-- At distance symbol 30 of a fixed block. -/
def sReservedD : State := { atY .dsym [0b01111] with yLength := 3 }

theorem inv_sReserved : Inv sReserved :=
  inv_at (m := .yLitlen) ⟨rfl, by simp [sReserved, atY, atB, atZ, State.reset]⟩ (by decide) lens_fixed sums_reset
    (by decide) rfl rfl (.inl (by decide)) tables_fixed

theorem inv_sReservedD : Inv sReservedD :=
  inv_at (m := .yDsym) ⟨rfl, by simp [sReservedD, atY, atB, atZ, State.reset]⟩ (by decide) lens_fixed sums_reset
    (by decide) rfl rfl (.inl (by decide)) ⟨tables_fixed, by decide, by decide⟩

theorem witness_ReservedSymbols :
    microStep sLitlen = some .yLitlen ∧ microStep sDsym = some .yDsym ∧
    (Inv sDynamic ∧ Runs .yLitlen sDynamic ∧
      MicroStep.yLitlen ∈ [.dBuild, .yLitlen, .yEmit, .yLextra, .yDsym, .yDextra, MicroStep.yCopy] ∧
      sDynamic.btype = 2) ∧
    (Inv sReserved ∧ Runs .yLitlen sReserved ∧
      okWith (huffDecode sReserved.llLen (tick sReserved)) (fun v => decide (286 ≤ v)) = true) ∧
    (Inv sReservedD ∧ Runs .yDsym sReservedD ∧
      okWith (huffDecode sReservedD.dLen (tick sReservedD)) (fun v => decide (30 ≤ v)) = true) :=
  ⟨rfl, rfl, ⟨inv_sDynamic, runs_of rfl rfl rfl, by decide, rfl⟩,
    ⟨inv_sReserved, runs_of rfl rfl rfl, by decide +kernel⟩, inv_sReservedD, runs_of rfl rfl rfl, by decide +kernel⟩

theorem witness_DistanceElements :
    (Runs .yDsym sDsym ∧ okWith (huffDecode fixD (tick sDsym)) (· == 0) = true ∧
      okWith (huffDecode fixD (tick { sDsym with inBytes := [0b01111] })) (· == 30) = true) ∧
    (Instr.dist00, 0, 1, 0) ∈ distanceRows ∧ (Instr.dist29, 29, 24577, 13) ∈ distanceRows ∧
    Runs .yDextra (atY .dextra []) ∧ (atY .dextra []).yDsym = 0 ∧
    (okWith (need 0 (atY .dextra [])) (· == 0) = true ∧ (atY .dextra []).produced < 1 + 0) ∧
    (okWith (need 13 { atY .dextra [0xFF, 0x1F] with produced := 32768 }) (fun v => decide (24577 + v ≤ 32768)) = true) ∧
    (0 ≤ (atY .dextra []).nBits ∧ 1 + (0 : Word).toNat % 2 ^ 0 ≤ ({ atY .dextra [] with produced := 1 } : State).produced) :=
  ⟨⟨runs_of rfl rfl rfl, by decide +kernel, by decide +kernel⟩, by decide, by decide, runs_of rfl rfl rfl, rfl,
    ⟨by decide +kernel, by decide⟩, by decide +kernel, by decide, by decide⟩

theorem witness_CopyOneByte :
    (Instr.dist00, 0, 1, 0) ∈ distanceRows ∧ Runs .yCopy sCopy ∧ sCopy.yDsym = 0 ∧ sCopy.yRem ≠ 0 ∧
      sCopy.outBytes.length < sCopy.outCap ∧
      (microStep { sCopy with yRem := 0 } = some .yCopy ∧ ({ sCopy with yRem := 0 } : State).yRem = 0) :=
  ⟨by decide, runs_of rfl rfl rfl, rfl, by decide, by decide, rfl, rfl⟩

theorem witness_StreamPrimitives :
    sCmf.inBytes = 0x78 :: [] ∧ (sCmfEmpty.inBytes = [] ∧ sCmfEmpty.inClosed = false) ∧
      ({ sCmfEmpty with inClosed := true } : State).inClosed = true ∧ 0 < sCmf.outCap - sCmf.outBytes.length ∧
      (sEmitFull.outCap - sEmitFull.outBytes.length = 0 ∧ sEmitFull.outClosed = false) ∧
      ({ sEmitFull with outClosed := true } : State).outClosed = true := by decide +kernel

theorem witness_BitReaderOperations :
    (3 ≤ ({ sCmf with nBits := 3 } : State).nBits) ∧ (sCmf.nBits < 1 ∧ sCmf.inBytes = 0x78 :: []) ∧
      (sCmfEmpty.nBits < 1 ∧ sCmfEmpty.inBytes = [] ∧ sCmfEmpty.inClosed = false) ∧
      ({ sCmfEmpty with inClosed := true } : State).inClosed = true ∧
      ensure 0 sCmf = .ok () sCmf ∧ ensure 1 sCmfEmpty = .suspend .shortRead sCmfEmpty ∧
      ensure 1 { sCmfEmpty with inClosed := true } = .raise .unexpectedEndOfFile { sCmfEmpty with inClosed := true } :=
  ⟨by decide, ⟨by decide, rfl⟩, ⟨by decide, rfl, rfl⟩, rfl, rfl, rfl, rfl⟩

theorem witness_FieldsAreStreamBits :
    (sHeader.bits.toNat < 2 ^ sHeader.nBits ∧ 3 ≤ 24 ∧ okWith (need 3 sHeader) (· == 3) = true) ∧
      need 24 sCmfEmpty = .suspend .shortRead sCmfEmpty ∧
      need 24 { sCmfEmpty with inClosed := true } =
        .raise .unexpectedEndOfFile { sCmfEmpty with inClosed := true } ∧
      3 ≤ (pendingBits sHeader).length :=
  ⟨⟨by decide, by decide, by decide +kernel⟩, rfl, rfl, by decide +kernel⟩

theorem witness_CanonicalCodeIsPrefixCode :
    kraft [1] ≤ 2 ^ maxl [1] ∧ kraft [2, 1, 3, 3] = 2 ^ maxl [2, 1, 3, 3] ∧
      symbolBits [2, 1, 3, 3] 1 <+: symbolBits [2, 1, 3, 3] 1 ∧ ([2, 1, 3, 3] : List Nat).getD 1 0 ≠ 0 ∧
      [true, false, true].length = maxl [2, 1, 3, 3] := by decide

theorem witness_TableValidation :
    (∀ l ∈ [0, 0], l = 0) ∧ ((∃ l ∈ [1, 1, 1], l ≠ 0) ∧ 2 ^ maxl [1, 1, 1] < kraft [1, 1, 1]) ∧
      ((∃ l ∈ [1, 1], l ≠ 0) ∧ kraft [1, 1] = 2 ^ maxl [1, 1]) ∧
      ((∃ l ∈ [0, 1], l ≠ 0) ∧ kraft [0, 1] < 2 ^ maxl [0, 1] ∧ [0, 1].filter (· ≠ 0) = [1]) ∧
      (kraft [2, 2, 2] < 2 ^ maxl [2, 2, 2] ∧ [2, 2, 2].filter (· ≠ 0) ≠ [1]) := by decide

theorem witness_HuffDecodeLoop :
    (1 ≤ 3 ∧ 3 ≤ ({ sCmf with bits := 0b011, nBits := 3 } : State).nBits ∧ 3 ≤ maxl [2, 1, 3, 3] ∧
      ([2, 1, 3, 3] : List Nat).getD 2 0 = 3 ∧ codeOf [2, 1, 3, 3] 2 = rev 3 ((0b011 : Word).toNat % 2 ^ 3) ∧
      findCode [2, 1, 3, 3] 0b011 2 = none) ∧
    (findCode [0, 1] 1 1 = none ∧ maxl [0, 1] ≤ 1) ∧ (sCmf.nBits < maxl [2, 1, 3, 3] ∧ sCmf.inBytes = 0x78 :: []) ∧
    (sCmfEmpty.inBytes = [] ∧ sCmfEmpty.inClosed = false) := by decide +kernel

theorem witness_HuffDecodeReadsTheCode :
    (sLitlen.bits.toNat < 2 ^ sLitlen.nBits ∧ maxl fixLl ≤ 15 ∧ kraft fixLl ≤ 2 ^ maxl fixLl) ∧
      okWith (huffDecode fixLl sLitlen) (· == 256) = true ∧
      (fixLl.getD 256 0 ≠ 0 ∧ pendingBits sLitlen = symbolBits fixLl 256 ++ [true]) ∧
      (huffDecode fixLl sCmfEmpty = .suspend .shortRead sCmfEmpty) ∧ kraft fixLl = 2 ^ maxl fixLl ∧
      huffDecode fixLl { sCmfEmpty with inClosed := true } =
        .raise .unexpectedEndOfFile { sCmfEmpty with inClosed := true } := by
  refine ⟨by decide +kernel, by decide +kernel, by decide +kernel, ?_, by decide +kernel, ?_⟩ <;> decide +kernel

theorem witness_StreamBitsDecodeToTheirElement :
    (Inv sHeader ∧ Runs .bHeader sHeader ∧
      pendingBits sHeader =
        streamBits sHeader.clLen sHeader.llLen sHeader.dLen (.blkFixed true) ++ List.replicate 5 false) ∧
    (Inv sCllens ∧ Runs .dCllens sCllens ∧ sCllens.dI < sCllens.nClen ∧
      pendingBits sCllens =
        streamBits sCllens.clLen sCllens.llLen sCllens.dLen (.dCllen 5) ++ List.replicate 5 false) ∧
    (Inv sSym ∧ Runs .dSym sSym ∧ sSym.dI ≠ sSym.nLit + sSym.nDist ∧ sSym.clLen.getD (encode (.clLen 0)) 0 ≠ 0 ∧
      pendingBits sSym =
        streamBits sSym.clLen sSym.llLen sSym.dLen (.clLen 0) ++ List.replicate 4 false) ∧
    (Inv sLitlen ∧ Runs .yLitlen sLitlen ∧ sLitlen.llLen.getD (encode .eob) 0 ≠ 0 ∧
      pendingBits sLitlen = streamBits sLitlen.clLen sLitlen.llLen sLitlen.dLen .eob ++ [true]) ∧
    (Inv sDsym ∧ Runs .yDsym sDsym ∧ sDsym.dLen.getD (encode .dist00) 0 ≠ 0 ∧
      pendingBits sDsym =
        streamBits sDsym.clLen sDsym.llLen sDsym.dLen .dist00 ++ List.replicate 3 false) := by
  refine ⟨⟨inv_sHeader, runs_of rfl rfl rfl, ?_⟩, ⟨inv_sCllens, runs_of rfl rfl rfl, ?_, ?_⟩,
    ⟨inv_sSym, runs_of rfl rfl rfl, ?_, ?_, ?_⟩, ⟨inv_sLitlen, runs_of rfl rfl rfl, ?_, ?_⟩,
    inv_sDsym, runs_of rfl rfl rfl, ?_, ?_⟩ <;> decide +kernel

theorem witness_EmitEffects : State.reset.hist.wf = true := rfl

theorem witness_AdlerClosedForm : State.reset.adlerA = 1 ∧ State.reset.adlerB = 0 := ⟨rfl, rfl⟩

theorem witness_WindowHoldsTheLastBytes :
    State.reset.hist = [] ∧ State.reset.produced = 0 ∧ 32767 < 32768 ∧
      ((0 : Int) ≤ (1 : Int) - 1 - ((1 : Int) - 1 - 0) % 32768) ∧
      ((1 : Int) - 1 - ((1 : Int) - 1 - 32767) % 32768 < 0) := ⟨rfl, rfl, by decide, by decide, by decide⟩

theorem witness_OverlappingCopyRepeats :
    Inv sCopy ∧ Runs .yCopy sCopy ∧ sCopy.requests = [] ∧ sCopy.yRem ≤ sCopy.outCap - sCopy.outBytes.length ∧
      0 < sCopy.yDist ∧ ¬ 1 < sCopy.yDist := ⟨inv_sCopy, runs_of rfl rfl rfl, rfl, by decide, by decide, by decide⟩

/-- Answers of one step, for the witnesses about next states. -/
theorem next_of_stepTo {s : State} {p : State → Bool} (h : stepTo s p = true) : ∃ t, step s = .next t ∧ p t = true := by
  unfold stepTo at h
  split at h
  · exact ⟨_, ‹_›, h⟩
  · cases h

theorem next_of_execTo {i : Instr} {s : State} {p : State → Bool} (h : execTo i s p = true) :
    ∃ t, exec i s = .next t ∧ p t = true := by
  unfold execTo at h
  split at h
  · exact ⟨_, ‹_›, h⟩
  · cases h

theorem witness_WindowFrame :
    (sCmf.hist.wf = true ∧ ∃ t, exec (.blkFixed true) sHeader = .next t ∧ (t.produced == sHeader.produced) = true) ∧
      (∃ t, exec .dist00 sCopy = .next t ∧ (t.produced != sCopy.produced) = true) ∧ Instr.dist00.isHost = false ∧
      (∃ t, exec .reset sCopy = .next t ∧ (t.hist == []) = true) :=
  ⟨⟨rfl, next_of_execTo (by decide +kernel)⟩, next_of_execTo (by decide +kernel), rfl,
    next_of_execTo (by decide +kernel)⟩

/-- At HCLEN of a dynamic header. -/
def sHclen : State := { atD .hclen [0x0F] with nLit := 286, nDist := 30 }

theorem inv_sHclen : Inv sHclen :=
  inv_at (m := .dHclen) ⟨rfl, by simp [sHclen, atD, atB, atZ, State.reset]⟩ (by decide) lens_reset sums_reset
    (by decide) rfl rfl (Nat.zero_le 7) ⟨rfl, by decide, by decide, by decide, by decide⟩

theorem witness_RegisterOwnership :
    Runs .zCmf sCmf ∧ (∃ t, step sCmf = .next t ∧ (t.phase != .poisoned) = true) ∧
      MicroStep.zCmf ≠ .bHeader ∧ MicroStep.zCmf ∉ [MicroStep.sCopy, .yEmit, .yCopy] ∧
      MicroStep.zCmf ∈ [.zCmf, .zFlg, .zTrailer, .sCopy, .dBuild, .yEmit, MicroStep.yCopy] ∧
      (Inv sHclen ∧ Runs .dHclen sHclen ∧ MicroStep.dHclen ≠ .dHlit ∧
        ∃ t, step sHclen = .next t ∧ (t.phase != .poisoned && t.nLit == 286) = true) :=
  ⟨runs_of rfl rfl rfl, next_of_stepTo (by decide +kernel), by decide, by decide, by decide, inv_sHclen,
    runs_of rfl rfl rfl, by decide, next_of_stepTo (by decide +kernel)⟩

theorem witness_CursorDiscipline :
    Runs .yCopy sCopy ∧ ∃ t, step sCopy = .next t ∧ (t.outBytes == [0x61]) = true :=
  ⟨runs_of rfl rfl rfl, next_of_stepTo (by decide +kernel)⟩

/-- At the length of a stored block with one of its two bytes. -/
def sHalf : State := atS .len [0x03]

theorem inv_sHalf : Inv sHalf :=
  inv_at (m := .sLen) ⟨rfl, by simp [sHalf, atS, atB, atZ, State.reset]⟩ (by decide) lens_reset sums_reset (by decide)
    rfl rfl (.inl rfl) rfl

theorem witness_PreciseReturns :
    (Inv sHalf ∧ Runs .sLen sHalf ∧
      ∃ t, step sHalf = .next t ∧ (!t.busy && t.phase == sHalf.phase && t.nBits == 0 + 8 * 1) = true) ∧
    (Inv sEmitFull ∧ Runs .yEmit sEmitFull ∧
      ∃ t, step sEmitFull = .next t ∧ (!t.busy && t.status == .shortWrite) = true) ∧
    (Runs .zCmf sCmfEmpty ∧ sCmfEmpty.phase ≠ .poisoned ∧ sCmfEmpty.phase ≠ .done ∧
      ∃ t, step sCmfEmpty = .next t ∧ (!t.busy && t.phase == sCmfEmpty.phase) = true) ∧
    (∃ t, step { sCmfEmpty with inClosed := true } = .next t ∧ (!t.busy && t.phase == .poisoned) = true) :=
  ⟨⟨inv_sHalf, runs_of rfl rfl rfl, next_of_stepTo (by decide +kernel)⟩,
    ⟨inv_sEmitFull, runs_of rfl rfl rfl, next_of_stepTo (by decide +kernel)⟩,
    ⟨runs_of rfl rfl rfl, by decide, by decide, next_of_stepTo (by decide +kernel)⟩,
    next_of_stepTo (by decide +kernel)⟩

theorem witness_StatusesOfEachMicroStep :
    Inv sCmf ∧ Runs .zCmf sCmf ∧ (∃ t, step sCmf = .next t ∧ t.busy = true) ∧
      Inv sTrailer ∧ Runs .zTrailer sTrailer ∧ ∃ t, step sTrailer = .next t ∧ (!t.busy) = true :=
  ⟨inv_sCmf, runs_of rfl rfl rfl, next_of_stepTo (by decide +kernel), inv_sTrailer, runs_of rfl rfl rfl,
    next_of_stepTo (by decide +kernel)⟩

theorem witness_WhyACallSuspends :
    (Inv sCmfEmpty ∧ Runs .zCmf sCmfEmpty ∧
      ∃ t, step sCmfEmpty = .next t ∧ (!t.busy && t.status == .shortRead) = true) ∧
    (Inv sEmitFull ∧ Runs .yEmit sEmitFull ∧
      ∃ t, step sEmitFull = .next t ∧ (!t.busy && t.status == .shortWrite) = true) ∧
    (∃ t, step { sCmfEmpty with inClosed := true } = .next t ∧ (!t.busy && t.status == .unexpectedEndOfFile) = true) ∧
    (∃ t, step { sEmitFull with outClosed := true } = .next t ∧ (!t.busy && t.status == .closedForWrites) = true) :=
  ⟨⟨inv_sCmfEmpty, runs_of rfl rfl rfl, next_of_stepTo (by decide +kernel)⟩,
    ⟨inv_sEmitFull, runs_of rfl rfl rfl, next_of_stepTo (by decide +kernel)⟩, next_of_stepTo (by decide +kernel),
    next_of_stepTo (by decide +kernel)⟩

theorem witness_BufferedBitsBound :
    Inv sHeader ∧ Runs .bHeader sHeader ∧ (∃ t, step sHeader = .next t ∧ (t.busy && t.nBits == 5) = true) ∧
      Inv sTrailer ∧ Runs .zTrailer sTrailer ∧ ∃ t, step sTrailer = .next t ∧ (t.phase == .done) = true :=
  ⟨inv_sHeader, runs_of rfl rfl rfl, next_of_stepTo (by decide +kernel), inv_sTrailer, runs_of rfl rfl rfl,
    next_of_stepTo (by decide +kernel)⟩

theorem witness_StepKeepsInvariant : Inv sCopy ∧ ∃ t, step sCopy = .next t ∧ (t.produced == 2) = true :=
  ⟨inv_sCopy, next_of_stepTo (by decide +kernel)⟩

theorem witness_StepNeverStops : Inv sDsym := inv_sDsym

theorem witness_DoneMeansVerified :
    Inv sTrailer ∧ Runs .zTrailer sTrailer ∧ ∃ t, step sTrailer = .next t ∧ (!t.busy && t.reply == some .ok) = true :=
  ⟨inv_sTrailer, runs_of rfl rfl rfl, next_of_stepTo (by decide +kernel)⟩

theorem witness_PhaseTable :
    Inv sTrailer ∧ (∃ t, step sTrailer = .next t ∧ (t.phase != sTrailer.phase) = true) ∧
      ∃ t, step { sTrailer with requests := [⟨.reset, some 0⟩] } = .next t ∧ (t.phase != sTrailer.phase) = true :=
  ⟨inv_sTrailer, next_of_stepTo (by decide +kernel), next_of_stepTo (by decide +kernel)⟩

theorem witness_EveryCallEnds : Inv sLitlen ∧ sLitlen.busy = true ∧ sLitlen.requests = [] := ⟨inv_sLitlen, rfl, rfl⟩

theorem witness_ResumedMicroStepIsExact :
    Inv sCmfEmpty ∧ Runs .zCmf sCmfEmpty ∧ sCmfEmpty.requests = [] ∧
      ∃ t, step sCmfEmpty = .next t ∧ (!t.busy && t.status == .shortRead) = true :=
  ⟨inv_sCmfEmpty, runs_of rfl rfl rfl, rfl, next_of_stepTo (by decide +kernel)⟩

theorem witness_NoLookahead :
    Inv sCmf ∧ Runs .zCmf sCmf ∧ sCmf.requests = [] ∧ (∃ t, step sCmf = .next t ∧ t.busy = true) ∧
      ∃ t, step sTrailer = .next t ∧ (t.phase == .done) = true :=
  ⟨inv_sCmf, runs_of rfl rfl rfl, rfl, next_of_stepTo (by decide +kernel), next_of_stepTo (by decide +kernel)⟩

/-- A call suspended for input at the first header byte. -/
def sWaiting : State := { sCmfEmpty with busy := false, status := .shortRead, reply := some .shortRead }

/-- The next call over the same instance, suspended again. -/
def sWaitingAgain : State := { sWaiting with outCap := 0 }

theorem inv_sWaiting : Inv { State.reset with phase := .active } :=
  inv_at (m := .zCmf) ⟨rfl, by simp [State.reset]⟩ (by decide) lens_reset sums_reset (by decide) rfl rfl rfl rfl

theorem witness_SplitCallsCompose :
    Inv { State.reset with phase := .active } ∧ ({ State.reset with phase := .active } : State).busy = false ∧
      CallEnds (openCall (some ⟨1, false⟩) (some ⟨[], false⟩) { State.reset with phase := .active }) sWaiting ∧
      sWaiting.phase = .active ∧
      CallEnds (openCall (some ⟨0, false⟩) (some ⟨sWaiting.inBytes ++ [], false⟩) sWaiting) sWaitingAgain :=
  ⟨inv_sWaiting, rfl, ⟨1, rfl, rfl⟩, rfl, 1, rfl, rfl⟩

theorem witness_RetryIsIdempotent :
    (Inv sCmfEmpty ∧ Runs .zCmf sCmfEmpty ∧
      (∃ t, step sCmfEmpty = .next t ∧ (!t.busy && t.status == .shortRead) = true) ∧
      0 < (⟨1, false⟩ : OutCursor).cap) ∧
    (Inv sEmitFull ∧ Runs .yEmit sEmitFull ∧
      ∃ t, step sEmitFull = .next t ∧ (!t.busy && t.status == .shortWrite) = true) :=
  ⟨⟨inv_sCmfEmpty, runs_of rfl rfl rfl, next_of_stepTo (by decide +kernel), by decide⟩,
    inv_sEmitFull, runs_of rfl rfl rfl, next_of_stepTo (by decide +kernel)⟩

theorem witness_ReservedStatusesNeverReturned :
    (∃ t, step State.reset = .next t ∧ (t.status == State.reset.status) = true) ∧
      ∃ t, step { State.reset with status := .internalInconsistency, reply := some .internalInconsistency } = .next t ∧
        (t.status == .internalInconsistency && t.reply == some .internalInconsistency) = true :=
  ⟨next_of_stepTo (by decide +kernel), next_of_stepTo (by decide +kernel)⟩

theorem witness_ElementsOnlyWhereCurrent :
    microStep sHeader = some .bHeader ∧ formatOf (.blkFixed true) = .bhdr ∧
      (∃ t, exec (.blkFixed true) sHeader = .next t ∧ t.final = true) ∧
      (match exec (.blkFixed true) sCopy with | .refused .elementNotCurrent => true | _ => false) = true :=
  ⟨rfl, rfl, next_of_execTo (by decide +kernel), by decide +kernel⟩

end Sys2Proof.Tests
end

section
/-! How the step of a call returns (spec/00_scope.md R13, spec/46_host_operations.md R288, spec/60_exceptions.md R320,
R322, R323). Every micro-step is a read followed by what it does once the read has completed, or reads nothing; a read
only pulls whole bytes, and made again with more input it gives what it would have given at once. -/

namespace Sys2Proof.Machine

/-! ## Pulling bytes into the accumulator (R64, R141) -/

/-- Whole bytes moved from the input cursor into the accumulator, each one while fewer than `top` bits were buffered. -/
inductive Pulled (top : Nat) : State → State → Prop
  | refl (s : State) : Pulled top s s
  | push {s t : State} {b : Byte} {rest : List Byte} : s.nBits < top → s.inBytes = b :: rest →
      Pulled top (pushByte b (dropInByte rest s)) t → Pulled top s t

theorem Pulled.only {top : Nat} {s t : State} (h : Pulled top s t) : OnlyReader s t := by
  induction h with
  | refl s => exact .refl s
  | push _ _ _ ih => exact .trans (by simp [OnlyReader, pushByte, dropInByte]) ih

theorem Pulled.took {top : Nat} {s t : State} (h : Pulled top s t) :
    ∃ k, TookBytes k s t ∧ t.nBits = s.nBits + 8 * k := by
  induction h with
  | refl s => exact ⟨0, .refl s, rfl⟩
  | @push s t b rest _ hi _ ih =>
    obtain ⟨k, hk, hn⟩ := ih
    have h1 : TookBytes 1 s (pushByte b (dropInByte rest s)) := by simp [TookBytes, hi]
    exact ⟨1 + k, h1.trans hk, by simp only [hn, pushByte_fields, dropInByte_fields]; omega⟩

/-- Pushed bytes lose no bit of the stream where the accumulator has room for each of them. -/
theorem Pulled.buffered {top : Nat} {s t : State} (h : Pulled top s t) (hb : s.bits.toNat < 2 ^ s.nBits)
    (htop : top ≤ 24) : Buffered s t := by
  induction h with
  | refl s => exact .refl hb
  | push hlt hi _ ih =>
    have hB := buffered_push hi hb (by omega)
    exact hB.trans (ih hB.bits)

/-- Bits that were buffered stay the low bits of the accumulator. -/
theorem Buffered.low {s t : State} (h : Buffered s t) :
    plainBits s.nBits t.bits.toNat = plainBits s.nBits s.bits.toNat := by
  obtain ⟨k, -, hk⟩ := h.took
  have hs := congrArg (List.take s.nBits) h.stream
  rwa [pendingBits, pendingBits, hk, plainBits_add, List.append_assoc, List.take_left' (plainBits_length ..),
    List.take_left' (plainBits_length ..)] at hs

/-! ## Reads, and reads resumed (R13, R323) -/

/-- The input cursor with more bytes appended, and its closed flag set anew. -/
def supply (more : List Byte) (c : Bool) (s : State) : State := { s with inBytes := s.inBytes ++ more, inClosed := c }

/-- Everything a read can answer: a value; a terminal error; or a wait for input, with everything available pulled and
the same read to be made again. -/
inductive ReadEnds {α : Type} (top : Nat) (r : State → Res α) (s : State) : Prop
  | ok (v : α) (t : State) : r s = .ok v t → OnlyReader s t → ReadEnds top r s
  | raise (e : Status) (t : State) : r s = .raise e t → OnlyReader s t → e.isTerminal = true → ReadEnds top r s
  | short (t : State) : r s = .suspend .shortRead t → Pulled top s t → t.inBytes = [] →
      (∀ more c, r (supply more c s) = r (supply more c t)) → ReadEnds top r s

theorem pullByte_ends (top : Nat) (s : State) : ReadEnds top pullByte s := by
  rcases pullByte_cases s with ⟨b, rest, -, h⟩ | ⟨-, -, h⟩ | ⟨hi, -, h⟩
  · exact .ok b _ h (by simp [OnlyReader, dropInByte])
  · exact .raise _ s h (.refl s) rfl
  · exact .short s h (.refl s) hi fun _ _ => rfl

/-- The shape of the two loops of the bit reader: the buffered bits decide whether the loop is over or pulls a byte, and
it pulls only while fewer than `top` bits are buffered. -/
def PullsUntil {α : Type} (top : Nat) (r : State → Res α) : Prop :=
  ∀ s, (∃ v n, r s = .ok v (dropBits n s)) ∨ (∃ e, r s = .raise e s ∧ e.isTerminal = true) ∨
    (s.nBits < top ∧ ∀ t : State, t.bits = s.bits → t.nBits = s.nBits → r t = (pullPush t).bind fun _ u => r u)

theorem pullPush_cons {s : State} {b : Byte} {rest : List Byte} (h : s.inBytes = b :: rest) :
    pullPush s = .ok () (pushByte b (dropInByte rest s)) := by
  rw [pullPush, pullByte, h]; rfl

theorem PullsUntil.ends {α : Type} {top : Nat} {r : State → Res α} (h : PullsUntil top r) (s : State) :
    ReadEnds top r s := by
  induction hi : s.inBytes generalizing s with
  | nil =>
    rcases h s with ⟨v, n, hr⟩ | ⟨e, hr, he⟩ | ⟨-, hr⟩
    · exact .ok v _ hr ((OnlyReader.refl s).dropBits n)
    · exact .raise e s hr (.refl s) he
    · have hr := hr s rfl rfl
      rcases pullPush_cases s with ⟨b, rest, hi', -⟩ | ⟨-, -, hp⟩ | ⟨-, -, hp⟩
      · rw [hi] at hi'; cases hi'
      · exact .raise _ s (by rw [hr, hp]; rfl) (.refl s) rfl
      · exact .short s (by rw [hr, hp]; rfl) (.refl s) hi fun _ _ => rfl
  | cons b rest ih =>
    rcases h s with ⟨v, n, hr⟩ | ⟨e, hr, he⟩ | ⟨hlt, hr⟩
    · exact .ok v _ hr ((OnlyReader.refl s).dropBits n)
    · exact .raise e s hr (.refl s) he
    · have hs : r s = r (pushByte b (dropInByte rest s)) := by rw [hr s rfl rfl, pullPush_cons hi]; rfl
      have hfirst : Pulled top s (pushByte b (dropInByte rest s)) := .push hlt hi (.refl _)
      cases ih (pushByte b (dropInByte rest s)) rfl with
      | ok v t ht ho => exact .ok v t (hs.trans ht) (hfirst.only.trans ho)
      | raise e t ht ho he => exact .raise e t (hs.trans ht) (hfirst.only.trans ho) he
      | short t ht hp hn hres =>
        refine .short t (hs.trans ht) (.push hlt hi hp) hn fun more c => ?_
        have hi' : (supply more c s).inBytes = b :: (rest ++ more) := by simp [supply, hi]
        rw [hr (supply more c s) rfl rfl, pullPush_cons hi', ← hres more c]
        rfl

/-- What goes on after a pulled byte may rely on the eight bits it has added. -/
theorem pullPush_congr {α : Type} {s : State} {f g : State → Res α} (h : ∀ t, t.nBits = s.nBits + 8 → f t = g t) :
    ((pullPush s).bind fun _ t => f t) = (pullPush s).bind fun _ t => g t := by
  rcases pullPush_cases s with ⟨b, rest, -, hp⟩ | ⟨-, -, hp⟩ | ⟨-, -, hp⟩ <;> rw [hp]
  · exact h _ (by simp)
  · rfl
  · rfl

/-- The loop of `ensure(n)` is over once `n` bits are buffered. -/
theorem ensureLoop_of_le {n : Nat} {s : State} (f : Nat) (h : n ≤ s.nBits) : ensureLoop n f s = .ok () s := by
  cases f with
  | zero => rfl
  | succ f => rw [ensureLoop, if_neg (by omega)]

/-- The passes of `ensure(n)` that are allowed for do not matter beyond those it needs. -/
theorem ensureLoop_fuel {n f g : Nat} {s : State} (hf : n ≤ s.nBits + f) (hg : n ≤ s.nBits + g) :
    ensureLoop n f s = ensureLoop n g s := by
  induction f generalizing g s with
  | zero => rw [ensureLoop_of_le g hf, ensureLoop_of_le 0 hf]
  | succ f ih =>
    by_cases h : n ≤ s.nBits
    · rw [ensureLoop_of_le _ h, ensureLoop_of_le g h]
    · obtain ⟨g, rfl⟩ : ∃ k, g = k + 1 := ⟨g - 1, by omega⟩
      rw [ensureLoop, ensureLoop, if_pos (by omega), if_pos (by omega)]
      exact pullPush_congr fun t ht => ih (by omega) (by omega)

/-- `ensure(n)` with fewer bits buffered pulls a byte and begins again (R141). -/
theorem ensure_pull {n : Nat} {s : State} (h : s.nBits < n) : ensure n s = (pullPush s).bind fun _ t => ensure n t := by
  obtain ⟨f, hf⟩ : ∃ f, n - s.nBits = f + 1 := ⟨n - s.nBits - 1, by omega⟩
  rw [ensure, hf, ensureLoop, if_pos h]
  exact pullPush_congr fun t ht => ensureLoop_fuel (by omega) (by omega)

theorem need_pullsUntil (n : Nat) : PullsUntil n (need n) := by
  intro s
  by_cases h : n ≤ s.nBits
  · exact .inl ⟨_, n, need_of_le h⟩
  · refine .inr (.inr ⟨by omega, fun t _ hn => ?_⟩)
    rw [need, ensure_pull (by omega)]
    cases pullPush t <;> rfl

/-- A pass of the loop of `HuffDecode` that stops: a code matches, or as many bits as the longest code are buffered. -/
theorem huffLoop_stop {len : List Nat} {s : State} (f : Nat) (h : lookup len s ≠ none ∨ maxl len ≤ s.nBits) :
    huffLoop len f s = huffLoop len 0 s := by
  cases f with
  | zero => rfl
  | succ f =>
    unfold huffLoop
    rw [← lookup]
    cases hl : lookup len s with
    | some p => rfl
    | none => simp [h.resolve_left (· hl)]

/-- A pass that goes on: a byte is pulled, and the loop has one pass less. -/
theorem huffLoop_pull {len : List Nat} {s : State} (f : Nat) (hl : lookup len s = none) (hn : s.nBits < maxl len) :
    huffLoop len (f + 1) s = (pullPush s).bind fun _ t => huffLoop len f t := by
  rw [huffLoop, ← lookup, hl]
  simp [Nat.not_le.2 hn]

theorem huffLoop_fuel {len : List Nat} {f g : Nat} {s : State} (hf : maxl len ≤ s.nBits + f)
    (hg : maxl len ≤ s.nBits + g) : huffLoop len f s = huffLoop len g s := by
  induction f generalizing g s with
  | zero => rw [huffLoop_stop g (.inr hf)]
  | succ f ih =>
    by_cases h : lookup len s ≠ none ∨ maxl len ≤ s.nBits
    · rw [huffLoop_stop _ h, huffLoop_stop g h]
    · push Not at h
      obtain ⟨hl, hn⟩ := h
      obtain ⟨g, rfl⟩ : ∃ k, g = k + 1 := ⟨g - 1, by omega⟩
      rw [huffLoop_pull f hl hn, huffLoop_pull g hl hn]
      exact pullPush_congr fun t ht => ih (by omega) (by omega)

theorem huffDecode_pullsUntil (len : List Nat) : PullsUntil (maxl len) (huffDecode len) := by
  intro s
  by_cases h : lookup len s ≠ none ∨ maxl len ≤ s.nBits
  · rw [huffDecode, huffLoop_stop _ h, huffLoop, ← lookup]
    cases lookup len s with
    | some p => exact .inl ⟨p.1, p.2, rfl⟩
    | none => exact .inr (.inl ⟨_, rfl, rfl⟩)
  · push Not at h
    obtain ⟨hl, hn⟩ := h
    refine .inr (.inr ⟨hn, fun t ht htn => ?_⟩)
    have hlt : lookup len t = none := by rw [lookup, ht, htn]; exact hl
    obtain ⟨f, hf⟩ : ∃ f, maxl len - t.nBits = f + 1 := ⟨maxl len - t.nBits - 1, by omega⟩
    rw [huffDecode, hf, huffLoop_pull f hlt (by omega)]
    exact pullPush_congr fun u hu => huffLoop_fuel (by omega) (by omega)

/-! ### The reads of the micro-steps -/

/-- A value computed from what a read gives. -/
theorem ReadEnds.map {top : Nat} {α β : Type} {r : State → Res α} {s : State} (h : ReadEnds top r s)
    (g : α → State → β) : ReadEnds top (fun s => (r s).bind fun v t => .ok (g v t) t) s := by
  cases h with
  | ok v t hr ho => exact .ok (g v t) t (by simp only [hr, Res.bind]) ho
  | raise e t hr ho he => exact .raise e t (by simp only [hr, Res.bind]) ho he
  | short t hr hp hi hres => exact .short t (by simp only [hr, Res.bind]) hp hi fun more c => by simp only [hres]

theorem readZhdr_ends (top : Nat) (s : State) : ReadEnds top readZhdr s := (pullByte_ends top s).map _
theorem need_ends (n : Nat) (s : State) : ReadEnds n (need n) s := (need_pullsUntil n).ends s
theorem readStored_ends (s : State) : ReadEnds 16 readStored s := (need_ends 16 s).map _
theorem readCounts_ends (s : State) : ReadEnds 4 readCounts s := (need_ends 4 s).map _
theorem needPlus_ends (base n : Nat) (s : State) : ReadEnds n (needPlus base n) s := (need_ends n s).map _
theorem readLength_ends (v : Nat) (s : State) : ReadEnds (lext.getD (v - 257) 0) (readLength v) s := needPlus_ends ..
theorem readDistance_ends (v : Nat) (s : State) : ReadEnds (dext.getD v 0) (readDistance v) s := needPlus_ends ..
theorem huffDecode_ends (len : List Nat) (s : State) : ReadEnds (maxl len) (huffDecode len) s :=
  (huffDecode_pullsUntil len).ends s

/-! ## What a micro-step does once its read has completed -/

/-- The output, the window and the five discriminants of `t` are those of `s`. -/
def SameOutput (s t : State) : Prop :=
  (t.outBytes = s.outBytes ∧ t.produced = s.produced ∧ t.hist = s.hist) ∧
    t.zStep = s.zStep ∧ t.bStep = s.bStep ∧ t.sStep = s.sStep ∧ t.dStep = s.dStep ∧ t.yStep = s.yStep

theorem SameOutput.refl (s : State) : SameOutput s s := by simp [SameOutput]

theorem SameOutput.trans {s t u : State} (h : SameOutput s t) (h' : SameOutput t u) : SameOutput s u := by
  unfold SameOutput at *; simp only [h', h, and_self]

theorem OnlyReader.sameOutput {s t : State} (h : OnlyReader s t) : SameOutput s t := by
  unfold OnlyReader at h; rw [h]; simp [SameOutput]

/-- A micro-step that does not suspend: it stops, or the call goes on, or it has succeeded, or it is raised with nothing
produced (R320, R322). -/
def Completes (s : State) (a : Answer) : Prop :=
  ∀ t, a = .next t → t.busy = s.busy ∨ (t.phase = .done ∧ t.status = .ok) ∨
    (t.phase = .poisoned ∧ t.status.isTerminal = true ∧ SameOutput s t)

theorem Completes.goesOn {s t : State} (h : t.busy = s.busy) : Completes s (.next t) := by
  rintro _ ⟨⟩; exact .inl h

theorem Completes.raised {s t : State} {e : Status} (he : e.isTerminal = true) (h : SameOutput s t) :
    Completes s (.next (endRaised e t)) := by
  rintro _ ⟨⟩; exact .inr (.inr ⟨rfl, he, h⟩)

theorem Completes.fault {s : State} (r : Fault) : Completes s (.fault r) := by rintro _ ⟨⟩

theorem Completes.refused {s : State} (r : Refusal) : Completes s (.refused r) := by rintro _ ⟨⟩

theorem Completes.atStep {s : State} {a : Answer} (m : MicroStep) (h : Completes s a) : Completes s (atStep m s a) := by
  unfold Machine.atStep
  split
  · exact h
  · exact .refused _

/-! ### The elements at the micro-steps that do not read (R303) -/

theorem headerError_terminal {cfg : ZfdConfig} {x : Half} {e : Status} (h : headerError cfg x = some e) :
    e.isTerminal = true := by
  unfold headerError at h
  split_ifs at h <;> cases h <;> rfl

theorem countsError_terminal {n k : Nat} {e : Status} (h : countsError n k = some e) : e.isTerminal = true := by
  unfold countsError at h
  split_ifs at h <;> cases h <;> rfl

theorem validate_terminal {len : List Nat} {a : Bool} {e : Status} (h : validate len a = some e) :
    e.isTerminal = true := by
  rcases validate_cases h with rfl | rfl | rfl <;> rfl

theorem buildError_terminal {s : State} {e : Status} (h : buildError s = some e) : e.isTerminal = true := by
  unfold buildError at h
  split at h
  · cases h; rfl
  · split at h
    · next hv => cases h; exact validate_terminal hv
    · exact validate_terminal h

theorem execZhdr_completes (x : Half) (s : State) : Completes s (execZhdr x s) := by
  refine .atStep _ ?_
  split
  · next h => exact .raised (headerError_terminal h) (.refl s)
  · exact .goesOn rfl

theorem execZtrl_completes (x : Word) (s : State) : Completes s (execZtrl x s) := by
  refine .atStep _ ?_
  split_ifs
  · exact .refused _
  · rintro _ ⟨⟩; exact .inr (.inl ⟨rfl, rfl⟩)
  · exact .raised rfl (.refl s)

theorem execBlk_completes (final : Bool) (type : Nat) (s : State) : Completes s (exec (blockOfType final type) s) := by
  match type with
  | 0 => exact .atStep _ (.goesOn rfl)
  | 1 => exact .atStep _ (.goesOn rfl)
  | 2 => exact .atStep _ (.goesOn rfl)
  | _ + 3 => exact .atStep _ (.raised rfl (.refl s))

theorem execSLen_completes (len nlen : Half) (s : State) : Completes s (execSLen len nlen s) := by
  refine .atStep _ ?_
  split
  · exact .goesOn rfl
  · exact .raised rfl (.refl s)

theorem execDCounts_completes (hlit hdist hclen : Nat) (s : State) : Completes s (execDCounts hlit hdist hclen s) := by
  refine .atStep _ ?_
  dsimp only
  split
  · next h => exact .raised (countsError_terminal h) (.refl s)
  · exact .goesOn rfl

theorem execDCllen_completes (v : Nat) (s : State) : Completes s (execDCllen v s) := by
  refine .atStep _ ?_
  split
  · exact .goesOn rfl
  · exact .refused _

theorem execClLen_completes (n : Nat) (s : State) : Completes s (execClLen n s) := by
  refine .atStep _ ?_
  split
  · exact .goesOn (by simp)
  · exact .refused _

/-- RAW with output space left, which its read has tested (R188). -/
theorem execRaw_completes {s : State} (b : Byte) (h : s.outBytes.length < s.outCap) : Completes s (execRaw b s) := by
  refine .atStep _ ?_
  split
  · exact .refused _
  · rw [emitChecked, needOut, if_pos h]
    exact .goesOn rfl

theorem execEob_completes (s : State) : Completes s (execEob s) := .atStep _ (.goesOn rfl)

theorem reservedLength_completes (s : State) : Completes s (reservedLength s) :=
  .atStep _ (.raised rfl (.refl s))

theorem reservedDistance_completes (s : State) : Completes s (reservedDistance s) :=
  .atStep _ (.raised rfl (.refl s))

theorem execLit_completes {s : State} (b : Byte) (h : microStep s ≠ some .yEmit) : Completes s (execLit b s) := by
  unfold execLit
  split
  · exact .goesOn rfl
  · contradiction
  · exact .refused _

theorem lengthElement_completes {s : State} (v : Nat) (h : microStep s ≠ some .yLextra) :
    Completes s (lengthElement v s) := by
  unfold lengthElement
  split
  · exact .goesOn rfl
  · contradiction
  · exact .refused _

theorem distanceElement_completes {s : State} (v : Nat) (h : microStep s ≠ some .yDextra)
    (h' : microStep s ≠ some .yCopy) : Completes s (distanceElement v s) := by
  unfold distanceElement
  split
  · exact .goesOn rfl
  · contradiction
  · contradiction
  · exact .refused _

theorem repeatElement_completes {s : State} {w base : Nat} {start : Answer} (hs : Completes s start)
    (h : microStep s ≠ some .dExtra) : Completes s (repeatElement w base start s) := by
  unfold repeatElement
  split
  · split
    · exact hs
    · exact .refused _
  · contradiction
  · exact .refused _

theorem clRep_start_completes (s : State) : Completes s
    (if s.dI = 0 then .next (endRaised .badHuffmanCodeLengthRepetition s)
     else .next (startRepeat 16 (getLen (s.dI - 1) s) s)) := by
  split
  · exact .raised rfl (.refl s)
  · exact .goesOn rfl

/-- A validation raises a terminal error or the call goes on (R207, R210). -/
theorem stepDCllensEnd_completes (s : State) : Completes s (finish (stepDCllensEnd s)) := by
  unfold stepDCllensEnd
  split
  · next hv => exact .raised (validate_terminal hv) (.refl s)
  · exact .goesOn rfl

theorem stepDBuild_completes (s : State) : Completes s (finish (stepDBuild s)) := by
  unfold stepDBuild
  split
  · next hv => exact .raised (buildError_terminal hv) (.refl s)
  · exact .goesOn rfl

/-- A run that passes the end of the sequence is raised with the sequence as it was (R209). -/
theorem runRepeat_completes (r : Nat) (s : State) : Completes s (finish
    (if s.nLit + s.nDist < s.dI + r then .raise .badHuffmanCodeLengthCount s
     else .ok () { fillLens s.repVal r s.dI s with dI := s.dI + r, dStep := .sym })) := by
  split
  · exact .raised rfl (.refl s)
  · exact .goesOn (by simp)

/-- A distance that reaches before the first byte is raised before any copy (R239). -/
theorem startCopy_completes (d : Nat) (s : State) : Completes s (finish
    (if s.produced < d then .raise .badDistance { s with yDist := d }
     else .ok () { s with yDist := d, yRem := s.yLength, yStep := .copy })) := by
  split
  · exact .raised rfl (.refl s)
  · exact .goesOn rfl

/-! ### The meaning of a symbol -/

/-- What a step does with a field that has been read. -/
def runField (f : Format) (v : Nat) (s : State) : Answer := runFetched (fetchField f (.ok v s))

theorem runField_ok {f : Format} {v : Nat} {i : Instr} (h : decode f v = .ok i) : runField f v = exec i :=
  funext fun _ => runFetched_ok h

theorem runField_error {f : Format} {v : Nat} {x : DecodeError} (h : decode f v = .error x) :
    runField f v = fun _ => .fault .noElement := by
  funext s
  simp only [runField, fetchField, h, runFetched]

/-- CLSYM: a length, one of the three repeats, or no symbol (R98). -/
theorem runField_clsym (v : Nat) :
    runField .clsym v = execClLen v ∨
      (∃ w base, ∃ start : State → Answer, (∀ s, Completes s (start s)) ∧ w ≤ 7 ∧
        runField .clsym v = fun s => repeatElement w base (start s) s) ∨
      runField .clsym v = fun _ => .fault .noElement := by
  by_cases h : v < 16
  · exact .inl (runField_ok (decode_clsym_len h))
  by_cases h' : v < 19
  · refine .inr (.inl ?_)
    obtain rfl | rfl | rfl : v = 16 ∨ v = 17 ∨ v = 18 := by omega
    · exact ⟨2, 3, _, clRep_start_completes, by decide, runField_ok (i := .clRep) rfl⟩
    · exact ⟨3, 3, fun s => .next (startRepeat 17 0 s), fun _ => .goesOn rfl, by decide,
        runField_ok (i := .clZrep) rfl⟩
    · exact ⟨7, 11, fun s => .next (startRepeat 18 0 s), fun _ => .goesOn rfl, by decide,
        runField_ok (i := .clZrepl) rfl⟩
  · refine .inr (.inr ?_)
    by_cases hw : v < 32
    · have hn : [Instr.clRep, .clZrep, .clZrepl][v - 16]? = none := List.getElem?_eq_none (by simp; omega)
      exact runField_error (x := .noSuchSymbol .clsym v) (by simp [decode, Format.width, h, hw, symbolIn, hn])
    · exact runField_error (if_pos (by simpa [Format.width] using hw))

/-- LLSYM: LIT, EOB, a length element, a symbol without a meaning, or no symbol (R100). -/
theorem runField_llsym (v : Nat) :
    (∃ b, runField .llsym v = execLit b) ∨ runField .llsym v = execEob ∨
      (257 ≤ v ∧ v ≤ 285 ∧ runField .llsym v = lengthElement v) ∨ runField .llsym v = reservedLength ∨
        runField .llsym v = fun _ => .fault .noElement := by
  by_cases h1 : v < 256
  · exact .inl ⟨_, runField_ok (decode_lit h1)⟩
  by_cases h2 : v = 256
  · exact .inr (.inl (h2 ▸ runField_ok decode_eob))
  by_cases h3 : v ≤ 285
  · obtain ⟨i, hd, hi⟩ := exec_length (by omega) h3
    exact .inr (.inr (.inl ⟨by omega, h3, (runField_ok hd).trans (funext hi)⟩))
  by_cases h4 : v ≤ 287
  · obtain ⟨i, hd, hi⟩ := exec_llRsvd (v := v) (by omega) h4
    exact .inr (.inr (.inr (.inl ((runField_ok hd).trans (funext hi)))))
  by_cases h5 : v < 512
  · refine .inr (.inr (.inr (.inr (runField_error (x := .noSuchSymbol .llsym v) ?_))))
    have hn : llSymbols[v - 256]? = none := List.getElem?_eq_none (by simp [llSymbols]; omega)
    simp [decode, Format.width, h1, h5, symbolIn, hn]
  · exact .inr (.inr (.inr (.inr (runField_error (if_pos (by simpa [Format.width] using h5))))))

/-- DSYM: a distance element, a symbol without a meaning, or no symbol (R101). -/
theorem runField_dsym (v : Nat) :
    (v ≤ 29 ∧ runField .dsym v = distanceElement v) ∨ runField .dsym v = reservedDistance ∨
      runField .dsym v = fun _ => .fault .noElement := by
  by_cases h1 : v ≤ 29
  · obtain ⟨i, hd, hi⟩ := exec_distance h1
    exact .inl ⟨h1, (runField_ok hd).trans (funext hi)⟩
  by_cases h2 : v ≤ 31
  · obtain ⟨i, hd, hi⟩ := exec_dRsvd (v := v) (by omega) h2
    exact .inr (.inl ((runField_ok hd).trans (funext hi)))
  · exact .inr (.inr (runField_error (if_pos (by simp [Format.width]; omega))))

/-- A field of a format with one element in it completes where that element does. -/
theorem runField_completes {f : Format} {v : Nat} {s : State} (h : ∀ i, decode f v = .ok i → Completes s (exec i s)) :
    Completes s (runField f v s) := by
  cases hd : decode f v with
  | ok i => rw [runField_ok hd]; exact h i hd
  | error x => rw [runField_error hd]; exact .fault _

/-- The micro-steps at which an element goes on that an earlier micro-step has decoded (R209, R236, R237, R239,
R240). -/
def continuing : List MicroStep := [.dExtra, .yEmit, .yLextra, .yDextra, .yCopy]

/-- The row of a format with one element in it (R117). -/
theorem decode_row {f : Format} {v : Nat} {i j : Instr} (h : decode f v = .ok i)
    (hj : (if 2 ^ f.width ≤ v then .error (.tooWide f v) else .ok j : Except DecodeError Instr) = decode f v) :
    j = i := by
  rw [← hj] at h
  split at h
  · cases h
  · cases h; rfl

/-- The first micro-step of an element, its field read, completes. -/
theorem runField_completes_of_starts {f : Format} {m : MicroStep} {s : State} (v : Nat) (hf : f ≠ .host ∧ f ≠ .raw)
    (hm : microStep s = some m) (hc : m ∉ continuing) : Completes s (runField f v s) := by
  have hne : ∀ k ∈ continuing, microStep s ≠ some k := fun k hk he => hc (Option.some.inj (hm.symm.trans he) ▸ hk)
  cases f with
  | host => exact absurd rfl hf.1
  | raw => exact absurd rfl hf.2
  | zhdr => exact runField_completes fun i hi => (decode_row hi rfl) ▸ execZhdr_completes _ s
  | ztrl => exact runField_completes fun i hi => (decode_row hi rfl) ▸ execZtrl_completes _ s
  | bhdr => exact runField_completes fun i hi => (decode_row hi rfl) ▸ execBlk_completes _ _ s
  | stored => exact runField_completes fun i hi => (decode_row hi rfl) ▸ execSLen_completes _ _ s
  | dynhdr => exact runField_completes fun i hi => (decode_row hi rfl) ▸ execDCounts_completes _ _ _ s
  | cllen => exact runField_completes fun i hi => (decode_row hi rfl) ▸ execDCllen_completes _ s
  | clsym =>
    rcases runField_clsym v with h | ⟨w, base, start, hs, -, h⟩ | h <;> rw [h]
    · exact execClLen_completes v s
    · exact repeatElement_completes (hs s) (hne _ (by decide))
    · exact .fault _
  | llsym =>
    rcases runField_llsym v with ⟨b, h⟩ | h | ⟨-, -, h⟩ | h | h <;> rw [h]
    · exact execLit_completes b (hne _ (by decide))
    · exact execEob_completes s
    · exact lengthElement_completes v (hne _ (by decide))
    · exact reservedLength_completes s
    · exact .fault _
  | dsym =>
    rcases runField_dsym v with ⟨-, h⟩ | h | h <;> rw [h]
    · exact distanceElement_completes v (hne _ (by decide)) (hne _ (by decide))
    · exact reservedDistance_completes s
    · exact .fault _

/-! ## The two parts of a micro-step -/

/-- A micro-step that goes on with `K` after a read that has completed. -/
def Res.andThen {α : Type} (r : Res α) (K : α → State → Answer) : Answer :=
  match r with
  | .ok v t => K v t
  | .suspend k t => .next (endSuspended k t)
  | .raise e t => .next (endRaised e t)

theorem finish_bind {α : Type} (r : Res α) (g : α → State → Res Unit) :
    finish (r.bind g) = r.andThen fun v t => finish (g v t) := by
  cases r <;> rfl

theorem runFetched_field (f : Format) (r : Res Nat) : runFetched (fetchField f r) = r.andThen (runField f) := by
  cases r <;> rfl

/-- The bit reader's registers and the input cursor. -/
structure InputPart where
  bits : Word
  nBits : Nat
  inTotal : Nat
  inBytes : List Byte
  inClosed : Bool
  consumed : Nat

/-- The state `s` with another bit reader and input cursor. -/
def State.withInput (s : State) (p : InputPart) : State :=
  { s with
    bits := p.bits, nBits := p.nBits, inTotal := p.inTotal, inBytes := p.inBytes, inClosed := p.inClosed,
    consumed := p.consumed }

/-- The input part of a state. -/
def State.inputPart (s : State) : InputPart := ⟨s.bits, s.nBits, s.inTotal, s.inBytes, s.inClosed, s.consumed⟩

theorem OnlyReader.supply_eq_withInput {s t : State} (h : OnlyReader s t) (more : List Byte) (c : Bool) :
    supply more c t = s.withInput (supply more c t).inputPart := by
  unfold OnlyReader at h; rw [h]; rfl

/-- What the micro-step of `s` can be. -/
inductive MicroStepForm (s : State) : Prop
  /-- one that reads nothing and does not suspend -/
  | now : Completes s (runFetched (fetch s)) → MicroStepForm s
  /-- one that waits for output space before it does anything -/
  | full : runFetched (fetch s) = .next (endSuspended .shortWrite s) → MicroStepForm s
  /-- a read, the same one whatever the input part of the state, and what follows when it completes -/
  | reads {α : Type} {top : Nat} {r : State → Res α} {K : α → State → Answer} :
      (∀ p, runFetched (fetch (s.withInput p)) = (r (s.withInput p)).andThen K) → ReadEnds top r s →
      (Inv s → top ≤ 24) → (∀ v t, OnlyReader s t → Completes t (K v t)) → MicroStepForm s

section
variable {s : State} {m : MicroStep}

/-- A micro-step that ends its element's field and executes the element. -/
theorem MicroStepForm.field (f : Format) {r : State → Res Nat} {top : Nat} (hm : microStep s = some m)
    (hrun : ∀ p, fetch (s.withInput p) = fetchField f (r (s.withInput p))) (hr : ReadEnds top r s)
    (htop : Inv s → top ≤ 24) (hc : m ∉ continuing) (hf : f ≠ .host ∧ f ≠ .raw) : MicroStepForm s :=
  .reads (fun p => by rw [hrun p, runFetched_field]) hr htop fun v _ ht =>
    runField_completes_of_starts v hf (ht.microStep.trans hm) hc

/-- A micro-step `F` that begins with a read and executes no element then. -/
theorem MicroStepForm.readsThen {α : Type} (F : State → Res Unit) {r : State → Res α} {g : α → State → Res Unit}
    {top : Nat} (hrun : ∀ p, runFetched (fetch (s.withInput p)) = finish (F (s.withInput p)))
    (hF : ∀ t, F t = (r t).bind g) (hr : ReadEnds top r s) (htop : Inv s → top ≤ 24)
    (hc : ∀ v t, Completes t (finish (g v t))) : MicroStepForm s :=
  .reads (fun p => by rw [hrun p, hF, finish_bind]) hr htop fun v t _ => hc v t

/-- A micro-step that emits a byte, if there is room for it (R66, R246). -/
theorem MicroStepForm.emits {b : Byte} {g : State → State}
    (hrun : runFetched (fetch s) = finish ((emitChecked b s).bind fun _ t => .ok () (g t)))
    (hg : (g (emit b s)).busy = s.busy) : MicroStepForm s := by
  rcases emitChecked_cases b s with ⟨-, he⟩ | ⟨-, -, he⟩ | ⟨-, -, he⟩ <;> rw [he] at hrun
  · exact .now (hrun ▸ .goesOn hg)
  · exact .now (hrun ▸ .raised rfl (.refl s))
  · exact .full hrun

/-! ### The micro-steps with more than one form -/

theorem zTrailer_form (h : microStep s = some .zTrailer) : MicroStepForm s := by
  have hm : ∀ p, microStep (s.withInput p) = some .zTrailer := fun _ => h
  by_cases hn : s.zTrlN < 4
  · exact .readsThen stepZTrailerByte (fun p => by rw [fetch, hm p]; exact congrArg runFetched (if_pos hn))
      (fun _ => rfl) (pullByte_ends 0 s) (fun _ => by decide) fun _ _ => .goesOn rfl
  · have hrun : runFetched (fetch s) = runField .ztrl s.zTrl.toNat s := by
      rw [fetch, h]; exact congrArg runFetched (if_neg hn)
    exact .now (hrun ▸ runField_completes_of_starts _ (by decide) h (by decide))

/-- The output space is tested before the byte is pulled (R188). -/
theorem sCopy_form (h : microStep s = some .sCopy) : MicroStepForm s := by
  have hm : ∀ p, microStep (s.withInput p) = some .sCopy := fun _ => h
  by_cases hs : s.sRem = 0
  · have hrun : runFetched (fetch s) = .next (stepSCopyEnd s) := by
      rw [fetch, h]; exact congrArg runFetched (if_pos hs)
    exact .now (hrun ▸ .goesOn rfl)
  have hrun : ∀ p, runFetched (fetch (s.withInput p)) = (readRaw (s.withInput p)).andThen (runField .raw) := fun p => by
    rw [← runFetched_field, fetch, hm p]; exact congrArg runFetched (if_neg hs)
  have hnow : runFetched (fetch s) = (readRaw s).andThen (runField .raw) := hrun s.inputPart
  rcases needOut_cases s with ⟨hroom, -⟩ | ⟨-, -, ho⟩ | ⟨-, -, ho⟩
  · refine .reads (r := pullByte) (K := fun b t => runField .raw b.toNat t) (fun p => ?_) (pullByte_ends 0 s)
      (fun _ => by decide) fun b t ht => runField_completes fun i hi => ?_
    · have ho : needOut (s.withInput p) = .ok () (s.withInput p) := if_pos hroom
      rw [hrun p, readRaw, ho]
      simp only [Res.bind]
      cases pullByte (s.withInput p) <;> rfl
    · have hroom' : t.outBytes.length < t.outCap := by rw [ht]; exact hroom
      exact decode_row hi rfl ▸ execRaw_completes _ hroom'
  · rw [readRaw, ho] at hnow
    exact .now (hnow ▸ .raised rfl (.refl s))
  · rw [readRaw, ho] at hnow
    exact .full hnow

theorem dCllens_form (h : microStep s = some .dCllens) : MicroStepForm s := by
  have hm : ∀ p, microStep (s.withInput p) = some .dCllens := fun _ => h
  by_cases hd : s.dI < s.nClen
  · exact .field .cllen h (fun p => by rw [fetch, hm p]; exact if_pos hd) (need_ends 3 s) (fun _ => by decide)
      (by decide) (by decide)
  · have hrun : runFetched (fetch s) = finish (stepDCllensEnd s) := by
      rw [fetch, h]; exact congrArg runFetched (if_neg hd)
    exact .now (hrun ▸ stepDCllensEnd_completes s)

theorem dSym_form (h : microStep s = some .dSym) : MicroStepForm s := by
  have hm : ∀ p, microStep (s.withInput p) = some .dSym := fun _ => h
  by_cases hd : lengthDue s = true
  · exact .field .clsym h (fun p => by rw [fetch, hm p]; exact if_pos hd) (huffDecode_ends s.clLen s)
      (fun hI => (maxl_le hI.clLen.2).trans (by decide)) (by decide) (by decide)
  · have hrun : runFetched (fetch s) = .next (stepDSymEnd s) := by
      rw [fetch, h]; exact congrArg runFetched (if_neg hd)
    exact .now (hrun ▸ .goesOn rfl)

/-! ### The micro-steps that go on with a saved element -/

theorem dExtra_form (h : microStep s = some .dExtra) : MicroStepForm s := by
  have hm : ∀ p, microStep (s.withInput p) = some .dExtra := fun _ => h
  have hrun : ∀ p, runFetched (fetch (s.withInput p)) = runField .clsym s.repSym (s.withInput p) := fun p => by
    rw [fetch, hm p]; rfl
  have hnow : runFetched (fetch s) = runField .clsym s.repSym s := hrun s.inputPart
  rcases runField_clsym s.repSym with hv | ⟨w, base, start, -, hw, hv⟩ | hv <;> rw [hv] at hrun hnow
  · exact .now (hnow ▸ execClLen_completes _ s)
  · exact .readsThen (runRepeat w base) (fun p => by rw [hrun p]; simp only [repeatElement, hm p]) (fun _ => rfl)
      (needPlus_ends base w s) (fun _ => by omega) runRepeat_completes
  · exact .now (hnow ▸ .fault _)

theorem yEmit_form (h : microStep s = some .yEmit) : MicroStepForm s := by
  have hrun : runFetched (fetch s) = execLit (BitVec.ofNat 8 s.yLit.toNat) s := by
    rw [fetch, h]; exact congrFun (runField_ok (decode_lit s.yLit.isLt)) s
  simp only [execLit, h] at hrun
  exact .emits hrun (by simp)

theorem yLextra_form (h : microStep s = some .yLextra) : MicroStepForm s := by
  have hm : ∀ p, microStep (s.withInput p) = some .yLextra := fun _ => h
  have hrun : ∀ p, runFetched (fetch (s.withInput p)) = runField .llsym s.yLsym (s.withInput p) := fun p => by
    rw [fetch, hm p]; rfl
  have hnow : runFetched (fetch s) = runField .llsym s.yLsym s := hrun s.inputPart
  rcases runField_llsym s.yLsym with ⟨b, hv⟩ | hv | ⟨h1, h2, hv⟩ | hv | hv <;> rw [hv] at hrun hnow
  · exact .now (hnow ▸ execLit_completes b (by rw [h]; decide))
  · exact .now (hnow ▸ execEob_completes s)
  · exact .readsThen (fun t => (readLength s.yLsym t).bind fun n u => .ok () { u with yLength := n, yStep := .dsym })
      (fun p => by rw [hrun p]; simp only [lengthElement, hm p]) (fun _ => rfl) (readLength_ends s.yLsym s)
      (fun _ => (length_range h1 h2).1.trans (by decide)) fun _ _ => .goesOn rfl
  · exact .now (hnow ▸ reservedLength_completes s)
  · exact .now (hnow ▸ .fault _)

theorem yDextra_form (h : microStep s = some .yDextra) : MicroStepForm s := by
  have hm : ∀ p, microStep (s.withInput p) = some .yDextra := fun _ => h
  have hrun : ∀ p, runFetched (fetch (s.withInput p)) = runField .dsym s.yDsym (s.withInput p) := fun p => by
    rw [fetch, hm p]; rfl
  have hnow : runFetched (fetch s) = runField .dsym s.yDsym s := hrun s.inputPart
  rcases runField_dsym s.yDsym with ⟨h1, hv⟩ | hv | hv <;> rw [hv] at hrun hnow
  · exact .readsThen (startCopy s.yDsym) (fun p => by rw [hrun p]; simp only [distanceElement, hm p]) (fun _ => rfl)
      (readDistance_ends s.yDsym s) (fun _ => (distance_range h1).1.trans (by decide)) startCopy_completes
  · exact .now (hnow ▸ reservedDistance_completes s)
  · exact .now (hnow ▸ .fault _)

theorem yCopy_form (h : microStep s = some .yCopy) : MicroStepForm s := by
  have hrun : runFetched (fetch s) = runField .dsym s.yDsym s := by rw [fetch, h]; rfl
  rcases runField_dsym s.yDsym with ⟨-, hv⟩ | hv | hv <;> rw [hv] at hrun
  · have hcopy : distanceElement s.yDsym s = finish (copyByte s) := by simp only [distanceElement, h]
    rw [hcopy, copyByte] at hrun
    split_ifs at hrun
    · exact .now (hrun ▸ .goesOn rfl)
    · exact .emits hrun (by simp)
  · exact .now (hrun ▸ reservedDistance_completes s)
  · exact .now (hrun ▸ .fault _)

/-- Every micro-step has one of the forms (R303). -/
theorem microStepForm (h : microStep s = some m) : MicroStepForm s := by
  have hm : ∀ p, microStep (s.withInput p) = some m := fun _ => h
  cases m with
  | zCmf =>
    exact .readsThen stepZCmf (fun p => by rw [fetch, hm p]; rfl) (fun _ => rfl) (pullByte_ends 0 s)
      (fun _ => by decide) fun _ _ => .goesOn rfl
  | zFlg =>
    exact .field .zhdr h (fun p => by rw [fetch, hm p]) (readZhdr_ends 0 s) (fun _ => by decide) (by decide) (by decide)
  | zTrailer => exact zTrailer_form h
  | bHeader =>
    exact .field .bhdr h (fun p => by rw [fetch, hm p]) (need_ends 3 s) (fun _ => by decide) (by decide) (by decide)
  | bEnd =>
    have hrun : runFetched (fetch s) = .next (stepBEnd s) := by rw [fetch, h]; rfl
    exact .now (hrun ▸ .goesOn (by unfold stepBEnd; split <;> rfl))
  | sAlign =>
    have hrun : runFetched (fetch s) = .next (stepSAlign s) := by rw [fetch, h]; rfl
    exact .now (hrun ▸ .goesOn rfl)
  | sLen =>
    exact .readsThen stepSLen (fun p => by rw [fetch, hm p]; rfl) (fun _ => rfl) (need_ends 16 s) (fun _ => by decide)
      fun _ _ => .goesOn rfl
  | sNlen =>
    exact .field .stored h (fun p => by rw [fetch, hm p]) (readStored_ends s) (fun _ => by decide) (by decide)
      (by decide)
  | sCopy => exact sCopy_form h
  | dHlit =>
    exact .readsThen stepDHlit (fun p => by rw [fetch, hm p]; rfl) (fun _ => rfl) (need_ends 5 s) (fun _ => by decide)
      fun _ _ => .goesOn rfl
  | dHdist =>
    exact .readsThen stepDHdist (fun p => by rw [fetch, hm p]; rfl) (fun _ => rfl) (need_ends 5 s) (fun _ => by decide)
      fun _ _ => .goesOn rfl
  | dHclen =>
    exact .field .dynhdr h (fun p => by rw [fetch, hm p]) (readCounts_ends s) (fun _ => by decide) (by decide)
      (by decide)
  | dCllens => exact dCllens_form h
  | dSym => exact dSym_form h
  | dExtra => exact dExtra_form h
  | dBuild =>
    have hrun : runFetched (fetch s) = finish (stepDBuild s) := by rw [fetch, h]; rfl
    exact .now (hrun ▸ stepDBuild_completes s)
  | yLitlen =>
    exact .field .llsym h (fun p => by rw [fetch, hm p]; rfl) (huffDecode_ends s.llLen s)
      (fun hI => (maxl_le hI.llLen.2).trans (by decide)) (by decide) (by decide)
  | yEmit => exact yEmit_form h
  | yLextra => exact yLextra_form h
  | yDsym =>
    exact .field .dsym h (fun p => by rw [fetch, hm p]; rfl) (huffDecode_ends s.dLen s)
      (fun hI => (maxl_le hI.dLen.2).trans (by decide)) (by decide) (by decide)
  | yDextra => exact yDextra_form h
  | yCopy => exact yCopy_form h

end

/-! ## What ends a call -/

/-- How the step of a call at `s` has ended it in `t`: with `Ok`; with a terminal error; waiting for output; or waiting
for input, after whole bytes have been pulled, at the micro-step the next call resumes (R288, R289, R320, R323). -/
inductive Returned (s t : State) : Prop
  | done : t.phase = .done → t.status = .ok → Returned s t
  | raised : t.phase = .poisoned → t.status.isTerminal = true → SameOutput s t → Returned s t
  | full : t = endSuspended .shortWrite s → Returned s t
  | short {top : Nat} {u : State} : t = endSuspended .shortRead u → Pulled top s u → (Inv s → top ≤ 24) →
      u.inBytes = [] →
      (∀ more c, runFetched (fetch (supply more c s)) = runFetched (fetch (supply more c u))) → Returned s t

theorem Completes.returned {s t : State} {a : Answer} (h : Completes s a) (ha : a = .next t) (hs : s.busy = true)
    (ht : t.busy = false) : Returned s t := by
  rcases h t ha with hb | ⟨hp, hk⟩ | ⟨hp, hk, ho⟩
  · rw [ht, hs] at hb; cases hb
  · exact .done hp hk
  · exact .raised hp hk ho

/-- What has been read before does not matter to how a micro-step completes. -/
theorem Completes.of_reader {s t : State} {a : Answer} (h : Completes t a) (hr : OnlyReader s t) : Completes s a := by
  intro u hu
  have hb : t.busy = s.busy := by rw [hr]
  rcases h u hu with h | h | ⟨hp, hk, ho⟩
  · exact .inl (h.trans hb)
  · exact .inr (.inl h)
  · exact .inr (.inr ⟨hp, hk, hr.sameOutput.trans ho⟩)

/-- A step of a call that does not go on has returned in one of the four ways. -/
theorem returned_of_step {m : MicroStep} {s t : State} (h : Runs m s) (hst : step s = .next t) (ht : t.busy = false) :
    Returned (tick s) t := by
  obtain ⟨hrun, hm⟩ := step_of_runs h
  have hb : (tick s).busy = true := by simpa using h.1
  rw [hrun] at hst
  cases microStepForm hm with
  | now hc => exact hc.returned hst hb ht
  | full hf => rw [hf] at hst; cases hst; exact .full rfl
  | @reads α top r K hK hr htop hc =>
    rw [show runFetched (fetch (tick s)) = (r (tick s)).andThen K from hK (tick s).inputPart] at hst
    cases hr with
    | ok v u hu ho => rw [hu] at hst; exact ((hc v u ho).of_reader ho).returned hst hb ht
    | raise e u hu ho he => rw [hu] at hst; cases hst; exact .raised rfl he ho.sameOutput
    | short u hu hp hi hres =>
      rw [hu] at hst; cases hst
      refine .short rfl hp htop hi fun more c => ?_
      have hs := hK (supply more c (tick s)).inputPart
      have ht := hK (supply more c u).inputPart
      rw [← hp.only.supply_eq_withInput] at ht
      rw [ht, ← hres]
      exact hs

/-! ## The passing of a step leaves what the statements read -/

theorem tick_eq (s : State) : tick s = { s with requests := (tick s).requests } := by
  unfold tick; split <;> rfl

theorem Inv.tick {s : State} (h : Inv s) : Inv (tick s) := by
  rw [tick_eq]
  obtain ⟨hwin, hwritten, hbits, hn, hcl, hll, hd, hadler, hout, hbusy, hactive⟩ := h
  exact ⟨hwin, hwritten, hbits, hn, hcl, hll, hd, hadler, hout, hbusy, fun ha => by
    obtain ⟨m, hm, hr, hl⟩ := hactive ha
    exact ⟨m, hm, by cases m <;> exact hr, by cases m <;> exact hl⟩⟩

theorem pendingBits_tick (s : State) : pendingBits (tick s) = pendingBits s := by simp [pendingBits]

theorem SameOutput.of_tick {s t : State} (h : SameOutput (tick s) t) : SameOutput s t := by simpa [SameOutput] using h

/-- Settles O44: a step that ends its call has returned in one of four ways; the two suspensions leave whole bytes
pushed, or nothing done, and the other two change the phase. -/
theorem preciseReturns : Obligations.PreciseReturns := by
  unfold Obligations.PreciseReturns
  intro m s t h hst ht
  cases returned_of_step h hst ht with
  | done hp _ =>
    refine ⟨fun hs _ hd => absurd (hs.symm.trans hp) hd, fun hp' => ?_, fun hd => absurd hp hd, .inr (.inl hp)⟩
    rw [hp] at hp'; cases hp'
  | raised hp _ ho =>
    obtain ⟨hout, hsteps⟩ := ho.of_tick
    exact ⟨fun hs hpois => absurd (hs.symm.trans hp) hpois, fun _ => hout, fun _ => hsteps, .inl hp⟩
  | full ht =>
    subst ht
    have ho : SameOutput s (endSuspended .shortWrite (tick s)) := by simp [SameOutput]
    refine ⟨fun _ _ _ => ⟨tick s, 0, .refl _, .refl _, by simp, fun _ => ⟨pendingBits_tick s, by simp⟩,
      .inr ⟨rfl, rfl⟩⟩, fun _ => ho.1, fun _ => ho.2, .inr (.inr (by simp))⟩
  | @short top u ht hp htop =>
    subst ht
    have ho : SameOutput s (endSuspended .shortRead u) := hp.only.sameOutput.of_tick
    have hphase : (endSuspended .shortRead u).phase = s.phase := by
      rw [hp.only]; simp
    obtain ⟨k, htook, hn⟩ := hp.took
    refine ⟨fun _ _ _ => ⟨u, k, hp.only, htook, by simpa using hn, fun hI => ?_, .inl rfl⟩, fun _ => ho.1,
      fun _ => ho.2, .inr (.inr hphase)⟩
    have hB := hp.buffered hI.tick.bits (htop hI.tick)
    exact ⟨hB.stream.trans (pendingBits_tick s), by simpa using hB.low⟩

/-- A busy machine to which the host presents nothing performs the micro-step it is at. -/
theorem step_of_busy {s : State} (hb : s.busy = true) (hr : s.requests = []) : step s = runFetched (fetch s) := by
  rw [step, presented_of_no_requests hr, if_pos hb, tick_of_no_requests hr]

/-- A suspended call opened again with `more` input is the state the read left, supplied with that input. -/
theorem OnlyReader.reopened {s u : State} (h : OnlyReader s u) (hb : s.busy = true) (hi : u.inBytes = [])
    (more : List Byte) (c : Bool) :
    { endSuspended .shortRead u with
      busy := true, status := s.status, reply := s.reply, inBytes := more, inClosed := c } = supply more c u := by
  rw [supply, hi, h, ← hb]; rfl

/-- Settles O54: a step that returned `ShortRead` has only pulled bytes, and its read from there with more input is its
read from the start with all of it. -/
theorem resumedMicroStepIsExact : Obligations.ResumedMicroStepIsExact := by
  unfold Obligations.ResumedMicroStepIsExact
  intro m s t more c _ h hreq hst ht hk
  have hret := returned_of_step h hst ht
  rw [tick_of_no_requests hreq] at hret
  cases hret with
  | done _ hok => rw [hk] at hok; cases hok
  | raised _ hterm _ => rw [hk] at hterm; cases hterm
  | full ht => rw [ht] at hk; cases hk
  | @short top u hu hp _ hi hres =>
    subst hu
    have hbusy : u.busy = true := by rw [hp.only]; exact h.1
    have hnone : u.requests = [] := by rw [hp.only]; exact hreq
    calc step { s with inBytes := s.inBytes ++ more, inClosed := c }
      _ = runFetched (fetch (supply more c s)) := step_of_busy h.1 hreq
      _ = runFetched (fetch (supply more c u)) := hres more c
      _ = step (supply more c u) := (step_of_busy (s := supply more c u) hbusy hnone).symm
      _ = _ := congrArg step (hp.only.reopened h.1 hi more c).symm

end Sys2Proof.Machine
end

section
/-! What a micro-step does, said once for every one of them (spec/60_exceptions.md R303): the read it begins with, and
the states it can leave once that read has completed. The invariant, the owners of the registers, the bound of the
buffered bits and the phase table are derived from this and from the facts about the reads. -/

namespace Sys2Proof.Machine

/-! ## The read of each micro-step -/

/-- The base and the width of the run of a repeat symbol (R212 to R214). -/
def repeatRow : Nat → Nat × Nat
  | 16 => (3, 2)
  | 17 => (3, 3)
  | _ => (11, 7)

/-- What micro-step `m` waits for before it does anything: input, output space, or nothing (R303). The value is the
field it acts on, 0 where there is none. -/
def readAt (m : MicroStep) (s : State) : Res Nat :=
  match m with
  | .zCmf => (pullByte s).bind fun b t => .ok b.toNat t
  | .zFlg => readZhdr s
  | .zTrailer => if s.zTrlN < 4 then (pullByte s).bind fun b t => .ok b.toNat t else .ok s.zTrl.toNat s
  | .bHeader => need 3 s
  | .bEnd => .ok 0 s
  | .sAlign => .ok 0 s
  | .sLen => need 16 s
  | .sNlen => readStored s
  | .sCopy => if s.sRem = 0 then .ok 0 s else readRaw s
  | .dHlit => need 5 s
  | .dHdist => need 5 s
  | .dHclen => readCounts s
  | .dCllens => if s.dI < s.nClen then need 3 s else .ok 0 s
  | .dSym => if lengthDue s then huffDecode s.clLen s else .ok 0 s
  | .dExtra => needPlus (repeatRow s.repSym).1 (repeatRow s.repSym).2 s
  | .dBuild => .ok 0 s
  | .yLitlen => huffDecode s.llLen s
  | .yEmit => (needOut s).bind fun _ t => .ok 0 t
  | .yLextra => readLength s.yLsym s
  | .yDsym => huffDecode s.dLen s
  | .yDextra => readDistance s.yDsym s
  | .yCopy => if s.yRem = 0 then .ok 0 s else (needOut s).bind fun _ t => .ok 0 t

/-- `u'` differs from `u` at most in registers that a micro-step may have written before it raises (R321). -/
def OnlyAbandoned (u u' : State) : Prop :=
  u' = { u with
    final := u'.final, btype := u'.btype, nLit := u'.nLit, nDist := u'.nDist, nClen := u'.nClen, yDist := u'.yDist }

theorem OnlyAbandoned.refl (u : State) : OnlyAbandoned u u := rfl

/-- What micro-step `m` can do once its read has given the value `v` and left the state `u`: every next state. -/
inductive Performs (v : Nat) (u : State) : MicroStep → State → Prop
  | zCmf : Performs v u .zCmf { u with zCmf := BitVec.ofNat 8 v, zStep := .flg }
  | zFlg : Performs v u .zFlg { u with zStep := .flate }
  | zTrailerByte : u.zTrlN < 4 →
      Performs v u .zTrailer { u with zTrl := (u.zTrl <<< 8) ||| BitVec.ofNat 32 v, zTrlN := u.zTrlN + 1 }
  | zTrailerEnd : ¬ u.zTrlN < 4 → BitVec.ofNat 32 v = adlerValue u →
      Performs v u .zTrailer (endDone { u with zStep := .done })
  | bStored (f : Bool) : Performs v u .bHeader { recordHeader f 0 u with sStep := .align, bStep := .stored }
  | bFixed (f : Bool) :
      Performs v u .bHeader
        { recordHeader f 1 u with llLen := fixLl, dLen := fixD, yStep := .litlen, bStep := .symbols }
  | bDynamic (f : Bool) : Performs v u .bHeader { recordHeader f 2 u with dStep := .hlit, bStep := .dynhdr }
  | bEndFinal : u.final = true →
      Performs v u .bEnd { discardBits u with bStep := .done, zTrl := 0, zTrlN := 0, zStep := .trailer }
  | bEndMore : u.final = false → Performs v u .bEnd { u with bStep := .header }
  | sAlign : Performs v u .sAlign { alignToByte u with sStep := .len }
  | sLen : Performs v u .sLen { u with sLen := BitVec.ofNat 16 v, sStep := .nlen }
  | sNlen (len : Half) : Performs v u .sNlen { u with sRem := len.toNat, sStep := .copy }
  | sCopyEnd : u.sRem = 0 → Performs v u .sCopy { u with bStep := .blockEnd }
  | sCopy : u.sRem ≠ 0 → u.outBytes.length < u.outCap →
      Performs v u .sCopy { emit (BitVec.ofNat 8 v) u with sRem := u.sRem - 1 }
  | dHlit : Performs v u .dHlit { u with nLit := v + 257, dStep := .hdist }
  | dHdist : Performs v u .dHdist { u with nDist := v + 1, dStep := .hclen }
  | dHclen : v < 2 ^ 14 → v % 32 + 257 ≤ 286 → v / 32 % 32 + 1 ≤ 30 →
      Performs v u .dHclen
        { clearLengths { u with nLit := v % 32 + 257, nDist := v / 32 % 32 + 1, nClen := v / 1024 + 4 } with
          dI := 0, dStep := .cllens }
  | dCllens : u.dI < u.nClen → v < 8 →
      Performs v u .dCllens { u with clLen := u.clLen.set (clord.getD u.dI 0) v, dI := u.dI + 1 }
  | dCllensEnd : ¬ u.dI < u.nClen → validate u.clLen false = none →
      Performs v u .dCllens { u with dI := 0, dStep := .sym }
  | dSymLength : lengthDue u = true → v < 16 → Performs v u .dSym { setLen u.dI v u with dI := u.dI + 1 }
  | dSymRepeat : lengthDue u = true → v = 16 → u.dI ≠ 0 →
      Performs v u .dSym (startRepeat 16 (getLen (u.dI - 1) u) u)
  | dSymZeros : lengthDue u = true → v = 17 ∨ v = 18 → Performs v u .dSym (startRepeat v 0 u)
  | dSymEnd : lengthDue u = false → Performs v u .dSym { u with dStep := .build }
  | dExtra : u.dI + v ≤ u.nLit + u.nDist →
      Performs v u .dExtra { fillLens u.repVal v u.dI u with dI := u.dI + v, dStep := .sym }
  | dBuild : buildError u = none → Performs v u .dBuild { u with yStep := .litlen, bStep := .symbols }
  | yLiteral (b : Byte) : Performs v u .yLitlen { u with yLit := b, yStep := .emit }
  | yEndOfBlock : Performs v u .yLitlen { u with bStep := .blockEnd }
  | yLength : 257 ≤ v → v ≤ 285 → Performs v u .yLitlen { u with yLsym := v, yStep := .lextra }
  | yEmit : u.outBytes.length < u.outCap → Performs v u .yEmit { emit u.yLit u with yStep := .litlen }
  | yLextra : Performs v u .yLextra { u with yLength := v, yStep := .dsym }
  | yDsym : v ≤ 29 → Performs v u .yDsym { u with yDsym := v, yStep := .dextra }
  | yDextra : v ≤ u.produced →
      Performs v u .yDextra { u with yDist := v, yRem := u.yLength, yStep := .copy }
  | yCopyEnd : u.yRem = 0 → Performs v u .yCopy { u with yStep := .litlen }
  | yCopy : u.yRem ≠ 0 → u.outBytes.length < u.outCap →
      Performs v u .yCopy { emit (histRead u.yDist u) u with yRem := u.yRem - 1 }
  | raised {m : MicroStep} {e : Status} {u' : State} : e.isTerminal = true → OnlyAbandoned u u' →
      Performs v u m (endRaised e u')

/-- How micro-step `m` ends in `t`: its read suspends or raises, or it performs what follows (R13, R288, R320). -/
inductive Ends (m : MicroStep) (s t : State) : Prop
  | suspended {k : Status} {u : State} : readAt m s = .suspend k u → t = endSuspended k u → Ends m s t
  | raised {e : Status} {u : State} : readAt m s = .raise e u → t = endRaised e u → Ends m s t
  | completed {v : Nat} {u : State} : readAt m s = .ok v u → Performs v u m t → Ends m s t

/-! ## What the reads leave alone -/

/-- The state a primitive or a micro-step leaves, however it ends (R13). -/
def Res.left {α : Type} : Res α → State
  | .ok _ t => t
  | .suspend _ t => t
  | .raise _ t => t

theorem Res.left_bind_ok {α β : Type} (r : Res α) (g : α → State → β) :
    (r.bind fun v t => .ok (g v t) t).left = r.left := by
  cases r <;> rfl

theorem ReadEnds.only {α : Type} {top : Nat} {r : State → Res α} {s : State} (h : ReadEnds top r s) :
    OnlyReader s (r s).left := by
  cases h with
  | ok v t hr ho => rw [hr]; exact ho
  | raise e t hr ho _ => rw [hr]; exact ho
  | short t hr hp _ _ => rw [hr]; exact hp.only

theorem pullByte_only (s : State) : OnlyReader s (pullByte s).left := (pullByte_ends 0 s).only

theorem pullByte_bits (s : State) : (pullByte s).left.bits = s.bits ∧ (pullByte s).left.nBits = s.nBits := by
  rcases pullByte_cases s with ⟨b, rest, -, h⟩ | ⟨-, -, h⟩ | ⟨-, -, h⟩ <;> rw [h] <;> simp [Res.left]

theorem needOut_left (s : State) : (needOut s).left = s := by
  rcases needOut_cases s with ⟨-, h⟩ | ⟨-, -, h⟩ | ⟨-, -, h⟩ <;> rw [h] <;> rfl

/-- A data byte is pulled only where there is room for it, and nothing else is read (R188). -/
theorem readRaw_left (s : State) : (readRaw s).left = s ∨ (readRaw s).left = (pullByte s).left := by
  unfold readRaw
  rcases needOut_cases s with ⟨-, h⟩ | ⟨-, -, h⟩ | ⟨-, -, h⟩ <;> rw [h]
  · exact .inr (Res.left_bind_ok _ _)
  · exact .inl rfl
  · exact .inl rfl

theorem Res.left_ite {α : Type} {p : Prop} [Decidable p] {a b : Res α} (Q : State → Prop) (ha : Q a.left)
    (hb : Q b.left) : Q (if p then a else b).left := by
  split <;> assumption

/-- The read of a micro-step changes the reader's registers and the input cursor only, however it ends. -/
theorem readAt_only (m : MicroStep) (s : State) : OnlyReader s (readAt m s).left := by
  have hraw : OnlyReader s (readRaw s).left := by
    rcases readRaw_left s with h | h <;> rw [h]
    · exact .refl s
    · exact pullByte_only s
  have hpull : OnlyReader s ((pullByte s).bind fun b t => .ok b.toNat t).left := by
    rw [Res.left_bind_ok]; exact pullByte_only s
  have hroom : OnlyReader s ((needOut s).bind fun _ t => .ok 0 t).left := by
    rw [Res.left_bind_ok, needOut_left]; exact .refl s
  cases m with
  | zCmf => exact hpull
  | zFlg => exact (readZhdr_ends 0 s).only
  | zTrailer => exact Res.left_ite (OnlyReader s) hpull (.refl s)
  | bHeader => exact (need_ends 3 s).only
  | bEnd => exact .refl s
  | sAlign => exact .refl s
  | sLen => exact (need_ends 16 s).only
  | sNlen => exact (readStored_ends s).only
  | sCopy => exact Res.left_ite (OnlyReader s) (.refl s) hraw
  | dHlit => exact (need_ends 5 s).only
  | dHdist => exact (need_ends 5 s).only
  | dHclen => exact (readCounts_ends s).only
  | dCllens => exact Res.left_ite (OnlyReader s) (need_ends 3 s).only (.refl s)
  | dSym => exact Res.left_ite (OnlyReader s) (huffDecode_ends s.clLen s).only (.refl s)
  | dExtra => exact (needPlus_ends _ _ s).only
  | dBuild => exact .refl s
  | yLitlen => exact (huffDecode_ends s.llLen s).only
  | yEmit => exact hroom
  | yLextra => exact (readLength_ends s.yLsym s).only
  | yDsym => exact (huffDecode_ends s.dLen s).only
  | yDextra => exact (readDistance_ends s.yDsym s).only
  | yCopy => exact Res.left_ite (OnlyReader s) (.refl s) hroom

theorem onlyReader_of_readAt {m : MicroStep} {s u : State} {v : Nat} (hr : readAt m s = .ok v u) : OnlyReader s u := by
  have h := readAt_only m s
  rw [hr] at h
  exact h

/-- The accumulator of `t` is that of `s`. -/
def SameBits (s t : State) : Prop := t.bits = s.bits ∧ t.nBits = s.nBits

/-- The micro-steps that read no bits leave the accumulator alone (R21, R22). -/
theorem readAt_bits {m : MicroStep} (s : State)
    (h : m ∈ [.zCmf, .zFlg, .zTrailer, .sCopy, .dBuild, .yEmit, .yCopy]) :
    SameBits s (readAt m s).left := by
  have hraw : SameBits s (readRaw s).left := by
    rcases readRaw_left s with h | h <;> rw [h]
    · exact ⟨rfl, rfl⟩
    · exact pullByte_bits s
  have hpull : SameBits s ((pullByte s).bind fun b t => .ok b.toNat t).left := by
    rw [Res.left_bind_ok]; exact pullByte_bits s
  have hroom : SameBits s ((needOut s).bind fun _ t => .ok 0 t).left := by
    rw [Res.left_bind_ok, needOut_left]; exact ⟨rfl, rfl⟩
  simp only [List.mem_cons, List.not_mem_nil, or_false] at h
  rcases h with rfl | rfl | rfl | rfl | rfl | rfl | rfl
  · exact hpull
  · rw [readAt, readZhdr, Res.left_bind_ok]; exact pullByte_bits s
  · exact Res.left_ite (SameBits s) hpull ⟨rfl, rfl⟩
  · exact Res.left_ite (SameBits s) ⟨rfl, rfl⟩ hraw
  · exact ⟨rfl, rfl⟩
  · exact hroom
  · exact Res.left_ite (SameBits s) ⟨rfl, rfl⟩ hroom

/-- The micro-steps that wait for no input take none (R23). -/
theorem readAt_left {m : MicroStep} (s : State) (h : m ∈ [.bEnd, .sAlign, .dBuild, .yEmit, .yCopy]) :
    (readAt m s).left = s := by
  have hroom : ((needOut s).bind fun _ t => .ok 0 t : Res Nat).left = s := by rw [Res.left_bind_ok, needOut_left]
  simp only [List.mem_cons, List.not_mem_nil, or_false] at h
  rcases h with rfl | rfl | rfl | rfl | rfl
  · rfl
  · rfl
  · rfl
  · exact hroom
  · exact Res.left_ite (· = s) rfl hroom

/-! ## The elements, inverted -/

theorem next_of_atStep {m : MicroStep} {s t : State} {a : Answer} (h : atStep m s a = .next t) : a = .next t := by
  unfold atStep at h
  split at h
  · exact h
  · cases h

theorem lt_of_decode {f : Format} {v : Nat} {i : Instr} (h : decode f v = .ok i) : v < 2 ^ f.width := by
  by_contra hle
  rw [decode.eq_def, if_pos (Nat.le_of_not_lt hle)] at h
  cases h

/-- A field whose step goes on has been decoded and executed. -/
theorem next_of_runField {f : Format} {v : Nat} {s t : State} (h : runField f v s = .next t) :
    ∃ i, decode f v = .ok i ∧ exec i s = .next t := by
  cases hd : decode f v with
  | ok i => exact ⟨i, rfl, by rwa [runField_ok hd] at h⟩
  | error x => rw [runField_error hd] at h; cases h

/-- The same for a format with one element in it. -/
theorem next_of_runField_row {f : Format} {v : Nat} {i : Instr} {s t : State} (h : runField f v s = .next t)
    (hi : (if 2 ^ f.width ≤ v then .error (.tooWide f v) else .ok i : Except DecodeError Instr) = decode f v) :
    exec i s = .next t := by
  obtain ⟨j, hj, ht⟩ := next_of_runField h
  rwa [decode_row hj hi]

theorem performs_zhdr {v : Nat} {u t : State} (h : runField .zhdr v u = .next t) : Performs v u .zFlg t := by
  have h := next_of_atStep (next_of_runField_row h rfl)
  split at h
  · next he => cases h; exact .raised (headerError_terminal he) (.refl u)
  · cases h; exact .zFlg

theorem performs_ztrl {v : Nat} {u t : State} (hn : ¬ u.zTrlN < 4) (h : runField .ztrl v u = .next t) :
    Performs v u .zTrailer t := by
  have h := next_of_atStep (next_of_runField_row h rfl)
  rw [if_neg hn] at h
  split at h
  · next hx => cases h; exact .zTrailerEnd hn hx
  · cases h; exact .raised rfl (.refl u)

theorem performs_bhdr {v : Nat} {u t : State} (h : runField .bhdr v u = .next t) : Performs v u .bHeader t := by
  have h := next_of_runField_row h rfl
  generalize v / 2 = type at h
  match type with
  | 0 => cases next_of_atStep h; exact .bStored _
  | 1 => cases next_of_atStep h; exact .bFixed _
  | 2 => cases next_of_atStep h; exact .bDynamic _
  | _ + 3 => cases next_of_atStep h; exact .raised rfl rfl

theorem performs_stored {v : Nat} {u t : State} (h : runField .stored v u = .next t) : Performs v u .sNlen t := by
  have h := next_of_atStep (next_of_runField_row h rfl)
  split at h
  · cases h; exact .sNlen _
  · cases h; exact .raised rfl (.refl u)

theorem performs_raw {v : Nat} {u t : State} (hs : u.sRem ≠ 0) (hroom : u.outBytes.length < u.outCap)
    (h : runField .raw v u = .next t) : Performs v u .sCopy t := by
  have h := next_of_atStep (next_of_runField_row h rfl)
  rw [if_neg hs, emitChecked, needOut, if_pos hroom] at h
  cases h
  exact .sCopy hs hroom

theorem countsError_none {n k : Nat} (h : countsError n k = none) : n ≤ 286 ∧ k ≤ 30 := by
  unfold countsError at h
  split_ifs at h
  omega

theorem performs_dynhdr {v : Nat} {u t : State} (h : runField .dynhdr v u = .next t) : Performs v u .dHclen t := by
  obtain ⟨i, hi, -⟩ := next_of_runField h
  have h := next_of_atStep (next_of_runField_row h rfl)
  split at h
  · next he => cases h; exact .raised (countsError_terminal he) rfl
  · next he =>
    obtain ⟨hl, hd⟩ := countsError_none he
    cases h; exact .dHclen (lt_of_decode hi) hl hd

theorem performs_cllen {v : Nat} {u t : State} (hd : u.dI < u.nClen) (h : runField .cllen v u = .next t) :
    Performs v u .dCllens t := by
  obtain ⟨i, hi, -⟩ := next_of_runField h
  have h := next_of_atStep (next_of_runField_row h rfl)
  rw [if_pos hd] at h
  cases h
  exact .dCllens hd (lt_of_decode hi)

theorem runField_clRep : runField .clsym 16 = execClRep := runField_ok (i := .clRep) rfl
theorem runField_clZrep : runField .clsym 17 = execClZrep := runField_ok (i := .clZrep) rfl
theorem runField_clZrepl : runField .clsym 18 = execClZrepl := runField_ok (i := .clZrepl) rfl

/-- A code-length symbol whose step goes on is a length or one of the three repeats (R98). -/
theorem clsym_of_next {v : Nat} {u t : State} (h : runField .clsym v u = .next t) :
    v < 16 ∨ v = 16 ∨ v = 17 ∨ v = 18 := by
  by_contra hv
  obtain ⟨i, hi, -⟩ := next_of_runField h
  have hn : [Instr.clRep, .clZrep, .clZrepl][v - 16]? = none := List.getElem?_eq_none (by simp; omega)
  have hw := lt_of_decode hi
  simp only [Format.width] at hw
  simp [decode, Format.width, show ¬ 32 ≤ v by omega, show ¬ v < 16 by omega, symbolIn, hn] at hi

theorem performs_clsym {v : Nat} {u t : State} (hm : microStep u = some .dSym) (hd : lengthDue u = true)
    (h : runField .clsym v u = .next t) : Performs v u .dSym t := by
  rcases clsym_of_next h with hv | rfl | rfl | rfl
  · rw [runField_ok (decode_clsym_len hv)] at h
    have h := next_of_atStep h
    rw [if_pos hd] at h
    cases h
    exact .dSymLength hd hv
  · rw [runField_clRep] at h
    simp only [execClRep, repeatElement, hm, hd, if_true] at h
    split at h
    · cases h; exact .raised rfl (.refl u)
    · next h0 => cases h; exact .dSymRepeat hd rfl h0
  · rw [runField_clZrep] at h
    simp only [execClZrep, repeatElement, hm, hd, if_true] at h
    cases h; exact .dSymZeros hd (.inl rfl)
  · rw [runField_clZrepl] at h
    simp only [execClZrepl, repeatElement, hm, hd, if_true] at h
    cases h; exact .dSymZeros hd (.inr rfl)

/-- A repeat goes on with the run of its row (R209). -/
theorem runRepeat_of_next {s t : State} (hm : microStep s = some .dExtra) (h : runField .clsym s.repSym s = .next t) :
    finish (runRepeat (repeatRow s.repSym).2 (repeatRow s.repSym).1 s) = .next t := by
  rcases clsym_of_next h with hv | hv | hv | hv
  · rw [runField_ok (decode_clsym_len hv)] at h
    simp [exec, execClLen, atStep, hm] at h
  · rw [hv] at h ⊢
    rw [runField_clRep] at h
    simp only [execClRep, repeatElement, hm] at h
    exact h
  · rw [hv] at h ⊢
    rw [runField_clZrep] at h
    simp only [execClZrep, repeatElement, hm] at h
    exact h
  · rw [hv] at h ⊢
    rw [runField_clZrepl] at h
    simp only [execClZrepl, repeatElement, hm] at h
    exact h

theorem performs_llsym {v : Nat} {u t : State} (hm : microStep u = some .yLitlen) (h : runField .llsym v u = .next t) :
    Performs v u .yLitlen t := by
  rcases runField_llsym v with ⟨b, hv⟩ | hv | ⟨h1, h2, hv⟩ | hv | hv <;> rw [hv] at h
  · simp only [execLit, hm] at h
    cases h; exact .yLiteral b
  · cases next_of_atStep h; exact .yEndOfBlock
  · simp only [lengthElement, hm] at h
    cases h; exact .yLength h1 h2
  · cases next_of_atStep h; exact .raised rfl (.refl u)
  · cases h

theorem performs_dsym {v : Nat} {u t : State} (hm : microStep u = some .yDsym) (h : runField .dsym v u = .next t) :
    Performs v u .yDsym t := by
  rcases runField_dsym v with ⟨h1, hv⟩ | hv | hv <;> rw [hv] at h
  · simp only [distanceElement, hm] at h
    cases h; exact .yDsym h1
  · cases next_of_atStep h; exact .raised rfl (.refl u)
  · cases h

/-! ## The ends of each micro-step -/

section
variable {m : MicroStep} {s t : State}

/-- A micro-step that is its read and then `K`. -/
theorem Ends.of_andThen {K : Nat → State → Answer} (hrun : runFetched (fetch s) = (readAt m s).andThen K)
    (ht : runFetched (fetch s) = .next t) (hK : ∀ v u, readAt m s = .ok v u → K v u = .next t → Performs v u m t) :
    Ends m s t := by
  rw [hrun] at ht
  cases hr : readAt m s with
  | ok v u => rw [hr] at ht; exact .completed hr (hK v u hr ht)
  | suspend k u => rw [hr] at ht; cases ht; exact .suspended hr rfl
  | raise e u => rw [hr] at ht; cases ht; exact .raised hr rfl

/-- A micro-step whose read gives the field of an element, and which then executes that element. -/
theorem Ends.of_field {f : Format} (hm : microStep s = some m) (hf : fetch s = fetchField f (readAt m s))
    (ht : runFetched (fetch s) = .next t)
    (hK : ∀ v u, OnlyReader s u → microStep u = some m → runField f v u = .next t → Performs v u m t) : Ends m s t :=
  .of_andThen (by rw [hf, runFetched_field]) ht fun v u hr h => by
    have hu := onlyReader_of_readAt hr
    exact hK v u hu (hu.microStep.trans hm) h

/-- A micro-step that emits a byte where there is room for one (R66, R246). -/
theorem Ends.of_emit {b : Byte} {g : State → State} (hr : readAt m s = (needOut s).bind fun _ t => .ok 0 t)
    (hrun : runFetched (fetch s) = finish ((emitChecked b s).bind fun _ t => .ok () (g t)))
    (ht : runFetched (fetch s) = .next t)
    (hp : s.outBytes.length < s.outCap → Performs 0 s m (g (emit b s))) : Ends m s t := by
  rw [hrun] at ht
  unfold emitChecked at ht
  rcases needOut_cases s with ⟨h, ho⟩ | ⟨-, -, ho⟩ | ⟨-, -, ho⟩ <;> rw [ho] at ht hr <;> cases ht
  · exact .completed hr (hp h)
  · exact .raised hr rfl
  · exact .suspended hr rfl

theorem zTrailer_ends (hm : microStep s = some .zTrailer) (ht : runFetched (fetch s) = .next t) :
    Ends .zTrailer s t := by
  by_cases hn : s.zTrlN < 4
  · have hrun : runFetched (fetch s) = finish (stepZTrailerByte s) := by
      rw [fetch, hm]; exact congrArg runFetched (if_pos hn)
    refine .of_andThen (K := fun v u => .next
      { u with zTrl := (u.zTrl <<< 8) ||| BitVec.ofNat 32 v, zTrlN := u.zTrlN + 1 }) ?_ ht fun v u hr h => ?_
    · rw [hrun, stepZTrailerByte, finish_bind, readAt, if_pos hn]
      cases pullByte s <;> simp [Res.bind, Res.andThen, finish]
    · have hu := onlyReader_of_readAt hr
      cases h
      exact .zTrailerByte (by rw [hu]; exact hn)
  · refine .of_field (f := .ztrl) hm (by rw [fetch, hm]; simp only [readAt, if_neg hn]) ht fun v u hu _ h => ?_
    exact performs_ztrl (by rw [hu]; exact hn) h

/-- The output space is tested before the byte is pulled (R188). -/
theorem sCopy_ends (hm : microStep s = some .sCopy) (ht : runFetched (fetch s) = .next t) : Ends .sCopy s t := by
  by_cases hs : s.sRem = 0
  · have hrun : runFetched (fetch s) = .next (stepSCopyEnd s) := by
      rw [fetch, hm]; exact congrArg runFetched (if_pos hs)
    cases hrun.symm.trans ht
    exact .completed (v := 0) (by simp only [readAt, if_pos hs]) (.sCopyEnd hs)
  · refine .of_andThen (K := runField .raw) ?_ ht fun v u hr h => ?_
    · rw [← runFetched_field, fetch, hm]
      simp only [readAt, if_neg hs]
    · have hu := onlyReader_of_readAt hr
      have hroom : s.outBytes.length < s.outCap := by
        rcases needOut_cases s with ⟨h, -⟩ | ⟨-, -, ho⟩ | ⟨-, -, ho⟩
        · exact h
        · simp [readAt, hs, readRaw, ho, Res.bind] at hr
        · simp [readAt, hs, readRaw, ho, Res.bind] at hr
      exact performs_raw (by rw [hu]; exact hs) (by rw [hu]; exact hroom) h

theorem dCllens_ends (hm : microStep s = some .dCllens) (ht : runFetched (fetch s) = .next t) :
    Ends .dCllens s t := by
  by_cases hd : s.dI < s.nClen
  · refine .of_field (f := .cllen) hm (by rw [fetch, hm]; simp only [readAt, if_pos hd]) ht fun v u hu _ h => ?_
    exact performs_cllen (by rw [hu]; exact hd) h
  · have hr : readAt .dCllens s = .ok 0 s := if_neg hd
    have hrun : runFetched (fetch s) = finish (stepDCllensEnd s) := by
      rw [fetch, hm]; exact congrArg runFetched (if_neg hd)
    rw [hrun, stepDCllensEnd] at ht
    split at ht
    · next he => cases ht; exact .completed hr (.raised (validate_terminal he) (.refl s))
    · next he => cases ht; exact .completed hr (.dCllensEnd hd he)

theorem dSym_ends (hm : microStep s = some .dSym) (ht : runFetched (fetch s) = .next t) : Ends .dSym s t := by
  by_cases hd : lengthDue s = true
  · refine .of_field (f := .clsym) hm (by rw [fetch, hm]; simp only [readAt, if_pos hd]) ht fun v u hu hmu h => ?_
    exact performs_clsym hmu (by rw [hu]; exact hd) h
  · have hrun : runFetched (fetch s) = .next (stepDSymEnd s) := by
      rw [fetch, hm]; exact congrArg runFetched (if_neg hd)
    cases hrun.symm.trans ht
    exact .completed (v := 0) (by simp only [readAt, if_neg hd]) (.dSymEnd (by simpa using hd))

theorem dExtra_ends (hm : microStep s = some .dExtra) (ht : runFetched (fetch s) = .next t) : Ends .dExtra s t := by
  have hrun := runRepeat_of_next hm (show runField .clsym s.repSym s = .next t by rw [← ht, fetch, hm]; rfl)
  rw [runRepeat, finish_bind] at hrun
  refine .of_andThen (ht.trans hrun.symm) ht fun v u _ h => ?_
  split at h
  · cases h; exact .raised rfl (.refl u)
  · cases h; exact .dExtra (by omega)

theorem yLextra_ends (hm : microStep s = some .yLextra) (ht : runFetched (fetch s) = .next t) : Ends .yLextra s t := by
  have hrun : runFetched (fetch s) = runField .llsym s.yLsym s := by rw [fetch, hm]; rfl
  rcases runField_llsym s.yLsym with ⟨b, hv⟩ | hv | ⟨-, -, hv⟩ | hv | hv <;> rw [hv] at hrun
  · simp [hrun, execLit, hm] at ht
  · simp [hrun, execEob, atStep, hm] at ht
  · simp only [lengthElement, hm, finish_bind] at hrun
    exact .of_andThen hrun ht fun v u _ h => by cases h; exact .yLextra
  · simp [hrun, reservedLength, atStep, hm] at ht
  · cases hrun.symm.trans ht

theorem yDextra_ends (hm : microStep s = some .yDextra) (ht : runFetched (fetch s) = .next t) : Ends .yDextra s t := by
  have hrun : runFetched (fetch s) = runField .dsym s.yDsym s := by rw [fetch, hm]; rfl
  rcases runField_dsym s.yDsym with ⟨-, hv⟩ | hv | hv <;> rw [hv] at hrun
  · simp only [distanceElement, hm, startCopy, finish_bind] at hrun
    refine .of_andThen hrun ht fun v u _ h => ?_
    split at h
    · cases h; exact .raised rfl rfl
    · cases h; exact .yDextra (by omega)
  · simp [hrun, reservedDistance, atStep, hm] at ht
  · cases hrun.symm.trans ht

theorem yCopy_ends (hm : microStep s = some .yCopy) (ht : runFetched (fetch s) = .next t) : Ends .yCopy s t := by
  have hrun : runFetched (fetch s) = runField .dsym s.yDsym s := by rw [fetch, hm]; rfl
  rcases runField_dsym s.yDsym with ⟨-, hv⟩ | hv | hv <;> rw [hv] at hrun
  · simp only [distanceElement, hm, copyByte] at hrun
    by_cases hr : s.yRem = 0
    · rw [if_pos hr] at hrun
      cases hrun.symm.trans ht
      exact .completed (v := 0) (if_pos hr) (.yCopyEnd hr)
    · rw [if_neg hr] at hrun
      exact .of_emit (if_neg hr) hrun ht (.yCopy hr)
  · simp [hrun, reservedDistance, atStep, hm] at ht
  · cases hrun.symm.trans ht

/-- A micro-step whose step goes on to `t` has ended in one of the ways `Ends` lists. -/
theorem microStep_ends (hm : microStep s = some m) (ht : runFetched (fetch s) = .next t) : Ends m s t := by
  cases m with
  | zCmf =>
    refine .of_andThen (K := fun v u => .next { u with zCmf := BitVec.ofNat 8 v, zStep := .flg }) ?_ ht
      fun v u _ h => by cases h; exact .zCmf
    have hrun : runFetched (fetch s) = finish (stepZCmf s) := by rw [fetch, hm]; rfl
    rw [hrun, stepZCmf, finish_bind, readAt]
    cases pullByte s <;> simp [Res.bind, Res.andThen, finish]
  | zFlg => exact .of_field hm (by rw [fetch, hm]; rfl) ht fun _ _ _ _ => performs_zhdr
  | zTrailer => exact zTrailer_ends hm ht
  | bHeader => exact .of_field hm (by rw [fetch, hm]; rfl) ht fun _ _ _ _ => performs_bhdr
  | bEnd =>
    have hrun : runFetched (fetch s) = .next (stepBEnd s) := by rw [fetch, hm]; rfl
    cases hrun.symm.trans ht
    refine .completed (v := 0) (u := s) rfl ?_
    unfold stepBEnd
    split
    · next h => exact .bEndFinal h
    · next h => exact .bEndMore (by simpa using h)
  | sAlign =>
    have hrun : runFetched (fetch s) = .next (stepSAlign s) := by rw [fetch, hm]; rfl
    cases hrun.symm.trans ht
    exact .completed (v := 0) (u := s) rfl .sAlign
  | sLen =>
    have hrun : runFetched (fetch s) = finish (stepSLen s) := by rw [fetch, hm]; rfl
    exact .of_andThen (hrun.trans (finish_bind _ _)) ht fun v u _ h => by cases h; exact .sLen
  | sNlen => exact .of_field hm (by rw [fetch, hm]; rfl) ht fun _ _ _ _ => performs_stored
  | sCopy => exact sCopy_ends hm ht
  | dHlit =>
    have hrun : runFetched (fetch s) = finish (stepDHlit s) := by rw [fetch, hm]; rfl
    exact .of_andThen (hrun.trans (finish_bind _ _)) ht fun v u _ h => by cases h; exact .dHlit
  | dHdist =>
    have hrun : runFetched (fetch s) = finish (stepDHdist s) := by rw [fetch, hm]; rfl
    exact .of_andThen (hrun.trans (finish_bind _ _)) ht fun v u _ h => by cases h; exact .dHdist
  | dHclen => exact .of_field hm (by rw [fetch, hm]; rfl) ht fun _ _ _ _ => performs_dynhdr
  | dCllens => exact dCllens_ends hm ht
  | dSym => exact dSym_ends hm ht
  | dExtra => exact dExtra_ends hm ht
  | dBuild =>
    have hrun : runFetched (fetch s) = finish (stepDBuild s) := by rw [fetch, hm]; rfl
    rw [hrun, stepDBuild] at ht
    refine .completed (v := 0) (u := s) rfl ?_
    split at ht
    · next he => cases ht; exact .raised (buildError_terminal he) (.refl s)
    · next he => cases ht; exact .dBuild he
  | yLitlen => exact .of_field hm (by rw [fetch, hm]; rfl) ht fun _ _ _ hu => performs_llsym hu
  | yEmit =>
    have hrun : runFetched (fetch s) = execLit (BitVec.ofNat 8 s.yLit.toNat) s := by
      rw [fetch, hm]; exact congrFun (runField_ok (decode_lit s.yLit.isLt)) s
    simp only [execLit, hm, BitVec.ofNat_toNat, BitVec.setWidth_eq] at hrun
    exact .of_emit rfl hrun ht .yEmit
  | yLextra => exact yLextra_ends hm ht
  | yDsym => exact .of_field hm (by rw [fetch, hm]; rfl) ht fun _ _ _ hu => performs_dsym hu
  | yDextra => exact yDextra_ends hm ht
  | yCopy => exact yCopy_ends hm ht

/-- A step that runs micro-step `m` ends in one of these ways (R286). -/
theorem step_ends (h : Runs m s) (hst : step s = .next t) : Ends m (tick s) t := by
  obtain ⟨hrun, hm⟩ := step_of_runs h
  exact microStep_ends hm (hrun.symm.trans hst)

end

end Sys2Proof.Machine
end

section
/-! Every step keeps the invariant (spec/10_state.md R21 to R41, spec/40_bit_reader.md R146): what the reads leave in
the accumulator, what a micro-step leaves in range, and the micro-step that is current after it. -/

namespace Sys2Proof.Machine

/-! ## What the reads leave in the accumulator (R22, R146) -/

/-- The accumulator holds no bit above `n_bits`, and at most 22 bits. -/
def BitsOk (s : State) : Prop := s.bits.toNat < 2 ^ s.nBits ∧ s.nBits ≤ 22

/-- The read `r` leaves a state with `done` where it completes and one with `waits` where it suspends, always with the
accumulator in range. -/
def Res.Leaves {α : Type} (done waits : State → Prop) : Res α → Prop
  | .ok _ u => BitsOk u ∧ done u
  | .suspend _ u => BitsOk u ∧ waits u
  | .raise _ u => BitsOk u

theorem Res.Leaves.map {α β : Type} {done waits : State → Prop} {r : Res α} (h : r.Leaves done waits)
    (g : α → State → β) : (r.bind fun v t => .ok (g v t) t).Leaves done waits := by
  cases r <;> exact h

/-- A stronger claim about the same read, where the rest of the state is that of `s`. -/
theorem Res.Leaves.imp {α : Type} {s : State} {done done' waits waits' : State → Prop} {r : Res α}
    (h : r.Leaves done waits) (ho : OnlyReader s r.left) (hd : ∀ u, done u → done' u)
    (hw : ∀ u, OnlyReader s u → waits u → waits' u) : r.Leaves done' waits' := by
  cases r with
  | ok v u => exact ⟨h.1, hd u h.2⟩
  | suspend k u => exact ⟨h.1, hw u ho h.2⟩
  | raise e u => exact h

theorem Res.Leaves.ite {α : Type} {p : Prop} [Decidable p] {done waits : State → Prop} {a b : Res α}
    (ha : p → a.Leaves done waits) (hb : ¬ p → b.Leaves done waits) : (if p then a else b).Leaves done waits := by
  split
  · exact ha ‹_›
  · exact hb ‹_›

/-- How a starved read leaves the accumulator. -/
theorem Starved.leaves {α : Type} {s : State} {r : Res α} {u : State} {done waits : State → Prop} (h : Starved s r u)
    (hn : u.nBits ≤ 22) (hw : waits u) : r.Leaves done waits := by
  cases h with
  | short _ _ _ hB => exact ⟨⟨hB.bits, hn⟩, hw⟩
  | closed _ _ _ hB => exact ⟨hB.bits, hn⟩

theorem pendingBits_length (s : State) : (pendingBits s).length = s.nBits + 8 * s.inBytes.length := by
  simp [pendingBits, Nat.mul_comm]

theorem AwaitsCode.lookup {len : List Nat} {s : State} (h : AwaitsCode len s) : s.nBits ≤ 7 ∨ lookup len s = none := by
  rcases h with h | ⟨hlt, hnone⟩
  · exact .inl h
  · exact .inr (by rw [Machine.lookup, Nat.min_eq_left hlt.le]; exact hnone)

section
variable {s : State} (hs : BitsOk s)
include hs

theorem pullByte_leaves : (pullByte s).Leaves (·.nBits = s.nBits) (·.nBits = s.nBits) := by
  rcases pullByte_cases s with ⟨b, rest, -, h⟩ | ⟨-, -, h⟩ | ⟨-, -, h⟩ <;> rw [h]
  · exact ⟨hs, rfl⟩
  · exact hs
  · exact ⟨hs, rfl⟩

theorem needOut_leaves : (needOut s).Leaves (· = s) (·.nBits = s.nBits) := by
  rcases needOut_cases s with ⟨-, h⟩ | ⟨-, -, h⟩ | ⟨-, -, h⟩ <;> rw [h]
  · exact ⟨hs, rfl⟩
  · exact hs
  · exact ⟨hs, rfl⟩

theorem readRaw_leaves : (readRaw s).Leaves (·.nBits = s.nBits) (·.nBits = s.nBits) := by
  unfold readRaw
  rcases needOut_cases s with ⟨-, h⟩ | ⟨-, -, h⟩ | ⟨-, -, h⟩ <;> rw [h]
  · exact (pullByte_leaves hs).map _
  · exact hs
  · exact ⟨hs, rfl⟩

/-- A field of at most 16 bits leaves fewer than eight bits, or waits with fewer than it wants. -/
theorem need_leaves {n : Nat} (hn : n ≤ 16) (hlt : s.nBits ≤ 7 ∨ s.nBits < n) :
    (need n s).Leaves (·.nBits ≤ 7) (·.nBits < n) := by
  rcases need_cases hs.1 (show n ≤ 24 by omega) with ⟨v, u, hr, -, hok, hu⟩ | ⟨u, hst, hu⟩
  · rw [hr]
    exact ⟨⟨hok.bits, by omega⟩, by omega⟩
  · exact hst.leaves (by omega) hu

/-- A field of fewer than eight bits leaves fewer than eight bits, however it ends. -/
theorem need_leaves_le {n : Nat} (hn : n ≤ 7) (h7 : s.nBits ≤ 7) :
    (need n s).Leaves (·.nBits ≤ 7) (·.nBits ≤ 7) :=
  (need_leaves hs (by omega) (.inl h7)).imp (need_ends n s).only (fun _ h => h) fun _ _ h => by omega

/-- A stored block's length field is read from whole bytes (R186, R187). -/
theorem need16_leaves (h8 : s.nBits = 0 ∨ s.nBits = 8) :
    (need 16 s).Leaves (·.nBits = 0) fun u => u.nBits = 0 ∨ u.nBits = 8 := by
  rcases need_cases hs.1 (show 16 ≤ 24 by decide) with ⟨v, u, hr, -, hok, hu⟩ | ⟨u, hst, hu⟩
  · rw [hr]
    have hlen := congrArg List.length hok.stream
    rw [List.length_append, pendingBits_length, pendingBits_length, plainBits_length] at hlen
    exact ⟨⟨hok.bits, by omega⟩, by omega⟩
  · obtain ⟨k, -, hk⟩ := hst.buffered.took
    exact hst.leaves (by omega) (by omega)

/-- A Huffman symbol leaves fewer than eight bits, or waits with bits that hold no code (R168). -/
theorem huffDecode_leaves {len : List Nat} (hm : maxl len ≤ 15) (ha : AwaitsCode len s) :
    (huffDecode len s).Leaves (·.nBits ≤ 7) (AwaitsCode len) := by
  rcases huffDecode_cases hs.1 (show maxl len ≤ 24 by omega) with
    ⟨sym, u, hr, -, -, hok, hu⟩ | ⟨u, hst, hlt, hnone⟩ | ⟨u, hB, -, hu, -, hr⟩
  · rw [hr]
    have h7 : u.nBits ≤ 7 := by
      rcases hu with ⟨hu, hne⟩ | hu
      · have := (ha.lookup).resolve_right hne
        omega
      · omega
    exact ⟨⟨hok.bits, by omega⟩, h7⟩
  · rw [lookup, Nat.min_eq_left hlt.le] at hnone
    exact hst.leaves (by omega) (.inr ⟨hlt, hnone⟩)
  · rw [hr]
    refine ⟨hB.bits, ?_⟩
    rcases hu with rfl | hu
    · exact hs.2
    · omega

end

/-- The micro-steps before which no bits are buffered, or whole bytes, and which leave none (R185 to R188, R263). -/
def wholeBytes : List MicroStep := [.zCmf, .zFlg, .zTrailer, .sLen, .sNlen, .sCopy]

/-- How many bits are buffered once the read of `m` has completed. -/
def AfterRead (m : MicroStep) (u : State) : Prop := u.nBits ≤ 7 ∧ (m ∈ wholeBytes → u.nBits = 0)

theorem AfterRead.of_zero {m : MicroStep} {u : State} (h : u.nBits = 0) : AfterRead m u := ⟨by omega, fun _ => h⟩

theorem AfterRead.of_le {m : MicroStep} {u : State} (hm : m ∉ wholeBytes) (h : u.nBits ≤ 7) : AfterRead m u :=
  ⟨h, fun h' => absurd h' hm⟩

theorem Inv.bitsOk {s : State} (h : Inv s) : BitsOk s := ⟨h.bits, h.nBits⟩

theorem repeatRow_width (n : Nat) : (repeatRow n).2 ≤ 7 := by
  unfold repeatRow
  split <;> decide

/-- What the read of the current micro-step leaves: where it completes, at most seven bits; where it suspends, what
`ReaderOk` allows there. -/
theorem readAt_leaves {m : MicroStep} {s : State} (hI : Inv s) (hr : ReaderOk s m) (hl : LocalsOk s m) :
    (readAt m s).Leaves (AfterRead m) (ReaderOk · m) := by
  have hs := hI.bitsOk
  have ho := readAt_only m s
  cases m with
  | zCmf => exact ((pullByte_leaves hs).map _).imp ho (fun u h => .of_zero (h.trans hr)) fun u _ h => h.trans hr
  | zFlg => exact ((pullByte_leaves hs).map _).imp ho (fun u h => .of_zero (h.trans hr)) fun u _ h => h.trans hr
  | zTrailer =>
    exact .ite (fun _ => ((pullByte_leaves hs).map _).imp (by rw [Res.left_bind_ok]; exact pullByte_only s)
      (fun u h => .of_zero (h.trans hr)) fun u _ h => h.trans hr) fun _ => ⟨hs, .of_zero hr⟩
  | bHeader => exact (need_leaves_le hs (by decide) hr).imp ho (fun u => .of_le (by decide)) fun _ _ h => h
  | bEnd => exact ⟨hs, .of_le (by decide) hr⟩
  | sAlign => exact ⟨hs, .of_le (by decide) hr⟩
  | sLen => exact (need16_leaves hs hr).imp ho (fun u => .of_zero) fun u _ h => h
  | sNlen => exact ((need16_leaves hs hr).map _).imp ho (fun u => .of_zero) fun u _ h => h
  | sCopy =>
    refine .ite (fun _ => ⟨hs, .of_zero hr⟩) fun hn => ?_
    have ho : OnlyReader s (readRaw s).left := by rwa [readAt, if_neg hn] at ho
    exact (readRaw_leaves hs).imp ho (fun u h => .of_zero (h.trans hr)) fun u _ h => h.trans hr
  | dHlit => exact (need_leaves_le hs (by decide) hr).imp ho (fun u => .of_le (by decide)) fun _ _ h => h
  | dHdist => exact (need_leaves_le hs (by decide) hr).imp ho (fun u => .of_le (by decide)) fun _ _ h => h
  | dHclen => exact ((need_leaves_le hs (by decide) hr).map _).imp ho (fun u => .of_le (by decide)) fun _ _ h => h
  | dCllens =>
    refine .ite (fun _ => ?_) fun _ => ⟨hs, .of_le (by decide) hr⟩
    exact (need_leaves_le hs (by decide) hr).imp (need_ends 3 s).only (fun u => .of_le (by decide)) fun _ _ h => h
  | dSym =>
    refine .ite (fun hd => ?_) fun hd => ⟨hs, .of_le (by decide) (hr.resolve_right fun h => hd h.1)⟩
    exact (huffDecode_leaves hs ((maxl_le hI.clLen.2).trans (by decide)) (hr.elim .inl (·.2))).imp
      (huffDecode_ends s.clLen s).only (fun u => .of_le (by decide)) fun u hu h => .inr ⟨by rw [hu]; exact hd, by
        rw [show u.clLen = s.clLen by rw [hu]]; exact h⟩
  | dExtra =>
    have hw := repeatRow_width s.repSym
    exact ((need_leaves_le hs (by omega) hr).map _).imp ho (fun u => .of_le (by decide)) fun _ _ h => h
  | dBuild => exact ⟨hs, .of_le (by decide) hr⟩
  | yLitlen =>
    exact (huffDecode_leaves hs (maxl_le hI.llLen.2) hr).imp ho (fun u => .of_le (by decide)) fun u hu h => by
      rw [ReaderOk, show u.llLen = s.llLen by rw [hu]]; exact h
  | yEmit =>
    exact ((needOut_leaves hs).map _).imp ho (fun u h => .of_le (by decide) (h ▸ hr)) fun u _ h => h.le.trans hr
  | yLextra =>
    obtain ⟨-, h1, h2⟩ := hl
    have hw := (length_range h1 h2).1
    exact ((need_leaves_le hs (by omega) hr).map _).imp ho (fun u => .of_le (by decide)) fun _ _ h => h
  | yDsym =>
    exact (huffDecode_leaves hs (maxl_le hI.dLen.2) hr).imp ho (fun u => .of_le (by decide)) fun u hu h => by
      rw [ReaderOk, show u.dLen = s.dLen by rw [hu]]; exact h
  | yDextra =>
    obtain ⟨-, -, -, h1⟩ := hl
    have hw := (distance_range h1).1
    exact ((need_leaves hs (by omega) hr).map _).imp ho (fun u => .of_le (by decide)) fun u hu h => .inr (by
      rw [show u.yDsym = s.yDsym by rw [hu]]; exact h)
  | yCopy =>
    refine .ite (fun _ => ⟨hs, .of_le (by decide) hr⟩) fun hn => ?_
    rw [readAt, if_neg hn] at ho
    exact ((needOut_leaves hs).map _).imp ho (fun u h => .of_le (by decide) (h ▸ hr)) fun u _ h => h.le.trans hr

/-! ## The values that are read (R96, R104, R105) -/

/-- A value read as a base and extra bits lies in the range they span. -/
theorem needPlus_range {base n v : Nat} {s u : State} (h : needPlus base n s = .ok v u) :
    base ≤ v ∧ v < base + 2 ^ n := by
  unfold needPlus at h
  cases hn : need n s with
  | ok x t =>
    rw [hn] at h
    cases h
    have := (need_ok hn).1
    omega
  | suspend k t => rw [hn] at h; cases h
  | raise e t => rw [hn] at h; cases h

/-- The counts of a dynamic header are read back from its registers (R203 to R205). -/
theorem readCounts_value {v : Nat} {s u : State} (h : readCounts s = .ok v u) (h1 : 257 ≤ s.nLit) (h2 : s.nLit ≤ 288)
    (h3 : 1 ≤ s.nDist) (h4 : s.nDist ≤ 32) : v % 32 + 257 = s.nLit ∧ v / 32 % 32 + 1 = s.nDist := by
  unfold readCounts at h
  cases hn : need 4 s with
  | ok x t =>
    simp only [hn, Res.bind, Res.ok.injEq] at h
    obtain ⟨rfl, rfl⟩ := h
    rw [show t.nDist = s.nDist by rw [(need_ok hn).2], show t.nLit = s.nLit by rw [(need_ok hn).2]]
    omega
  | suspend k t => rw [hn] at h; cases h
  | raise e t => rw [hn] at h; cases h

/-- The value micro-step `m` of `s` acts on, in the ranges its rule gives. -/
def ValueOk (s : State) (v : Nat) : MicroStep → Prop
  | .dHlit => v < 32
  | .dHdist => v < 32
  | .dHclen => v % 32 + 257 = s.nLit ∧ v / 32 % 32 + 1 = s.nDist
  | .yLextra => 3 ≤ v ∧ v ≤ 258
  | .yDextra => 1 ≤ v ∧ v ≤ 32768
  | _ => True

theorem readAt_value {m : MicroStep} {s u : State} {v : Nat} (hl : LocalsOk s m) (hr : readAt m s = .ok v u) :
    ValueOk u v m := by
  have hu := onlyReader_of_readAt hr
  cases m with
  | dHlit => exact (need_ok hr).1
  | dHdist => exact (need_ok hr).1
  | dHclen =>
    obtain ⟨-, h1, h2, h3, h4⟩ := hl
    rw [ValueOk, show u.nDist = s.nDist by rw [hu], show u.nLit = s.nLit by rw [hu]]
    exact readCounts_value hr h1 h2 h3 h4
  | yLextra =>
    obtain ⟨-, h1, h2⟩ := hl
    have hrange := length_range h1 h2
    have hv := needPlus_range hr
    exact ⟨by omega, by omega⟩
  | yDextra =>
    obtain ⟨-, -, -, h1⟩ := hl
    have hrange := distance_range h1
    have hv := needPlus_range hr
    exact ⟨by omega, by omega⟩
  | _ => trivial

/-! ## The part of the invariant that holds at every micro-step -/

/-- The clauses of the invariant that do not speak of the phase or the current micro-step. -/
structure Bounded (s : State) : Prop where
  window : s.hist.wf = true
  written : ∀ c ∈ s.hist, c.1 < s.produced
  accumulator : BitsOk s
  clLen : LensOk s.clLen nCl 7
  llLen : LensOk s.llLen nLl 15
  dLen : LensOk s.dLen nD 15
  adler : s.adlerA.toNat < adlerMod ∧ s.adlerB.toNat < adlerMod
  output : s.outBytes.length ≤ s.outCap

theorem Inv.bounded {s : State} (h : Inv s) : Bounded s :=
  ⟨h.window, h.written, h.bitsOk, h.clLen, h.llLen, h.dLen, h.adler, h.output⟩

/-- The phase, and the current micro-step while the machine is active. -/
def Located (s : State) : Prop :=
  (s.busy = true → s.phase = .active) ∧
    (s.phase = .active → ∃ m, microStep s = some m ∧ ReaderOk s m ∧ LocalsOk s m)

theorem Bounded.inv {s : State} (h : Bounded s) (hl : Located s) : Inv s :=
  ⟨h.window, h.written, h.accumulator.1, h.accumulator.2, h.clLen, h.llLen, h.dLen, h.adler, h.output, hl.1, hl.2⟩

/-- The registers that `Bounded` speaks of. -/
def boundedPart (s : State) :
    Memory × Nat × Word × Nat × List Nat × List Nat × List Nat × Half × Half × List Byte × Nat :=
  (s.hist, s.produced, s.bits, s.nBits, s.clLen, s.llLen, s.dLen, s.adlerA, s.adlerB, s.outBytes, s.outCap)

theorem Bounded.congr {u t : State} (h : Bounded u) (ht : boundedPart t = boundedPart u) : Bounded t := by
  simp only [boundedPart, Prod.mk.injEq] at ht
  obtain ⟨hhist, hprod, hbits, hn, hcl, hll, hd, ha, hb, hout, hcap⟩ := ht
  exact ⟨hhist ▸ h.window, hhist ▸ hprod ▸ h.written, by rw [BitsOk, hbits, hn]; exact h.accumulator, hcl ▸ h.clLen,
    hll ▸ h.llLen, hd ▸ h.dLen, by rw [ha, hb]; exact h.adler, by rw [hout, hcap]; exact h.output⟩

theorem Bounded.of_reader {s u : State} (h : Bounded s) (hu : OnlyReader s u) (hb : BitsOk u) : Bounded u := by
  obtain ⟨hw, hp, -, hc, hl, hd, ha, ho⟩ := h
  unfold OnlyReader at hu
  rw [hu] at hb ⊢
  exact ⟨hw, hp, hb, hc, hl, hd, ha, ho⟩

/-- `Emit` with room for the byte. -/
theorem Bounded.emit {u : State} (h : Bounded u) (b : Byte) (hroom : u.outBytes.length < u.outCap) :
    Bounded (emit b u) := by
  obtain ⟨hw, hp, ha, hb⟩ := emit_keeps b h.window h.written
  exact ⟨hw, hp, h.accumulator, h.clLen, h.llLen, h.dLen, ⟨ha, hb⟩, by simpa using hroom⟩

/-- An entry of the combined sequence that is read is a length (R216). -/
theorem Bounded.getLen_le {u : State} (h : Bounded u) (i : Nat) : getLen i u ≤ 15 := by
  have hget : ∀ {len : List Nat} {n : Nat}, LensOk len n 15 → ∀ k, len.getD k 0 ≤ 15 := by
    intro len n hok k
    rw [List.getD_eq_getElem?_getD]
    cases hk : len[k]? with
    | none => exact Nat.zero_le _
    | some l => exact hok.2 l (List.mem_of_getElem? hk)
  unfold getLen
  split
  · exact hget h.llLen _
  · exact hget h.dLen _

theorem Bounded.setLen {u : State} {v : Nat} (h : Bounded u) (i : Nat) (hv : v ≤ 15) : Bounded (setLen i v u) := by
  obtain ⟨hw, hp, hb, hc, hl, hd, ha, ho⟩ := h
  unfold Machine.setLen
  split
  · exact ⟨hw, hp, hb, hc, hl.set i hv, hd, ha, ho⟩
  · exact ⟨hw, hp, hb, hc, hl, hd.set _ hv, ha, ho⟩

theorem Bounded.fillLens {u : State} {v : Nat} (h : Bounded u) (hv : v ≤ 15) (r i : Nat) :
    Bounded (fillLens v r i u) := by
  induction r generalizing i u with
  | zero => exact h
  | succ r ih => exact ih (h.setLen i hv) (i + 1)

/-- The registers a micro-step may abandon are in no range of the invariant. -/
theorem Bounded.raised {u u' : State} {e : Status} (h : Bounded u) (hu : OnlyAbandoned u u') :
    Bounded (endRaised e u') := by
  unfold OnlyAbandoned at hu
  rw [hu]
  exact h.congr rfl

/-- What a micro-step performs keeps every register in range. -/
theorem Performs.bounded {m : MicroStep} {v : Nat} {u t : State} (h : Performs v u m t) (hl : LocalsOk u m)
    (hb : Bounded u) : Bounded t := by
  cases h
  case raised hu => exact hb.raised hu
  case bFixed => exact ⟨hb.window, hb.written, hb.accumulator, hb.clLen, fixLl_ok, fixD_ok, hb.adler, hb.output⟩
  case bEndFinal =>
    exact ⟨hb.window, hb.written, ⟨by simp, by simp⟩, hb.clLen, hb.llLen, hb.dLen, hb.adler, hb.output⟩
  case sAlign =>
    obtain ⟨hbits, hn⟩ := hb.accumulator
    exact ⟨hb.window, hb.written, ⟨dropBits_lt hbits (Nat.mod_le _ _), (Nat.sub_le _ _).trans hn⟩, hb.clLen, hb.llLen,
      hb.dLen, hb.adler, hb.output⟩
  case sCopy hroom => exact (hb.emit _ hroom).congr rfl
  case dHclen =>
    exact ⟨hb.window, hb.written, hb.accumulator, lensOk_replicate _ _, lensOk_replicate _ _, lensOk_replicate _ _,
      hb.adler, hb.output⟩
  case dCllens hv =>
    exact ⟨hb.window, hb.written, hb.accumulator, hb.clLen.set _ (Nat.le_of_lt_succ hv), hb.llLen, hb.dLen, hb.adler,
      hb.output⟩
  case dSymLength hv => exact (hb.setLen u.dI (Nat.le_of_lt_succ hv)).congr rfl
  case dExtra =>
    obtain ⟨-, -, -, -, -, -, hrep⟩ := hl
    exact (hb.fillLens hrep v u.dI).congr rfl
  case yEmit hroom => exact (hb.emit _ hroom).congr rfl
  case yCopy hroom => exact (hb.emit _ hroom).congr rfl
  all_goals exact hb.congr rfl

/-! ## The micro-step that is current next -/

/-- The machine is active at micro-step `m`, with the registers in range there. -/
theorem Located.at {s : State} (m : MicroStep) (hp : s.phase = .active) (hm : microStep s = some m)
    (hr : ReaderOk s m) (hl : LocalsOk s m) : Located s := ⟨fun _ => hp, fun _ => ⟨m, hm, hr, hl⟩⟩

/-- A machine that is not active and in no call has no current micro-step to speak of. -/
theorem Located.ended {s : State} (hb : s.busy = false) (hp : s.phase ≠ .active) : Located s :=
  ⟨fun h => (by rw [hb] at h; cases h), fun h => absurd h hp⟩

/-- Entries past the counts that have no code have none past the symbols with a meaning (R205, R235). -/
theorem NoCodesFrom.mono {n k : Nat} {len : List Nat} (h : NoCodesFrom n len) (hk : n ≤ k) : NoCodesFrom k len :=
  fun i hi => h i (hk.trans hi)

/-- A run inside the combined sequence, or one entry of it, keeps what `D_HCLEN` has checked. -/
theorem CountsOk.fillLens {u : State} (h : CountsOk u) {v r i : Nat} (hi : i + r ≤ u.nLit + u.nDist) :
    CountsOk (fillLens v r i u) := by
  obtain ⟨h1, h2, h3, h4, h5, h6, h7⟩ := h
  obtain ⟨h6', h7'⟩ := fillLens_noCodes (v := v) hi h6 h7
  unfold CountsOk
  simp only [fillLens_fields]
  exact ⟨h1, h2, h3, h4, h5, h6', h7'⟩

theorem lengthDue_iff {s : State} : lengthDue s = true ↔ s.dI ≠ s.nLit + s.nDist := by simp [lengthDue]

theorem buildError_none {s : State} (h : buildError s = none) :
    validate s.llLen false = none ∧ validate s.dLen true = none := by
  unfold buildError at h
  split at h
  · cases h
  · split at h
    · cases h
    · next hv => exact ⟨hv, h⟩

/-- The tables a dynamic header has defined and validated (R210). -/
theorem CountsOk.tablesOk {u : State} (h : CountsOk u) (hb : buildError u = none) : TablesOk u := by
  obtain ⟨-, hl, -, hd, ht, hll, hdd⟩ := h
  obtain ⟨hv, hv'⟩ := buildError_none hb
  exact ⟨hv, hv', .inr ⟨ht, hll.mono hl, hdd.mono hd⟩⟩

section
variable {m : MicroStep} {v : Nat} {u t : State}

/-- What a micro-step performs in a dynamic header leaves a current micro-step in range. -/
theorem Performs.located_dynhdr (h : Performs v u m t) (hz : u.zStep = .flate) (hbs : u.bStep = .dynhdr)
    (hds : ∀ d ∈ (discriminants m).2.2.2.1, u.dStep = d) (hm : (discriminants m).2.1 = some .dynhdr)
    (hp : u.phase = .active) (hr : AfterRead m u) (hl : LocalsOk u m) (hv : ValueOk u v m) (hb : Bounded u) :
    Located t := by
  obtain ⟨h7, -⟩ := hr
  cases h <;> simp only [discriminants, reduceCtorEq, Option.some.injEq, Option.mem_def, forall_eq'] at hm hds
  case raised => exact .ended rfl (by simp)
  case dHlit =>
    have hv32 : v < 32 := hv
    exact .at .dHdist hp (by simp [microStep, hz, hbs]) h7 ⟨hl, Nat.le_add_left _ _, show v + 257 ≤ 288 by omega⟩
  case dHdist =>
    obtain ⟨h1, h2, h3⟩ := hl
    exact .at .dHclen hp (by simp [microStep, hz, hbs]) h7
      ⟨h1, h2, h3, Nat.le_add_left _ _, Nat.succ_le_of_lt hv⟩
  case dHclen hv14 hlit hdist =>
    have hc : CountsOk
        { clearLengths { u with nLit := v % 32 + 257, nDist := v / 32 % 32 + 1, nClen := v / 1024 + 4 } with
          dI := 0, dStep := .cllens } :=
      ⟨Nat.le_add_left _ _, hlit, Nat.le_add_left _ _, hdist, hl.1, noCodesFrom_replicate _ _,
        noCodesFrom_replicate _ _⟩
    exact .at .dCllens hp (by simp [microStep, hz, hbs]) h7
      ⟨hc, Nat.le_add_left _ _, show v / 1024 + 4 ≤ 19 by omega, Nat.zero_le _⟩
  case dCllens hd _ =>
    obtain ⟨h1, h2, h3, -⟩ := hl
    exact .at .dCllens hp (by simp [microStep, hz, hbs, hds]) h7 ⟨h1, h2, h3, hd⟩
  case dCllensEnd hval =>
    exact .at .dSym hp (by simp [microStep, hz, hbs]) (.inl h7) ⟨hl.1, hval, Nat.zero_le _⟩
  case dSymLength hd hv16 =>
    obtain ⟨h1, h2, h3⟩ := hl
    have hlt : u.dI + 1 ≤ u.nLit + u.nDist := Nat.lt_of_le_of_ne h3 (lengthDue_iff.1 hd)
    have hc : CountsOk (setLen u.dI v u) := h1.fillLens (r := 1) hlt
    exact .at .dSym (by simpa using hp) (by simp [microStep, hz, hbs, hds]) (.inl (by simpa using h7))
      ⟨hc, by simpa using h2, by simpa using hlt⟩
  case dSymRepeat hd _ h0 =>
    obtain ⟨h1, h2, h3⟩ := hl
    exact .at .dExtra hp (by simp [microStep, hz, hbs]) h7
      ⟨h1, h2, Nat.lt_of_le_of_ne h3 (lengthDue_iff.1 hd), by simp, by simp, fun _ => Nat.pos_of_ne_zero h0,
        hb.getLen_le _⟩
  case dSymZeros hd hv =>
    obtain ⟨h1, h2, h3⟩ := hl
    exact .at .dExtra hp (by simp [microStep, hz, hbs]) h7
      ⟨h1, h2, Nat.lt_of_le_of_ne h3 (lengthDue_iff.1 hd), by simp; omega, by simp; omega, by simp; omega, by simp⟩
  case dSymEnd hd =>
    obtain ⟨h1, h2, h3⟩ := hl
    exact .at .dBuild hp (by simp [microStep, hz, hbs]) h7 ⟨h1, by simpa [lengthDue] using hd⟩
  case dExtra hle =>
    obtain ⟨h1, h2, -⟩ := hl
    exact .at .dSym (by simpa using hp) (by simp [microStep, hz, hbs]) (.inl (by simpa using h7))
      ⟨h1.fillLens hle, by simpa using h2, by simpa using hle⟩
  case dBuild he => exact .at .yLitlen hp (by simp [microStep, hz]) (.inl h7) (hl.1.tablesOk he)

/-- In a Huffman block. -/
theorem Performs.located_symbols (h : Performs v u m t) (hz : u.zStep = .flate) (hbs : u.bStep = .symbols)
    (hys : ∀ y ∈ (discriminants m).2.2.2.2, u.yStep = y) (hm : (discriminants m).2.1 = some .symbols)
    (hp : u.phase = .active) (hr : AfterRead m u) (hl : LocalsOk u m) (hv : ValueOk u v m) : Located t := by
  obtain ⟨h7, -⟩ := hr
  cases h <;> simp only [discriminants, reduceCtorEq, Option.some.injEq, Option.mem_def, forall_eq'] at hm hys
  case raised => exact .ended rfl (by simp)
  case yLiteral => exact .at .yEmit hp (by simp [microStep, hz, hbs]) h7 hl
  case yEndOfBlock => exact .at .bEnd hp (by simp [microStep, hz]) h7 trivial
  case yLength h1 h2 => exact .at .yLextra hp (by simp [microStep, hz, hbs]) h7 ⟨hl, h1, h2⟩
  case yEmit => exact .at .yLitlen hp (by simp [microStep, hz, hbs]) (.inl h7) hl
  case yLextra => exact .at .yDsym hp (by simp [microStep, hz, hbs]) (.inl h7) ⟨hl.1, hv⟩
  case yDsym h1 =>
    obtain ⟨ht, h2, h3⟩ := hl
    exact .at .yDextra hp (by simp [microStep, hz, hbs]) (.inl h7) ⟨ht, h2, h3, h1⟩
  case yDextra hd =>
    obtain ⟨ht, -, h3, h1⟩ := hl
    exact .at .yCopy hp (by simp [microStep, hz, hbs]) h7 ⟨ht, h3, le_rfl, h1, hv.1, hv.2, hd⟩
  case yCopyEnd => exact .at .yLitlen hp (by simp [microStep, hz, hbs]) (.inl h7) hl.1
  case yCopy =>
    obtain ⟨ht, h1, h2, h3, h4, h5, h6⟩ := hl
    exact .at .yCopy hp (by simp [microStep, hz, hbs, hys]) h7
      ⟨ht, h1, (Nat.sub_le _ _).trans h2, h3, h4, h5, h6.trans (Nat.le_succ _)⟩

/-- In the envelope, between blocks, or in a stored block. -/
theorem Performs.located_others (h : Performs v u m t) (hm : microStep u = some m)
    (hd : (discriminants m).2.1 ≠ some .dynhdr) (hy : (discriminants m).2.1 ≠ some .symbols)
    (hp : u.phase = .active) (hr : AfterRead m u) (hl : LocalsOk u m) : Located t := by
  obtain ⟨h7, h0⟩ := hr
  obtain ⟨hz, hbs, hss, -, -⟩ := discriminants_of_microStep hm
  cases h <;> simp only [discriminants, reduceCtorEq, ne_eq, not_true_eq_false, not_false_eq_true, Option.mem_def,
    Option.some.injEq, forall_eq', List.mem_cons, wholeBytes, or_true, true_or, forall_const] at hd hy hz hbs hss h0
  case raised => exact .ended rfl (by simp)
  case zCmf => exact .at .zFlg hp (by simp [microStep]) h0 hl
  case zFlg => exact .at .bHeader hp (by simp [microStep, show u.bStep = .header from hl]) h7 trivial
  case zTrailerByte hn => exact .at .zTrailer hp (by simp [microStep, hz]) h0 hn
  case zTrailerEnd => exact .ended rfl (by simp)
  case bStored => exact .at .sAlign hp (by simp [microStep, hz]) h7 rfl
  case bFixed =>
    exact .at .yLitlen hp (by simp [microStep, hz]) (.inl h7) ⟨fixLl_valid, fixD_valid, .inl ⟨rfl, rfl, rfl⟩⟩
  case bDynamic => exact .at .dHlit hp (by simp [microStep, hz]) h7 rfl
  case bEndFinal => exact .at .zTrailer hp (by simp [microStep]) rfl (Nat.zero_le _)
  case bEndMore => exact .at .bHeader hp (by simp [microStep, hz]) h7 trivial
  case sAlign =>
    have haligned : u.nBits - u.nBits % 8 = 0 := by omega
    exact .at .sLen hp (by simp [microStep, hz, hbs]) (.inl haligned) hl
  case sLen => exact .at .sNlen hp (by simp [microStep, hz, hbs]) (.inl h0) hl
  case sNlen len => exact .at .sCopy hp (by simp [microStep, hz, hbs]) h0 ⟨hl, Nat.le_of_lt_succ len.isLt⟩
  case sCopyEnd => exact .at .bEnd hp (by simp [microStep, hz]) h7 trivial
  case sCopy =>
    exact .at .sCopy hp (by simp [microStep, hz, hbs, hss]) h0 ⟨hl.1, (Nat.sub_le _ _).trans hl.2⟩

/-- What a micro-step performs leaves a current micro-step with its registers in range, or has ended the stream. -/
theorem Performs.located (h : Performs v u m t) (hm : microStep u = some m) (hp : u.phase = .active)
    (hr : AfterRead m u) (hl : LocalsOk u m) (hv : ValueOk u v m) (hb : Bounded u) : Located t := by
  obtain ⟨hz, hbs, -, hds, hys⟩ := discriminants_of_microStep hm
  by_cases hd : (discriminants m).2.1 = some .dynhdr
  · have hz : u.zStep = .flate := by rw [hz]; cases m <;> simp [discriminants] at hd ⊢
    exact h.located_dynhdr hz (hbs _ hd) hds hd hp hr hl hv hb
  by_cases hy : (discriminants m).2.1 = some .symbols
  · have hz : u.zStep = .flate := by rw [hz]; cases m <;> simp [discriminants] at hy ⊢
    exact h.located_symbols hz (hbs _ hy) hys hy hp hr hl hv
  exact h.located_others hm hd hy hp hr hl

end

/-! ## The step -/

theorem Bounded.suspended {u : State} {k : Status} (h : Bounded u) : Bounded (endSuspended k u) := h.congr rfl

/-- A micro-step of a call keeps the invariant, whichever way it ends. -/
theorem Ends.inv {m : MicroStep} {s t : State} (h : Ends m s t) (hI : Inv s) (hm : microStep s = some m)
    (hp : s.phase = .active) : Inv t := by
  obtain ⟨m', hm', hr, hl⟩ := hI.active hp
  cases hm.symm.trans hm'
  have hleaves := readAt_leaves hI hr hl
  have ho := readAt_only m s
  cases h with
  | suspended hread ht =>
    rw [hread] at hleaves ho
    obtain ⟨hbits, hwait⟩ := hleaves
    subst ht
    refine (hI.bounded.of_reader ho hbits).suspended.inv ⟨fun h => by (cases h), fun _ => ?_⟩
    exact ⟨m, ho.microStep.trans hm, by cases m <;> exact hwait, by cases m <;> exact ho.localsOk hl⟩
  | raised hread ht =>
    rw [hread] at hleaves ho
    subst ht
    exact ((hI.bounded.of_reader ho hleaves).raised (.refl _)).inv (.ended rfl (by simp))
  | @completed v u hread hperf =>
    have hv := readAt_value hl hread
    rw [hread] at hleaves ho
    have hb := hI.bounded.of_reader ho hleaves.1
    have hlu := ho.localsOk hl
    have hpu : u.phase = .active := by rw [show u.phase = s.phase by rw [show u = _ from ho]]; exact hp
    exact (hperf.bounded hlu hb).inv (hperf.located (ho.microStep.trans hm) hpu hleaves.2 hlu hv hb)

/-! ## The host's operations (R281 to R291) -/

/-- The invariant does not speak of the answer or of the host's pending operations. -/
theorem Inv.of_reply {s : State} (h : Inv s) (k : Option Status) (rs : List Request) :
    Inv { s with reply := k, requests := rs } := by
  obtain ⟨hwin, hwritten, hbits, hn, hcl, hll, hd, hadler, hout, hbusy, hactive⟩ := h
  refine ⟨hwin, hwritten, hbits, hn, hcl, hll, hd, hadler, hout, hbusy, fun ha => ?_⟩
  obtain ⟨m, hm, hr, hl⟩ := hactive ha
  exact ⟨m, hm, by cases m <;> exact hr, by cases m <;> exact hl⟩

theorem bounded_reset : Bounded State.reset :=
  ⟨wf_reset, fun c hc => by (cases hc), ⟨by decide, by decide⟩, lensOk_replicate _ _, lensOk_replicate _ _,
    lensOk_replicate _ _, ⟨by decide, by decide⟩, le_rfl⟩

theorem bounded_cleared (s : State) : Bounded (cleared s) := bounded_reset.congr rfl

/-- RESET leaves the invariant, whatever it finds. -/
theorem inv_cleared (s : State) : Inv (cleared s) := (bounded_cleared s).inv (.ended rfl (by simp [State.reset]))

theorem execReset_inv {s t : State} (h : execReset s = .next t) : Inv t := by
  cases h; exact inv_cleared s

theorem rejectCall_inv {s t : State} (hI : Inv s) (h : rejectCall s = .next t) : Inv t := by
  cases h; exact hI.of_reply _ _

theorem execInit_inv {v : Nat} {s t : State} (hI : Inv s) (h : execInit v s = .next t) : Inv t := by
  unfold execInit at h
  split_ifs at h
  · exact rejectCall_inv hI h
  · cases h
    exact Bounded.inv ((bounded_cleared s).congr rfl) (.at .zCmf rfl rfl rfl rfl)
  · cases h
    exact ((bounded_cleared s).raised (.refl _)).inv (.ended rfl (by simp))

/-- DECODE passes its entry checks in phase ACTIVE only (R285). -/
theorem entryError_none {out : Option OutCursor} {inp : Option InCursor} {p : Phase} (h : entryError out inp p = none) :
    p = .active := by
  cases p
  case active => rfl
  all_goals cases h

theorem execDecode_inv {out : Option OutCursor} {inp : Option InCursor} {s t : State} (hI : Inv s)
    (h : execDecode out inp s = .next t) : Inv t := by
  obtain ⟨hwin, hwritten, hbits, hcl, hll, hd, hadler, -⟩ := hI.bounded
  have hb : Bounded (openCall out inp s) := ⟨hwin, hwritten, hbits, hcl, hll, hd, hadler, Nat.zero_le _⟩
  unfold execDecode at h
  split at h
  · exact rejectCall_inv hI h
  · split at h
    · cases h; exact (hb.raised (.refl _)).inv (.ended rfl (by simp))
    · next he =>
      cases h
      obtain ⟨m, hm, hr, hl⟩ := hI.active (entryError_none he)
      exact hb.inv (.at m (entryError_none he) hm (by cases m <;> exact hr) (by cases m <;> exact hl))

theorem execHostOp_inv {op : HostOp} {s t : State} (hI : Inv s) (h : exec op.toInstr s = .next t) : Inv t := by
  cases op with
  | reset => exact execReset_inv h
  | init v => exact execInit_inv hI h
  | decode out inp => exact execDecode_inv hI h

/-- A presented operation is taken off the list, and nothing else has changed (log entry 3). -/
theorem presented_eq {s u : State} {op : HostOp} (h : presented s = some (op, u)) :
    u = { s with requests := u.requests } := by
  unfold presented at h
  split at h
  · cases h
  · split at h
    · split at h
      · cases h
      · cases h; rfl
    · cases h; rfl
    · cases h

theorem step_of_presented {s u : State} {op : HostOp} (h : presented s = some (op, u)) :
    step s = exec op.toInstr u := by
  rw [step, h]

/-- An idle machine lets the step pass (R311). -/
theorem step_of_idle {s : State} (h : presented s = none) (hb : s.busy = false) : step s = .next (tick s) := by
  rw [step, h]
  simp [hb]

/-- A machine that meets the invariant is at a micro-step while a call is in progress. -/
theorem Inv.runs {s : State} (h : Inv s) (hp : presented s = none) (hb : s.busy = true) : ∃ m, Runs m s := by
  obtain ⟨m, hm, -⟩ := h.active (h.busy hb)
  exact ⟨m, hb, hp, hm⟩

/-- Settles O48: an operation of the host clears the machine, opens a call or leaves it as it is; a micro-step leaves by
its read what the reader's bound allows, and then keeps the registers in range at the micro-step current next. -/
theorem stepKeepsInvariant : Obligations.StepKeepsInvariant := by
  unfold Obligations.StepKeepsInvariant
  intro s t hI hst
  cases hp : presented s with
  | some r =>
    obtain ⟨op, u⟩ := r
    rw [step_of_presented hp] at hst
    have hu : Inv u := by rw [presented_eq hp]; exact hI.of_reply _ _
    exact execHostOp_inv hu hst
  | none =>
    cases hb : s.busy with
    | false =>
      rw [step_of_idle hp hb] at hst
      cases hst
      exact hI.tick
    | true =>
      obtain ⟨m, hruns⟩ := hI.runs hp hb
      exact (step_ends hruns hst).inv hI.tick (step_of_runs hruns).2 (by simpa using hI.busy hb)

/-- Settles O49: every register holds its reset value, and no call is in progress. -/
theorem invariantAtReset : Obligations.InvariantAtReset := inv_cleared State.reset

end Sys2Proof.Machine
end

section
/-! What the step of a call keeps besides: the bound of the buffered bits (spec/40_bit_reader.md R146), the phase
(spec/60_exceptions.md R325), and each register at the micro-steps that do not own it (spec/10_state.md R21 to R41). -/

namespace Sys2Proof.Machine

/-! ## The buffered bits -/

/-- The state that the read leaves, and what becomes of the call from there. -/
theorem Ends.read {m : MicroStep} {s t : State} (h : Ends m s t) :
    ∃ u, (readAt m s).left = u ∧
      ((∃ k, t = endSuspended k u) ∨ (∃ e, t = endRaised e u) ∨ ∃ v, readAt m s = .ok v u ∧ Performs v u m t) := by
  cases h with
  | suspended hread ht => exact ⟨_, by rw [hread]; rfl, .inl ⟨_, ht⟩⟩
  | raised hread ht => exact ⟨_, by rw [hread]; rfl, .inr (.inl ⟨_, ht⟩)⟩
  | completed hread hperf => exact ⟨_, by rw [hread]; rfl, .inr (.inr ⟨_, hread, hperf⟩)⟩

/-- No micro-step buffers bits once its read has completed. -/
theorem Performs.nBits_le {m : MicroStep} {v : Nat} {u t : State} (h : Performs v u m t) : t.nBits ≤ u.nBits := by
  cases h
  case sAlign => exact Nat.sub_le _ _
  case raised hu => rw [hu]; exact le_rfl
  all_goals simp

/-- Settles O47: a read that completes leaves at most seven bits, and what follows it buffers no more; 22 is the
invariant's bound. -/
theorem bufferedBitsBound : Obligations.BufferedBitsBound := by
  unfold Obligations.BufferedBitsBound
  intro m s t hI hruns hst
  refine ⟨fun hgoes => ?_, (stepKeepsInvariant s t hI hst).nBits⟩
  have hp := hI.busy hruns.1
  obtain ⟨-, hm⟩ := step_of_runs hruns
  obtain ⟨m', hm', hr, hl⟩ := hI.tick.active (by simpa using hp)
  cases hm.symm.trans hm'
  obtain ⟨u, hu, hcase⟩ := (step_ends hruns hst).read
  have ho := readAt_only m (tick s)
  rcases hcase with ⟨k, rfl⟩ | ⟨e, rfl⟩ | ⟨v, hread, hperf⟩
  · have hpu : u.phase = .active := by rw [← hu, ho]; simpa using hp
    simp [hpu] at hgoes
  · simp at hgoes
  · have hleaves := readAt_leaves hI.tick hr hl
    rw [hread] at hleaves
    exact hperf.nBits_le.trans hleaves.2.1

/-! ## The phase -/

/-- A micro-step changes the phase only where it ends the call. -/
theorem Ends.phase {m : MicroStep} {s t : State} (h : Ends m s t) : t.phase = s.phase ∨ t.busy = false := by
  obtain ⟨u, hu, hcase⟩ := h.read
  rcases hcase with ⟨k, rfl⟩ | ⟨e, rfl⟩ | ⟨v, -, hperf⟩
  · exact .inr rfl
  · exact .inr rfl
  · have hp : u.phase = s.phase := by rw [← hu, readAt_only m s]
    rw [← hp]
    cases hperf
    case zTrailerEnd => exact .inr rfl
    case raised => exact .inr rfl
    all_goals exact .inl (by simp)

/-- The entry check that fails, by the phase the call finds (R285). -/
theorem entryError_cases {out : Option OutCursor} {inp : Option InCursor} {p : Phase} {e : Status}
    (h : entryError out inp p = some e) :
    p = .poisoned ∨ p = .uninit ∧ e = .initializerNotCalled ∨ p = .done ∧ e = .invalidCallSequence ∨
      p = .active ∧ (out = none ∨ inp = none) ∧ e = .badArgument := by
  cases p with
  | poisoned => exact .inl rfl
  | uninit => cases h; exact .inr (.inl ⟨rfl, rfl⟩)
  | done => cases h; exact .inr (.inr (.inl ⟨rfl, rfl⟩))
  | active =>
    unfold entryError at h
    split_ifs at h with hnone
    cases h
    exact .inr (.inr (.inr ⟨rfl, by simpa using hnone, rfl⟩))

/-- Settles O52: of the host's operations each case is its own; a micro-step that changes the phase has ended the call,
and has succeeded or raised. -/
theorem phaseTable : Obligations.PhaseTable := by
  unfold Obligations.PhaseTable
  intro s t hI hst hne
  cases hp : presented s with
  | some r =>
    obtain ⟨op, u⟩ := r
    rw [step_of_presented hp] at hst
    have hu := presented_eq hp
    have hphase : u.phase = s.phase := by rw [hu]
    have hbusy : u.busy = s.busy := by rw [hu]
    have hcfg : u.cfg = s.cfg := by rw [hu]
    have hreject : ∀ {a : State}, rejectCall u = .next a → a.phase = s.phase := by
      rintro _ ⟨⟩; exact hphase
    cases op with
    | reset => cases hst; exact .inl ⟨u, rfl, rfl⟩
    | init v =>
      rw [HostOp.toInstr, exec, execInit] at hst
      split at hst
      · exact absurd (hreject hst) hne
      · next hb =>
        refine .inr (.inl ⟨v, u, rfl, by simpa [hbusy] using hb, ?_⟩)
        rw [← hcfg]
        split at hst
        · next hv => cases hst; exact (if_pos hv).symm
        · next hv => cases hst; exact (if_neg hv).symm
    | decode out inp =>
      rw [HostOp.toInstr, exec, execDecode] at hst
      split at hst
      · exact absurd (hreject hst) hne
      · next hb =>
        rw [hphase] at hst
        split at hst
        · next e he =>
          cases hst
          refine .inr (.inr (.inl ⟨out, inp, u, rfl, by simpa [hbusy] using hb, rfl, ?_⟩))
          exact (entryError_cases he).resolve_left fun hpois => hne hpois.symm
        · cases hst; exact absurd hphase hne
  | none =>
    cases hb : s.busy with
    | false =>
      rw [step_of_idle hp hb] at hst
      cases hst
      simp at hne
    | true =>
      obtain ⟨m, hruns⟩ := hI.runs hp hb
      have hbusy : t.busy = false := by
        rcases (step_ends hruns hst).phase with h | h
        · simp [h] at hne
        · exact h
      refine .inr (.inr (.inr ⟨rfl, rfl, hI.busy hb, hbusy, ?_⟩))
      cases returned_of_step hruns hst hbusy with
      | done hd hk => exact .inl ⟨hd, hk⟩
      | raised hd hk _ => exact .inr ⟨hd, hk⟩
      | full ht => subst ht; simp at hne
      | short ht hpull =>
        subst ht
        rw [endSuspended, hpull.only] at hne
        simp at hne

/-! ## The owners of the registers -/

/-- Every register but those of the bit reader is left alone by a read (R13). -/
theorem OnlyReader.registers {s u : State} (h : OnlyReader s u) :
    u.cfg = s.cfg ∧ u.final = s.final ∧ u.btype = s.btype ∧ u.zStep = s.zStep ∧ u.bStep = s.bStep ∧
      u.sStep = s.sStep ∧ u.dStep = s.dStep ∧ u.yStep = s.yStep ∧ u.zCmf = s.zCmf ∧ u.zTrl = s.zTrl ∧
      u.zTrlN = s.zTrlN ∧ u.adlerA = s.adlerA ∧ u.adlerB = s.adlerB ∧ u.sLen = s.sLen ∧ u.sRem = s.sRem ∧
      u.nLit = s.nLit ∧ u.nDist = s.nDist ∧ u.nClen = s.nClen ∧ u.dI = s.dI ∧ u.repSym = s.repSym ∧
      u.repVal = s.repVal ∧ u.yLit = s.yLit ∧ u.yLsym = s.yLsym ∧ u.yLength = s.yLength ∧ u.yDsym = s.yDsym ∧
      u.yDist = s.yDist ∧ u.yRem = s.yRem ∧ u.hist = s.hist ∧ u.produced = s.produced ∧ u.clLen = s.clLen ∧
      u.llLen = s.llLen ∧ u.dLen = s.dLen := by
  unfold OnlyReader at h
  rw [h]
  simp only [and_self]

/-- The micro-steps that read no bits keep the accumulator (R21, R22). -/
theorem Performs.bits {m : MicroStep} {v : Nat} {u t : State} (h : Performs v u m t)
    (hm : m ∈ [.zCmf, .zFlg, .zTrailer, .sCopy, .dBuild, .yEmit, .yCopy]) : SameBits u t := by
  cases h
  case bEndFinal => simp at hm
  case sAlign => simp at hm
  case raised hu => rw [hu]; exact ⟨rfl, rfl⟩
  all_goals exact ⟨by simp, by simp⟩

/-- Bytes are taken by the reads only (R23). -/
theorem Performs.inTotal {m : MicroStep} {v : Nat} {u t : State} (h : Performs v u m t) : t.inTotal = u.inTotal := by
  cases h
  case raised hu => rw [hu]; rfl
  all_goals simp

theorem Performs.cfg {m : MicroStep} {v : Nat} {u t : State} (h : Performs v u m t) : t.cfg = u.cfg := by
  cases h
  case raised hu => rw [hu]; rfl
  all_goals simp

/-- `D_HCLEN` reads the counts its registers hold already (R205; log entry 9). -/
theorem Inv.counts_of_read {s u : State} {v : Nat} (hI : Inv s) (hm : microStep s = some .dHclen)
    (hread : readAt .dHclen s = .ok v u) (hp : s.phase = .active) :
    v % 32 + 257 = s.nLit ∧ v / 32 % 32 + 1 = s.nDist := by
  obtain ⟨m, hm', -, hl⟩ := hI.active hp
  cases hm.symm.trans hm'
  obtain ⟨-, h1, h2, h3, h4⟩ := hl
  exact readCounts_value hread h1 h2 h3 h4

/-- Settles O42: the read of a micro-step writes the reader's registers only, and what it performs then is listed. -/
theorem registerOwnership : Obligations.RegisterOwnership := by
  unfold Obligations.RegisterOwnership
  intro m s t hruns hst
  obtain ⟨u, hu, hcase⟩ := (step_ends hruns hst).read
  have hreg := (readAt_only m (tick s)).registers
  have hbits := @readAt_bits m (tick s)
  have hin := @readAt_left m (tick s)
  simp only [hu, tick_fields, SameBits] at hreg hbits hin
  rcases hcase with ⟨k, rfl⟩ | ⟨e, rfl⟩ | ⟨v, hread, hperf⟩
  · refine ⟨hreg.1, fun _ => ⟨hbits, fun hm => ?_, ?_⟩⟩
    · rw [(endSuspended_fields k u).2.2.2.1, hin hm, (tick_fields s).2.2.2.1]
    · simp [hreg]
  · exact ⟨hreg.1, fun h => absurd rfl h⟩
  · refine ⟨hperf.cfg.trans hreg.1, fun hne => ⟨fun hm => ?_, fun hm => ?_, ?_⟩⟩
    · obtain ⟨h1, h2⟩ := hperf.bits hm
      exact ⟨h1.trans (hbits hm).1, h2.trans (hbits hm).2⟩
    · rw [hperf.inTotal, hin hm]; simp
    · cases hperf
      case dHclen =>
        have hcounts : Inv s → v % 32 + 257 = s.nLit ∧ v / 32 % 32 + 1 = s.nDist := fun hI => by
          simpa using hI.tick.counts_of_read (step_of_runs hruns).2 hread (by simpa using hI.busy hruns.1)
        simpa [hreg] using ⟨fun hI => (hcounts hI).1, fun hI => (hcounts hI).2⟩
      case raised => exact absurd rfl hne
      all_goals simp [hreg]

end Sys2Proof.Machine
end

section
/-! The reset values (spec/10_state.md R46, spec/46_host_operations.md R281, R283), and the checksum of a byte string
(spec/45_zlib_adler.md R262). -/

namespace Sys2Proof.Machine

/-! ## Reset -/

theorem registersAtReset_reset : RegistersAtReset State.reset :=
  ⟨rfl, rfl, rfl, rfl, rfl, rfl, rfl, rfl, rfl, rfl, rfl, rfl, rfl, rfl, rfl, rfl, rfl, rfl, rfl, rfl, rfl, rfl, rfl,
    rfl, rfl, rfl, rfl, rfl, rfl, rfl, fun _ => rfl, rfl, rfl, rfl, rfl⟩

theorem nothingHeld_reset : NothingHeld State.reset := ⟨rfl, rfl, rfl, rfl, rfl, rfl, rfl⟩

/-- INIT outside a call with the right token (R283). -/
theorem execInit_version {s : State} (hb : s.busy = false) :
    execInit s.cfg.version s = .next { cleared s with phase := .active, status := .ok, reply := some .ok } := by
  simp [execInit, hb]

/-- INIT outside a call with another token (R283). -/
theorem execInit_other {s : State} {v : Nat} (hb : s.busy = false) (hv : v ≠ s.cfg.version) :
    execInit v s = .next (endRaised .badVersion (cleared s)) := by
  simp [execInit, hb, hv]

/-- INIT while a call is in progress (R291). -/
theorem execInit_busy {s : State} (v : Nat) (hb : s.busy = true) :
    execInit v s = .next { s with reply := some .invalidCallSequence } := by
  simp [execInit, hb, rejectCall]

/-- Settles O1: RESET and INIT leave the cleared state, with the phase, the status and the answer of their outcome. -/
theorem resetAndInitClear : Obligations.ResetAndInitClear := by
  unfold Obligations.ResetAndInitClear
  refine ⟨nothingHeld_reset, rfl, rfl, fun s => ⟨?_, fun v hb => execInit_busy v hb, fun v hb hv => ?_,
    fun v hb hv => ?_⟩⟩
  · exact ⟨cleared s, rfl, registersAtReset_reset, nothingHeld_reset, rfl, rfl, rfl, rfl, rfl⟩
  · subst hv
    exact ⟨_, execInit_version hb, registersAtReset_reset, nothingHeld_reset, rfl, rfl, rfl, rfl, rfl⟩
  · exact ⟨_, execInit_other hb hv, registersAtReset_reset, nothingHeld_reset, rfl, rfl, rfl, rfl, rfl⟩

/-- Settles O2: the same outcomes, of the registers alone. -/
theorem resetValues : Obligations.ResetValues := by
  unfold Obligations.ResetValues
  refine ⟨⟨registersAtReset_reset, rfl, rfl, by decide⟩, fun s => ?_, fun s v hb => ?_⟩
  · exact ⟨cleared s, rfl, registersAtReset_reset, rfl, rfl⟩
  · by_cases hv : v = s.cfg.version
    · subst hv
      exact ⟨_, execInit_version hb, registersAtReset_reset, fun _ => ⟨rfl, rfl⟩, fun h => absurd rfl h⟩
    · exact ⟨_, execInit_other hb hv, registersAtReset_reset, fun h => absurd h hv, fun _ => ⟨rfl, rfl⟩⟩

/-! ## The checksum in closed form -/

/-- The sums after a byte, as numbers (R262). -/
theorem adlerUpdate_toNat (b : Byte) (s : State) :
    (adlerUpdate b s).adlerA.toNat = (s.adlerA.toNat + b.toNat) % adlerMod ∧
      (adlerUpdate b s).adlerB.toNat = (s.adlerB.toNat + (s.adlerA.toNat + b.toNat) % adlerMod) % adlerMod := by
  have hlt : ∀ x, x % adlerMod % 2 ^ 16 = x % adlerMod := fun x =>
    Nat.mod_eq_of_lt ((Nat.mod_lt x (by decide)).trans (by decide))
  simp only [adlerUpdate_fields, BitVec.toNat_ofNat, hlt, and_self]

/-- The bytes weighted by how many bytes follow them, themselves included. -/
def weightedSum : List Byte → Nat
  | [] => 0
  | b :: bs => (bs.length + 1) * b.toNat + weightedSum bs

theorem weightedSum_eq (bs : List Byte) :
    weightedSum bs = ((List.range bs.length).map fun i => (bs.length - i) * (bs.getD i 0).toNat).sum := by
  induction bs with
  | nil => rfl
  | cons b bs ih =>
    rw [weightedSum, ih, List.length_cons, List.range_succ_eq_map, List.map_cons, List.sum_cons, List.map_map]
    congr 2
    apply List.map_congr_left
    intro i _
    simp

/-- The two sums after any bytes, from any sums in range: the second one adds the first after each byte. -/
theorem adler_foldl (bs : List Byte) (s : State) (ha : s.adlerA.toNat < adlerMod) (hb : s.adlerB.toNat < adlerMod) :
    (bs.foldl (fun t b => adlerUpdate b t) s).adlerA.toNat = (s.adlerA.toNat + (bs.map BitVec.toNat).sum) % adlerMod ∧
      (bs.foldl (fun t b => adlerUpdate b t) s).adlerB.toNat =
        (s.adlerB.toNat + bs.length * s.adlerA.toNat + weightedSum bs) % adlerMod := by
  induction bs generalizing s with
  | nil => simp [weightedSum, Nat.mod_eq_of_lt ha, Nat.mod_eq_of_lt hb]
  | cons b bs ih =>
    obtain ⟨h1, h2⟩ := adlerUpdate_toNat b s
    have hlt : ∀ x, x % adlerMod < adlerMod := fun x => Nat.mod_lt x (by decide)
    obtain ⟨ihA, ihB⟩ := ih (adlerUpdate b s) (h1 ▸ hlt _) (h2 ▸ hlt _)
    rw [List.foldl_cons, ihA, ihB, h1, h2]
    constructor
    · rw [Nat.mod_add_mod, List.map_cons, List.sum_cons, Nat.add_assoc]
    · rw [List.length_cons, weightedSum]
      have hA : (s.adlerA.toNat + b.toNat) % adlerMod ≡ s.adlerA.toNat + b.toNat [MOD adlerMod] := Nat.mod_modEq _ _
      calc _ ≡ s.adlerB.toNat + (s.adlerA.toNat + b.toNat) + bs.length * (s.adlerA.toNat + b.toNat) + weightedSum bs
              [MOD adlerMod] :=
            ((((Nat.mod_modEq _ _).trans (hA.add_left _)).add (hA.mul_left _)).add_right _)
        _ = _ := by ring

/-- Settles O38: the sums from 1 and 0. -/
theorem adlerClosedForm : Obligations.AdlerClosedForm := by
  unfold Obligations.AdlerClosedForm
  intro s bs hA hB
  obtain ⟨h1, h2⟩ := adler_foldl bs s (by rw [hA]; decide) (by rw [hB]; decide)
  rw [h1, h2, hA, hB, weightedSum_eq]
  simp [adlerMod]

end Sys2Proof.Machine
end

section
/-! The stream primitives and the plain fields (spec/20_memory.md R64 to R66, R71). -/

namespace Sys2Proof.Machine

/-- Settles O28: `PullByte` by the unread bytes and the closed flag, `NeedOut` by the space left and its flag. -/
theorem streamPrimitives : Obligations.StreamPrimitives := by
  unfold Obligations.StreamPrimitives
  intro s
  refine ⟨fun b rest h => ?_, fun h hc => ?_, fun h hc => ?_, fun h => if_pos (by omega), fun h hc => ?_,
    fun h hc => ?_⟩
  · rw [pullByte, h]; rfl
  · rw [pullByte, h]; exact if_pos hc
  · rw [pullByte, h]; exact if_neg (by simp [hc])
  · rw [needOut, if_neg (by omega), if_pos hc]
  · rw [needOut, if_neg (by omega), if_neg (by simp [hc])]

/-- A starved read has pulled everything there was. -/
theorem Starved.inBytes {α : Type} {s t : State} {r : Res α} (h : Starved s r t) : t.inBytes = [] := by
  cases h <;> assumption

/-- Settles O30: a field that is read is taken from the front of the stream; a read that is not completed has pulled
everything and still has too few bits, so the stream was too short for it. -/
theorem fieldsAreStreamBits : Obligations.FieldsAreStreamBits := by
  unfold Obligations.FieldsAreStreamBits
  intro s n hb hn
  rcases need_cases hb hn with ⟨v, t, hr, hlt, hok, -⟩ | ⟨t, hst, hlt⟩
  · refine ⟨fun v' t' h => ?_, fun k t' h => ?_, fun e t' h => ?_, fun _ => ⟨v, t, hr⟩⟩
    · cases hr.symm.trans h
      exact ⟨hlt, hok.stream, hok.only, hok.took, hok.bits⟩
    · cases hr.symm.trans h
    · cases hr.symm.trans h
  · have hin := hst.inBytes
    have hshort : ¬ n ≤ (pendingBits s).length := by
      rw [← hst.buffered.stream, pendingBits_length, hin]
      simpa using hlt
    generalize need n s = r at hst ⊢
    cases hst with
    | short _ hc _ hB =>
      refine ⟨fun _ _ h => (nomatch h), ?_, fun _ _ h => (nomatch h), fun h => absurd h hshort⟩
      rintro _ _ ⟨⟩
      exact ⟨rfl, hB.closed ▸ hc, hin, hlt, hB.stream, hB.only⟩
    | closed _ hc _ hB =>
      refine ⟨fun _ _ h => (nomatch h), fun _ _ h => (nomatch h), ?_, fun h => absurd h hshort⟩
      rintro _ _ ⟨⟩
      exact ⟨rfl, hB.closed ▸ hc, hin, hlt⟩

end Sys2Proof.Machine
end

section
/-! The Huffman codes in the stream (spec/20_memory.md R72): in a table that is not over-subscribed no code begins with
another, so that the symbol `HuffDecode` answers is the one whose code is there (spec/41_huffman_tables.md R163,
R168). -/

namespace Sys2Proof.Machine

/-! ## The codes of a table (R162, R163) -/

/-- The codes up to length `L`, left-aligned at the longest length, take no more room than the Kraft sum. -/
theorem firstCode_add_cnt_le {len : List Nat} (hk : kraft len ≤ 2 ^ maxl len) {L : Nat} (h1 : 1 ≤ L)
    (hL : L ≤ maxl len) : firstCode len L + cnt len L ≤ 2 ^ L := by
  have hsum : (firstCode len L + cnt len L) * 2 ^ (maxl len - L) =
      ((List.range' 1 L).map fun j => cnt len j * 2 ^ (maxl len - j)).sum := by
    obtain ⟨k, rfl⟩ : ∃ k, L = k + 1 := ⟨L - 1, by omega⟩
    rw [Nat.add_mul, firstCode_scaled len hL, List.range'_1_concat]
    simp [Nat.add_comm]
  have hle : ((List.range' 1 L).map fun j => cnt len j * 2 ^ (maxl len - j)).sum ≤ kraft len := by
    have hs : List.range' 1 (maxl len) = List.range' 1 L ++ List.range' (1 + L) (maxl len - L) := by
      rw [List.range'_append_1, Nat.add_sub_cancel' hL]
    rw [kraft, hs, List.map_append, List.sum_append]
    exact Nat.le_add_right _ _
  have hp : 2 ^ L * 2 ^ (maxl len - L) = 2 ^ maxl len := by rw [← Nat.pow_add, Nat.add_sub_cancel' hL]
  exact Nat.le_of_mul_le_mul_right (hsum.trans_le (hle.trans (hk.trans hp.ge))) (Nat.two_pow_pos _)

/-- A symbol's code lies among the codes of its length. -/
theorem codeOf_range {len : List Nat} {a : Nat} (ha : a < len.length) :
    firstCode len (len.getD a 0) ≤ codeOf len a ∧
      codeOf len a < firstCode len (len.getD a 0) + cnt len (len.getD a 0) :=
  symbolOf_isSome.1 (Option.isSome_iff_exists.2 ⟨a, symbolOf_eq_some.2 ⟨ha, rfl, rfl⟩⟩)

theorem getD_le_maxl (len : List Nat) (a : Nat) : len.getD a 0 ≤ maxl len := by
  rw [List.getD_eq_getElem?_getD]
  cases h : len[a]? with
  | none => exact Nat.zero_le _
  | some l => exact le_maxl (List.mem_of_getElem? h)

/-- A code fits its length (R163). -/
theorem codeOf_lt {len : List Nat} (hk : kraft len ≤ 2 ^ maxl len) {a : Nat} (ha : a < len.length)
    (h0 : len.getD a 0 ≠ 0) : codeOf len a < 2 ^ len.getD a 0 :=
  (codeOf_range ha).2.trans_le (firstCode_add_cnt_le hk (Nat.one_le_iff_ne_zero.2 h0) (getD_le_maxl len a))

/-- The codes of a greater length begin after all the codes of a smaller one, extended to it (R162). -/
theorem firstCode_mono (len : List Nat) {L : Nat} (h1 : 1 ≤ L) (d : Nat) :
    (firstCode len L + cnt len L) * 2 ^ (d + 1) ≤ firstCode len (L + (d + 1)) := by
  induction d with
  | zero => rw [firstCode, if_neg (by omega)]; omega
  | succ d ih =>
    rw [← Nat.add_assoc L, firstCode, if_neg (by omega), Nat.pow_succ]
    have : (firstCode len L + cnt len L) * (2 ^ (d + 1) * 2) = 2 * ((firstCode len L + cnt len L) * 2 ^ (d + 1)) := by
      ring
    omega

theorem symbolBits_length (len : List Nat) (s : Nat) : (symbolBits len s).length = len.getD s 0 := codeBits_length ..

/-- The first `L` of `L + d` code bits are the code without its last `d` bits (R72). -/
theorem codeBits_prefix {L d c c' : Nat} (h : codeBits L c <+: codeBits (L + d) c') :
    c % 2 ^ L = c' / 2 ^ d % 2 ^ L := by
  rw [codeBits, codeBits, List.reverse_prefix, Nat.add_comm, plainBits_add] at h
  have hs := List.IsSuffix.eq_of_length (List.suffix_of_suffix_length_le h (List.suffix_append ..) (by simp)) (by simp)
  exact plainBits_inj hs

/-- In a table that is not over-subscribed no code begins with another (R163). -/
theorem eq_of_symbolBits_prefix {len : List Nat} (hk : kraft len ≤ 2 ^ maxl len) {a b : Nat} (ha : a < len.length)
    (hb : b < len.length) (ha0 : len.getD a 0 ≠ 0) (hb0 : len.getD b 0 ≠ 0)
    (h : symbolBits len a <+: symbolBits len b) : a = b := by
  have hle : len.getD a 0 ≤ len.getD b 0 := by simpa [symbolBits_length] using h.length_le
  obtain ⟨d, hd⟩ := Nat.exists_eq_add_of_le hle
  have hlt := codeOf_lt hk hb hb0
  have hcode : codeOf len a = codeOf len b / 2 ^ d := by
    rw [symbolBits, symbolBits, hd] at h
    have := codeBits_prefix h
    rwa [Nat.mod_eq_of_lt (codeOf_lt hk ha ha0), Nat.mod_eq_of_lt] at this
    rwa [Nat.div_lt_iff_lt_mul (Nat.two_pow_pos d), ← Nat.pow_add, ← hd]
  cases d with
  | zero =>
    have hsym := symbolOf_eq_some.2 ⟨ha, hd.symm, by rw [hcode, Nat.pow_zero, Nat.div_one]⟩
    exact Option.some.inj (hsym.symm.trans (symbolOf_eq_some.2 ⟨hb, rfl, rfl⟩))
  | succ d =>
    have hmono := firstCode_mono len (Nat.one_le_iff_ne_zero.2 ha0) d
    rw [← hd] at hmono
    have hge : codeOf len a + 1 ≤ codeOf len b / 2 ^ (d + 1) :=
      (Nat.le_div_iff_mul_le (Nat.two_pow_pos _)).2
        ((Nat.mul_le_mul_right _ (codeOf_range ha).2).trans (hmono.trans (codeOf_range hb).1))
    omega

/-! ## The code at the front of the stream (R168) -/

/-- Where the buffered bits begin with the code of a symbol, some code matches. -/
theorem lookup_ne_none {len : List Nat} {t : State} {sym : Nat} {rest : List Bool} (hk : kraft len ≤ 2 ^ maxl len)
    (hs : sym < len.length) (h0 : len.getD sym 0 ≠ 0) (hn : len.getD sym 0 ≤ t.nBits)
    (h : pendingBits t = symbolBits len sym ++ rest) : lookup len t ≠ none := by
  have hbits : codeBits (len.getD sym 0) (rev (len.getD sym 0) t.bits.toNat) = symbolBits len sym := by
    have ht := congrArg (List.take (len.getD sym 0)) h
    rw [pendingBits, ← Nat.add_sub_cancel' hn, plainBits_add, List.append_assoc, List.take_left' (plainBits_length ..),
      List.take_left' (symbolBits_length ..)] at ht
    rw [codeBits_rev, ht]
  have hcode : codeOf len sym = rev (len.getD sym 0) t.bits.toNat := by
    have := plainBits_inj (List.reverse_injective hbits)
    rwa [Nat.mod_eq_of_lt (rev_lt _ _), Nat.mod_eq_of_lt (codeOf_lt hk hs h0), eq_comm] at this
  have hsome : symbolOf len (len.getD sym 0) (rev (len.getD sym 0) t.bits.toNat) = some sym :=
    symbolOf_eq_some.2 ⟨hs, rfl, hcode⟩
  intro hnone
  have := findCode_eq_none.1 hnone _ (Nat.one_le_iff_ne_zero.2 h0) (le_min hn (getD_le_maxl len sym))
  rw [hsome] at this
  cases this

/-- A complete table always has a match once as many bits as its longest code are buffered (R163). -/
theorem lookup_of_complete {len : List Nat} {t : State} (hk : kraft len = 2 ^ maxl len) (h : maxl len ≤ t.nBits) :
    lookup len t ≠ none := by
  rw [lookup, Nat.min_eq_right h]
  exact findCode_of_complete hk le_rfl

/-- With a symbol's code at the front of the stream the symbol that is answered is that one: both codes are prefixes of
the stream, hence one of the other. -/
theorem eq_of_symbolBits_append {len : List Nat} (hk : kraft len ≤ 2 ^ maxl len) {a b : Nat} {x y : List Bool}
    (ha : a < len.length) (hb : b < len.length) (ha0 : len.getD a 0 ≠ 0) (hb0 : len.getD b 0 ≠ 0)
    (h : symbolBits len a ++ x = symbolBits len b ++ y) : a = b := by
  rcases List.prefix_or_prefix_of_prefix (List.prefix_append _ _) (h ▸ List.prefix_append (symbolBits len b) y) with
    hp | hp
  · exact eq_of_symbolBits_prefix hk ha hb ha0 hb0 hp
  · exact (eq_of_symbolBits_prefix hk hb ha hb0 ha0 hp).symm

/-- Settles O35: the symbol answered takes its code from the front of the stream, and the code of a symbol there is no
other symbol's, nor does the loop wait or give up on it. -/
theorem huffDecodeReadsTheCode : Obligations.HuffDecodeReadsTheCode := by
  unfold Obligations.HuffDecodeReadsTheCode
  intro len s hb hm hk
  rcases huffDecode_cases hb (show maxl len ≤ 24 by omega) with
    ⟨sym, t, hr, hlt, hpos, hok, -⟩ | ⟨t, hst, hlt, hnone⟩ | ⟨t, hB, hle, -, hnone, hr⟩
  · refine ⟨fun sym' t' h => ?_, fun sym' rest hs h0 hp => ⟨t, ?_⟩, fun k t' h => ?_, fun _ e t' h => ?_⟩
    · cases hr.symm.trans h
      exact ⟨hlt, by omega, hok.stream, hok.only, hok.took, hok.bits⟩
    · have hp := hok.stream.symm.trans hp
      obtain rfl := eq_of_symbolBits_append hk hlt hs (by omega) h0 hp
      exact ⟨hr, List.append_cancel_left hp⟩
    · rw [hr] at h; cases h
    · rw [hr] at h; cases h
  · have hin := hst.inBytes
    have hB := hst.buffered
    have hno : ∀ sym rest, sym < len.length → len.getD sym 0 ≠ 0 → pendingBits s ≠ symbolBits len sym ++ rest := by
      intro sym rest hs h0 hp
      rw [← hB.stream] at hp
      have hlen := congrArg List.length hp
      rw [pendingBits_length, hin, List.length_append, symbolBits_length, List.length_nil] at hlen
      exact lookup_ne_none hk hs h0 (by omega) hp hnone
    generalize huffDecode len s = r at hst ⊢
    cases hst with
    | short _ hc _ _ =>
      refine ⟨fun _ _ h => (nomatch h), fun sym rest hs h0 hp => absurd hp (hno sym rest hs h0), ?_,
        fun _ _ _ h => (nomatch h)⟩
      rintro _ _ ⟨⟩
      exact ⟨rfl, hB.closed ▸ hc, hin, hB.stream, hB.only⟩
    | closed _ _ _ _ =>
      refine ⟨fun _ _ h => (nomatch h), fun sym rest hs h0 hp => absurd hp (hno sym rest hs h0),
        fun _ _ h => (nomatch h), ?_⟩
      rintro - _ _ ⟨⟩
      rfl
  · refine ⟨fun sym' t' h => ?_, fun sym' rest hs h0 hp => ?_, fun k t' h => ?_, fun hc _ _ _ => ?_⟩
    · rw [hr] at h; cases h
    · exact absurd hnone (lookup_ne_none hk hs h0 ((getD_le_maxl len sym').trans hle) (hB.stream.trans hp))
    · rw [hr] at h; cases h
    · exact absurd hnone (lookup_of_complete hc hle)

end Sys2Proof.Machine
end

section
/-! How a read depends on the cursors of its call (spec/20_memory.md R61 to R66). The same read is looked at in another
setting: with bytes appended to its input, with output that an earlier call has made, with another capacity or other
closed flags. It makes the same value of the bytes it takes (R65); where it does not complete, the cursors say why. -/

namespace Sys2Proof.Machine

/-! ## Another setting for a call in progress -/

/-- The cursors of another call in which a state can stand: the bytes that follow its unread ones, what the call has
taken and appended already, the capacity and the closed flags, and the status and answer given before the call. -/
structure Setting where
  more : List Byte
  inClosed : Bool
  taken : Nat
  before : List Byte
  cap : Nat
  outClosed : Bool
  status : Status
  reply : Option Status

/-- The state `s` of a call in the setting `e`; a call that has ended has given its own status. -/
def State.inSetting (s : State) (e : Setting) : State :=
  { s with
    inBytes := s.inBytes ++ e.more, inClosed := e.inClosed, consumed := e.taken + s.consumed, outCap := e.cap,
    outClosed := e.outClosed, outBytes := e.before ++ s.outBytes,
    status := bif s.busy then e.status else s.status, reply := bif s.busy then e.reply else s.reply }

/-- The setting `e` leaves the call of `s` as much input and output as it has. -/
structure Setting.Matches (e : Setting) (s : State) : Prop where
  more : e.more = []
  inClosed : e.inClosed = s.inClosed
  cap : e.cap = e.before.length + s.outCap
  outClosed : e.outClosed = s.outClosed

/-- The state `t` is `s` but for the bit reader, the cursors and the status of the call. -/
def SameLocals (s t : State) : Prop :=
  t = { s with
    bits := t.bits, nBits := t.nBits, inTotal := t.inTotal, inBytes := t.inBytes, inClosed := t.inClosed,
    consumed := t.consumed, outCap := t.outCap, outClosed := t.outClosed, outBytes := t.outBytes, status := t.status,
    reply := t.reply }

theorem sameLocals_inSetting (s : State) (e : Setting) : SameLocals s (s.inSetting e) := rfl

theorem OnlyReader.sameLocals_inSetting {s t : State} (h : OnlyReader s t) (e : Setting) :
    SameLocals s (t.inSetting e) := by
  unfold OnlyReader at h; rw [h]; rfl

theorem SameLocals.localsOk {s t : State} {m : MicroStep} (h : SameLocals s t) (hl : LocalsOk s m) : LocalsOk t m := by
  unfold SameLocals at h; rw [h]; cases m <;> exact hl

theorem SameLocals.microStep {s t : State} (h : SameLocals s t) : microStep t = microStep s := by
  unfold SameLocals at h; rw [h]; rfl

theorem emit_inSetting (b : Byte) (s : State) (e : Setting) : emit b (s.inSetting e) = (emit b s).inSetting e := by
  simp [emit, adlerUpdate, State.inSetting]

/-! ## Reads in another setting (R65) -/

/-- The statuses that only the cursors can cause (R64, R66). -/
def cursorStatuses : List Status := [.shortRead, .shortWrite, .unexpectedEndOfFile, .closedForWrites]

/-- The same end of a read with another state left. -/
def Res.mapState {α : Type} (f : State → State) : Res α → Res α
  | .ok v t => .ok v (f t)
  | .suspend k t => .suspend k (f t)
  | .raise x t => .raise x (f t)

/-- What a read `r` at `s` does with the cursors, `w` saying that it waits for output space: it takes bytes in order; it
gives the same value in another setting, and ends in the same way in one that matches; and if it does not complete, why,
and that a read made again from where it suspended is, in any setting, the read made at once (R323). -/
structure Reading {α : Type} (w : Prop) (r : State → Res α) (s : State) : Prop where
  only : OnlyReader s (r s).left
  took : ∃ k, TookBytes k s (r s).left
  room : ∀ {v t}, r s = .ok v t → w → s.outBytes.length < s.outCap
  lift : ∀ {v t} (e : Setting), r s = .ok v t → (w → e.before.length + s.outBytes.length < e.cap) →
    r (s.inSetting e) = .ok v (t.inSetting e)
  same : ∀ {e : Setting}, e.Matches s → r (s.inSetting e) = (r s).mapState (·.inSetting e)
  suspends : ∀ {k u}, r s = .suspend k u →
    (w ∧ k = .shortWrite ∧ u = s ∧ s.outCap ≤ s.outBytes.length ∧ s.outClosed = false) ∨
      (k = .shortRead ∧ u.inBytes = [] ∧ u.inClosed = false ∧ ∀ e, r (s.inSetting e) = r (u.inSetting e))
  raises : ∀ {x u}, r s = .raise x u →
    (x = .closedForWrites ∧ s.outCap ≤ s.outBytes.length ∧ s.outClosed = true) ∨
      (x = .unexpectedEndOfFile ∧ u.inBytes = [] ∧ u.inClosed = true) ∨ x ∉ cursorStatuses

/-- A read that needs no output space, as the read of a micro-step that may. -/
theorem Reading.weaken {α : Type} {w : Prop} {r : State → Res α} {s : State} (h : Reading False r s) (hw : ¬ w) :
    Reading w r s :=
  ⟨h.only, h.took, fun _ h' => absurd h' hw, fun e hr _ => h.lift e hr False.elim, h.same,
    fun hr => .inr ((h.suspends hr).resolve_left fun h' => h'.1), h.raises⟩

/-- A read that is `r'` wherever the locals are those of `s`. -/
theorem Reading.congr {α : Type} {w : Prop} {r r' : State → Res α} {s : State} (h : Reading w r' s)
    (hr : ∀ t, SameLocals s t → r t = r' t) : Reading w r s := by
  have hs : r s = r' s := hr s rfl
  obtain ⟨ho, htook, hroom, hlift, hsame, hsusp, hraise⟩ := h
  rw [← hs] at ho htook
  refine ⟨ho, htook, fun h => hroom (hs ▸ h), fun e h hw => ?_, fun he => ?_, fun {k u} h => ?_,
    fun h => hraise (hs ▸ h)⟩
  · rw [hr _ (sameLocals_inSetting s e)]; exact hlift e (hs ▸ h) hw
  · rw [hr _ (sameLocals_inSetting s _), hs]; exact hsame he
  · rw [h] at ho
    refine (hsusp (hs ▸ h)).imp_right fun ⟨hk, hi, hc, hres⟩ => ⟨hk, hi, hc, fun e => ?_⟩
    rw [hr _ (sameLocals_inSetting s e), hr (u.inSetting e) (OnlyReader.sameLocals_inSetting ho e)]
    exact hres e

/-- A value computed from what a read gives and from the locals. -/
theorem Reading.map {α β : Type} {w : Prop} {r : State → Res α} {s : State} (h : Reading w r s) (g : α → State → β)
    (hg : ∀ v t (e : Setting), g v (t.inSetting e) = g v t) :
    Reading w (fun s => (r s).bind fun v t => .ok (g v t) t) s := by
  have hleft := Res.left_bind_ok (r s) g
  refine ⟨by rw [hleft]; exact h.only, by rw [hleft]; exact h.took, fun {v t} hr hw => ?_, fun {v t} e hr hw => ?_,
    fun he => ?_, fun {k u} hr => ?_, fun {x u} hr => ?_⟩
  · cases hv : r s with
    | ok a t' => exact h.room hv hw
    | suspend k u => rw [hv] at hr; cases hr
    | raise x u => rw [hv] at hr; cases hr
  · cases hv : r s with
    | ok a t' =>
      rw [hv] at hr; cases hr
      simp only [h.lift e hv hw, Res.bind, hg]
    | suspend k u => rw [hv] at hr; cases hr
    | raise x u => rw [hv] at hr; cases hr
  · simp only [h.same he]
    cases r s <;> simp only [Res.mapState, Res.bind, hg]
  · cases hv : r s with
    | ok a t' => rw [hv] at hr; cases hr
    | suspend k' u' =>
      rw [hv] at hr; cases hr
      exact (h.suspends hv).imp_right fun ⟨hk, hi, hc, hres⟩ => ⟨hk, hi, hc, fun e => by simp only [hres e]⟩
    | raise x u => rw [hv] at hr; cases hr
  · cases hv : r s with
    | ok a t' => rw [hv] at hr; cases hr
    | suspend k u => rw [hv] at hr; cases hr
    | raise x' u' => rw [hv] at hr; cases hr; exact h.raises hv

/-- No read at all. -/
theorem reading_ok {α : Type} (g : State → α) (s : State) (hg : ∀ e : Setting, g (s.inSetting e) = g s) :
    Reading False (fun t => .ok (g t) t) s :=
  ⟨.refl s, ⟨0, .refl s⟩, fun _ => False.elim, by rintro _ _ e ⟨⟩ -; rw [hg], fun {e} _ => by simp only [hg]; rfl,
    nofun, nofun⟩

/-- A read that raises at once. -/
theorem reading_of_raise {α : Type} {w : Prop} {r : State → Res α} {s : State} {x : Status} (h : r s = .raise x s)
    (hsame : ∀ e : Setting, e.Matches s → r (s.inSetting e) = .raise x (s.inSetting e))
    (hx : (x = .closedForWrites ∧ s.outCap ≤ s.outBytes.length ∧ s.outClosed = true) ∨
      (x = .unexpectedEndOfFile ∧ s.inBytes = [] ∧ s.inClosed = true) ∨ x ∉ cursorStatuses) : Reading w r s := by
  refine ⟨by rw [h]; exact .refl s, ⟨0, by rw [h]; exact .refl s⟩, fun hr => ?_, fun _ hr => ?_,
    fun he => by rw [h]; exact hsame _ he, fun hr => ?_, fun hr => ?_⟩
  · cases h.symm.trans hr
  · cases h.symm.trans hr
  · cases h.symm.trans hr
  · cases h.symm.trans hr; exact hx

/-- A read that suspends at once, and is made again from the same state. -/
theorem reading_of_suspend {α : Type} {w : Prop} {r : State → Res α} {s : State} {k : Status} (h : r s = .suspend k s)
    (hsame : ∀ e : Setting, e.Matches s → r (s.inSetting e) = .suspend k (s.inSetting e))
    (hk : (w ∧ k = .shortWrite ∧ s.outCap ≤ s.outBytes.length ∧ s.outClosed = false) ∨
      (k = .shortRead ∧ s.inBytes = [] ∧ s.inClosed = false)) : Reading w r s := by
  refine ⟨by rw [h]; exact .refl s, ⟨0, by rw [h]; exact .refl s⟩, fun hr => ?_, fun _ hr => ?_,
    fun he => by rw [h]; exact hsame _ he, fun hr => ?_, fun hr => ?_⟩
  · cases h.symm.trans hr
  · cases h.symm.trans hr
  · cases h.symm.trans hr
    exact hk.imp (fun ⟨hw, hk, hle, hc⟩ => ⟨hw, hk, rfl, hle, hc⟩) fun ⟨hk, hi, hc⟩ => ⟨hk, hi, hc, fun _ => rfl⟩
  · cases h.symm.trans hr

/-- An input with nothing left has nothing left in a setting that matches. -/
theorem Setting.Matches.inBytes {e : Setting} {s : State} (he : e.Matches s) (h : s.inBytes = []) :
    (s.inSetting e).inBytes = [] := by
  simp [State.inSetting, h, he.more]

/-- `PullByte` in another setting (R64). -/
theorem pullByte_reading (s : State) : Reading False pullByte s := by
  rcases pullByte_cases s with ⟨b, rest, hi, h⟩ | ⟨hi, hc, h⟩ | ⟨hi, hc, h⟩
  · have hlift : ∀ e : Setting, pullByte (s.inSetting e) = .ok b ((dropInByte rest s).inSetting e) := fun e => by
      have hi' : (s.inSetting e).inBytes = b :: (rest ++ e.more) := by simp [State.inSetting, hi]
      rw [pullByte, hi']; rfl
    refine ⟨pullByte_only s, ⟨1, by rw [h]; simp [Res.left, TookBytes, hi]⟩, fun _ => False.elim, fun e hr _ => ?_,
      fun _ => ?_, fun hr => ?_, fun hr => ?_⟩
    · cases h.symm.trans hr; exact hlift e
    · rw [h, hlift]; rfl
    · cases h.symm.trans hr
    · cases h.symm.trans hr
  · refine reading_of_raise h (fun e he => ?_) (.inr (.inl ⟨rfl, hi, hc⟩))
    rw [pullByte, he.inBytes hi]
    exact if_pos (he.inClosed.trans hc)
  · refine reading_of_suspend h (fun e he => ?_) (.inr ⟨rfl, hi, hc⟩)
    rw [pullByte, he.inBytes hi]
    exact if_neg (by rw [show (s.inSetting e).inClosed = false from he.inClosed.trans hc]; simp)

theorem Setting.Matches.full {e : Setting} {s : State} (he : e.Matches s) (h : s.outCap ≤ s.outBytes.length) :
    ¬ (s.inSetting e).outBytes.length < (s.inSetting e).outCap := by
  simp only [State.inSetting, List.length_append, he.cap]; omega

/-- `NeedOut` before a read that needs no output space itself (R66), and that waits, if it does, having read nothing. -/
theorem Reading.needOut {α : Type} {r : State → Res α} {s : State} (h : Reading False r s)
    (hself : ∀ {k u}, r s = .suspend k u → u = s) : Reading True (fun s => (needOut s).bind fun _ t => r t) s := by
  rcases needOut_cases s with ⟨hlt, hs⟩ | ⟨hle, hc, hs⟩ | ⟨hle, hc, hs⟩
  · have hroom : ∀ e : Setting, e.before.length + s.outBytes.length < e.cap →
        Machine.needOut (s.inSetting e) = .ok () (s.inSetting e) := fun e hr =>
      if_pos (by simpa [State.inSetting] using hr)
    have heq : ((Machine.needOut s).bind fun _ t => r t) = r s := by rw [hs]; rfl
    refine ⟨by rw [heq]; exact h.only, by rw [heq]; exact h.took, fun _ _ => hlt, fun e hr hw => ?_, fun {e} he => ?_,
      fun hr => ?_, fun hr => h.raises (heq ▸ hr)⟩
    · simp only [hroom e (hw trivial), Res.bind]
      exact h.lift e (heq ▸ hr) False.elim
    · rw [heq, hroom e (by rw [he.cap]; omega)]
      exact h.same he
    · have hr := heq ▸ hr
      obtain ⟨hk, hi, hc, -⟩ := (h.suspends hr).resolve_left fun h' => h'.1
      obtain rfl := hself hr
      exact .inr ⟨hk, hi, hc, fun _ => rfl⟩
  · refine reading_of_raise (by rw [hs]; rfl) (fun e he => ?_) (.inl ⟨rfl, hle, hc⟩)
    have hc' : (s.inSetting e).outClosed = true := he.outClosed.trans hc
    rw [Machine.needOut, if_neg (he.full hle), if_pos hc']
    rfl
  · refine reading_of_suspend (by rw [hs]; rfl) (fun e he => ?_) (.inl ⟨trivial, rfl, hle, hc⟩)
    have hc' : (s.inSetting e).outClosed = false := he.outClosed.trans hc
    rw [Machine.needOut, if_neg (he.full hle), if_neg (by simp [hc'])]
    rfl

/-! ### The loops of the bit reader -/

/-- The shape of the two loops of the bit reader: the accumulator alone decides whether the loop is over, and with what,
or pulls a byte and begins again. -/
def LoopsOnBits {α : Type} (r : State → Res α) : Prop :=
  ∀ s, (∃ v n, ∀ t, SameBits s t → r t = .ok v (dropBits n t)) ∨
    (∃ x, x ∉ cursorStatuses ∧ ∀ t, SameBits s t → r t = .raise x t) ∨
      ∀ t, SameBits s t → r t = (pullPush t).bind fun _ u => r u

theorem need_loops (n : Nat) : LoopsOnBits (need n) := by
  intro s
  by_cases h : n ≤ s.nBits
  · refine .inl ⟨lowBits n s, n, fun t ht => ?_⟩
    rw [need_of_le (ht.2 ▸ h), lowBits, lowBits, ht.1]
  · refine .inr (.inr fun t ht => ?_)
    have hlt : t.nBits < n := by rw [ht.2]; omega
    rw [need, ensure_pull hlt]
    cases pullPush t <;> rfl

theorem huffDecode_loops (len : List Nat) : LoopsOnBits (huffDecode len) := by
  intro s
  have hlookup : ∀ t, SameBits s t → lookup len t = lookup len s := fun t ht => by
    rw [lookup, lookup, ht.1, ht.2]
  by_cases h : lookup len s ≠ none ∨ maxl len ≤ s.nBits
  · have hstop : ∀ t, SameBits s t → huffDecode len t = huffLoop len 0 t := fun t ht =>
      huffLoop_stop _ (by rwa [hlookup t ht, ht.2])
    cases hl : lookup len s with
    | some p =>
      refine .inl ⟨p.1, p.2, fun t ht => ?_⟩
      rw [hstop t ht, huffLoop, ← lookup, hlookup t ht, hl]
    | none =>
      refine .inr (.inl ⟨.badHuffmanCode, by decide, fun t ht => ?_⟩)
      rw [hstop t ht, huffLoop, ← lookup, hlookup t ht, hl]
  · push Not at h
    obtain ⟨hl, hn⟩ := h
    refine .inr (.inr fun t ht => ?_)
    have hlt : t.nBits < maxl len := ht.2 ▸ hn
    obtain ⟨f, hf⟩ : ∃ f, maxl len - t.nBits = f + 1 := ⟨maxl len - t.nBits - 1, by omega⟩
    rw [huffDecode, hf, huffLoop_pull f ((hlookup t ht).trans hl) hlt]
    exact pullPush_congr fun u hu => huffLoop_fuel (by omega) (by omega)

theorem sameBits_inSetting (s : State) (e : Setting) : SameBits s (s.inSetting e) := ⟨rfl, rfl⟩

/-- A loop that is over, with a value or an error of the stream. -/
theorem reading_of_stop {α : Type} {r : State → Res α} {s : State}
    (h : (∃ v n, ∀ t, SameBits s t → r t = .ok v (dropBits n t)) ∨
      ∃ x, x ∉ cursorStatuses ∧ ∀ t, SameBits s t → r t = .raise x t) : Reading False r s := by
  rcases h with ⟨v, n, h⟩ | ⟨x, hx, h⟩
  · have hs := h s ⟨rfl, rfl⟩
    refine ⟨by rw [hs]; exact (OnlyReader.refl s).dropBits n, ⟨0, by rw [hs]; exact TookBytes.refl s⟩,
      fun _ => False.elim, fun e hr _ => ?_, fun _ => ?_, fun hr => ?_, fun hr => ?_⟩
    · cases hs.symm.trans hr; exact h _ (sameBits_inSetting s e)
    · rw [hs]; exact h _ (sameBits_inSetting s _)
    · cases hs.symm.trans hr
    · cases hs.symm.trans hr
  · exact reading_of_raise (h s ⟨rfl, rfl⟩) (fun e _ => h _ (sameBits_inSetting s e)) (.inr (.inr hx))

/-- A loop that pulls the byte `b` first reads as it does from the state with `b` pushed. -/
theorem Reading.pulled {α : Type} {r : State → Res α} {s : State} {b : Byte} {rest : List Byte}
    (hi : s.inBytes = b :: rest) (hr : ∀ t, SameBits s t → r t = (pullPush t).bind fun _ u => r u)
    (h : Reading False r (pushByte b (dropInByte rest s))) : Reading False r s := by
  have hs : r s = r (pushByte b (dropInByte rest s)) := by rw [hr s ⟨rfl, rfl⟩, pullPush_cons hi]; rfl
  have he : ∀ e, r (s.inSetting e) = r ((pushByte b (dropInByte rest s)).inSetting e) := fun e => by
    have hi' : (s.inSetting e).inBytes = b :: (rest ++ e.more) := by simp [State.inSetting, hi]
    rw [hr _ (sameBits_inSetting s e), pullPush_cons hi']; rfl
  have htook : TookBytes 1 s (pushByte b (dropInByte rest s)) := by simp [TookBytes, hi]
  obtain ⟨k, hk⟩ := h.took
  refine ⟨?_, ⟨1 + k, by rw [hs]; exact htook.trans hk⟩, fun _ => False.elim, fun e h' _ => ?_, fun h' => ?_,
    fun h' => ?_, fun h' => ?_⟩
  · rw [hs]; exact OnlyReader.trans (by simp [OnlyReader, pushByte, dropInByte]) h.only
  · rw [he]; exact h.lift e (hs ▸ h') False.elim
  · rw [he, hs]; exact h.same ⟨h'.more, h'.inClosed, h'.cap, h'.outClosed⟩
  · obtain ⟨hk, hin, hc, hres⟩ := (h.suspends (hs ▸ h')).resolve_left fun hf => hf.1
    exact .inr ⟨hk, hin, hc, fun e => (he e).trans (hres e)⟩
  · exact h.raises (hs ▸ h')

theorem LoopsOnBits.reading {α : Type} {r : State → Res α} (h : LoopsOnBits r) (s : State) : Reading False r s := by
  induction hi : s.inBytes generalizing s with
  | nil =>
    rcases h s with hstop | hstop | hpull
    · exact reading_of_stop (.inl hstop)
    · exact reading_of_stop (.inr hstop)
    · have he : ∀ t, SameBits s t → t.inBytes = [] →
          r t = if t.inClosed then .raise .unexpectedEndOfFile t else .suspend .shortRead t := fun t ht ht' => by
        rw [hpull t ht, pullPush, pullByte, ht']
        cases t.inClosed <;> rfl
      have hs := he s ⟨rfl, rfl⟩ hi
      have hm : ∀ e : Setting, e.Matches s → r (s.inSetting e) =
          if s.inClosed then .raise .unexpectedEndOfFile (s.inSetting e) else .suspend .shortRead (s.inSetting e) :=
        fun e hm => by rw [he _ (sameBits_inSetting s e) (hm.inBytes hi), ← hm.inClosed]; rfl
      cases hc : s.inClosed <;> simp only [hc] at hs hm
      · exact reading_of_suspend hs hm (.inr ⟨rfl, hi, hc⟩)
      · exact reading_of_raise hs hm (.inr (.inl ⟨rfl, hi, hc⟩))
  | cons b rest ih =>
    rcases h s with hstop | hstop | hpull
    · exact reading_of_stop (.inl hstop)
    · exact reading_of_stop (.inr hstop)
    · exact (ih (pushByte b (dropInByte rest s)) rfl).pulled hi hpull

theorem need_reading (n : Nat) (s : State) : Reading False (need n) s := (need_loops n).reading s

theorem huffDecode_reading (len : List Nat) (s : State) : Reading False (huffDecode len) s :=
  (huffDecode_loops len).reading s

/-! ### The reads of the micro-steps -/

/-- Micro-step `m` at `s` needs a byte of output space (R188, R236, R240). -/
def NeedsRoom (m : MicroStep) (s : State) : Prop :=
  match m with
  | .sCopy => s.sRem ≠ 0
  | .yEmit => True
  | .yCopy => s.yRem ≠ 0
  | _ => False

theorem needPlus_reading (base n : Nat) (s : State) : Reading False (needPlus base n) s :=
  (need_reading n s).map _ fun _ _ _ => rfl

theorem pulledValue_reading (s : State) :
    Reading False (fun t => (pullByte t).bind fun b u => .ok b.toNat u) s :=
  (pullByte_reading s).map _ fun _ _ _ => rfl

/-- A byte that cannot be pulled has changed nothing. -/
theorem pulledValue_suspend {s u : State} {k : Status}
    (h : ((pullByte s).bind fun b t => .ok b.toNat t : Res Nat) = .suspend k u) : u = s := by
  rcases pullByte_cases s with ⟨b, rest, -, hp⟩ | ⟨-, -, hp⟩ | ⟨-, -, hp⟩ <;> rw [hp] at h <;> cases h
  rfl

/-- The read of every micro-step, in any setting. -/
theorem readAt_reading (m : MicroStep) (s : State) : Reading (NeedsRoom m s) (readAt m) s := by
  have hnone : Reading False (fun t => .ok 0 t) s := reading_ok (fun _ => 0) s fun _ => rfl
  have hroom : Reading True (fun t => (needOut t).bind fun _ u => .ok 0 u) s := hnone.needOut fun h => by cases h
  cases m with
  | zCmf => exact (pulledValue_reading s).weaken id
  | zFlg => exact ((pullByte_reading s).map _ fun _ _ _ => rfl).weaken id
  | zTrailer =>
    by_cases hn : s.zTrlN < 4
    · exact ((pulledValue_reading s).weaken id).congr fun t ht => if_pos (by rw [ht]; exact hn)
    · exact ((reading_ok (fun t => t.zTrl.toNat) s fun _ => rfl).weaken id).congr fun t ht =>
        if_neg (by rw [ht]; exact hn)
  | bHeader => exact (need_reading 3 s).weaken id
  | bEnd => exact hnone.weaken id
  | sAlign => exact hnone.weaken id
  | sLen => exact (need_reading 16 s).weaken id
  | sNlen => exact ((need_reading 16 s).map _ fun _ _ _ => rfl).weaken id
  | sCopy =>
    by_cases hn : s.sRem = 0
    · exact (hnone.weaken (by simpa [NeedsRoom] using hn)).congr fun t ht => if_pos (by rw [ht]; exact hn)
    · have hraw : Reading True readRaw s := (pulledValue_reading s).needOut pulledValue_suspend
      rw [show NeedsRoom .sCopy s = True from eq_true hn]
      exact hraw.congr fun t ht => if_neg (by rw [ht]; exact hn)
  | dHlit => exact (need_reading 5 s).weaken id
  | dHdist => exact (need_reading 5 s).weaken id
  | dHclen => exact ((need_reading 4 s).map _ fun _ _ _ => rfl).weaken id
  | dCllens =>
    by_cases hd : s.dI < s.nClen
    · exact ((need_reading 3 s).weaken id).congr fun t ht => if_pos (by rw [ht]; exact hd)
    · exact (hnone.weaken id).congr fun t ht => if_neg (by rw [ht]; exact hd)
  | dSym =>
    by_cases hd : lengthDue s = true
    · refine ((huffDecode_reading s.clLen s).weaken id).congr fun t ht => ?_
      rw [readAt, if_pos (by rw [ht]; exact hd), show t.clLen = s.clLen by rw [ht]]
    · exact (hnone.weaken id).congr fun t ht => if_neg (by rw [ht]; exact hd)
  | dExtra =>
    refine ((needPlus_reading (repeatRow s.repSym).1 (repeatRow s.repSym).2 s).weaken id).congr fun t ht => ?_
    rw [readAt, show t.repSym = s.repSym by rw [ht]]
  | dBuild => exact hnone.weaken id
  | yLitlen =>
    refine ((huffDecode_reading s.llLen s).weaken id).congr fun t ht => ?_
    rw [readAt, show t.llLen = s.llLen by rw [ht]]
  | yEmit => exact hroom
  | yLextra =>
    refine ((needPlus_reading (lbase.getD (s.yLsym - 257) 0) (lext.getD (s.yLsym - 257) 0) s).weaken id).congr
      fun t ht => ?_
    rw [readAt, readLength, show t.yLsym = s.yLsym by rw [ht]]
  | yDsym =>
    refine ((huffDecode_reading s.dLen s).weaken id).congr fun t ht => ?_
    rw [readAt, show t.dLen = s.dLen by rw [ht]]
  | yDextra =>
    refine ((needPlus_reading (dbase.getD s.yDsym 0) (dext.getD s.yDsym 0) s).weaken id).congr fun t ht => ?_
    rw [readAt, readDistance, show t.yDsym = s.yDsym by rw [ht]]
  | yCopy =>
    by_cases hn : s.yRem = 0
    · exact (hnone.weaken (by simpa [NeedsRoom] using hn)).congr fun t ht => if_pos (by rw [ht]; exact hn)
    · rw [show NeedsRoom .yCopy s = True from eq_true hn]
      exact hroom.congr fun t ht => if_neg (by rw [ht]; exact hn)

end Sys2Proof.Machine
end

section
/-! Every micro-step as its read and a function of what the read has given (spec/60_exceptions.md R303), for every state
whose saved locals are in range. `Performs` lists the next states a micro-step can have; to compare the same micro-step
in two settings its answer is needed as a function, which is `perform`, and which does not look at the cursors. -/

namespace Sys2Proof.Machine

/-! ## What a micro-step does once its read has completed -/

/-- What micro-step `m` does with the value its read has given. -/
def perform : MicroStep → Nat → State → Answer
  | .zCmf => fun v u => .next { u with zCmf := BitVec.ofNat 8 v, zStep := .flg }
  | .zFlg => runField .zhdr
  | .zTrailer => fun v u =>
    if u.zTrlN < 4 then .next { u with zTrl := (u.zTrl <<< 8) ||| BitVec.ofNat 32 v, zTrlN := u.zTrlN + 1 }
    else runField .ztrl v u
  | .bHeader => runField .bhdr
  | .bEnd => fun _ u => .next (stepBEnd u)
  | .sAlign => fun _ u => .next (stepSAlign u)
  | .sLen => fun v u => .next { u with sLen := BitVec.ofNat 16 v, sStep := .nlen }
  | .sNlen => runField .stored
  | .sCopy => fun v u =>
    if u.sRem = 0 then .next (stepSCopyEnd u)
    else .next { emit (BitVec.ofNat 8 v) u with sRem := u.sRem - 1 }
  | .dHlit => fun v u => .next { u with nLit := v + 257, dStep := .hdist }
  | .dHdist => fun v u => .next { u with nDist := v + 1, dStep := .hclen }
  | .dHclen => runField .dynhdr
  | .dCllens => fun v u => if u.dI < u.nClen then runField .cllen v u else finish (stepDCllensEnd u)
  | .dSym => fun v u => if lengthDue u then runField .clsym v u else .next (stepDSymEnd u)
  | .dExtra => fun v u =>
    if u.nLit + u.nDist < u.dI + v then .next (endRaised .badHuffmanCodeLengthCount u)
    else .next { fillLens u.repVal v u.dI u with dI := u.dI + v, dStep := .sym }
  | .dBuild => fun _ u => finish (stepDBuild u)
  | .yLitlen => runField .llsym
  | .yEmit => fun _ u => .next { emit u.yLit u with yStep := .litlen }
  | .yLextra => fun v u => .next { u with yLength := v, yStep := .dsym }
  | .yDsym => runField .dsym
  | .yDextra => fun v u =>
    if u.produced < v then .next (endRaised .badDistance { u with yDist := v })
    else .next { u with yDist := v, yRem := u.yLength, yStep := .copy }
  | .yCopy => fun _ u =>
    if u.yRem = 0 then .next { u with yStep := .litlen }
    else .next { emit (histRead u.yDist u) u with yRem := u.yRem - 1 }

/-- What goes on after a read may rely on the read having completed. -/
theorem Res.andThen_congr {α : Type} {r : Res α} {K K' : α → State → Answer}
    (h : ∀ v u, r = .ok v u → K v u = K' v u) : r.andThen K = r.andThen K' := by
  cases r with
  | ok v u => exact h v u rfl
  | suspend k u => rfl
  | raise x u => rfl

theorem Res.andThen_map {α β : Type} (r : Res α) (g : α → State → β) (K : β → State → Answer) :
    (r.bind fun v t => .ok (g v t) t).andThen K = r.andThen fun v t => K (g v t) t := by
  cases r <;> rfl

@[simp] theorem Res.ok_bind {α β : Type} (v : α) (t : State) (f : α → State → Res β) :
    (Res.ok v t).bind f = f v t := rfl

/-- A completed test for output space has changed nothing (R66). -/
theorem needOut_completed {s u : State} {v : Nat} (h : ((needOut s).bind fun _ t => .ok 0 t : Res Nat) = .ok v u) :
    u = s := by
  have hleft := Res.left_bind_ok (needOut s) fun _ _ => (0 : Nat)
  rw [h, needOut_left] at hleft
  exact hleft

/-- A byte emitted where there is room for it, as a read of the output space and what follows it (R66, R246). -/
theorem finish_emitChecked (b : Byte) (g : State → State) (s : State) :
    finish ((emitChecked b s).bind fun _ t => .ok () (g t)) =
      ((needOut s).bind fun _ t => .ok 0 t : Res Nat).andThen fun _ u => .next (g (emit b u)) := by
  unfold emitChecked
  cases needOut s <;> rfl

section
variable {m : MicroStep} {s : State}

theorem runFetched_zTrailer (hm : microStep s = some .zTrailer) :
    runFetched (fetch s) = (readAt .zTrailer s).andThen (perform .zTrailer) := by
  rw [fetch, hm]
  by_cases hn : s.zTrlN < 4
  · simp only [readAt, if_pos hn, runFetched, stepZTrailerByte, finish_bind, Res.andThen_map]
    refine Res.andThen_congr fun b u hu => ?_
    have hu' : u.zTrlN = s.zTrlN := by
      have ho := pullByte_only s; rw [hu] at ho; rw [show u = _ from ho]
    simp [perform, hu', hn, finish]
  · simp only [readAt, if_neg hn, runFetched_field, Res.andThen, perform]

/-- A data byte whose read has tested the output space is emitted (R188). -/
theorem runFetched_sCopy (hm : microStep s = some .sCopy) :
    runFetched (fetch s) = (readAt .sCopy s).andThen (perform .sCopy) := by
  rw [fetch, hm]
  by_cases hs : s.sRem = 0
  · simp only [readAt, if_pos hs, runFetched, finish, Res.andThen, perform]
  · simp only [readAt, if_neg hs, runFetched_field, readRaw]
    rcases needOut_cases s with ⟨hroom, ho⟩ | ⟨-, -, ho⟩ | ⟨-, -, ho⟩ <;> rw [ho]
    · simp only [Res.ok_bind, Res.andThen_map]
      refine Res.andThen_congr fun b u hu => ?_
      have hu' : OnlyReader s u := by have ho := pullByte_only s; rwa [hu] at ho
      have hs' : u.sRem ≠ 0 := by rw [hu']; exact hs
      have hroom' : u.outBytes.length < u.outCap := by rw [hu']; exact hroom
      have hraw : decode .raw b.toNat = .ok (.raw (BitVec.ofNat 8 b.toNat)) := if_neg (Nat.not_le.2 b.isLt)
      rw [runField_ok hraw]
      simp [exec, execRaw, atStep, hu'.microStep.trans hm, hs', emitChecked, needOut, hroom', Res.bind, finish, perform]
    · rfl
    · rfl

theorem runFetched_dCllens (hm : microStep s = some .dCllens) :
    runFetched (fetch s) = (readAt .dCllens s).andThen (perform .dCllens) := by
  rw [fetch, hm]
  by_cases hd : s.dI < s.nClen
  · simp only [readAt, if_pos hd, runFetched_field]
    refine Res.andThen_congr fun v u hu => ?_
    have hu' := (need_ok hu).2
    exact (if_pos (by rw [hu']; exact hd)).symm
  · simp only [readAt, if_neg hd, runFetched, Res.andThen, perform]

theorem runFetched_dSym (hm : microStep s = some .dSym) :
    runFetched (fetch s) = (readAt .dSym s).andThen (perform .dSym) := by
  rw [fetch, hm]
  by_cases hd : lengthDue s = true
  · simp only [readAt, if_pos hd, runFetched_field]
    refine Res.andThen_congr fun v u hu => ?_
    have hu' := huffDecode_only hu
    exact (if_pos (by rw [hu']; exact hd)).symm
  · simp only [readAt, if_neg hd, runFetched, Res.andThen, perform, finish]

/-- The three repeats run alike (R209, R212 to R214). -/
theorem runFetched_dExtra (hm : microStep s = some .dExtra) (h1 : 16 ≤ s.repSym) (h2 : s.repSym ≤ 18) :
    runFetched (fetch s) = (readAt .dExtra s).andThen (perform .dExtra) := by
  have hfinish : ∀ w base, finish (runRepeat w base s) = (needPlus base w s).andThen (perform .dExtra) := by
    intro w base
    rw [runRepeat, finish_bind]
    refine Res.andThen_congr fun v u _ => ?_
    simp only [perform]
    split <;> rfl
  have hrun : runFetched (fetch s) = runField .clsym s.repSym s := by rw [fetch, hm]; rfl
  rw [hrun]
  obtain h | h | h : s.repSym = 16 ∨ s.repSym = 17 ∨ s.repSym = 18 := by omega
  · rw [h, runField_clRep, readAt, h]
    simp only [execClRep, repeatElement, hm]
    exact hfinish 2 3
  · rw [h, runField_clZrep, readAt, h]
    simp only [execClZrep, repeatElement, hm]
    exact hfinish 3 3
  · rw [h, runField_clZrepl, readAt, h]
    simp only [execClZrepl, repeatElement, hm]
    exact hfinish 7 11

theorem runFetched_yEmit (hm : microStep s = some .yEmit) :
    runFetched (fetch s) = (readAt .yEmit s).andThen (perform .yEmit) := by
  have hrun : runFetched (fetch s) = execLit (BitVec.ofNat 8 s.yLit.toNat) s := by
    rw [fetch, hm]; exact congrFun (runField_ok (decode_lit s.yLit.isLt)) s
  simp only [execLit, hm, BitVec.ofNat_toNat, BitVec.setWidth_eq] at hrun
  rw [hrun, finish_emitChecked s.yLit (fun t => { t with yStep := .litlen }) s]
  exact Res.andThen_congr fun v u hu => by rw [needOut_completed hu]; rfl

theorem runFetched_yLextra (hm : microStep s = some .yLextra) (h1 : 257 ≤ s.yLsym) (h2 : s.yLsym ≤ 285) :
    runFetched (fetch s) = (readAt .yLextra s).andThen (perform .yLextra) := by
  have hrun : runFetched (fetch s) = runField .llsym s.yLsym s := by rw [fetch, hm]; rfl
  obtain ⟨i, hi, hexec⟩ := exec_length h1 h2
  rw [hrun, runField_ok hi, hexec]
  simp only [lengthElement, hm, finish_bind]
  rfl

theorem runFetched_yDextra (hm : microStep s = some .yDextra) (h1 : s.yDsym ≤ 29) :
    runFetched (fetch s) = (readAt .yDextra s).andThen (perform .yDextra) := by
  have hrun : runFetched (fetch s) = runField .dsym s.yDsym s := by rw [fetch, hm]; rfl
  obtain ⟨i, hi, hexec⟩ := exec_distance h1
  rw [hrun, runField_ok hi, hexec]
  simp only [distanceElement, hm, startCopy, finish_bind]
  refine Res.andThen_congr fun v u _ => ?_
  simp only [perform]
  split <;> rfl

theorem runFetched_yCopy (hm : microStep s = some .yCopy) (h1 : s.yDsym ≤ 29) :
    runFetched (fetch s) = (readAt .yCopy s).andThen (perform .yCopy) := by
  have hrun : runFetched (fetch s) = runField .dsym s.yDsym s := by rw [fetch, hm]; rfl
  obtain ⟨i, hi, hexec⟩ := exec_distance h1
  rw [hrun, runField_ok hi, hexec]
  simp only [distanceElement, hm, copyByte, readAt]
  by_cases hr : s.yRem = 0
  · simp only [if_pos hr, finish, Res.andThen, perform]
  · rw [if_neg hr, if_neg hr, finish_emitChecked (histRead s.yDist s) (fun t => { t with yRem := t.yRem - 1 }) s]
    refine Res.andThen_congr fun v u hu => ?_
    rw [needOut_completed hu]
    simp only [perform, if_neg hr, emit_fields]

/-- Every micro-step is its read and then what `perform` says (R303). -/
theorem runFetched_eq_perform (hm : microStep s = some m) (hl : LocalsOk s m) :
    runFetched (fetch s) = (readAt m s).andThen (perform m) := by
  cases m with
  | zCmf =>
    rw [fetch, hm]
    simp only [runFetched, stepZCmf, finish_bind, readAt, Res.andThen_map]
    exact Res.andThen_congr fun b u _ => by simp [perform, finish]
  | zFlg => rw [fetch, hm]; exact runFetched_field ..
  | zTrailer => exact runFetched_zTrailer hm
  | bHeader => rw [fetch, hm]; exact runFetched_field ..
  | bEnd => rw [fetch, hm]; rfl
  | sAlign => rw [fetch, hm]; rfl
  | sLen => rw [fetch, hm]; exact finish_bind ..
  | sNlen => rw [fetch, hm]; exact runFetched_field ..
  | sCopy => exact runFetched_sCopy hm
  | dHlit => rw [fetch, hm]; exact finish_bind ..
  | dHdist => rw [fetch, hm]; exact finish_bind ..
  | dHclen => rw [fetch, hm]; exact runFetched_field ..
  | dCllens => exact runFetched_dCllens hm
  | dSym => exact runFetched_dSym hm
  | dExtra =>
    obtain ⟨-, -, -, h1, h2, -⟩ := hl
    exact runFetched_dExtra hm h1 h2
  | dBuild => rw [fetch, hm]; rfl
  | yLitlen => rw [fetch, hm]; exact runFetched_field ..
  | yEmit => exact runFetched_yEmit hm
  | yLextra => exact runFetched_yLextra hm hl.2.1 hl.2.2
  | yDsym => rw [fetch, hm]; exact runFetched_field ..
  | yDextra => exact runFetched_yDextra hm hl.2.2.2
  | yCopy =>
    obtain ⟨-, -, -, h1, -⟩ := hl
    exact runFetched_yCopy hm h1

end

/-! ## What follows the read does not look at the cursors -/

/-- The same answer with another next state. -/
def mapNext (f : State → State) : Answer → Answer
  | .next t => .next (f t)
  | .fault r => .fault r
  | .refused r => .refused r

/-- What `A` answers at `s` is the same in any setting of the call, and if it ends the call, the cursors are not why. -/
structure CursorFree (A : State → Answer) (s : State) : Prop where
  natural : ∀ e : Setting, A (s.inSetting e) = mapNext (·.inSetting e) (A s)
  status : ∀ {t}, A s = .next t → t.busy = s.busy ∨ t.status ∉ cursorStatuses

section
variable {s : State}

theorem CursorFree.congr {A B : State → Answer} (h : CursorFree A s) (hs : B s = A s)
    (he : ∀ e : Setting, B (s.inSetting e) = A (s.inSetting e)) : CursorFree B s :=
  ⟨fun e => by rw [he, hs, h.natural], fun hb => h.status (hs ▸ hb)⟩

theorem cursorFree_next (g : State → State) (hg : ∀ e : Setting, g (s.inSetting e) = (g s).inSetting e)
    (hb : (g s).busy = s.busy) : CursorFree (fun u => .next (g u)) s :=
  ⟨fun e => congrArg Host.Outcome.next (hg e), by rintro _ ⟨⟩; exact .inl hb⟩

theorem cursorFree_raised {x : Status} (hx : x ∉ cursorStatuses) (g : State → State)
    (hg : ∀ e : Setting, g (s.inSetting e) = (g s).inSetting e) : CursorFree (fun u => .next (endRaised x (g u))) s :=
  ⟨fun e => by rw [hg]; rfl, by rintro _ ⟨⟩; exact .inr hx⟩

theorem cursorFree_fault (r : Fault) : CursorFree (fun _ => .fault r) s := ⟨fun _ => rfl, by rintro _ ⟨⟩⟩

theorem cursorFree_refused (r : Refusal) : CursorFree (fun _ => .refused r) s := ⟨fun _ => rfl, by rintro _ ⟨⟩⟩

theorem CursorFree.ite {A B : State → Answer} {p : State → Prop} [DecidablePred p]
    (hp : ∀ e : Setting, p (s.inSetting e) ↔ p s) (hA : p s → CursorFree A s) (hB : ¬ p s → CursorFree B s) :
    CursorFree (fun u => if p u then A u else B u) s := by
  by_cases h : p s
  · exact (hA h).congr (if_pos h) fun e => if_pos ((hp e).2 h)
  · exact (hB h).congr (if_neg h) fun e => if_neg (mt (hp e).1 h)

theorem CursorFree.atStep {A : State → Answer} (m : MicroStep) (h : CursorFree A s) :
    CursorFree (fun u => atStep m u (A u)) s :=
  .ite (p := fun u => microStep u = some m) (fun _ => Iff.rfl) (fun _ => h) fun _ => cursorFree_refused _

/-- A meaning that at micro-step `m` lets the call go on with `g`. -/
theorem cursorFree_of_next {m : MicroStep} {A : State → Answer} (g : State → State) (hm : microStep s = some m)
    (hat : ∀ u, microStep u = some m → A u = .next (g u))
    (hg : ∀ e : Setting, g (s.inSetting e) = (g s).inSetting e) (hb : (g s).busy = s.busy) : CursorFree A s :=
  (cursorFree_next g hg hb).congr (hat s hm) fun _ => hat _ hm

/-- A check of the locals that raises or lets the call go on. -/
theorem cursorFree_check (o : State → Option Status) (g h : State → State)
    (ho : ∀ e : Setting, o (s.inSetting e) = o s) (hx : ∀ x, o s = some x → x ∉ cursorStatuses)
    (hg : ∀ e : Setting, g (s.inSetting e) = (g s).inSetting e)
    (hh : ∀ e : Setting, h (s.inSetting e) = (h s).inSetting e) (hb : (h s).busy = s.busy) :
    CursorFree (fun u => match o u with | some x => .next (endRaised x (g u)) | none => .next (h u)) s := by
  cases hs : o s with
  | some x => exact (cursorFree_raised (hx x hs) g hg).congr (by simp only [hs]) fun e => by simp only [ho e, hs]
  | none => exact (cursorFree_next h hh hb).congr (by simp only [hs]) fun e => by simp only [ho e, hs]

/-! ### The checks -/

theorem headerError_status {cfg : ZfdConfig} {x : Half} {k : Status} (h : headerError cfg x = some k) :
    k ∉ cursorStatuses := by
  unfold headerError at h
  split_ifs at h <;> cases h <;> decide

theorem countsError_status {n k : Nat} {x : Status} (h : countsError n k = some x) : x ∉ cursorStatuses := by
  unfold countsError at h
  split_ifs at h <;> cases h <;> decide

theorem validate_status {len : List Nat} {a : Bool} {x : Status} (h : validate len a = some x) :
    x ∉ cursorStatuses := by
  rcases validate_cases h with rfl | rfl | rfl <;> decide

theorem buildError_status {u : State} {x : Status} (h : buildError u = some x) : x ∉ cursorStatuses := by
  unfold buildError at h
  split at h
  · cases h; decide
  · split at h
    · next hv => cases h; exact validate_status hv
    · exact validate_status h

/-! ### The elements at the micro-step that decodes them -/

theorem execZhdr_cursorFree (x : Half) : CursorFree (execZhdr x) s :=
  (cursorFree_check (fun u => headerError u.cfg x) id (fun u => { u with zStep := .flate }) (fun _ => rfl)
    (fun _ => headerError_status) (fun _ => rfl) (fun _ => rfl) rfl).atStep .zFlg

theorem execZtrl_cursorFree (x : Word) : CursorFree (execZtrl x) s := by
  refine .atStep .zTrailer (.ite (p := fun u => u.zTrlN < 4) (fun _ => Iff.rfl) (fun _ => cursorFree_refused _)
    fun _ => ?_)
  refine .ite (p := fun u => x = adlerValue u) (fun _ => Iff.rfl) (fun _ => ?_) fun _ => ?_
  · exact ⟨fun _ => rfl, by rintro _ ⟨⟩; exact .inr (show Status.ok ∉ cursorStatuses by decide)⟩
  · exact cursorFree_raised (by decide) id fun _ => rfl

theorem execBlk_cursorFree (final : Bool) (type : Nat) : CursorFree (exec (blockOfType final type)) s := by
  match type with
  | 0 => exact .atStep .bHeader (cursorFree_next _ (fun _ => rfl) rfl)
  | 1 => exact .atStep .bHeader (cursorFree_next _ (fun _ => rfl) rfl)
  | 2 => exact .atStep .bHeader (cursorFree_next _ (fun _ => rfl) rfl)
  | _ + 3 => exact .atStep .bHeader (cursorFree_raised (by decide) _ fun _ => rfl)

theorem execSLen_cursorFree (len nlen : Half) : CursorFree (execSLen len nlen) s :=
  .atStep .sNlen (.ite (p := fun _ => storedLengthOk len nlen = true) (fun _ => Iff.rfl)
    (fun _ => cursorFree_next _ (fun _ => rfl) rfl) fun _ => cursorFree_raised (by decide) id fun _ => rfl)

theorem execDCounts_cursorFree (hlit hdist hclen : Nat) : CursorFree (execDCounts hlit hdist hclen) s :=
  (cursorFree_check (fun _ => countsError (hlit + 257) (hdist + 1))
    (fun u => { u with nLit := hlit + 257, nDist := hdist + 1, nClen := hclen + 4 })
    (fun u => { clearLengths { u with nLit := hlit + 257, nDist := hdist + 1, nClen := hclen + 4 } with
      dI := 0, dStep := .cllens }) (fun _ => rfl) (fun _ => countsError_status) (fun _ => rfl) (fun _ => rfl)
    rfl).atStep .dHclen

theorem execDCllen_cursorFree (v : Nat) : CursorFree (execDCllen v) s :=
  .atStep .dCllens (.ite (p := fun u => u.dI < u.nClen) (fun _ => Iff.rfl)
    (fun _ => cursorFree_next _ (fun _ => rfl) rfl) fun _ => cursorFree_refused _)

theorem setLen_inSetting (i v : Nat) (u : State) (e : Setting) :
    setLen i v (u.inSetting e) = (setLen i v u).inSetting e := by
  unfold setLen
  by_cases h : i < u.nLit
  · rw [if_pos h]; exact if_pos h
  · rw [if_neg h]; exact if_neg h

theorem fillLens_inSetting (v r i : Nat) (u : State) (e : Setting) :
    fillLens v r i (u.inSetting e) = (fillLens v r i u).inSetting e := by
  induction r generalizing i u with
  | zero => rfl
  | succ r ih => rw [fillLens, setLen_inSetting, ih]; rfl

theorem execClLen_cursorFree (n : Nat) : CursorFree (execClLen n) s :=
  .atStep .dSym (.ite (p := fun u => lengthDue u = true) (fun _ => Iff.rfl)
    (fun _ => cursorFree_next (fun u => { setLen u.dI n u with dI := u.dI + 1 })
      (fun e => by rw [show (s.inSetting e).dI = s.dI from rfl, setLen_inSetting]; rfl) (by simp))
    fun _ => cursorFree_refused _)

/-- A repeat at `D_SYM`, where its run has not begun (R208). -/
theorem repeatElement_cursorFree {w base : Nat} {start : State → Answer} (hm : microStep s = some .dSym)
    (h : CursorFree start s) : CursorFree (fun u => repeatElement w base (start u) u) s := by
  have hat : ∀ u, microStep u = some .dSym → repeatElement w base (start u) u =
      if lengthDue u then start u else .refused .elementNotCurrent := fun u hu => by simp only [repeatElement, hu]
  exact (CursorFree.ite (p := fun u => lengthDue u = true) (fun _ => Iff.rfl) (fun _ => h)
    fun _ => cursorFree_refused _).congr (hat s hm) fun e => hat _ hm

theorem execClRep_cursorFree (hm : microStep s = some .dSym) : CursorFree execClRep s :=
  repeatElement_cursorFree (start := fun u => if u.dI = 0 then .next (endRaised .badHuffmanCodeLengthRepetition u)
      else .next (startRepeat 16 (getLen (u.dI - 1) u) u)) hm
    (.ite (p := fun u => u.dI = 0) (fun _ => Iff.rfl) (fun _ => cursorFree_raised (by decide) id fun _ => rfl)
      fun _ => cursorFree_next _ (fun _ => rfl) rfl)

/-- A field whose value is decoded and executed. -/
theorem runField_cursorFree {f : Format} {v : Nat} (h : ∀ i, decode f v = .ok i → CursorFree (exec i) s) :
    CursorFree (runField f v) s := by
  cases hd : decode f v with
  | ok i => rw [runField_ok hd]; exact h i hd
  | error x => rw [runField_error hd]; exact cursorFree_fault _

/-- The code-length alphabet has 19 symbols (R98). -/
theorem decode_clsym_lt {v : Nat} {i : Instr} (h : decode .clsym v = .ok i) : v < 19 := by
  by_contra hv
  have hw := lt_of_decode h
  have hn : [Instr.clRep, .clZrep, .clZrepl][v - 16]? = none := List.getElem?_eq_none (by simp; omega)
  simp only [Format.width] at hw
  simp [decode, Format.width, show ¬ 32 ≤ v by omega, show ¬ v < 16 by omega, symbolIn, hn] at h

/-- A symbol of the code-length alphabet at `D_SYM` (R208, R211 to R214). -/
theorem clsym_cursorFree (v : Nat) (hm : microStep s = some .dSym) : CursorFree (runField .clsym v) s := by
  by_cases h : v < 16
  · rw [runField_ok (decode_clsym_len h)]; exact execClLen_cursorFree v
  by_cases h' : v < 19
  · obtain rfl | rfl | rfl : v = 16 ∨ v = 17 ∨ v = 18 := by omega
    · rw [runField_clRep]; exact execClRep_cursorFree hm
    · rw [runField_clZrep]
      exact repeatElement_cursorFree hm (cursorFree_next (startRepeat 17 0) (fun _ => rfl) rfl)
    · rw [runField_clZrepl]
      exact repeatElement_cursorFree hm (cursorFree_next (startRepeat 18 0) (fun _ => rfl) rfl)
  · exact runField_cursorFree fun i hi => absurd (decode_clsym_lt hi) h'

theorem reservedLength_cursorFree : CursorFree reservedLength s :=
  .atStep .yLitlen (cursorFree_raised (by decide) id fun _ => rfl)

theorem reservedDistance_cursorFree : CursorFree reservedDistance s :=
  .atStep .yDsym (cursorFree_raised (by decide) id fun _ => rfl)

/-- A symbol of the literal/length alphabet at `Y_LITLEN` (R232 to R235). -/
theorem llsym_cursorFree (v : Nat) (hm : microStep s = some .yLitlen) : CursorFree (runField .llsym v) s := by
  rcases runField_llsym v with ⟨b, hv⟩ | hv | ⟨-, -, hv⟩ | hv | hv <;> rw [hv]
  · exact cursorFree_of_next (fun u => { u with yLit := b, yStep := .emit }) hm (fun u hu => by simp only [execLit, hu])
      (fun _ => rfl) rfl
  · exact .atStep .yLitlen (cursorFree_next _ (fun _ => rfl) rfl)
  · exact cursorFree_of_next (fun u => { u with yLsym := v, yStep := .lextra }) hm
      (fun u hu => by simp only [lengthElement, hu]) (fun _ => rfl) rfl
  · exact reservedLength_cursorFree
  · exact cursorFree_fault _

/-- A symbol of the distance alphabet at `Y_DSYM` (R238, R242). -/
theorem dsym_cursorFree (v : Nat) (hm : microStep s = some .yDsym) : CursorFree (runField .dsym v) s := by
  rcases runField_dsym v with ⟨-, hv⟩ | hv | hv <;> rw [hv]
  · exact cursorFree_of_next (fun u => { u with yDsym := v, yStep := .dextra }) hm
      (fun u hu => by simp only [distanceElement, hu]) (fun _ => rfl) rfl
  · exact reservedDistance_cursorFree
  · exact cursorFree_fault _

/-- A validation that raises or lets the call go on (R207, R210). -/
theorem stepDCllensEnd_cursorFree : CursorFree (fun u => finish (stepDCllensEnd u)) s := by
  have hat : ∀ u, finish (stepDCllensEnd u) = match validate u.clLen false with
      | some x => .next (endRaised x (id u))
      | none => .next { u with dI := 0, dStep := .sym } := fun u => by
    unfold stepDCllensEnd; cases validate u.clLen false <;> rfl
  exact (cursorFree_check (fun u => validate u.clLen false) id (fun u => { u with dI := 0, dStep := .sym })
    (fun _ => rfl) (fun _ => validate_status) (fun _ => rfl) (fun _ => rfl) rfl).congr (hat s) fun e => hat _

theorem stepDBuild_cursorFree : CursorFree (fun u => finish (stepDBuild u)) s := by
  have hat : ∀ u, finish (stepDBuild u) = match buildError u with
      | some x => .next (endRaised x (id u))
      | none => .next { u with yStep := .litlen, bStep := .symbols } := fun u => by
    unfold stepDBuild; cases buildError u <;> rfl
  exact (cursorFree_check buildError id (fun u => { u with yStep := .litlen, bStep := .symbols })
    (fun _ => rfl) (fun _ => buildError_status) (fun _ => rfl) (fun _ => rfl) rfl).congr (hat s) fun e => hat _

theorem stepBEnd_inSetting (u : State) (e : Setting) : stepBEnd (u.inSetting e) = (stepBEnd u).inSetting e := by
  unfold stepBEnd
  by_cases h : u.final = true
  · rw [if_pos h]; exact if_pos h
  · rw [if_neg h]; exact if_neg h

/-- What a micro-step does once its read has completed does not depend on the cursors. -/
theorem perform_cursorFree {m : MicroStep} (v : Nat) (hm : microStep s = some m) : CursorFree (perform m v) s := by
  cases m with
  | zCmf => exact cursorFree_next _ (fun _ => rfl) rfl
  | zFlg => exact runField_cursorFree fun i hi => decode_row hi rfl ▸ execZhdr_cursorFree _
  | zTrailer =>
    exact .ite (p := fun u => u.zTrlN < 4) (fun _ => Iff.rfl) (fun _ => cursorFree_next _ (fun _ => rfl) rfl)
      fun _ => runField_cursorFree fun i hi => decode_row hi rfl ▸ execZtrl_cursorFree _
  | bHeader => exact runField_cursorFree fun i hi => decode_row hi rfl ▸ execBlk_cursorFree _ _
  | bEnd => exact cursorFree_next stepBEnd (stepBEnd_inSetting s) (by unfold stepBEnd; split <;> rfl)
  | sAlign => exact cursorFree_next _ (fun _ => rfl) rfl
  | sLen => exact cursorFree_next _ (fun _ => rfl) rfl
  | sNlen => exact runField_cursorFree fun i hi => decode_row hi rfl ▸ execSLen_cursorFree _ _
  | sCopy =>
    exact .ite (p := fun u => u.sRem = 0) (fun _ => Iff.rfl) (fun _ => cursorFree_next _ (fun _ => rfl) rfl)
      fun _ => cursorFree_next (fun u => { emit (BitVec.ofNat 8 v) u with sRem := u.sRem - 1 })
        (fun e => by rw [emit_inSetting]; rfl) rfl
  | dHlit => exact cursorFree_next _ (fun _ => rfl) rfl
  | dHdist => exact cursorFree_next _ (fun _ => rfl) rfl
  | dHclen => exact runField_cursorFree fun i hi => decode_row hi rfl ▸ execDCounts_cursorFree _ _ _
  | dCllens =>
    exact .ite (p := fun u => u.dI < u.nClen) (fun _ => Iff.rfl)
      (fun _ => runField_cursorFree fun i hi => decode_row hi rfl ▸ execDCllen_cursorFree _)
      fun _ => stepDCllensEnd_cursorFree
  | dSym =>
    exact .ite (p := fun u => lengthDue u = true) (fun _ => Iff.rfl) (fun _ => clsym_cursorFree v hm)
      fun _ => cursorFree_next _ (fun _ => rfl) rfl
  | dExtra =>
    exact .ite (p := fun u => u.nLit + u.nDist < u.dI + v) (fun _ => Iff.rfl)
      (fun _ => cursorFree_raised (by decide) id fun _ => rfl)
      fun _ => cursorFree_next (fun u => { fillLens u.repVal v u.dI u with dI := u.dI + v, dStep := .sym })
        (fun e => by rw [fillLens_inSetting]; rfl) (by simp)
  | dBuild => exact stepDBuild_cursorFree
  | yLitlen => exact llsym_cursorFree v hm
  | yEmit =>
    exact cursorFree_next (fun u => { emit u.yLit u with yStep := .litlen }) (fun e => by rw [emit_inSetting]; rfl) rfl
  | yLextra => exact cursorFree_next _ (fun _ => rfl) rfl
  | yDsym => exact dsym_cursorFree v hm
  | yDextra =>
    exact .ite (p := fun u => u.produced < v) (fun _ => Iff.rfl)
      (fun _ => cursorFree_raised (by decide) (fun u => { u with yDist := v }) fun _ => rfl)
      fun _ => cursorFree_next _ (fun _ => rfl) rfl
  | yCopy =>
    exact .ite (p := fun u => u.yRem = 0) (fun _ => Iff.rfl) (fun _ => cursorFree_next _ (fun _ => rfl) rfl)
      fun _ => cursorFree_next (fun u => { emit (histRead u.yDist u) u with yRem := u.yRem - 1 })
        (fun e => by rw [emit_inSetting]; rfl) rfl

end

end Sys2Proof.Machine
end

section
/-! The cursors of a call (spec/20_memory.md R61 to R67, R76, R82; spec/46_host_operations.md R288, R295): what one step
does to them, why a call returns early, that a step looks at no more of them than it uses, and that a stream decoded in
two calls is decoded as in one. -/

namespace Sys2Proof.Machine

/-! ## One step and the cursors -/

/-- The output, the window and the checksum of `t` are those of `s`. -/
def OutputKept (s t : State) : Prop :=
  t.outBytes = s.outBytes ∧ t.produced = s.produced ∧ t.hist = s.hist ∧ t.adlerA = s.adlerA ∧ t.adlerB = s.adlerB

/-- From `s` to `t` the byte `b` has been appended to the output, with the window write and the checksum update. -/
def OutputByte (b : Byte) (s t : State) : Prop :=
  s.outBytes.length < s.outCap ∧ t.outBytes = s.outBytes ++ [b] ∧ t.produced = s.produced + 1 ∧
    t.hist = memWrite s.hist (s.produced % 32768) b ∧ t.adlerA = (adlerUpdate b s).adlerA ∧
    t.adlerB = (adlerUpdate b s).adlerB

/-- The input, the flags and the capacity of the cursors, and the host's operations. -/
def SameCursors (s t : State) : Prop :=
  t.inBytes = s.inBytes ∧ t.inTotal = s.inTotal ∧ t.consumed = s.consumed ∧ t.inClosed = s.inClosed ∧
    t.outCap = s.outCap ∧ t.outClosed = s.outClosed ∧ t.requests = s.requests

/-- Input is taken by the reads only, and nothing writes the flags and the capacity. -/
theorem Performs.cursors {m : MicroStep} {v : Nat} {u t : State} (h : Performs v u m t) : SameCursors u t := by
  cases h
  case raised hu => rw [hu]; simp [SameCursors]
  all_goals simp [SameCursors]

/-- What follows a read appends nothing, or one byte for which there is room (R67, R246). -/
theorem Performs.output {m : MicroStep} {v : Nat} {u t : State} (h : Performs v u m t) :
    OutputKept u t ∨ ∃ b, OutputByte b u t := by
  cases h
  case sCopy hroom => exact .inr ⟨_, hroom, rfl, rfl, rfl, rfl, rfl⟩
  case yEmit hroom => exact .inr ⟨_, hroom, rfl, rfl, rfl, rfl, rfl⟩
  case yCopy hroom => exact .inr ⟨_, hroom, rfl, rfl, rfl, rfl, rfl⟩
  case raised hu => rw [hu]; exact .inl ⟨rfl, rfl, rfl, rfl, rfl⟩
  all_goals exact .inl (by simp [OutputKept])

/-- A step of a call by its read: the read leaves `u`, and from there the cursors stay, the output may grow. -/
theorem step_cursors {m : MicroStep} {s t : State} (h : Runs m s) (hst : step s = .next t) :
    ∃ u, (readAt m (tick s)).left = u ∧ SameCursors u t ∧ (OutputKept u t ∨ ∃ b, OutputByte b u t) := by
  obtain ⟨u, hu, hcase⟩ := (step_ends h hst).read
  refine ⟨u, hu, ?_⟩
  rcases hcase with ⟨k, rfl⟩ | ⟨x, rfl⟩ | ⟨v, -, hperf⟩
  · exact ⟨⟨rfl, rfl, rfl, rfl, rfl, rfl, rfl⟩, .inl ⟨rfl, rfl, rfl, rfl, rfl⟩⟩
  · exact ⟨⟨rfl, rfl, rfl, rfl, rfl, rfl, rfl⟩, .inl ⟨rfl, rfl, rfl, rfl, rfl⟩⟩
  · exact ⟨hperf.cursors, hperf.output⟩

/-- Settles O43: the read takes its bytes in order, and what follows it leaves the cursors alone or appends one byte. -/
theorem cursorDiscipline : Obligations.CursorDiscipline := by
  unfold Obligations.CursorDiscipline
  intro m s t h hst
  obtain ⟨u, rfl, ⟨hin, htot, hcons, hclosed, hcap, hout, -⟩, hbytes⟩ := step_cursors h hst
  obtain ⟨k, hk⟩ := (readAt_reading m (tick s)).took
  have ho := readAt_only m (tick s)
  unfold OnlyReader at ho
  refine ⟨⟨k, ?_⟩, hclosed.trans ?_, hcap.trans ?_, hout.trans ?_, ?_⟩
  · simp only [TookBytes, tick_fields] at hk
    simpa only [TookBytes, hin, htot, hcons] using hk
  · rw [ho]; simp
  · rw [ho]; simp
  · rw [ho]; simp
  · generalize (readAt m (tick s)).left = u at ho hbytes
    rw [ho] at hbytes
    simpa only [OutputKept, OutputByte, tick_fields, adlerUpdate_fields] using hbytes

/-! ## The step as a read and what follows it -/

/-- The registers of the micro-step that is current in a call are in range. -/
theorem Inv.localsOk {m : MicroStep} {s : State} (h : Inv s) (hb : s.busy = true) (hm : microStep s = some m) :
    LocalsOk s m := by
  obtain ⟨m', hm', -, hl⟩ := h.active (h.busy hb)
  cases hm.symm.trans hm'
  exact hl

/-- A step of a call is the read of its micro-step and then what `perform` says. -/
theorem step_eq_perform {m : MicroStep} {s : State} (hI : Inv s) (h : Runs m s) :
    step s = (readAt m (tick s)).andThen (perform m) := by
  obtain ⟨hrun, hm⟩ := step_of_runs h
  rw [hrun, runFetched_eq_perform hm (hI.tick.localsOk (by simpa using h.1) hm)]

theorem onlyReader_of_suspend {m : MicroStep} {s u : State} {k : Status} (hr : readAt m s = .suspend k u) :
    OnlyReader s u := by
  have h := readAt_only m s
  rw [hr] at h
  exact h

theorem onlyReader_of_raise {m : MicroStep} {s u : State} {x : Status} (hr : readAt m s = .raise x u) :
    OnlyReader s u := by
  have h := readAt_only m s
  rw [hr] at h
  exact h

/-- What a status of the cursors says of them (R64 to R66, R288). -/
def CursorsExplain (t : State) : Prop :=
  (t.status = .shortRead → t.inBytes = [] ∧ t.inClosed = false) ∧
    (t.status = .shortWrite → t.outBytes.length = t.outCap ∧ t.outClosed = false) ∧
    (t.status = .unexpectedEndOfFile → t.inBytes = [] ∧ t.inClosed = true) ∧
    (t.status = .closedForWrites → t.outBytes.length = t.outCap ∧ t.outClosed = true)

/-- Another status says nothing of the cursors. -/
theorem cursorsExplain_of_not_mem {t : State} (h : t.status ∉ cursorStatuses) : CursorsExplain t := by
  simp only [cursorStatuses, List.mem_cons, List.not_mem_nil, or_false, not_or] at h
  obtain ⟨h1, h2, h3, h4⟩ := h
  exact ⟨(absurd · h1), (absurd · h2), (absurd · h3), (absurd · h4)⟩

/-- Settles O46: a call that ends at one of the four statuses of the cursors has been ended by its read. -/
theorem whyACallSuspends : Obligations.WhyACallSuspends := by
  unfold Obligations.WhyACallSuspends
  intro m s t hI h hst ht
  have hinv := stepKeepsInvariant s t hI hst
  rw [step_eq_perform hI h] at hst
  have hread := readAt_reading m (tick s)
  cases hr : readAt m (tick s) with
  | ok v u =>
    have hu := onlyReader_of_readAt hr
    have hb : u.busy = true := by rw [hu]; simpa using h.1
    rw [hr] at hst
    rcases (perform_cursorFree v (hu.microStep.trans (step_of_runs h).2)).status hst with hbusy | hk
    · rw [ht, hb] at hbusy; cases hbusy
    · exact cursorsExplain_of_not_mem hk
  | suspend k u =>
    rw [hr] at hst
    cases hst
    rcases hread.suspends hr with ⟨-, rfl, rfl, hle, hc⟩ | ⟨rfl, hi, hc, -⟩
    · exact ⟨nofun, fun _ => ⟨le_antisymm hinv.output hle, hc⟩, nofun, nofun⟩
    · exact ⟨fun _ => ⟨hi, hc⟩, nofun, nofun, nofun⟩
  | raise x u =>
    have hu := onlyReader_of_raise hr
    rw [hr] at hst
    cases hst
    rcases hread.raises hr with ⟨rfl, hle, hc⟩ | ⟨rfl, hi, hc⟩ | hx
    · refine ⟨nofun, nofun, nofun, fun _ => ⟨le_antisymm hinv.output ?_, ?_⟩⟩
      · change u.outCap ≤ u.outBytes.length; rw [hu]; exact hle
      · change u.outClosed = true; rw [hu]; exact hc
    · exact ⟨nofun, nofun, fun _ => ⟨hi, hc⟩, nofun⟩
    · exact cursorsExplain_of_not_mem hx

/-! ## The step in another setting -/

section
variable {m : MicroStep} {s : State}

/-- The step of a call in another setting, by the read there. -/
theorem step_inSetting {u : State} (hI : Inv s) (h : Runs m s) (hreq : s.requests = []) (hu : OnlyReader s u)
    (e : Setting) : step (u.inSetting e) = (readAt m (u.inSetting e)).andThen (perform m) := by
  have hsame := hu.sameLocals_inSetting e
  have hbusy : (u.inSetting e).busy = true := by rw [hsame]; exact h.1
  have hnone : (u.inSetting e).requests = [] := by rw [hsame]; exact hreq
  rw [step_of_busy hbusy hnone]
  exact runFetched_eq_perform (hsame.microStep.trans h.2.2) (hsame.localsOk (hI.localsOk h.1 h.2.2))

/-- A micro-step that completes does the same in any setting that has room for the byte it may append. -/
theorem step_of_completed {t : State} (hI : Inv s) (h : Runs m s) (hreq : s.requests = []) (hst : step s = .next t)
    (hgoes : t.busy = true ∨ t.phase = .done) (e : Setting)
    (hroom : NeedsRoom m s → s.outBytes.length < s.outCap → e.before.length + s.outBytes.length < e.cap) :
    step (s.inSetting e) = .next (t.inSetting e) := by
  have hread := readAt_reading m s
  rw [step_eq_perform hI h, tick_of_no_requests hreq] at hst
  rw [step_inSetting hI h hreq (.refl s)]
  cases hr : readAt m s with
  | ok v u =>
    have hu := onlyReader_of_readAt hr
    rw [hr] at hst
    rw [hread.lift e hr fun hw => hroom hw (hread.room hr hw)]
    have hnat := (perform_cursorFree v (hu.microStep.trans h.2.2)).natural e
    rw [show perform m v u = .next t from hst] at hnat
    exact hnat
  | suspend k u =>
    have hu := onlyReader_of_suspend hr
    rw [hr] at hst
    cases hst
    have hp : u.phase = .active := by rw [hu]; exact hI.busy h.1
    simp [hp] at hgoes
  | raise x u =>
    rw [hr] at hst
    cases hst
    simp at hgoes

/-- A step is the same in a setting that matches: an idle machine lets it pass there too. -/
theorem step_of_matches {e : Setting} (hI : Inv s) (hreq : s.requests = []) (he : e.Matches s) :
    step (s.inSetting e) = mapNext (·.inSetting e) (step s) := by
  cases hb : s.busy with
  | false =>
    have hnone : (s.inSetting e).requests = [] := hreq
    rw [step_of_idle (presented_of_no_requests hreq) hb, step_of_idle (presented_of_no_requests hnone) hb,
      tick_of_no_requests hreq, tick_of_no_requests hnone]
    rfl
  | true =>
    obtain ⟨m, h⟩ := hI.runs (presented_of_no_requests hreq) hb
    have hread := readAt_reading m s
    rw [step_inSetting hI h hreq (.refl s), hread.same he, step_eq_perform hI h, tick_of_no_requests hreq]
    cases hr : readAt m s with
    | ok v u => exact (perform_cursorFree v ((onlyReader_of_readAt hr).microStep.trans h.2.2)).natural e
    | suspend k u => rfl
    | raise x u => rfl

/-- A call that goes on has given no status yet. -/
theorem status_of_busy {t : State} (h : Runs m s) (hst : step s = .next t) (ht : t.busy = true) :
    t.status = s.status ∧ t.reply = s.reply := by
  obtain ⟨u, hu, hcase⟩ := (step_ends h hst).read
  have hsame : u.status = s.status ∧ u.reply = s.reply := by
    rw [← hu, readAt_only m (tick s)]; simp
  rcases hcase with ⟨k, rfl⟩ | ⟨x, rfl⟩ | ⟨v, -, hperf⟩
  · cases ht
  · cases ht
  · rw [← hsame.1, ← hsame.2]
    cases hperf
    case raised => cases ht
    case zTrailerEnd => cases ht
    all_goals simp

/-- Settles O55: the setting is the one with the bytes appended and the flag set, the output being as it is. -/
theorem noLookahead : Obligations.NoLookahead := by
  unfold Obligations.NoLookahead
  intro m s t more c hI h hreq hst hgoes
  obtain ⟨-, -, hcap, hout, -⟩ := cursorDiscipline m s t h hst
  have hstep := step_of_completed hI h hreq hst hgoes ⟨more, c, 0, [], s.outCap, s.outClosed, s.status, s.reply⟩
    fun _ hlt => by simpa using hlt
  have hs : s.inSetting ⟨more, c, 0, [], s.outCap, s.outClosed, s.status, s.reply⟩ =
      { s with inBytes := s.inBytes ++ more, inClosed := c } := by simp [State.inSetting]
  have ht : t.inSetting ⟨more, c, 0, [], s.outCap, s.outClosed, s.status, s.reply⟩ =
      { t with inBytes := t.inBytes ++ more, inClosed := c } := by
    cases hb : t.busy with
    | false => simp [State.inSetting, hcap, hout, hb]
    | true =>
      obtain ⟨hk, hrep⟩ := status_of_busy h hst hb
      simp [State.inSetting, hcap, hout, hb, hk, hrep]
  rwa [hs, ht] at hstep

end

/-- A micro-step that completes and ends the call leaves the phase ACTIVE (R289, R320). -/
theorem Performs.phase_of_ended {m : MicroStep} {v : Nat} {u t : State} (h : Performs v u m t) (hu : u.busy = true)
    (ht : t.busy = false) : t.phase ≠ .active := by
  cases h
  case zTrailerEnd => simp
  case raised => simp
  all_goals simp [hu] at ht

/-- A micro-step that needs output space and goes on has appended its byte (R246). -/
theorem Performs.appends {m : MicroStep} {v : Nat} {u t : State} (h : Performs v u m t) (hw : NeedsRoom m u)
    (ht : t.busy = true) : t.outBytes.length = u.outBytes.length + 1 := by
  cases h
  case sCopy => simp
  case yEmit => simp
  case yCopy => simp
  case sCopyEnd h0 => exact absurd h0 hw
  case yCopyEnd h0 => exact absurd h0 hw
  case raised => cases ht
  all_goals exact hw.elim

theorem appends_of_goesOn {m : MicroStep} {a b : State} (h : Runs m a) (hreq : a.requests = [])
    (hst : step a = .next b) (hb : b.busy = true) (hw : NeedsRoom m a) :
    b.outBytes.length = a.outBytes.length + 1 := by
  have hends := step_ends h hst
  rw [tick_of_no_requests hreq] at hends
  cases hends with
  | suspended _ hk => subst hk; cases hb
  | raised _ hx => subst hx; cases hb
  | @completed v u hr hperf =>
    have hu := onlyReader_of_readAt hr
    have hwu : NeedsRoom m u := by rw [hu]; exact hw
    rw [hperf.appends hwu hb, hu]

/-! ## Runs with nothing pending -/

/-- What a step with nothing pending keeps. -/
structure Quiet (a b : State) : Prop where
  inv : Inv b
  requests : b.requests = []
  inClosed : b.inClosed = a.inClosed
  outCap : b.outCap = a.outCap
  outClosed : b.outClosed = a.outClosed
  output : a.outBytes.length ≤ b.outBytes.length

theorem step_quiet {a b : State} (hI : Inv a) (hreq : a.requests = []) (hst : step a = .next b) : Quiet a b := by
  have hinv := stepKeepsInvariant a b hI hst
  have hp := presented_of_no_requests hreq
  cases hb : a.busy with
  | false =>
    rw [step_of_idle hp hb, tick_of_no_requests hreq] at hst
    cases hst
    exact ⟨hI, hreq, rfl, rfl, rfl, le_rfl⟩
  | true =>
    obtain ⟨m, h⟩ := hI.runs hp hb
    obtain ⟨-, hclosed, hcap, hout, hbytes⟩ := cursorDiscipline m a b h hst
    obtain ⟨u, hu, hsame, -⟩ := step_cursors h hst
    obtain ⟨-, -, -, -, -, -, hrequests⟩ := hsame
    refine ⟨hinv, ?_, hclosed, hcap, hout, ?_⟩
    · rw [hrequests, ← hu, readAt_only m (tick a), tick_of_no_requests hreq]; exact hreq
    · rcases hbytes with ⟨h, -⟩ | ⟨x, -, h, -⟩ <;> simp [h]

theorem runSteps_succ {n : Nat} {a u : State} (h : runSteps (n + 1) a = .next u) :
    ∃ b, step a = .next b ∧ runSteps n b = .next u := by
  rw [runSteps] at h
  cases hst : step a with
  | next b => exact ⟨b, rfl, by rw [hst] at h; exact h⟩
  | fault r => rw [hst] at h; cases h
  | refused r => rw [hst] at h; cases h

theorem runSteps_of_step {n : Nat} {a b : State} (h : step a = .next b) : runSteps (n + 1) a = runSteps n b := by
  rw [runSteps, h]

/-- An idle machine with nothing pending stays as it is (R311). -/
theorem runSteps_of_idle {n : Nat} {a : State} (hreq : a.requests = []) (hb : a.busy = false) :
    runSteps n a = .next a := by
  induction n with
  | zero => rfl
  | succ n ih =>
    have hst : step a = .next a := by
      rw [step_of_idle (presented_of_no_requests hreq) hb, tick_of_no_requests hreq]
    rw [runSteps_of_step hst, ih]

/-- A run with nothing pending is the same in a setting that matches. -/
theorem runSteps_of_matches {e : Setting} {n : Nat} {a u : State} (hI : Inv a) (hreq : a.requests = [])
    (he : e.Matches a) (h : runSteps n a = .next u) :
    runSteps n (a.inSetting e) = .next (u.inSetting e) ∧ e.Matches u := by
  induction n generalizing a with
  | zero => cases h; exact ⟨rfl, he⟩
  | succ n ih =>
    obtain ⟨b, hst, hrun⟩ := runSteps_succ h
    have hq := step_quiet hI hreq hst
    have hstep : step (a.inSetting e) = .next (b.inSetting e) := by rw [step_of_matches hI hreq he, hst]; rfl
    rw [runSteps_of_step hstep]
    exact ih hq.inv hq.requests ⟨he.more, he.inClosed.trans hq.inClosed.symm, by rw [hq.outCap]; exact he.cap,
      he.outClosed.trans hq.outClosed.symm⟩ hrun

/-! ## Two calls and one (R295) -/

theorem CallEnds.of_step {a b w : State} (h : step a = .next b) (hw : CallEnds b w) : CallEnds a w := by
  obtain ⟨n, hn, hb⟩ := hw
  exact ⟨n + 1, (runSteps_of_step h).trans hn, hb⟩

/-- Calls that do the same next end in the same way. -/
theorem CallEnds.congr {a b w : State} (h : step a = step b) (hb : b.busy = true) (hw : CallEnds b w) :
    CallEnds a w := by
  obtain ⟨n, hn, hidle⟩ := hw
  cases n with
  | zero => cases hn; rw [hb] at hidle; cases hidle
  | succ n =>
    obtain ⟨x, hst, hrun⟩ := runSteps_succ hn
    exact .of_step (h.trans hst) ⟨n, hrun, hidle⟩

section
variable (s t : State) (o : OutCursor) (more : List Byte) (c : Bool)

/-- The first call, from `s` to `t`, as a part of one call over the input of both: `more` follows its input, and its
output space is what it has used and the space `o` of the second. -/
def asFirstPart : Setting := ⟨more, c, 0, [], t.outBytes.length + o.cap, o.closed, s.status, s.reply⟩

/-- The second call as a part of that call: the first has taken and appended what it has. -/
def asSecondPart : Setting := ⟨[], c, t.consumed, t.outBytes, t.outBytes.length + o.cap, o.closed, s.status, s.reply⟩

theorem asSecondPart_matches :
    (asSecondPart s t o c).Matches (openCall (some o) (some ⟨t.inBytes ++ more, c⟩) t) := ⟨rfl, rfl, rfl, rfl⟩

theorem inSetting_asFirstPart (o₁ : OutCursor) (i₁ : InCursor) :
    (openCall (some o₁) (some i₁) s).inSetting (asFirstPart s t o more c) =
      openCall (some ⟨t.outBytes.length + o.cap, o.closed⟩) (some ⟨i₁.bytes ++ more, c⟩) s := rfl

/-- The second call goes on, in the whole call, from what the suspended read `u` of the first has left. -/
theorem inSetting_asSecondPart {u : State} (k : Status) (hb : u.busy = true) :
    (openCall (some o) (some ⟨(endSuspended k u).inBytes ++ more, c⟩) (endSuspended k u)).inSetting
        (asSecondPart s (endSuspended k u) o c) = u.inSetting (asFirstPart s (endSuspended k u) o more c) := by
  simp [State.inSetting, asFirstPart, asSecondPart, openCall, endSuspended, hb]

variable {s t}

/-- The step that suspends the first call is, in the whole call, the first step of the second. -/
theorem step_of_suspended {m : MicroStep} {a : State} (hI : Inv a) (h : Runs m a) (hreq : a.requests = [])
    (hst : step a = .next t) (ht : t.busy = false) (hp : t.phase = .active) :
    step (a.inSetting (asFirstPart s t o more c)) =
      step ((openCall (some o) (some ⟨t.inBytes ++ more, c⟩) t).inSetting (asSecondPart s t o c)) := by
  have hends := step_ends h hst
  rw [tick_of_no_requests hreq] at hends
  cases hends with
  | @suspended k u hr hk =>
    subst hk
    have hu := onlyReader_of_suspend hr
    have hb : u.busy = true := by rw [hu]; exact h.1
    rw [inSetting_asSecondPart s o more c k hb, step_inSetting hI h hreq (.refl a), step_inSetting hI h hreq hu]
    rcases (readAt_reading m a).suspends hr with ⟨-, -, rfl, -⟩ | ⟨-, -, -, hres⟩
    · rfl
    · rw [hres]
  | raised _ hx => subst hx; cases hp
  | completed hr hperf => exact absurd hp (hperf.phase_of_ended (by rw [onlyReader_of_readAt hr]; exact h.1) ht)

/-- The first call up to its suspension, in the whole call: the bytes it has not yet appended are those it will, so that
there is room for them, and its last step is the first of the second call. -/
theorem callEnds_of_firstPart {n : Nat} {a w : State} (hI : Inv a) (hreq : a.requests = []) (hb : a.busy = true)
    (hrun : runSteps n a = .next t) (ht : t.busy = false) (hp : t.phase = .active)
    (hw : CallEnds ((openCall (some o) (some ⟨t.inBytes ++ more, c⟩) t).inSetting (asSecondPart s t o c)) w) :
    a.outBytes.length ≤ t.outBytes.length ∧ CallEnds (a.inSetting (asFirstPart s t o more c)) w := by
  induction n generalizing a with
  | zero => cases hrun; rw [hb] at ht; cases ht
  | succ n ih =>
    obtain ⟨b, hst, hrun⟩ := runSteps_succ hrun
    obtain ⟨m, h⟩ := hI.runs (presented_of_no_requests hreq) hb
    have hq := step_quiet hI hreq hst
    cases hbb : b.busy with
    | false =>
      rw [runSteps_of_idle hq.requests hbb] at hrun
      cases hrun
      exact ⟨hq.output, hw.congr (step_of_suspended o more c hI h hreq hst ht hp) rfl⟩
    | true =>
      obtain ⟨hle, hends⟩ := ih hq.inv hq.requests hbb hrun
      refine ⟨hq.output.trans hle, .of_step (step_of_completed hI h hreq hst (.inl hbb) _ fun hroom _ => ?_) hends⟩
      have happ := appends_of_goesOn h hreq hst hbb hroom
      simp only [asFirstPart, List.length_nil]
      omega

end

theorem runSteps_quiet {n : Nat} {a b : State} (hI : Inv a) (hreq : a.requests = []) (h : runSteps n a = .next b) :
    Inv b ∧ b.requests = [] := by
  induction n generalizing a with
  | zero => cases h; exact ⟨hI, hreq⟩
  | succ n ih =>
    obtain ⟨x, hst, hrun⟩ := runSteps_succ h
    have hq := step_quiet hI hreq hst
    exact ih hq.inv hq.requests hrun

theorem Inv.openCall {s : State} (h : Inv s) (hp : s.phase = .active) (hb : s.busy = false) (o : OutCursor)
    (i : InCursor) : Inv (openCall (some o) (some i) s) := by
  refine execDecode_inv (out := some o) (inp := some i) h ?_
  simp [execDecode, hb, hp, entryError]

/-- Settles O56: the whole call does what the first does, for its output space is that much at least; the step that
suspends the first is there the first step of the second, and what the second does then it does in the whole call. -/
theorem splitCallsCompose : Obligations.SplitCallsCompose := by
  unfold Obligations.SplitCallsCompose
  intro s t u o₁ o₂ i₁ more c hI hp hb hreq h₁ ht h₂
  obtain ⟨n, hrun₁, hidle₁⟩ := h₁
  obtain ⟨k, hrun₂, hidle₂⟩ := h₂
  have hI₁ := hI.openCall hp hb o₁ i₁
  obtain ⟨hIt, hreqt⟩ := runSteps_quiet hI₁ hreq hrun₁
  have hI₂ := hIt.openCall ht hidle₁ o₂ ⟨t.inBytes ++ more, c⟩
  obtain ⟨hrun, hmatch⟩ := runSteps_of_matches hI₂ hreqt (asSecondPart_matches s t o₂ more c) hrun₂
  have hidle : (u.inSetting (asSecondPart s t o₂ c)).busy = false := hidle₂
  obtain ⟨-, hends⟩ := callEnds_of_firstPart o₂ more c hI₁ hreq rfl hrun₁ hidle₁ ht ⟨k, hrun, hidle⟩
  rw [inSetting_asFirstPart] at hends
  have hu : u.inSetting (asSecondPart s t o₂ c) = { u with
      outBytes := t.outBytes ++ u.outBytes, consumed := t.consumed + u.consumed,
      outCap := t.outBytes.length + o₂.cap } := by
    obtain ⟨-, hc, -, ho⟩ := hmatch
    simp [State.inSetting, hidle₂, ← hc, ← ho, asSecondPart]
  rw [hu] at hends
  exact ⟨_, hends, rfl, rfl, rfl, rfl, rfl, fun _ => rfl⟩

end Sys2Proof.Machine
end

section
/-! The history window (spec/20_memory.md R67 to R69, R79; spec/44_symbol_loop_window.md R240, R241, R246 to R248): what
it holds after a number of bytes, that a back-reference which overlaps itself repeats what it has just written, and
which instructions write it. -/

namespace Sys2Proof.Machine

/-! ## What the window holds (R69) -/

/-- The byte that location `a` of the window holds after the bytes `bs`: the last one whose number is `a` modulo the
capacity, and 0 where there is none. -/
def windowByte (bs : List Byte) (a : Nat) : Byte :=
  let n : Int := (bs.length : Int) - 1 - ((bs.length : Int) - 1 - a) % 32768
  if 0 ≤ n then bs.getD n.toNat 0 else 0

theorem windowByte_append (bs : List Byte) (b : Byte) {a : Nat} (ha : a < 32768) :
    windowByte (bs ++ [b]) a = if a = bs.length % 32768 then b else windowByte bs a := by
  unfold windowByte
  simp only [List.length_append, List.length_singleton]
  by_cases h : a = bs.length % 32768
  · have hn : ((bs.length + 1 : Nat) : Int) - 1 - (((bs.length + 1 : Nat) : Int) - 1 - a) % 32768 = bs.length := by
      omega
    rw [if_pos h, hn, if_pos (by omega), Int.toNat_natCast, List.getD_append_right _ _ _ _ le_rfl]
    simp
  · have hn : ((bs.length + 1 : Nat) : Int) - 1 - (((bs.length + 1 : Nat) : Int) - 1 - a) % 32768 =
        (bs.length : Int) - 1 - ((bs.length : Int) - 1 - a) % 32768 := by omega
    rw [if_neg h, hn]
    split
    · rw [List.getD_append _ _ _ _ (by omega)]
    · rfl

/-- The effect of a run of emitted bytes on an empty window. -/
theorem emits_window (s : State) (bs : List Byte) (hh : s.hist = []) (hp : s.produced = 0) :
    let t := bs.foldl (fun u b => emit b u) s
    t.produced = bs.length ∧ t.outBytes = s.outBytes ++ bs ∧ t.hist.wf = true ∧
      ∀ a, a < 32768 → memRead t.hist a = windowByte bs a := by
  induction bs using List.reverseRecOn with
  | nil => exact ⟨hp, by simp, by rw [List.foldl_nil, hh]; rfl, fun a ha => by
      rw [List.foldl_nil, hh, windowByte, if_neg (by simp; omega)]; rfl⟩
  | append_singleton bs b ih =>
    obtain ⟨hprod, hout, hwf, hread⟩ := ih
    simp only [List.foldl_append, List.foldl_cons, List.foldl_nil, emit_fields, hprod, hout, List.length_append,
      List.length_singleton, List.append_assoc]
    refine ⟨trivial, trivial, wf_memWrite b hwf (Nat.mod_lt _ (by decide)), fun a ha => ?_⟩
    rw [memRead_memWrite hwf, windowByte_append bs b ha, hread a ha]
    rfl

/-- Settles O39: by induction on the bytes, each of which overwrites the location of its own number. -/
theorem windowHoldsTheLastBytes : Obligations.WindowHoldsTheLastBytes := by
  unfold Obligations.WindowHoldsTheLastBytes
  intro s bs a hh hp ha
  obtain ⟨hprod, hout, -, hread⟩ := emits_window s bs hh hp
  exact ⟨hprod, hout, fun hn => (hread a ha).trans (if_pos hn), fun hn => (hread a ha).trans (if_neg (by omega))⟩

/-! ## The overlapping copy (R240, R241) -/

/-- A byte of a back-reference, where there is room for it: read, then emitted. -/
theorem step_of_copy {s : State} (hI : Inv s) (h : Runs .yCopy s) (hreq : s.requests = []) (h0 : s.yRem ≠ 0)
    (hroom : s.outBytes.length < s.outCap) :
    step s = .next { emit (histRead s.yDist s) s with yRem := s.yRem - 1 } := by
  have hread : readAt .yCopy s = .ok 0 s := by rw [readAt, if_neg h0, needOut, if_pos hroom]; rfl
  rw [step_eq_perform hI h, tick_of_no_requests hreq, hread, Res.andThen, perform]
  exact if_neg h0

/-- What a back-reference at `s` has copied: byte `j` of `out` is the byte `y_dist` back, in the window as it was at `s`
or in `out` itself. -/
def CopiedFrom (s : State) (out : List Byte) : Prop :=
  ∀ j, j < out.length →
    out[j]? = some (if j < s.yDist then memRead s.hist ((s.produced - s.yDist + j) % 32768)
      else out.getD (j - s.yDist) 0)

/-- The first byte copied, then what is copied from the window with it written. -/
theorem CopiedFrom.cons {s t : State} {out : List Byte} (h : CopiedFrom t out) (hwf : s.hist.wf = true)
    (h1 : 1 ≤ s.yDist) (hw : s.yDist ≤ 32768) (hp : s.yDist ≤ s.produced) (hd : t.yDist = s.yDist)
    (hpt : t.produced = s.produced + 1)
    (hh : t.hist = memWrite s.hist (s.produced % windowSize) (histRead s.yDist s)) :
    CopiedFrom s (histRead s.yDist s :: out) := by
  intro j hj
  cases j with
  | zero => rw [if_pos (by omega)]; rfl
  | succ j =>
    rw [List.getElem?_cons_succ, h j (by simpa using hj), hd, hpt, hh, memRead_memWrite hwf]
    by_cases hlt : j + 1 < s.yDist
    · have hne : (s.produced + 1 - s.yDist + j) % 32768 ≠ s.produced % windowSize := by simp only [windowSize]; omega
      rw [if_pos (by omega), if_neg hne, if_pos hlt]
      congr 3
      omega
    · rw [if_neg hlt]
      by_cases heq : j + 1 = s.yDist
      · have hloc : (s.produced + 1 - s.yDist + j) % 32768 = s.produced % windowSize := by simp only [windowSize]; omega
        rw [if_pos (by omega), if_pos hloc, heq, Nat.sub_self]
        rfl
      · obtain ⟨k, hk⟩ : ∃ k, j + 1 - s.yDist = k + 1 := ⟨j - s.yDist, by omega⟩
        rw [if_neg (by omega), hk, List.getD_cons_succ, show j - s.yDist = k by omega]

/-- Settles O40: by induction on the bytes left, the first one copied by the first step, the others from its state. -/
theorem overlappingCopyRepeats : Obligations.OverlappingCopyRepeats := by
  unfold Obligations.OverlappingCopyRepeats
  suffices h : ∀ n s, s.yRem = n → Inv s → Runs .yCopy s → s.requests = [] → n ≤ s.outCap - s.outBytes.length →
      ∃ t out, runSteps n s = .next t ∧ t.outBytes = s.outBytes ++ out ∧ out.length = n ∧
        t.produced = s.produced + n ∧ t.yRem = 0 ∧ microStep t = some .yCopy ∧ CopiedFrom s out by
    intro s hI hr hreq hroom
    obtain ⟨t, out, hrun, hout, hlen, hprod, hrem, hm, hcopy⟩ := h _ s rfl hI hr hreq hroom
    exact ⟨t, out, hrun, hout, hlen, hprod, hrem, hm, fun j hj => hcopy j (hlen ▸ hj)⟩
  intro n
  induction n with
  | zero =>
    intro s hn _ hr _ _
    exact ⟨s, [], rfl, by simp, rfl, rfl, hn, hr.2.2, fun _ hj => absurd hj (by simp)⟩
  | succ n ih =>
    intro s hn hI hr hreq hroom
    have hst := step_of_copy hI hr hreq (by omega) (by omega)
    have hI' := stepKeepsInvariant _ _ hI hst
    obtain ⟨-, -, -, -, h1, hw, hp⟩ := hI.localsOk hr.1 hr.2.2
    obtain ⟨t, out, hrun, hout, hlen, hprod, hrem, hm, hcopy⟩ := ih _ (by simp [hn]) hI'
      ⟨hr.1, presented_of_no_requests hreq, hr.2.2⟩ hreq (by simp; omega)
    refine ⟨t, histRead s.yDist s :: out, (runSteps_of_step hst).trans hrun, ?_, by simp [hlen], ?_, hrem, hm,
      hcopy.cons hI.window h1 hw hp rfl rfl rfl⟩
    · simp [hout]
    · rw [hprod]; simp; omega

/-! ## Which instructions write the window (R67, R246) -/

/-- Nothing has been emitted from `s` to `t`. -/
def WindowKept (s t : State) : Prop := t.produced = s.produced ∧ t.hist = s.hist

/-- The element `i` is one that emits, at the micro-step where it does: RAW at `S_COPY`, one of the literal/length
alphabet at `Y_EMIT`, one of the distance alphabet at `Y_COPY` (R188, R236, R240). -/
def EmitsAt (i : Instr) (s : State) : Prop :=
  microStep s = some .sCopy ∧ formatOf i = .raw ∨ microStep s = some .yEmit ∧ formatOf i = .llsym ∨
    microStep s = some .yCopy ∧ formatOf i = .dsym

/-- What the element `i` has done to the window: nothing, or it has written one byte at the write position. -/
inductive WindowEffect (i : Instr) (s t : State) : Prop
  | kept : WindowKept s t → WindowEffect i s t
  | wrote (b : Byte) : t.produced = s.produced + 1 → t.hist = memWrite s.hist (s.produced % windowSize) b →
      EmitsAt i s → WindowEffect i s t

/-- A read keeps the window, and what goes on after it may. -/
theorem windowKept_of_andThen {α : Type} {r : Res α} {K : α → State → Answer} {s t : State} (ho : OnlyReader s r.left)
    (h : r.andThen K = .next t) (hK : ∀ v u, K v u = .next t → WindowKept u t) : WindowKept s t := by
  cases r with
  | ok v u =>
    obtain ⟨hp, hh⟩ := hK v u h
    have hu : u = _ := ho
    exact ⟨by rw [hp, hu], by rw [hh, hu]⟩
  | suspend k u => cases h; rw [show u = _ from ho]; exact ⟨rfl, rfl⟩
  | raise x u => cases h; rw [show u = _ from ho]; exact ⟨rfl, rfl⟩

/-- Emitting a byte writes it, unless there is no room (R66, R246). -/
theorem windowEffect_of_emit {i : Instr} {b : Byte} {g : State → State} {s t : State}
    (h : finish ((emitChecked b s).bind fun _ u => .ok () (g u)) = .next t) (hg : WindowKept (emit b s) (g (emit b s)))
    (hwhere : EmitsAt i s) : WindowEffect i s t := by
  rcases emitChecked_cases b s with ⟨-, he⟩ | ⟨-, -, he⟩ | ⟨-, -, he⟩ <;> rw [he] at h <;> cases h
  · exact .wrote b (hg.1.trans (by simp)) (hg.2.trans (by simp)) hwhere
  · exact .kept ⟨rfl, rfl⟩
  · exact .kept ⟨rfl, rfl⟩

/-- A symbol of the literal/length alphabet decodes to its element (R100). -/
theorem decode_encode_llsym {i : Instr} (h : formatOf i = .llsym) : decode .llsym (encode i) = .ok i := by
  cases i
  case lit b => simpa [encode] using decode_lit b.isLt
  all_goals simp only [formatOf, reduceCtorEq] at h
  all_goals rfl

/-- A symbol of the distance alphabet decodes to its element (R101). -/
theorem decode_encode_dsym {i : Instr} (h : formatOf i = .dsym) : decode .dsym (encode i) = .ok i := by
  cases i
  all_goals simp only [formatOf, reduceCtorEq] at h
  all_goals rfl

section
variable {i : Instr} {s t : State}

theorem llsym_window (hf : formatOf i = .llsym) (h : exec i s = .next t) : WindowEffect i s t := by
  rw [← runField_ok (decode_encode_llsym hf)] at h
  rcases runField_llsym (encode i) with ⟨b, hv⟩ | hv | ⟨-, -, hv⟩ | hv | hv <;> rw [hv] at h
  · unfold execLit at h
    split at h
    · cases h; exact .kept ⟨rfl, rfl⟩
    · next hm => exact windowEffect_of_emit h ⟨rfl, rfl⟩ (.inr (.inl ⟨hm, hf⟩))
    · cases h
  · cases next_of_atStep h; exact .kept ⟨rfl, rfl⟩
  · unfold lengthElement at h
    split at h
    · cases h; exact .kept ⟨rfl, rfl⟩
    · rw [finish_bind] at h
      exact .kept (windowKept_of_andThen (readLength_ends _ s).only h fun v u h => by cases h; exact ⟨rfl, rfl⟩)
    · cases h
  · cases next_of_atStep h; exact .kept ⟨rfl, rfl⟩
  · cases h

theorem dsym_window (hf : formatOf i = .dsym) (h : exec i s = .next t) : WindowEffect i s t := by
  rw [← runField_ok (decode_encode_dsym hf)] at h
  rcases runField_dsym (encode i) with ⟨-, hv⟩ | hv | hv <;> rw [hv] at h
  · unfold distanceElement at h
    split at h
    · cases h; exact .kept ⟨rfl, rfl⟩
    · rw [startCopy, finish_bind] at h
      refine .kept (windowKept_of_andThen (readDistance_ends _ s).only h fun d u h => ?_)
      split at h <;> cases h <;> exact ⟨rfl, rfl⟩
    · next hm =>
      unfold copyByte at h
      split at h
      · cases h; exact .kept ⟨rfl, rfl⟩
      · exact windowEffect_of_emit h ⟨rfl, rfl⟩ (.inr (.inr ⟨hm, hf⟩))
    · cases h
  · cases next_of_atStep h; exact .kept ⟨rfl, rfl⟩
  · cases h

/-- The combined length sequence is no part of the window. -/
theorem windowKept_of_repeat {w base : Nat} {start : Answer} (hs : start = .next t → WindowKept s t)
    (h : repeatElement w base start s = .next t) : WindowKept s t := by
  unfold repeatElement at h
  split at h
  · split at h
    · exact hs h
    · cases h
  · rw [runRepeat, finish_bind] at h
    refine windowKept_of_andThen (needPlus_ends base w s).only h fun r u h => ?_
    split at h
    · cases h; exact ⟨rfl, rfl⟩
    · cases h; exact ⟨by simp, by simp⟩
  · cases h

theorem raw_window {b : Byte} (h : execRaw b s = .next t) : WindowEffect (.raw b) s t := by
  unfold execRaw at h
  by_cases hm : microStep s = some .sCopy
  · rw [atStep, if_pos hm] at h
    split at h
    · cases h
    · exact windowEffect_of_emit h ⟨rfl, rfl⟩ (.inl ⟨hm, rfl⟩)
  · rw [atStep, if_neg hm] at h; cases h

/-- Everything an element can do to the window. -/
theorem element_window (hi : i.isHost = false) (h : exec i s = .next t) : WindowEffect i s t := by
  by_cases hll : formatOf i = .llsym
  · exact llsym_window hll h
  by_cases hd : formatOf i = .dsym
  · exact dsym_window hd h
  cases i
  case raw b => exact raw_window h
  case clRep =>
    refine .kept (windowKept_of_repeat (fun h => ?_) h)
    split at h <;> cases h <;> exact ⟨rfl, rfl⟩
  case clZrep => exact .kept (windowKept_of_repeat (fun h => by cases h; exact ⟨rfl, rfl⟩) h)
  case clZrepl => exact .kept (windowKept_of_repeat (fun h => by cases h; exact ⟨rfl, rfl⟩) h)
  case zhdr x =>
    have h := next_of_atStep h
    split at h <;> cases h <;> exact .kept ⟨rfl, rfl⟩
  case ztrl x =>
    have h := next_of_atStep h
    split_ifs at h <;> cases h <;> exact .kept ⟨rfl, rfl⟩
  case blkStored f => cases next_of_atStep h; exact .kept ⟨rfl, rfl⟩
  case blkFixed f => cases next_of_atStep h; exact .kept ⟨rfl, rfl⟩
  case blkDynamic f => cases next_of_atStep h; exact .kept ⟨rfl, rfl⟩
  case blkReserved f => cases next_of_atStep h; exact .kept ⟨rfl, rfl⟩
  case sLen len nlen =>
    have h := next_of_atStep h
    split at h <;> cases h <;> exact .kept ⟨rfl, rfl⟩
  case dCounts hlit hdist hclen =>
    have h := next_of_atStep h
    split at h <;> cases h <;> exact .kept ⟨rfl, rfl⟩
  case dCllen v =>
    have h := next_of_atStep h
    split at h <;> cases h
    exact .kept ⟨rfl, rfl⟩
  case clLen n =>
    have h := next_of_atStep h
    split at h <;> cases h
    exact .kept ⟨by simp, by simp⟩
  case reset => cases hi
  case init v => cases hi
  case decode out inp => cases hi
  all_goals simp [formatOf] at hll hd

/-- INIT empties the window, or is answered as an overlapping call (R283, R291). -/
theorem init_window {v : Nat} (h : execInit v s = .next t) : t.hist = [] ∨ t.hist = s.hist := by
  unfold execInit at h
  split_ifs at h
  · cases h; exact .inr rfl
  · cases h; exact .inl rfl
  · cases h; exact .inl rfl

/-- DECODE opens a call, or is answered; the window stays (R285, R291). -/
theorem decode_window {out : Option OutCursor} {inp : Option InCursor} (h : execDecode out inp s = .next t) :
    WindowKept s t := by
  unfold execDecode at h
  split at h
  · cases h; exact ⟨rfl, rfl⟩
  · split at h <;> cases h <;> exact ⟨rfl, rfl⟩

end

/-- Settles O41: of the host's operations RESET and INIT are clause three and DECODE keeps the window; an element keeps
it or writes one byte. -/
theorem windowFrame : Obligations.WindowFrame := by
  unfold Obligations.WindowFrame
  intro i s t h hwf
  cases hi : i.isHost with
  | false =>
    have hno : ¬ (i = .reset ∨ ∃ v, i = .init v) := by
      rintro (rfl | ⟨v, rfl⟩) <;> cases hi
    cases element_window hi h with
    | kept hk =>
      exact ⟨fun _ _ _ a => by rw [hk.2], fun hne => absurd hk.1 hne, fun h => absurd h hno⟩
    | wrote b hp hh hwhere =>
      refine ⟨fun heq => by omega, fun _ _ => ⟨hp, fun a ha => ?_, hwhere⟩, fun h => absurd h hno⟩
      rw [hh, memRead_memWrite hwf]
      exact if_neg ha
  | true =>
    cases i
    case reset =>
      cases h
      exact ⟨fun _ hr => absurd rfl hr, fun _ => nofun, fun _ => .inl rfl⟩
    case init v =>
      exact ⟨fun _ _ hv => absurd rfl (hv v), fun _ => nofun, fun _ => init_window h⟩
    case decode out inp =>
      have hk := decode_window h
      exact ⟨fun _ _ _ a => by rw [hk.2], fun hne => absurd hk.1 hne, fun _ => .inr hk.2⟩
    all_goals cases hi

end Sys2Proof.Machine
end

section
/-! The encodings (spec/30_encoding.md R117): a format's values are the encodings of its elements, one each. -/

namespace Sys2Proof.Machine

/-! ## Decoding what has been encoded -/

/-- The host's operations are the rows of the format HOST. -/
theorem isHost_eq (i : Instr) : i.isHost = (formatOf i == .host) := by cases i <;> rfl

theorem isHost_of_format {i : Instr} {f : Format} (h : formatOf i = f) (hf : f ≠ .host) : i.isHost = false := by
  rw [isHost_eq, h]; exact beq_false_of_ne hf

/-- A value that fits its field is decoded, in a format with one element in it, to that element. -/
theorem decode_eq_row {f : Format} {v : Nat} {i : Instr} (h : v < 2 ^ f.width)
    (hrow : (if 2 ^ f.width ≤ v then .error (.tooWide f v) else .ok i : Except DecodeError Instr) = decode f v) :
    decode f v = .ok i := by
  rw [← hrow, if_neg (Nat.not_le.2 h)]

/-- The two halves of a stored block's field are LEN and NLEN (R95). -/
theorem decode_encode_sLen (len nlen : Half) : decode .stored (encode (.sLen len nlen)) = .ok (.sLen len nlen) := by
  have hlen : BitVec.ofNat 16 (nlen.toNat * 2 ^ 16 + len.toNat) = len :=
    BitVec.eq_of_toNat_eq (by rw [BitVec.toNat_ofNat]; omega)
  have hnlen : (nlen.toNat * 2 ^ 16 + len.toNat) / 2 ^ 16 = nlen.toNat := by omega
  have hrow := decode_eq_row (Laws.EncodeFits.sLen len nlen rfl) rfl
  rwa [encode, hlen, hnlen, BitVec.ofNat_toNat, BitVec.setWidth_eq] at hrow

/-- The three counts are apart in the field of a dynamic header (R96). -/
theorem decode_encode_dCounts {hlit hdist hclen : Nat} (h : WellFormed (.dCounts hlit hdist hclen) = true) :
    decode .dynhdr (encode (.dCounts hlit hdist hclen)) = .ok (.dCounts hlit hdist hclen) := by
  have hrow := decode_eq_row (Laws.EncodeFits.dCounts hlit hdist hclen h) rfl
  simp only [WellFormed, Bool.and_eq_true, decide_eq_true_eq] at h
  obtain ⟨⟨hl, hd⟩, -⟩ := h
  have h1 : (hclen * 1024 + hdist * 32 + hlit) % 32 = hlit := by omega
  have h2 : (hclen * 1024 + hdist * 32 + hlit) / 32 % 32 = hdist := by omega
  have h3 : (hclen * 1024 + hdist * 32 + hlit) / 1024 = hclen := by omega
  rwa [encode, h1, h2, h3] at hrow

/-- Settles O8: by the alphabets for the Huffman-coded symbols, and field by field for the other elements. -/
theorem decodeOfEncode : Obligations.DecodeOfEncode := by
  unfold Obligations.DecodeOfEncode
  intro i hwf hhost
  by_cases hll : formatOf i = .llsym
  · rw [hll]; exact decode_encode_llsym hll
  by_cases hd : formatOf i = .dsym
  · rw [hd]; exact decode_encode_dsym hd
  cases i
  case zhdr x => simpa [encode] using decode_eq_row (Laws.EncodeFits.zhdr x rfl) rfl
  case ztrl x => simpa [encode] using decode_eq_row (Laws.EncodeFits.ztrl x rfl) rfl
  case raw b => simpa [encode] using decode_eq_row (Laws.EncodeFits.raw b rfl) rfl
  case blkStored final => cases final <;> rfl
  case blkFixed final => cases final <;> rfl
  case blkDynamic final => cases final <;> rfl
  case blkReserved final => cases final <;> rfl
  case sLen len nlen => exact decode_encode_sLen len nlen
  case dCounts hlit hdist hclen => exact decode_encode_dCounts hwf
  case dCllen v => exact decode_eq_row (Laws.EncodeFits.dCllen v hwf) rfl
  case clLen n => exact decode_clsym_len (of_decide_eq_true hwf)
  case clRep => rfl
  case clZrep => rfl
  case clZrepl => rfl
  case reset => cases hhost
  case init v => cases hhost
  case decode out inp => cases hhost
  all_goals simp [formatOf] at hll hd

/-! ## Encoding what has been decoded -/

/-- The value `v` is in format `f` the word of the element `i`. -/
def IsWordOf (f : Format) (v : Nat) (i : Instr) : Prop :=
  formatOf i = f ∧ encode i = v ∧ WellFormed i = true ∧ i.isHost = false

/-- A symbol found in a list of elements that are listed by their symbols, `k` being the first one's. -/
theorem isWordOf_of_symbolIn {f : Format} {rows : List Instr} {k v : Nat} {i : Instr}
    (hrows : ∀ p ∈ rows.zipIdx k, IsWordOf f p.2 p.1) (hk : k ≤ v) (h : symbolIn f rows (v - k) v = .ok i) :
    IsWordOf f v i := by
  unfold symbolIn at h
  split at h
  · next x hx => cases h; exact hrows (i, v) (List.mk_mem_zipIdx_iff_le_and_getElem?_sub.2 ⟨hk, hx⟩)
  · cases h

theorem isWordOf_bhdr {v : Nat} (h : v < 8) : IsWordOf .bhdr v (blockOfType (v % 2 == 1) (v / 2)) := by
  unfold IsWordOf; interval_cases v <;> decide

theorem isWordOf_stored {v : Nat} (h : v < 2 ^ 32) :
    IsWordOf .stored v (.sLen (BitVec.ofNat 16 v) (BitVec.ofNat 16 (v / 2 ^ 16))) :=
  ⟨rfl, by simp only [encode, BitVec.toNat_ofNat]; omega, rfl, rfl⟩

theorem isWordOf_dynhdr {v : Nat} (h : v < 2 ^ 14) :
    IsWordOf .dynhdr v (.dCounts (v % 32) (v / 32 % 32) (v / 1024)) :=
  ⟨rfl, by simp only [encode]; omega,
    by simp only [WellFormed, Bool.and_eq_true, decide_eq_true_eq]; omega, rfl⟩

theorem isWordOf_clsym {v : Nat} {i : Instr} (h : decode .clsym v = .ok i) : IsWordOf .clsym v i := by
  by_cases hv : v < 16
  · cases (decode_clsym_len hv).symm.trans h
    exact ⟨rfl, rfl, by simpa [WellFormed] using hv, rfl⟩
  · rw [decode, if_neg (Nat.not_le.2 (lt_of_decode h))] at h
    exact isWordOf_of_symbolIn (by unfold IsWordOf; decide) (Nat.le_of_not_lt hv) ((if_neg hv).symm.trans h)

theorem isWordOf_llsym {v : Nat} {i : Instr} (h : decode .llsym v = .ok i) : IsWordOf .llsym v i := by
  by_cases hv : v < 256
  · cases (decode_lit hv).symm.trans h
    exact ⟨rfl, by simpa [encode] using hv, rfl, rfl⟩
  · rw [decode, if_neg (Nat.not_le.2 (lt_of_decode h))] at h
    exact isWordOf_of_symbolIn (by unfold IsWordOf; decide) (Nat.le_of_not_lt hv) ((if_neg hv).symm.trans h)

theorem isWordOf_dsym {v : Nat} {i : Instr} (h : decode .dsym v = .ok i) : IsWordOf .dsym v i := by
  rw [decode, if_neg (Nat.not_le.2 (lt_of_decode h))] at h
  exact isWordOf_of_symbolIn (k := 0) (by unfold IsWordOf; decide) (Nat.zero_le v) h

/-- Settles O9: the one element of a format by its field, an alphabet by its list of symbols. -/
theorem encodeOfDecode : Obligations.EncodeOfDecode := by
  unfold Obligations.EncodeOfDecode
  intro f v i hf h
  have hlt := lt_of_decode h
  change IsWordOf f v i
  cases f with
  | zhdr => exact decode_row h rfl ▸ ⟨rfl, Nat.mod_eq_of_lt hlt, rfl, rfl⟩
  | ztrl => exact decode_row h rfl ▸ ⟨rfl, Nat.mod_eq_of_lt hlt, rfl, rfl⟩
  | raw => exact decode_row h rfl ▸ ⟨rfl, Nat.mod_eq_of_lt hlt, rfl, rfl⟩
  | bhdr => exact decode_row h rfl ▸ isWordOf_bhdr hlt
  | stored => exact decode_row h rfl ▸ isWordOf_stored hlt
  | dynhdr => exact decode_row h rfl ▸ isWordOf_dynhdr hlt
  | cllen => exact decode_row h rfl ▸ ⟨rfl, rfl, decide_eq_true hlt, rfl⟩
  | clsym => exact isWordOf_clsym h
  | llsym => exact isWordOf_llsym h
  | dsym => exact isWordOf_dsym h
  | host => exact absurd rfl hf

/-- Settles O7: by evaluation. -/
theorem writtenOutWords : Obligations.WrittenOutWords := by
  unfold Obligations.WrittenOutWords
  refine ⟨rfl, rfl, rfl, rfl, rfl, rfl, rfl, rfl, rfl, ?_⟩
  decide +kernel

end Sys2Proof.Machine
end

section
/-! The step of a call and the elements (spec/46_host_operations.md R286): a step is `exec` of the element that the field
read, or the saved locals, name; the bits of an element at the front of the stream are read as it (spec/30_encoding.md
R117, R118). -/

namespace Sys2Proof.Machine

/-! ## The step of an element (R286) -/

section
variable {s u : State} {v : Nat} {i : Instr}

/-- A step at a micro-step that fetches a field is `exec` of the element the field decodes to. -/
theorem step_of_field {m : MicroStep} {f : Format} (h : Runs m s)
    (hf : microStep (tick s) = some m → fetch (tick s) = fetchField f (.ok v u)) (hd : decode f v = .ok i) :
    step s = exec i u := by
  obtain ⟨hstep, hm⟩ := step_of_runs h
  rw [hstep, hf hm, runFetched_ok hd]

theorem step_bHeader (h : Runs .bHeader s) (hr : need 3 (tick s) = .ok v u) (hd : decode .bhdr v = .ok i) :
    step s = exec i u :=
  step_of_field h (fun hm => by rw [fetch, hm, ← hr]) hd

theorem step_dCllens (h : Runs .dCllens s) (hdue : s.dI < s.nClen) (hr : need 3 (tick s) = .ok v u)
    (hd : decode .cllen v = .ok i) : step s = exec i u :=
  step_of_field h (fun hm => by rw [fetch, hm, ← hr]; exact if_pos (by simpa using hdue)) hd

theorem step_dSym (h : Runs .dSym s) (hdue : s.dI ≠ s.nLit + s.nDist) (hr : huffDecode s.clLen (tick s) = .ok v u)
    (hd : decode .clsym v = .ok i) : step s = exec i u :=
  step_of_field h (fun hm => by
    have ht : fetch (tick s) = fetchField .clsym (huffDecode (tick s).clLen (tick s)) := by
      rw [fetch, hm]; exact if_pos (lengthDue_iff.2 (by simpa using hdue))
    rw [ht, ← hr]; simp) hd

theorem step_yLitlen (h : Runs .yLitlen s) (hr : huffDecode s.llLen (tick s) = .ok v u)
    (hd : decode .llsym v = .ok i) : step s = exec i u :=
  step_of_field h (fun hm => by rw [fetch, hm, ← hr]; simp) hd

theorem step_yDsym (h : Runs .yDsym s) (hr : huffDecode s.dLen (tick s) = .ok v u) (hd : decode .dsym v = .ok i) :
    step s = exec i u :=
  step_of_field h (fun hm => by rw [fetch, hm, ← hr]; simp) hd

end

/-- Settles O6: each micro-step fetches the field it has read, or the one the saved locals hold. -/
theorem stepRunsDecodedElement : Obligations.StepRunsDecodedElement := by
  unfold Obligations.StepRunsDecodedElement
  intro s i v u
  refine ⟨fun h hr => ?_, fun h hn => ?_, step_bHeader, fun h hr => ?_, fun h hs hr => ?_, fun h hr => ?_, step_dCllens,
    step_dSym, fun h => ?_, step_yLitlen, fun h => ?_, fun h => ?_, step_yDsym, fun h => ?_, fun h => ?_⟩
  · exact step_of_field h fun hm => by rw [fetch, hm, ← hr]
  · exact step_of_field h fun hm => by rw [fetch, hm]; simp [hn]
  · exact step_of_field h fun hm => by rw [fetch, hm, ← hr]
  · exact step_of_field h fun hm => by rw [fetch, hm, ← hr]; simp [hs]
  · exact step_of_field h fun hm => by rw [fetch, hm, ← hr]
  · exact step_of_field h fun hm => by rw [fetch, hm]; simp
  · have hd : decode .llsym s.yLit.toNat = .ok (.lit s.yLit) := decode_encode_llsym (i := .lit s.yLit) rfl
    exact step_of_field h (fun hm => by rw [fetch, hm]; simp) hd
  · exact step_of_field h fun hm => by rw [fetch, hm]; simp
  · exact step_of_field h fun hm => by rw [fetch, hm]; simp
  · exact step_of_field h fun hm => by rw [fetch, hm]; simp

/-! ## The bits of an element at the front of the stream (R118) -/

/-- The bits of a field at the front of the stream are read as its value (R71, R143). -/
theorem need_of_front {s : State} {n v : Nat} {rest : List Bool} (hb : s.bits.toNat < 2 ^ s.nBits) (hn : n ≤ 24)
    (hv : v < 2 ^ n) (hp : pendingBits s = plainBits n v ++ rest) :
    ∃ u, need n s = .ok v u ∧ pendingBits u = rest ∧ OnlyReader s u := by
  obtain ⟨hread, -, -, henough⟩ := fieldsAreStreamBits s n hb hn
  obtain ⟨w, u, hr⟩ := henough (by simp [hp])
  obtain ⟨hw, hpw, ho, -⟩ := hread w u hr
  obtain ⟨hbits, hrest⟩ := List.append_inj (hpw.symm.trans hp) (by simp)
  have hvw : w = v := by simpa [Nat.mod_eq_of_lt hw, Nat.mod_eq_of_lt hv] using plainBits_inj hbits
  exact ⟨u, hvw ▸ hr, hrest, ho⟩

/-- The code of a symbol at the front of the stream is read as that symbol (R72, R168). -/
theorem huffDecode_of_front {s : State} {len : List Nat} {sym : Nat} {rest : List Bool}
    (hb : s.bits.toNat < 2 ^ s.nBits) (hm : maxl len ≤ 15) (hk : kraft len ≤ 2 ^ maxl len) (h0 : len.getD sym 0 ≠ 0)
    (hp : pendingBits s = symbolBits len sym ++ rest) :
    ∃ u, huffDecode len s = .ok sym u ∧ pendingBits u = rest ∧ OnlyReader s u := by
  have hsym : sym < len.length := by
    by_contra hle
    exact h0 (List.getD_eq_default _ _ (Nat.le_of_not_lt hle))
  obtain ⟨-, hcode, -, -⟩ := huffDecodeReadsTheCode len s hb hm hk
  obtain ⟨u, hr, hrest⟩ := hcode sym rest hsym h0 hp
  exact ⟨u, hr, hrest, huffDecode_only hr⟩

/-- A table that has been accepted is not over-subscribed (R164). -/
theorem kraft_le_of_validate {len : List Nat} {a : Bool} (h : validate len a = none) : kraft len ≤ 2 ^ maxl len := by
  unfold validate at h
  split_ifs at h <;> omega

/-- Settles O36: the read of the micro-step gives the element's word, which decodes to it. -/
theorem streamBitsDecodeToTheirElement : Obligations.StreamBitsDecodeToTheirElement := by
  unfold Obligations.StreamBitsDecodeToTheirElement
  intro s i rest hI hwf hp hat
  have hb := hI.tick.bits
  have hdec : ∀ f, formatOf i = f → f ≠ .host → decode f (encode i) = .ok i := fun f hf hh =>
    hf ▸ decodeOfEncode i hwf (isHost_of_format hf hh)
  rw [← pendingBits_tick] at hp
  rcases hat with ⟨hf, h⟩ | ⟨hf, h, hdue⟩ | ⟨hf, h, hdue, h0⟩ | ⟨hf, h, h0⟩ | ⟨hf, h, h0⟩
  all_goals
    have hd := hdec _ hf (by decide)
    simp only [streamBits, hf] at hp
  · obtain ⟨u, hr, hu⟩ := need_of_front hb (by decide) (lt_of_decode hd) hp
    exact ⟨u, step_bHeader h hr hd, hu⟩
  · obtain ⟨u, hr, hu⟩ := need_of_front hb (by decide) (lt_of_decode hd) hp
    exact ⟨u, step_dCllens h hdue hr hd, hu⟩
  · obtain ⟨-, hval, -⟩ := hI.localsOk h.1 h.2.2
    have hm : maxl s.clLen ≤ 7 := maxl_le hI.clLen.2
    obtain ⟨u, hr, hu⟩ := huffDecode_of_front hb (by omega) (kraft_le_of_validate hval) h0 hp
    exact ⟨u, step_dSym h hdue hr hd, hu⟩
  · obtain ⟨hval, -⟩ := hI.localsOk h.1 h.2.2
    obtain ⟨u, hr, hu⟩ := huffDecode_of_front hb (maxl_le hI.llLen.2) (kraft_le_of_validate hval) h0 hp
    exact ⟨u, step_yLitlen h hr hd, hu⟩
  · obtain ⟨⟨-, hval, -⟩, -⟩ := hI.localsOk h.1 h.2.2
    obtain ⟨u, hr, hu⟩ := huffDecode_of_front hb (maxl_le hI.dLen.2) (kraft_le_of_validate hval) h0 hp
    exact ⟨u, step_yDsym h hr hd, hu⟩

end Sys2Proof.Machine
end

section
/-! Where an element executes (spec/30_encoding.md R90): at the micro-steps at which the grammar admits one of its
format; elsewhere the model refuses it (log entry 13). -/

namespace Sys2Proof.Machine

/-- In state `s` the grammar admits an element of the format at the micro-step: where its field ends, or where the
element that has been decoded goes on. The host's operations are in no grammar. -/
def Admits (s : State) (m : MicroStep) : Format → Prop
  | .zhdr => m = .zFlg
  | .ztrl => m = .zTrailer ∧ 4 ≤ s.zTrlN
  | .bhdr => m = .bHeader
  | .stored => m = .sNlen
  | .raw => m = .sCopy ∧ s.sRem ≠ 0
  | .dynhdr => m = .dHclen
  | .cllen => m = .dCllens ∧ s.dI < s.nClen
  | .clsym => m = .dSym ∧ s.dI ≠ s.nLit + s.nDist ∨ m = .dExtra
  | .llsym => m = .yLitlen ∨ m = .yEmit ∨ m = .yLextra
  | .dsym => m = .yDsym ∨ m = .yDextra ∨ m = .yCopy
  | .host => True

/-- What an element of format `f` can answer: a next state where it is admitted, the refusal elsewhere (log entry
13). -/
inductive AnswersWhereAdmitted (f : Format) (s : State) : Answer → Prop
  | next {m : MicroStep} (t : State) : microStep s = some m → Admits s m f → AnswersWhereAdmitted f s (.next t)
  | refused : AnswersWhereAdmitted f s (.refused .elementNotCurrent)

section
variable {f : Format} {s : State} {m : MicroStep}

/-- The end of a micro-step is a next state. -/
theorem AnswersWhereAdmitted.finish (r : Res Unit) (hm : microStep s = some m) (ha : Admits s m f) :
    AnswersWhereAdmitted f s (finish r) := by
  cases r <;> exact .next _ hm ha

theorem AnswersWhereAdmitted.atStep {a : Answer} (h : microStep s = some m → AnswersWhereAdmitted f s a) :
    AnswersWhereAdmitted f s (atStep m s a) := by
  unfold Machine.atStep
  split
  · next hm => exact h hm
  · exact .refused

theorem repeatElement_admitted (w base : Nat) {start : Answer} (hs : ∃ t, start = .next t) :
    AnswersWhereAdmitted .clsym s (repeatElement w base start s) := by
  obtain ⟨t, rfl⟩ := hs
  unfold repeatElement
  split
  · next hm =>
    split
    · next hdue => exact .next t hm (.inl ⟨rfl, lengthDue_iff.1 hdue⟩)
    · exact .refused
  · next hm => exact .finish _ hm (.inr rfl)
  · exact .refused

theorem lengthElement_admitted (v : Nat) : AnswersWhereAdmitted .llsym s (lengthElement v s) := by
  unfold lengthElement
  split
  · next hm => exact .next _ hm (.inl rfl)
  · next hm => exact .finish _ hm (.inr (.inr rfl))
  · exact .refused

theorem execLit_admitted (b : Byte) : AnswersWhereAdmitted .llsym s (execLit b s) := by
  unfold execLit
  split
  · next hm => exact .next _ hm (.inl rfl)
  · next hm => exact .finish _ hm (.inr (.inl rfl))
  · exact .refused

theorem distanceElement_admitted (v : Nat) : AnswersWhereAdmitted .dsym s (distanceElement v s) := by
  unfold distanceElement
  split
  · next hm => exact .next _ hm (.inl rfl)
  · next hm => exact .finish _ hm (.inr (.inl rfl))
  · next hm => exact .finish _ hm (.inr (.inr rfl))
  · exact .refused

theorem execRaw_admitted (b : Byte) : AnswersWhereAdmitted .raw s (execRaw b s) := by
  refine .atStep fun hm => ?_
  split
  · exact .refused
  · next hrem => exact .finish _ hm ⟨rfl, hrem⟩

theorem llsym_admitted {i : Instr} (hf : formatOf i = .llsym) : AnswersWhereAdmitted .llsym s (exec i s) := by
  cases i
  case lit b => exact execLit_admitted b
  case eob => exact .atStep fun hm => .next _ hm (.inl rfl)
  case llRsvd286 => exact .atStep fun hm => .next _ hm (.inl rfl)
  case llRsvd287 => exact .atStep fun hm => .next _ hm (.inl rfl)
  all_goals simp only [formatOf, reduceCtorEq] at hf
  all_goals exact lengthElement_admitted _

theorem dsym_admitted {i : Instr} (hf : formatOf i = .dsym) : AnswersWhereAdmitted .dsym s (exec i s) := by
  cases i
  case dRsvd30 => exact .atStep fun hm => .next _ hm (.inl rfl)
  case dRsvd31 => exact .atStep fun hm => .next _ hm (.inl rfl)
  all_goals simp only [formatOf, reduceCtorEq] at hf
  all_goals exact distanceElement_admitted _

/-- Every element answers where it is admitted. -/
theorem element_admitted {i : Instr} (hi : i.isHost = false) : AnswersWhereAdmitted (formatOf i) s (exec i s) := by
  by_cases hll : formatOf i = .llsym
  · rw [hll]; exact llsym_admitted hll
  by_cases hd : formatOf i = .dsym
  · rw [hd]; exact dsym_admitted hd
  cases i
  case zhdr x =>
    refine .atStep fun hm => ?_
    split <;> exact .next _ hm rfl
  case ztrl x =>
    refine .atStep fun hm => ?_
    split_ifs with hn
    · exact .refused
    · exact .next _ hm ⟨rfl, Nat.le_of_not_lt hn⟩
    · exact .next _ hm ⟨rfl, Nat.le_of_not_lt hn⟩
  case blkStored final => exact .atStep fun hm => .next _ hm rfl
  case blkFixed final => exact .atStep fun hm => .next _ hm rfl
  case blkDynamic final => exact .atStep fun hm => .next _ hm rfl
  case blkReserved final => exact .atStep fun hm => .next _ hm rfl
  case sLen len nlen =>
    refine .atStep fun hm => ?_
    split <;> exact .next _ hm rfl
  case raw b => exact execRaw_admitted b
  case dCounts hlit hdist hclen =>
    refine .atStep fun hm => ?_
    split <;> exact .next _ hm rfl
  case dCllen v =>
    refine .atStep fun hm => ?_
    split
    · next hdue => exact .next _ hm ⟨rfl, hdue⟩
    · exact .refused
  case clLen n =>
    refine .atStep fun hm => ?_
    split
    · next hdue => exact .next _ hm (.inl ⟨rfl, lengthDue_iff.1 hdue⟩)
    · exact .refused
  case clRep => exact repeatElement_admitted 2 3 (by split <;> exact ⟨_, rfl⟩)
  case clZrep => exact repeatElement_admitted 3 3 ⟨_, rfl⟩
  case clZrepl => exact repeatElement_admitted 7 11 ⟨_, rfl⟩
  case reset => cases hi
  case init v => cases hi
  case decode out inp => cases hi
  all_goals simp [formatOf] at hll hd

/-- An operation of the host always answers (R280). -/
theorem exec_next_of_isHost {i : Instr} (hi : i.isHost = true) (s : State) : ∃ t, exec i s = .next t := by
  cases i
  case reset => exact ⟨_, rfl⟩
  case init v =>
    simp only [exec, execInit]
    split_ifs <;> exact ⟨_, rfl⟩
  case decode out inp =>
    simp only [exec, execDecode]
    split
    · exact ⟨_, rfl⟩
    · split <;> exact ⟨_, rfl⟩
  all_goals cases hi

end

/-- Settles O60: an element answers where it is admitted, and an operation of the host always does. -/
theorem elementsOnlyWhereCurrent : Obligations.ElementsOnlyWhereCurrent := by
  unfold Obligations.ElementsOnlyWhereCurrent
  intro i s
  cases hi : i.isHost with
  | true =>
    have hf : formatOf i = .host := by simpa [isHost_eq] using hi
    exact ⟨.inl (exec_next_of_isHost hi s), fun m _ => by simp [hf]⟩
  | false =>
    have hans := element_admitted (s := s) hi
    have hwhere : ∀ m, microStep s = some m → ∀ f, formatOf i = f → (∃ t, exec i s = .next t) → Admits s m f := by
      rintro m hm _ rfl ⟨t, ht⟩
      rw [ht] at hans
      cases hans with
      | next _ hm' ha => cases hm.symm.trans hm'; exact ha
    refine ⟨?_, fun m hm => ?_⟩
    · generalize exec i s = a at hans ⊢
      cases hans with
      | next t => exact .inl ⟨t, rfl⟩
      | refused => exact .inr ⟨rfl, rfl⟩
    · have h := hwhere m hm
      exact ⟨h .bhdr, h .zhdr, h .ztrl, h .stored, h .raw, h .dynhdr, h .cllen, h .clsym, h .llsym, h .dsym⟩

end Sys2Proof.Machine
end

section
/-! The operations of the bit reader (spec/40_bit_reader.md R141 to R145). -/

namespace Sys2Proof.Machine

/-- A loop of `ensure(n)` that is allowed enough passes completes only with `n` bits buffered. -/
theorem ensureLoop_ok_le {n fuel : Nat} {s t : State} (hf : n ≤ s.nBits + fuel)
    (h : ensureLoop n fuel s = .ok () t) : n ≤ t.nBits := by
  induction fuel generalizing s with
  | zero => cases h; exact hf
  | succ fuel ih =>
    by_cases hle : n ≤ s.nBits
    · cases (ensureLoop_of_le _ hle).symm.trans h
      exact hle
    · rw [ensureLoop, if_pos (by omega)] at h
      rcases pullPush_cases s with ⟨b, rest, -, hp⟩ | ⟨-, -, hp⟩ | ⟨-, -, hp⟩ <;> rw [hp] at h
      · exact ih (by simp only [pushByte_fields, dropInByte_fields]; omega) h
      · cases h
      · cases h

/-- `ensure(n)` completes only with `n` bits buffered (R141). -/
theorem ensure_ok_le {n : Nat} {s t : State} (h : ensure n s = .ok () t) : n ≤ t.nBits :=
  ensureLoop_ok_le (by omega) h

/-- Settles O29: a pass of `ensure` is a pull and a push, and `need` is `take` in the state `ensure` leaves, where a
second `ensure` does nothing. -/
theorem bitReaderOperations : Obligations.BitReaderOperations := by
  unfold Obligations.BitReaderOperations
  intro s n
  obtain ⟨-, hclosed, hopen, -⟩ := streamPrimitives s
  refine ⟨ensure_of_le, fun b rest hlt h => ?_, fun hlt h hc => ?_, fun hlt h hc => ?_, need_of_le, fun u h => ?_,
    fun k u h => ?_, fun e u h => ?_, rfl, rfl⟩
  · rw [ensure_pull hlt, pullPush_cons h]; rfl
  · rw [ensure_pull hlt, pullPush, hopen h hc]; rfl
  · rw [ensure_pull hlt, pullPush, hclosed h hc]; rfl
  · rw [need, h, need_of_le (ensure_ok_le h)]; rfl
  · rw [need, h]; rfl
  · rw [need, h]; rfl

end Sys2Proof.Machine
end

section
/-! What the canonical codes of a length array are (spec/41_huffman_tables.md R162, R163) and what the validation of an
array answers (R164 to R166). The codes are handed out length by length in symbol order; where the Kraft sum is at its
bound they leave no bit string without a code. -/

namespace Sys2Proof.Machine

/-! ## Every bit string begins with a code of a complete table (R163) -/

/-- Every list of bits is a plain field: the one of its value. -/
theorem plainBits_bitsValue (bs : List Bool) : plainBits bs.length (bitsValue bs) = bs := by
  induction bs with
  | nil => rfl
  | cons b bs ih =>
    have hb := b.toNat_lt
    have hmod : (b.toNat + 2 * bitsValue bs) % 2 = b.toNat := by omega
    have hdiv : (b.toNat + 2 * bitsValue bs) / 2 = bitsValue bs := by omega
    rw [List.length_cons, bitsValue, plainBits_succ, hmod, hdiv, ih]
    cases b <;> rfl

theorem plainBits_prefix {L n : Nat} (h : L ≤ n) (v : Nat) : plainBits L v <+: plainBits n v := by
  rw [← Nat.add_sub_cancel' h, plainBits_add]
  exact List.prefix_append ..

/-- A symbol found among the codes of `L` bits has the bits it was found by as its code (R72, R168). -/
theorem symbolBits_of_symbolOf {len : List Nat} {L v a : Nat} (h : symbolOf len L (rev L v) = some a) :
    symbolBits len a = plainBits L v := by
  obtain ⟨-, hL, hcode⟩ := symbolOf_eq_some.1 h
  rw [symbolBits, hL, hcode, codeBits_rev]

/-- In a complete table every string of the longest length begins with the code of a symbol (R163). -/
theorem exists_symbolBits_prefix {len : List Nat} (hk : kraft len = 2 ^ maxl len) {bs : List Bool}
    (hbs : bs.length = maxl len) : ∃ a, a < len.length ∧ len.getD a 0 ≠ 0 ∧ symbolBits len a <+: bs := by
  obtain ⟨⟨a, L⟩, hfind⟩ := Option.ne_none_iff_exists'.1 (findCode_of_complete hk (v := bitsValue bs) le_rfl)
  obtain ⟨hpos, hle, hsym, -⟩ := findCode_eq_some hfind
  obtain ⟨ha, hL, -⟩ := symbolOf_eq_some.1 hsym
  refine ⟨a, ha, by omega, ?_⟩
  have hp := plainBits_prefix hle (bitsValue bs)
  rwa [← hbs, plainBits_bitsValue, ← symbolBits_of_symbolOf hsym] at hp

/-- Settles O32: no code begins with another and each fits its length, since the codes of a length end before those of
the greater lengths begin; a complete table matches every string. -/
theorem canonicalCodeIsPrefixCode : Obligations.CanonicalCodeIsPrefixCode := by
  unfold Obligations.CanonicalCodeIsPrefixCode
  intro len hk
  exact ⟨fun _ _ ha hb ha0 hb0 => eq_of_symbolBits_prefix hk ha hb ha0 hb0, fun _ ha h0 => codeOf_lt hk ha h0,
    fun hfull _ hbs => exists_symbolBits_prefix hfull hbs⟩

/-! ## The loop that hands out the codes (R162) -/

theorem firstCode_one (len : List Nat) : firstCode len 1 = 0 := by simp [firstCode]

/-- The cumulative formula of R162. -/
theorem firstCode_step (len : List Nat) {L : Nat} (h : 2 ≤ L) :
    firstCode len L = (firstCode len (L - 1) + cnt len (L - 1)) <<< 1 := by
  obtain ⟨k, rfl⟩ : ∃ k, L = k + 2 := ⟨L - 2, by omega⟩
  rw [firstCode, if_neg k.succ_ne_zero, Nat.shiftLeft_eq, Nat.pow_one, Nat.mul_comm]
  rfl

theorem assignCodes_length (ls : List Nat) (next : Nat → Nat) : (assignCodes ls next).length = ls.length := by
  induction ls generalizing next with
  | nil => rfl
  | cons l ls ih =>
    rw [assignCodes]
    split <;> simp [ih]

/-- Symbol `s` gets the code that `next` starts with for its length, moved on once for each earlier symbol of that
length. -/
theorem assignCodes_getElem? {ls : List Nat} {s : Nat} (next : Nat → Nat) (hs : s < ls.length) :
    (assignCodes ls next)[s]? = some (if ls.getD s 0 = 0 then none
      else some (next (ls.getD s 0) + (ls.take s).count (ls.getD s 0))) := by
  induction ls generalizing s next with
  | nil => cases hs
  | cons l ls ih =>
    rw [assignCodes]
    cases s with
    | zero =>
      simp only [List.getD_cons_zero, List.take_zero, List.count_nil, Nat.add_zero]
      split <;> rfl
    | succ s =>
      have hs' : s < ls.length := Nat.lt_of_succ_lt_succ hs
      simp only [List.getD_cons_succ, List.take_succ_cons, List.count_cons, beq_iff_eq]
      by_cases hl : l = 0
      · rw [if_pos hl, List.getElem?_cons_succ, ih _ hs']
        by_cases hd : ls.getD s 0 = 0
        · rw [if_pos hd, if_pos hd]
        · rw [if_neg hd, if_neg hd, if_neg (by omega), Nat.add_zero]
      · rw [if_neg hl, List.getElem?_cons_succ, ih _ hs']
        by_cases hd : ls.getD s 0 = l
        · rw [if_pos hd, if_pos hd.symm, Nat.add_assoc, Nat.add_comm 1]
        · rw [if_neg hd, if_neg (Ne.symm hd), Nat.add_zero]

/-- Settles O31: started with `first`, the loop hands out the closed form of the codes. -/
theorem codesAreAssignedInOrder : Obligations.CodesAreAssignedInOrder := by
  unfold Obligations.CodesAreAssignedInOrder
  intro len
  exact ⟨rfl, firstCode_one len, fun L hL => firstCode_step len hL, assignCodes_length len _,
    fun s hs => assignCodes_getElem? (firstCode len) hs⟩

/-! ## Validation (R164, R166) -/

/-- An array that gives no symbol a code is refused before its Kraft sum matters. -/
theorem validate_of_all_zero {len : List Nat} (h : ∀ l ∈ len, l = 0) (a : Bool) :
    validate len a = some .noHuffmanCodes := by
  rw [validate, if_pos (by simpa using h)]

/-- With a code in the array the Kraft sum decides. -/
theorem validate_of_nonzero {len : List Nat} (h : ∃ l ∈ len, l ≠ 0) (a : Bool) :
    validate len a =
      if 2 ^ maxl len < kraft len then some .badHuffmanCodeOverSubscribed
      else if kraft len < 2 ^ maxl len then
        if a && singleOne len then none else some .badHuffmanCodeUnderSubscribed
      else none := by
  rw [validate, if_neg (by simpa using h)]

theorem singleOne_iff {len : List Nat} : singleOne len = true ↔ len.filter (· ≠ 0) = [1] := beq_iff_eq

/-- Settles O33: the Kraft sum is above, at or below its bound, and below it the single-symbol exception decides. -/
theorem tableValidation : Obligations.TableValidation := by
  unfold Obligations.TableValidation
  intro len a
  refine ⟨fun h => validate_of_all_zero h a, fun h hover => ?_, fun h hfull => ?_, fun h hunder ha hone => ?_,
    fun h hunder hnot => ?_⟩ <;> rw [validate_of_nonzero h]
  · rw [if_pos hover]
  · rw [if_neg hfull.not_gt, if_neg hfull.not_lt]
  · rw [if_neg hunder.not_gt, if_pos hunder, if_pos (by rw [ha, singleOne_iff.2 hone]; rfl)]
  · have hex : ¬ (a && singleOne len) = true := by
      rw [Bool.and_eq_true, singleOne_iff]
      rintro ⟨ha, hone⟩
      rcases hnot with h | h
      · rw [ha] at h; cases h
      · exact h hone
    rw [if_neg hunder.not_gt, if_pos hunder, if_neg hex]

end Sys2Proof.Machine
end

section
/-! One pass of the loop of `HuffDecode` (spec/41_huffman_tables.md R168): what the buffered bits alone decide, and the
pull of a byte where they decide nothing. -/

namespace Sys2Proof.Machine

/-- The test of R168 for the length `L` and the symbol `sym`: the code of `sym` is the first `L` buffered bits, the
first of them its most significant. -/
def CodeMatches (len : List Nat) (s : State) (L sym : Nat) : Prop :=
  1 ≤ L ∧ L ≤ s.nBits ∧ L ≤ maxl len ∧ sym < len.length ∧ len.getD sym 0 = L ∧
    codeOf len sym = rev L (s.bits.toNat % 2 ^ L)

section
variable {len : List Nat} {s : State} {L sym : Nat}

theorem codeMatches_iff : CodeMatches len s L sym ↔
    (1 ≤ L ∧ L ≤ min s.nBits (maxl len)) ∧ symbolOf len L (rev L s.bits.toNat) = some sym := by
  rw [CodeMatches, rev_congr (Nat.mod_mod s.bits.toNat (2 ^ L)), symbolOf_eq_some, le_min_iff]
  simp only [and_assoc]

/-- No symbol is looked up exactly when no code matches. -/
theorem lookup_eq_none_iff : lookup len s = none ↔ ∀ L sym, ¬ CodeMatches len s L sym := by
  rw [lookup, findCode_eq_none]
  simp only [codeMatches_iff, not_and, Option.eq_none_iff_forall_ne_some]
  exact ⟨fun h L sym hL => h L hL.1 hL.2 sym, fun h L h1 h2 sym => h L sym ⟨h1, h2⟩⟩

/-- The symbol that is looked up is the one of the shortest code that matches. -/
theorem lookup_of_shortest (h : CodeMatches len s L sym) (hmin : ∀ j sym', j < L → ¬ CodeMatches len s j sym') :
    lookup len s = some (sym, L) := by
  cases hl : lookup len s with
  | none => exact absurd h (lookup_eq_none_iff.1 hl L sym)
  | some p =>
    obtain ⟨sym', L'⟩ := p
    obtain ⟨h1, h2, hsym', hshorter⟩ := findCode_eq_some hl
    obtain ⟨⟨hpos, -⟩, hsym⟩ := codeMatches_iff.1 h
    rcases Nat.lt_trichotomy L L' with hlt | rfl | hlt
    · rw [hshorter L hpos hlt] at hsym; cases hsym
    · cases hsym.symm.trans hsym'; rfl
    · exact absurd (codeMatches_iff.2 ⟨⟨h1, h2⟩, hsym'⟩) (hmin L' sym' hlt)

/-- A symbol that is looked up is answered, and its code alone is dropped. -/
theorem huffDecode_of_lookup (h : lookup len s = some (sym, L)) : huffDecode len s = .ok sym (dropBits L s) := by
  rw [huffDecode, huffLoop_stop _ (.inl (by simp [h])), huffLoop, ← lookup, h]

/-- As many bits as the longest code and no match: the code is bad. -/
theorem huffDecode_bad (h : lookup len s = none) (hn : maxl len ≤ s.nBits) :
    huffDecode len s = .raise .badHuffmanCode s := by
  rw [huffDecode, huffLoop_stop _ (.inr hn), huffLoop, ← lookup, h]

/-- Fewer bits and no match: a byte is pulled and pushed, and the loop goes on. -/
theorem huffDecode_pull (h : lookup len s = none) (hn : s.nBits < maxl len) :
    huffDecode len s = (pullPush s).bind fun _ t => huffDecode len t := by
  obtain ⟨f, hf⟩ : ∃ f, maxl len - s.nBits = f + 1 := ⟨maxl len - s.nBits - 1, by omega⟩
  rw [huffDecode, hf, huffLoop_pull f h hn]
  exact pullPush_congr fun t ht => huffLoop_fuel (by omega) (by omega)

end

/-- Settles O34: the buffered bits decide by the lookup of the shortest match; without one the loop begins again after
a byte, or ends as the pull does. -/
theorem huffDecodeLoop : Obligations.HuffDecodeLoop := by
  unfold Obligations.HuffDecodeLoop
  intro len s
  obtain ⟨-, hclosed, hopen, -⟩ := streamPrimitives s
  refine ⟨fun L sym h hmin => huffDecode_of_lookup (lookup_of_shortest h hmin),
    fun h hn => huffDecode_bad (lookup_eq_none_iff.2 h) hn, fun h hn => ?_⟩
  rw [huffDecode_pull (lookup_eq_none_iff.2 h) hn]
  refine ⟨fun b rest hi => ?_, fun hi hc => ?_, fun hi hc => ?_⟩
  · rw [pullPush_cons hi]; rfl
  · rw [pullPush, hopen hi hc]; rfl
  · rw [pullPush, hclosed hi hc]; rfl

end Sys2Proof.Machine
end

section
/-! The two reserved statuses (spec/41_huffman_tables.md R169, spec/60_exceptions.md R328): no read, no element and no
operation of the host gives either of them. -/

namespace Sys2Proof.Machine

/-- The statuses that no rule raises (R169, R328). -/
def reservedStatuses : List Status := [.badHuffmanMinimumCodeLength, .internalInconsistency]

/-- From `s` to `t` the status and the answer have stayed, or have become others than the reserved ones. -/
structure NothingReserved (s t : State) : Prop where
  status : t.status = s.status ∨ t.status ∉ reservedStatuses
  reply : t.reply = s.reply ∨ ∀ k, t.reply = some k → k ∉ reservedStatuses

theorem NothingReserved.trans {s t u : State} (h : NothingReserved s t) (h' : NothingReserved t u) :
    NothingReserved s u := by
  obtain ⟨hk, hr⟩ := h
  obtain ⟨hk', hr'⟩ := h'
  refine ⟨hk'.elim (fun he => ?_) .inr, hr'.elim (fun he => ?_) .inr⟩
  · rwa [he]
  · rwa [he]

theorem NothingReserved.kept {s t : State} (hk : t.status = s.status) (hr : t.reply = s.reply) :
    NothingReserved s t := ⟨.inl hk, .inl hr⟩

/-- A call that ends with a status that is not reserved, given to its caller. -/
theorem NothingReserved.ended {s t : State} {k : Status} (hk : k ∉ reservedStatuses) (ht : t.status = k)
    (hr : t.reply = some k) : NothingReserved s t :=
  ⟨.inr (ht ▸ hk), .inr fun k' h => by cases hr.symm.trans h; exact hk⟩

theorem NothingReserved.suspended {s : State} {k : Status} (hk : k ∉ reservedStatuses) (t : State) :
    NothingReserved s (endSuspended k t) := .ended hk rfl rfl

theorem NothingReserved.raised {s : State} {e : Status} (he : e ∉ reservedStatuses) (t : State) :
    NothingReserved s (endRaised e t) := .ended he rfl rfl

/-- The next state of an answer has nothing reserved that `s` had not. -/
def AnswersNothingReserved (s : State) (a : Answer) : Prop := ∀ t, a = .next t → NothingReserved s t

/-- The same of the end of a primitive or a micro-step, its suspension or error given to the caller. -/
def Res.NothingReserved {α : Type} (s : State) : Res α → Prop
  | .ok _ t => Machine.NothingReserved s t
  | .suspend k t => Machine.NothingReserved s (endSuspended k t)
  | .raise e t => Machine.NothingReserved s (endRaised e t)

section
variable {s : State}

theorem answersNothingReserved_next {t : State} (h : NothingReserved s t) : AnswersNothingReserved s (.next t) := by
  rintro _ ⟨⟩; exact h

/-- The call goes on. -/
theorem answersNothingReserved_kept {t : State} (hk : t.status = s.status) (hr : t.reply = s.reply) :
    AnswersNothingReserved s (.next t) := answersNothingReserved_next (.kept hk hr)

theorem answersNothingReserved_raised {e : Status} (he : e ∉ reservedStatuses) (t : State) :
    AnswersNothingReserved s (.next (endRaised e t)) := answersNothingReserved_next (.raised he t)

theorem answersNothingReserved_fault (r : Fault) : AnswersNothingReserved s (.fault r) := by rintro _ ⟨⟩

theorem answersNothingReserved_refused (r : Refusal) : AnswersNothingReserved s (.refused r) := by rintro _ ⟨⟩

theorem AnswersNothingReserved.atStep {m : MicroStep} {a : Answer} (h : AnswersNothingReserved s a) :
    AnswersNothingReserved s (atStep m s a) := by
  unfold Machine.atStep
  split
  · exact h
  · exact answersNothingReserved_refused _

theorem Res.NothingReserved.finish {r : Res Unit} (h : r.NothingReserved s) : AnswersNothingReserved s (finish r) := by
  cases r <;> exact answersNothingReserved_next h

theorem Res.NothingReserved.bind {α β : Type} {r : Res α} {f : α → State → Res β} (h : r.NothingReserved s)
    (hf : ∀ v t, (f v t).NothingReserved t) : (r.bind f).NothingReserved s := by
  cases r with
  | ok v t =>
    have hft := hf v t
    simp only [Res.bind]
    cases hr : f v t <;> rw [hr] at hft <;> exact NothingReserved.trans h hft
  | suspend k t => exact h
  | raise e t => exact h

/-- A value computed from what a primitive gives, and registers other than the status written. -/
theorem Res.NothingReserved.bind_ok {α β : Type} {r : Res α} {g : α → State → β} {f : α → State → State}
    (h : r.NothingReserved s) (hf : ∀ v t, (f v t).status = t.status ∧ (f v t).reply = t.reply) :
    (r.bind fun v t => .ok (g v t) (f v t)).NothingReserved s :=
  h.bind fun v t => .kept (hf v t).1 (hf v t).2

/-! ## The reads -/

theorem pullByte_nothingReserved (s : State) : (pullByte s).NothingReserved s := by
  rcases pullByte_cases s with ⟨b, rest, -, h⟩ | ⟨-, -, h⟩ | ⟨-, -, h⟩ <;> rw [h]
  · exact .kept rfl rfl
  · exact .raised (by decide) s
  · exact .suspended (by decide) s

theorem needOut_nothingReserved (s : State) : (needOut s).NothingReserved s := by
  rcases needOut_cases s with ⟨-, h⟩ | ⟨-, -, h⟩ | ⟨-, -, h⟩ <;> rw [h]
  · exact .kept rfl rfl
  · exact .raised (by decide) s
  · exact .suspended (by decide) s

theorem pullPush_nothingReserved (s : State) : (pullPush s).NothingReserved s :=
  (pullByte_nothingReserved s).bind_ok fun _ _ => ⟨rfl, rfl⟩

theorem ensureLoop_nothingReserved (n fuel : Nat) (s : State) : (ensureLoop n fuel s).NothingReserved s := by
  induction fuel generalizing s with
  | zero => exact .kept rfl rfl
  | succ fuel ih =>
    rw [ensureLoop]
    split
    · exact (pullPush_nothingReserved s).bind fun _ t => ih t
    · exact .kept rfl rfl

theorem need_nothingReserved (n : Nat) (s : State) : (need n s).NothingReserved s :=
  (ensureLoop_nothingReserved n _ s).bind_ok fun _ _ => ⟨rfl, rfl⟩

theorem needPlus_nothingReserved (base n : Nat) (s : State) : (needPlus base n s).NothingReserved s :=
  (need_nothingReserved n s).bind_ok fun _ _ => ⟨rfl, rfl⟩

/-- The only error of `HuffDecode` itself is `BadHuffmanCode` (R168). -/
theorem huffDecode_nothingReserved (len : List Nat) (s : State) : (huffDecode len s).NothingReserved s := by
  unfold huffDecode
  generalize maxl len - s.nBits = fuel
  induction fuel generalizing s with
  | zero =>
    unfold huffLoop
    split
    · exact .kept rfl rfl
    · exact .raised (by decide) _
  | succ fuel ih =>
    unfold huffLoop
    split
    · exact .kept rfl rfl
    · split
      · exact .raised (by decide) _
      · exact (pullPush_nothingReserved s).bind fun _ t => ih t

theorem emitChecked_nothingReserved (b : Byte) (s : State) : (emitChecked b s).NothingReserved s :=
  (needOut_nothingReserved s).bind_ok fun _ _ => ⟨rfl, rfl⟩

theorem readRaw_nothingReserved (s : State) : (readRaw s).NothingReserved s :=
  (needOut_nothingReserved s).bind fun _ t => (pullByte_nothingReserved t).bind_ok fun _ _ => ⟨rfl, rfl⟩

/-! ## The checks -/

theorem headerError_notReserved {cfg : ZfdConfig} {x : Half} {e : Status} (h : headerError cfg x = some e) :
    e ∉ reservedStatuses := by
  unfold headerError at h
  split_ifs at h <;> cases h <;> decide

theorem countsError_notReserved {n k : Nat} {e : Status} (h : countsError n k = some e) : e ∉ reservedStatuses := by
  unfold countsError at h
  split_ifs at h <;> cases h <;> decide

theorem validate_notReserved {len : List Nat} {a : Bool} {e : Status} (h : validate len a = some e) :
    e ∉ reservedStatuses := by
  rcases validate_cases h with rfl | rfl | rfl <;> decide

theorem buildError_notReserved {e : Status} (h : buildError s = some e) : e ∉ reservedStatuses := by
  unfold buildError at h
  split at h
  · cases h; decide
  · split at h
    · next hv => cases h; exact validate_notReserved hv
    · exact validate_notReserved h

theorem entryError_notReserved {out : Option OutCursor} {inp : Option InCursor} {p : Phase} {e : Status}
    (h : entryError out inp p = some e) : e ∉ reservedStatuses := by
  cases p with
  | active => unfold entryError at h; split_ifs at h; cases h; decide
  | uninit => cases h; decide
  | done => cases h; decide
  | poisoned => cases h; decide

/-! ## The elements and the operations of the host -/

theorem lengthElement_nothingReserved (v : Nat) (s : State) : AnswersNothingReserved s (lengthElement v s) := by
  unfold lengthElement
  split
  · exact answersNothingReserved_kept rfl rfl
  · exact Res.NothingReserved.finish ((needPlus_nothingReserved _ _ s).bind_ok fun _ _ => ⟨rfl, rfl⟩)
  · exact answersNothingReserved_refused _

theorem startCopy_nothingReserved (v : Nat) (s : State) : (startCopy v s).NothingReserved s := by
  refine (needPlus_nothingReserved _ _ s).bind fun d t => ?_
  split
  · exact .raised (by decide) _
  · exact .kept rfl rfl

theorem copyByte_nothingReserved (s : State) : (copyByte s).NothingReserved s := by
  unfold copyByte
  split
  · exact .kept rfl rfl
  · exact (emitChecked_nothingReserved _ s).bind_ok fun _ _ => ⟨rfl, rfl⟩

theorem distanceElement_nothingReserved (v : Nat) (s : State) : AnswersNothingReserved s (distanceElement v s) := by
  unfold distanceElement
  split
  · exact answersNothingReserved_kept rfl rfl
  · exact (startCopy_nothingReserved v s).finish
  · exact (copyByte_nothingReserved s).finish
  · exact answersNothingReserved_refused _

theorem runRepeat_nothingReserved (w base : Nat) (s : State) : (runRepeat w base s).NothingReserved s := by
  refine (needPlus_nothingReserved base w s).bind fun r t => ?_
  split
  · exact .raised (by decide) _
  · exact .kept (by simp) (by simp)

theorem repeatElement_nothingReserved {start : Answer} (w base : Nat) (h : AnswersNothingReserved s start) :
    AnswersNothingReserved s (repeatElement w base start s) := by
  unfold repeatElement
  split
  · split
    · exact h
    · exact answersNothingReserved_refused _
  · exact (runRepeat_nothingReserved w base s).finish
  · exact answersNothingReserved_refused _

theorem execLit_nothingReserved (b : Byte) (s : State) : AnswersNothingReserved s (execLit b s) := by
  unfold execLit
  split
  · exact answersNothingReserved_kept rfl rfl
  · exact Res.NothingReserved.finish ((emitChecked_nothingReserved b s).bind_ok fun _ _ => ⟨rfl, rfl⟩)
  · exact answersNothingReserved_refused _

theorem rejectCall_nothingReserved (s : State) : AnswersNothingReserved s (rejectCall s) :=
  answersNothingReserved_next ⟨.inl rfl, .inr fun _ h => by cases h; decide⟩

theorem execInit_nothingReserved (v : Nat) (s : State) : AnswersNothingReserved s (execInit v s) := by
  unfold execInit
  split_ifs
  · exact rejectCall_nothingReserved s
  · exact answersNothingReserved_next (.ended (k := .ok) (by decide) rfl rfl)
  · exact answersNothingReserved_raised (by decide) _

theorem execDecode_nothingReserved (out : Option OutCursor) (inp : Option InCursor) (s : State) :
    AnswersNothingReserved s (execDecode out inp s) := by
  unfold execDecode
  split
  · exact rejectCall_nothingReserved s
  · split
    · next he => exact answersNothingReserved_raised (entryError_notReserved he) _
    · exact answersNothingReserved_kept rfl rfl

theorem llsym_nothingReserved {i : Instr} (hf : formatOf i = .llsym) : AnswersNothingReserved s (exec i s) := by
  cases i
  case lit b => exact execLit_nothingReserved b s
  case eob => exact .atStep (answersNothingReserved_kept rfl rfl)
  case llRsvd286 => exact .atStep (answersNothingReserved_raised (by decide) _)
  case llRsvd287 => exact .atStep (answersNothingReserved_raised (by decide) _)
  all_goals simp only [formatOf, reduceCtorEq] at hf
  all_goals exact lengthElement_nothingReserved _ s

theorem dsym_nothingReserved {i : Instr} (hf : formatOf i = .dsym) : AnswersNothingReserved s (exec i s) := by
  cases i
  case dRsvd30 => exact .atStep (answersNothingReserved_raised (by decide) _)
  case dRsvd31 => exact .atStep (answersNothingReserved_raised (by decide) _)
  all_goals simp only [formatOf, reduceCtorEq] at hf
  all_goals exact distanceElement_nothingReserved _ s

/-- No instruction gives a reserved status, wherever it is executed. -/
theorem exec_nothingReserved (i : Instr) (s : State) : AnswersNothingReserved s (exec i s) := by
  by_cases hll : formatOf i = .llsym
  · exact llsym_nothingReserved hll
  by_cases hd : formatOf i = .dsym
  · exact dsym_nothingReserved hd
  cases i
  case zhdr x =>
    refine .atStep ?_
    split
    · next he => exact answersNothingReserved_raised (headerError_notReserved he) _
    · exact answersNothingReserved_kept rfl rfl
  case ztrl x =>
    refine .atStep ?_
    split_ifs
    · exact answersNothingReserved_refused _
    · exact answersNothingReserved_next (.ended (k := .ok) (by decide) rfl rfl)
    · exact answersNothingReserved_raised (by decide) _
  case blkStored final => exact .atStep (answersNothingReserved_kept rfl rfl)
  case blkFixed final => exact .atStep (answersNothingReserved_kept rfl rfl)
  case blkDynamic final => exact .atStep (answersNothingReserved_kept rfl rfl)
  case blkReserved final => exact .atStep (answersNothingReserved_raised (by decide) _)
  case sLen len nlen =>
    refine .atStep ?_
    split
    · exact answersNothingReserved_kept rfl rfl
    · exact answersNothingReserved_raised (by decide) _
  case raw b =>
    refine .atStep ?_
    split
    · exact answersNothingReserved_refused _
    · exact Res.NothingReserved.finish ((emitChecked_nothingReserved b s).bind_ok fun _ _ => ⟨rfl, rfl⟩)
  case dCounts hlit hdist hclen =>
    refine .atStep ?_
    split
    · next he => exact answersNothingReserved_raised (countsError_notReserved he) _
    · exact answersNothingReserved_kept rfl rfl
  case dCllen v =>
    refine .atStep ?_
    split
    · exact answersNothingReserved_kept rfl rfl
    · exact answersNothingReserved_refused _
  case clLen n =>
    refine .atStep ?_
    split
    · exact answersNothingReserved_kept (by simp) (by simp)
    · exact answersNothingReserved_refused _
  case clRep =>
    refine repeatElement_nothingReserved 2 3 ?_
    split
    · exact answersNothingReserved_raised (by decide) _
    · exact answersNothingReserved_kept rfl rfl
  case clZrep => exact repeatElement_nothingReserved 3 3 (answersNothingReserved_kept rfl rfl)
  case clZrepl => exact repeatElement_nothingReserved 7 11 (answersNothingReserved_kept rfl rfl)
  case reset => exact answersNothingReserved_next ⟨.inr (show Status.ok ∉ reservedStatuses by decide), .inr nofun⟩
  case init v => exact execInit_nothingReserved v s
  case decode out inp => exact execDecode_nothingReserved out inp s
  all_goals simp [formatOf] at hll hd

/-! ## The micro-steps -/

theorem internal_nothingReserved {r : Res Unit} (h : r.NothingReserved s) :
    AnswersNothingReserved s (runFetched (.internal r)) := h.finish

/-- A field that is read, and the element that is decoded from it. -/
theorem fetchField_nothingReserved (f : Format) {r : Res Nat} (h : r.NothingReserved s) :
    AnswersNothingReserved s (runFetched (fetchField f r)) := by
  cases r with
  | suspend k t => exact answersNothingReserved_next h
  | raise e t => exact answersNothingReserved_next h
  | ok v t =>
    cases hd : decode f v with
    | ok i =>
      rw [runFetched_ok hd]
      exact fun u hu => NothingReserved.trans h (exec_nothingReserved i t u hu)
    | error x =>
      simp only [fetchField, hd]
      exact answersNothingReserved_fault _

theorem stepBEnd_nothingReserved (s : State) : NothingReserved s (stepBEnd s) := by
  unfold stepBEnd
  split <;> exact .kept rfl rfl

theorem stepDCllensEnd_nothingReserved (s : State) : (stepDCllensEnd s).NothingReserved s := by
  unfold stepDCllensEnd
  split
  · next he => exact .raised (validate_notReserved he) _
  · exact .kept rfl rfl

theorem stepDBuild_nothingReserved (s : State) : (stepDBuild s).NothingReserved s := by
  unfold stepDBuild
  split
  · next he => exact .raised (buildError_notReserved he) _
  · exact .kept rfl rfl

/-- A field that is not read from the stream but found in the saved locals. -/
theorem savedField_nothingReserved (f : Format) (v : Nat) (s : State) :
    AnswersNothingReserved s (runFetched (fetchField f (.ok v s))) :=
  fetchField_nothingReserved f (r := .ok v s) (.kept rfl rfl)

/-- No micro-step gives a reserved status. -/
theorem fetch_nothingReserved (s : State) : AnswersNothingReserved s (runFetched (fetch s)) := by
  cases hm : microStep s with
  | none => rw [fetch, hm]; exact answersNothingReserved_fault _
  | some m =>
    rw [fetch, hm]
    cases m with
    | zCmf => exact internal_nothingReserved ((pullByte_nothingReserved s).bind_ok fun _ _ => ⟨rfl, rfl⟩)
    | zFlg => exact fetchField_nothingReserved _ ((pullByte_nothingReserved s).bind_ok fun _ _ => ⟨rfl, rfl⟩)
    | zTrailer =>
      dsimp only
      split
      · exact internal_nothingReserved ((pullByte_nothingReserved s).bind_ok fun _ _ => ⟨rfl, rfl⟩)
      · exact savedField_nothingReserved _ _ s
    | bHeader => exact fetchField_nothingReserved _ (need_nothingReserved 3 s)
    | bEnd => exact answersNothingReserved_next (stepBEnd_nothingReserved s)
    | sAlign => exact answersNothingReserved_kept rfl rfl
    | sLen => exact internal_nothingReserved ((need_nothingReserved 16 s).bind_ok fun _ _ => ⟨rfl, rfl⟩)
    | sNlen => exact fetchField_nothingReserved _ ((need_nothingReserved 16 s).bind_ok fun _ _ => ⟨rfl, rfl⟩)
    | sCopy =>
      dsimp only
      split
      · exact answersNothingReserved_kept rfl rfl
      · exact fetchField_nothingReserved _ (readRaw_nothingReserved s)
    | dHlit => exact internal_nothingReserved ((need_nothingReserved 5 s).bind_ok fun _ _ => ⟨rfl, rfl⟩)
    | dHdist => exact internal_nothingReserved ((need_nothingReserved 5 s).bind_ok fun _ _ => ⟨rfl, rfl⟩)
    | dHclen => exact fetchField_nothingReserved _ ((need_nothingReserved 4 s).bind_ok fun _ _ => ⟨rfl, rfl⟩)
    | dCllens =>
      dsimp only
      split
      · exact fetchField_nothingReserved _ (need_nothingReserved 3 s)
      · exact internal_nothingReserved (stepDCllensEnd_nothingReserved s)
    | dSym =>
      dsimp only
      split
      · exact fetchField_nothingReserved _ (huffDecode_nothingReserved s.clLen s)
      · exact answersNothingReserved_kept rfl rfl
    | dExtra => exact savedField_nothingReserved _ _ s
    | dBuild => exact internal_nothingReserved (stepDBuild_nothingReserved s)
    | yLitlen => exact fetchField_nothingReserved _ (huffDecode_nothingReserved s.llLen s)
    | yEmit => exact savedField_nothingReserved _ _ s
    | yLextra => exact savedField_nothingReserved _ _ s
    | yDsym => exact fetchField_nothingReserved _ (huffDecode_nothingReserved s.dLen s)
    | yDextra => exact savedField_nothingReserved _ _ s
    | yCopy => exact savedField_nothingReserved _ _ s

end

/-- No step gives a reserved status: not an operation of the host, not a micro-step, not an idle machine. -/
theorem step_nothingReserved (s : State) : AnswersNothingReserved s (step s) := by
  have htick : NothingReserved s (tick s) := .kept (by simp) (by simp)
  cases hp : presented s with
  | some r =>
    obtain ⟨op, u⟩ := r
    have hu : NothingReserved s u := by rw [presented_eq hp]; exact .kept rfl rfl
    rw [step_of_presented hp]
    exact fun t ht => hu.trans (exec_nothingReserved _ u t ht)
  | none =>
    cases hb : s.busy with
    | false => rw [step_of_idle hp hb]; exact answersNothingReserved_next htick
    | true =>
      rw [step, hp]
      simp only [hb, if_true]
      exact fun t ht => htick.trans (fetch_nothingReserved (tick s) t ht)

/-- Settles O58: a status or an answer that a step has changed is not reserved. -/
theorem reservedStatusesNeverReturned : Obligations.ReservedStatusesNeverReturned := by
  unfold Obligations.ReservedStatusesNeverReturned
  intro s t hst
  obtain ⟨hstatus, hreply⟩ := step_nothingReserved s t hst
  refine ⟨fun h => hstatus.resolve_right fun hn => ?_, fun h => hreply.resolve_right fun hn => ?_⟩
  · rcases h with h | h <;> rw [h] at hn <;> exact hn (by decide)
  · rcases h with h | h <;> exact hn _ h (by decide)

end Sys2Proof.Machine
end

section
/-! The block loop and the stored block (spec/42_block_loop_stored.md R181 to R188). -/

namespace Sys2Proof.Machine

section
variable {s : State}

/-! ## A step and an element where they are current -/

/-- A step is the end of what is fetched at the current micro-step (R286). -/
theorem step_of_fetch {m : MicroStep} {f : Fetched} (h : Runs m s)
    (hf : microStep (tick s) = some m → fetch (tick s) = f) : step s = runFetched f := by
  obtain ⟨hstep, hm⟩ := step_of_runs h
  rw [hstep, hf hm]

/-- A micro-step that ends no element is performed (R286). -/
theorem step_of_internal {m : MicroStep} {r : Res Unit} (h : Runs m s)
    (hf : microStep (tick s) = some m → fetch (tick s) = .internal r) : step s = finish r :=
  step_of_fetch h hf

theorem atStep_of_current {m : MicroStep} (hm : microStep s = some m) (a : Answer) : atStep m s a = a := if_pos hm

/-! ## The block header and the end of a block (R181 to R184) -/

/-- BLK.RESERVED is an error whatever BFINAL is (R183). -/
theorem blkReserved_raises (hm : microStep s = some .bHeader) (final : Bool) :
    Raises .badFlateBlock s (exec (.blkReserved final) s) :=
  ⟨_, atStep_of_current hm _, rfl, rfl, rfl, rfl, rfl, rfl, rfl⟩

/-- The three bits of a block header are BFINAL below BTYPE (R94). -/
theorem decode_bhdr {v : Nat} (hv : v < 8) : decode .bhdr v = .ok (blockOfType (v % 2 == 1) (v / 2)) :=
  if_neg (Nat.not_le.2 hv)

end

/-- Settles O13: the three bits that are read decode to the block of their type, whose meaning is the record of the
header and the body's discriminants. -/
theorem blockHeader : Obligations.BlockHeader := by
  unfold Obligations.BlockHeader
  refine ⟨fun s h => ⟨?_, fun v u hr => ?_⟩, fun s final hm => ⟨?_, ?_, ?_, blkReserved_raises hm final⟩⟩
  · have hstep : step s = runFetched (fetchField .bhdr (need 3 (tick s))) :=
      step_of_fetch h fun hm => by rw [fetch, hm]
    rw [hstep]
    exact fetchField_ends _ _
  · obtain ⟨hv, -⟩ := need_ok hr
    exact step_bHeader h hr (decode_bhdr hv)
  · exact atStep_of_current hm _
  · exact atStep_of_current hm _
  · exact atStep_of_current hm _

/-- Settles O14: B_END reads nothing, and the final flag alone decides. -/
theorem blockEnd : Obligations.BlockEnd := by
  unfold Obligations.BlockEnd
  intro s h
  have hstep : step s = finish (.ok () (stepBEnd (tick s))) := step_of_internal h fun hm => by rw [fetch, hm]
  rw [hstep, stepBEnd]
  refine ⟨fun hf => ?_, fun hf => ?_⟩
  · rw [if_pos (by simpa using hf)]; rfl
  · rw [if_neg (by simp [hf])]; rfl

/-! ## The length of a stored block (R185 to R187) -/

section
variable {s : State} {n : Nat}

/-- A field with too few bits buffered for it pulls a byte and is read again (R141, R143). -/
theorem need_pull {b : Byte} {rest : List Byte} (hlt : s.nBits < n) (hi : s.inBytes = b :: rest) :
    need n s = need n (pushByte b (dropInByte rest s)) := by
  rw [need, ensure_pull hlt, pullPush_cons hi]; rfl

/-- Nor are there bytes to pull: the field waits (R64). -/
theorem need_short (hlt : s.nBits < n) (hi : s.inBytes = []) (hc : s.inClosed = false) :
    need n s = .suspend .shortRead s := by
  obtain ⟨-, -, hopen, -⟩ := streamPrimitives s
  rw [need, ensure_pull hlt, pullPush, hopen hi hc]; rfl

theorem append_byte_toNat (b0 b1 : Byte) : (b1 ++ b0).toNat = b0.toNat + b1.toNat * 2 ^ 8 := by
  rw [BitVec.toNat_append, ← Nat.shiftLeft_add_eq_or_of_lt b0.isLt, Nat.shiftLeft_eq, Nat.add_comm]

/-- The second byte of a 16-bit field whose first byte is buffered: it alone is pulled, and it is the high byte. -/
theorem need16_of_buffered_byte {b0 b1 : Byte} {rest : List Byte} (hn : s.nBits = 8) (hb : s.bits = b0.setWidth 32)
    (hi : s.inBytes = b1 :: rest) :
    need 16 s = .ok (b1 ++ b0).toNat { dropInByte rest s with bits := 0, nBits := 0 } := by
  have hb0 : s.bits.toNat = b0.toNat := by rw [hb, BitVec.toNat_setWidth]; omega
  have hbits : (pushByte b1 (dropInByte rest s)).bits.toNat = (b1 ++ b0).toNat := by
    rw [pushByte_toNat b1 (by simp [hn, hb0]; omega) (by simp [hn]), append_byte_toNat]
    simp [hn, hb0]
  have hlow : lowBits 16 (pushByte b1 (dropInByte rest s)) = (b1 ++ b0).toNat := by
    rw [lowBits, hbits]; exact Nat.mod_eq_of_lt (b1 ++ b0).isLt
  have hdrop : (pushByte b1 (dropInByte rest s)).bits >>> 16 = 0 :=
    BitVec.eq_of_toNat_eq (by
      rw [BitVec.toNat_ushiftRight, hbits, Nat.shiftRight_eq_div_pow]
      exact Nat.div_eq_of_lt (b1 ++ b0).isLt)
  rw [need_pull (by omega) hi, need_of_le (by simp [hn]), hlow, dropBits, hdrop]
  simp [pushByte, hn]

/-- A byte pushed into an empty accumulator. -/
theorem pushByte_of_empty (b : Byte) (hn : s.nBits = 0) (hb : s.bits = 0) :
    pushByte b s = { s with bits := b.setWidth 32, nBits := 8 } := by
  simp [pushByte, hn, hb]

theorem discardBits_of_empty (hn : s.nBits = 0) (hb : s.bits = 0) : discardBits s = s := by
  rw [discardBits, ← hb, ← hn]

/-- A 16-bit field that is two whole bytes, the low one first. -/
theorem need16_of_two_bytes {b0 b1 : Byte} {rest : List Byte} (hn : s.nBits = 0) (hb : s.bits = 0)
    (hi : s.inBytes = b0 :: b1 :: rest) :
    need 16 s = .ok (b1 ++ b0).toNat (dropInByte rest (dropInByte (b1 :: rest) s)) := by
  have hpush := pushByte_of_empty (s := dropInByte (b1 :: rest) s) b0 hn hb
  have hempty := discardBits_of_empty (s := dropInByte rest (dropInByte (b1 :: rest) s)) hn hb
  rw [need_pull (by omega) hi, hpush, need16_of_buffered_byte rfl rfl rfl, ← hempty]
  rfl

/-- A 16-bit field of which only the first byte is there: the byte is buffered, and the field waits for the second. -/
theorem need16_of_one_byte {b0 : Byte} (hn : s.nBits = 0) (hb : s.bits = 0) (hi : s.inBytes = [b0])
    (hc : s.inClosed = false) :
    need 16 s = .suspend .shortRead { dropInByte [] s with bits := b0.setWidth 32, nBits := 8 } := by
  have hpush := pushByte_of_empty (s := dropInByte [] s) b0 hn hb
  rw [need_pull (by omega) hi, hpush]
  exact need_short (show 8 < 16 by decide) rfl hc

/-- The complement check is a check of the sum (R187). -/
theorem storedLengthOk_iff (len nlen : Half) : storedLengthOk len nlen = true ↔ len.toNat + nlen.toNat = 0xFFFF := by
  have hlen := len.isLt
  have hnlen := nlen.isLt
  rw [storedLengthOk, beq_iff_eq, ← BitVec.toNat_inj, BitVec.toNat_not]
  omega

theorem step_sLen (h : Runs .sLen s) : step s = finish (stepSLen (tick s)) :=
  step_of_internal h fun hm => by rw [fetch, hm]

theorem step_sNlen (h : Runs .sNlen s) : step s = runFetched (fetchField .stored (readStored (tick s))) :=
  step_of_fetch h fun hm => by rw [fetch, hm]

/-- S_LEN with a 16-bit field that completes. -/
theorem finish_stepSLen {u : State} (x : Half) (h : need 16 s = .ok x.toNat u) :
    finish (stepSLen s) = .next { u with sLen := x, sStep := .nlen } := by
  simp [stepSLen, h, Res.bind, finish]

end

/-- Settles O15: S_LEN ends as its read does; the read pulls a byte into the empty accumulator, and another one above
the byte that is buffered. -/
theorem storedAlignAndLength : Obligations.StoredAlignAndLength := by
  unfold Obligations.StoredAlignAndLength
  refine ⟨fun s h => ⟨?_, fun h7 => by omega⟩, fun s h => ?_, fun s b0 b1 rest h hn hb hi => ?_,
    fun s b0 h hn hb hi hc => ?_, fun s b0 b1 rest h hn hb hi => ?_⟩
  · have halign : step s = finish (.ok () (stepSAlign (tick s))) := step_of_internal h fun hm => by rw [fetch, hm]
    rw [halign]
    simp [finish, stepSAlign, alignToByte, dropBits]
  · rw [step_sLen h]
    exact ⟨finish_bind_ends _ _, fun v u hr => by rw [stepSLen, hr]; rfl⟩
  · have hr := need16_of_two_bytes (s := tick s) (by simpa using hn) (by simpa using hb) (by simpa using hi)
    rw [step_sLen h, finish_stepSLen _ hr]
    simp [dropInByte]
  · have hr := need16_of_one_byte (s := tick s) (by simpa using hn) (by simpa using hb) (by simpa using hi)
      (by simpa using hc)
    rw [step_sLen h, stepSLen, hr]
    simp [Res.bind, finish, endSuspended, dropInByte]
  · have hr := need16_of_buffered_byte (s := tick s) (by simpa using hn) (by simpa using hb) (by simpa using hi)
    rw [step_sLen h, finish_stepSLen _ hr]
    simp [dropInByte]

/-- Settles O16: NLEN is read above LEN, the two are the operands of S.LEN, and its check is a check of their sum. -/
theorem storedComplement : Obligations.StoredComplement := by
  unfold Obligations.StoredComplement
  refine ⟨fun s h => ⟨?_, fun v u hr => ?_⟩, fun s len nlen hm => ⟨fun hne => ?_, fun heq => ?_⟩⟩
  · rw [step_sNlen h]
    exact fetchField_bind_ends _ _ _
  · obtain ⟨hv, hu⟩ := need_ok hr
    have hlen : u.sLen = s.sLen := by rw [hu]; simp
    have hnlen : (BitVec.ofNat 16 v).toNat = v := Nat.mod_eq_of_lt hv
    have hfield : readStored (tick s) = .ok (encode (.sLen s.sLen (BitVec.ofNat 16 v))) u := by
      rw [readStored, hr, encode, hnlen, ← hlen]; rfl
    rw [step_sNlen h, hfield, runFetched_ok (decode_encode_sLen _ _)]
  · have hbad : ¬ storedLengthOk len nlen = true := mt (storedLengthOk_iff len nlen).1 hne
    have hexec : exec (.sLen len nlen) s = .next (endRaised .inconsistentStoredBlockLength s) :=
      (atStep_of_current hm _).trans (if_neg hbad)
    rw [hexec]
    exact raises_endRaised _ s
  · exact (atStep_of_current hm _).trans (if_pos ((storedLengthOk_iff len nlen).2 heq))

/-! ## The copy of a stored block (R188) -/

section
variable {s : State}

/-- With output space the byte of RAW is what `PullByte` gives. -/
theorem readRaw_of_room (hroom : s.outBytes.length < s.outCap) :
    readRaw s = (pullByte s).bind fun b u => .ok b.toNat u := by
  rw [readRaw, needOut, if_pos hroom]; rfl

theorem step_sCopy (h : Runs .sCopy s) (hrem : s.sRem ≠ 0) :
    step s = runFetched (fetchField .raw (readRaw (tick s))) :=
  step_of_fetch h fun hm => by simp only [fetch, hm]; exact if_neg (by simpa using hrem)

theorem execRaw_of_room (b : Byte) (hm : microStep s = some .sCopy) (hrem : s.sRem ≠ 0)
    (hroom : s.outBytes.length < s.outCap) : exec (.raw b) s = .next { emit b s with sRem := s.sRem - 1 } := by
  have hemit : emitChecked b s = .ok () (emit b s) := by rw [emitChecked, needOut, if_pos hroom]; rfl
  calc exec (.raw b) s
      = finish ((emitChecked b s).bind fun _ t => .ok () { t with sRem := t.sRem - 1 }) :=
        (atStep_of_current hm _).trans (if_neg hrem)
    _ = .next { emit b s with sRem := s.sRem - 1 } := by rw [hemit]; rfl

end

/-- Settles O17: the read of RAW is `NeedOut` and, where it completes, `PullByte`. -/
theorem storedCopy : Obligations.StoredCopy := by
  unfold Obligations.StoredCopy
  refine ⟨fun s h hrem => ?_, fun s h hrem => ⟨?_, fun hroom => ?_⟩, fun s b => execRaw_of_room b⟩
  · have hstep : step s = finish (.ok () (stepSCopyEnd (tick s))) :=
      step_of_internal h fun hm => by simp only [fetch, hm]; exact if_pos (by simpa using hrem)
    exact hstep
  · rw [step_sCopy h hrem]
    exact fetchField_bind_ends _ _ _
  · rw [step_sCopy h hrem, readRaw_of_room (by simpa using hroom)]
    refine ⟨fetchField_bind_ends _ _ _, fun b rest hi => ?_⟩
    obtain ⟨hpull, -⟩ := streamPrimitives (tick s)
    have hraw : decode .raw b.toNat = .ok (.raw b) := decodeOfEncode (.raw b) rfl rfl
    rw [hpull b rest (by simpa using hi), Res.ok_bind, runFetched_ok hraw]
    simp

end Sys2Proof.Machine
end

section
/-! The dynamic block header (spec/43_fixed_dynamic_header.md R203 to R216). -/

namespace Sys2Proof.Machine

section
variable {s : State}

/-! ## The counts (R203 to R205) -/

theorem step_dHlit (h : Runs .dHlit s) : step s = finish (stepDHlit (tick s)) :=
  step_of_internal h fun hm => by rw [fetch, hm]

theorem step_dHdist (h : Runs .dHdist s) : step s = finish (stepDHdist (tick s)) :=
  step_of_internal h fun hm => by rw [fetch, hm]

theorem step_dHclen (h : Runs .dHclen s) : step s = runFetched (fetchField .dynhdr (readCounts (tick s))) :=
  step_of_fetch h fun hm => by rw [fetch, hm]

/-- HCLEN completes the field of D.COUNTS, whose other two counts are in the registers already (R96, R205). -/
theorem readCounts_ok {v : Nat} {u : State} (hr : need 4 s = .ok v u) :
    readCounts s = .ok (encode (.dCounts (s.nLit - 257) (s.nDist - 1) v)) u := by
  obtain ⟨-, hu⟩ := need_ok hr
  have hlit : u.nLit = s.nLit := by rw [hu]
  have hdist : u.nDist = s.nDist := by rw [hu]
  rw [readCounts, hr, ← hlit, ← hdist]; rfl

section
variable {hlit hdist hclen : Nat}

/-- D.COUNTS ends the call with the first check that fails. -/
theorem dCounts_raises {e : Status} (hm : microStep s = some .dHclen)
    (he : countsError (hlit + 257) (hdist + 1) = some e) : Raises e s (exec (.dCounts hlit hdist hclen) s) := by
  have hexec : exec (.dCounts hlit hdist hclen) s = _ := atStep_of_current hm _
  rw [he] at hexec
  exact ⟨_, hexec, by simp [Raised]⟩

theorem countsError_hlit (h : 29 < hlit) :
    countsError (hlit + 257) (hdist + 1) = some .badLiteralLengthCodeCount := if_pos (by omega)

theorem countsError_hdist (h : hlit ≤ 29) (hd : 29 < hdist) :
    countsError (hlit + 257) (hdist + 1) = some .badDistanceCodeCount :=
  (if_neg (by omega)).trans (if_pos (by omega))

theorem countsError_of_le (h : hlit ≤ 29) (hd : hdist ≤ 29) : countsError (hlit + 257) (hdist + 1) = none :=
  (if_neg (by omega)).trans (if_neg (by omega))

end

end

/-- Settles O18: HCLEN completes the word of D.COUNTS, which decodes to it; its two checks are those of R205. -/
theorem dynamicHeaderCounts : Obligations.DynamicHeaderCounts := by
  unfold Obligations.DynamicHeaderCounts
  refine ⟨fun s h => ?_, fun s h => ?_, fun s h => ?_, fun s hlit hdist hclen hm =>
    ⟨fun hl => dCounts_raises hm (countsError_hlit hl), fun hl hd => dCounts_raises hm (countsError_hdist hl hd),
      fun hl hd => ?_⟩⟩
  · rw [step_dHlit h]
    exact ⟨finish_bind_ends _ _, fun v u hr => ⟨(need_ok hr).1, by rw [stepDHlit, hr]; rfl⟩⟩
  · rw [step_dHdist h]
    exact ⟨finish_bind_ends _ _, fun v u hr => ⟨(need_ok hr).1, by rw [stepDHdist, hr]; rfl⟩⟩
  · rw [step_dHclen h]
    refine ⟨fetchField_bind_ends _ _ _, fun v u hr hl hl' hd hd' => ?_⟩
    obtain ⟨hv, -⟩ := need_ok hr
    have hwf : WellFormed (.dCounts (s.nLit - 257) (s.nDist - 1) v) = true := by
      simp only [WellFormed, Bool.and_eq_true, decide_eq_true_eq]; omega
    have hfield := readCounts_ok hr
    simp only [tick_fields] at hfield
    exact ⟨hv, by rw [hfield, runFetched_ok (decode_encode_dCounts hwf)]⟩
  · refine (atStep_of_current hm _).trans ?_
    simp only [countsError_of_le hl hd]; rfl

section
variable {s : State}

/-! ## The code-length code (R206, R207) -/

/-- The end of a call by an error of a micro-step that read nothing. -/
theorem raises_of_tick (e : Status) (s : State) : Raises e s (.next (endRaised e (tick s))) :=
  ⟨_, rfl, by simp [Raised]⟩

theorem decode_cllen {v : Nat} (hv : v < 8) : decode .cllen v = .ok (.dCllen v) :=
  decodeOfEncode (.dCllen v) (decide_eq_true hv) rfl

theorem step_dCllens_read (h : Runs .dCllens s) (hdue : s.dI < s.nClen) :
    step s = runFetched (fetchField .cllen (need 3 (tick s))) :=
  step_of_fetch h fun hm => by simp only [fetch, hm]; exact if_pos (by simpa using hdue)

theorem step_dCllens_end (h : Runs .dCllens s) (hfull : s.dI = s.nClen) :
    step s = finish (stepDCllensEnd (tick s)) :=
  step_of_internal h fun hm => by simp only [fetch, hm]; exact if_neg (by simp [hfull])

end

/-- Settles O19: a field of three bits is the word of D.CLLEN; with all of them read the table's validation decides. -/
theorem codeLengthCode : Obligations.CodeLengthCode := by
  unfold Obligations.CodeLengthCode
  refine ⟨fun s h hdue => ⟨?_, fun v u hr => ?_⟩, fun s v hm hdue => ?_, fun s h hfull => ⟨fun e he => ?_, fun he => ?_⟩⟩
  · rw [step_dCllens_read h hdue]
    exact fetchField_ends _ _
  · obtain ⟨hv, -⟩ := need_ok hr
    exact ⟨hv, step_dCllens h hdue hr (decode_cllen hv)⟩
  · exact (atStep_of_current hm _).trans (if_pos hdue)
  · rw [step_dCllens_end h hfull, stepDCllensEnd, show validate (tick s).clLen false = some e by simpa using he]
    exact raises_of_tick e s
  · rw [step_dCllens_end h hfull, stepDCllensEnd, show validate (tick s).clLen false = none by simpa using he]
    rfl

section
variable {s : State}

/-! ## The code-length symbols (R208, R211) -/

theorem step_dSym_read (h : Runs .dSym s) (hdue : s.dI ≠ s.nLit + s.nDist) :
    step s = runFetched (fetchField .clsym (huffDecode s.clLen (tick s))) :=
  step_of_fetch h fun hm => by
    simp only [fetch, hm, tick_fields]; exact if_pos (lengthDue_iff.2 (by simpa using hdue))

theorem step_dSym_end (h : Runs .dSym s) (hfull : s.dI = s.nLit + s.nDist) :
    step s = finish (.ok () (stepDSymEnd (tick s))) :=
  step_of_internal h fun hm => by simp only [fetch, hm]; exact if_neg (by simp [lengthDue_iff, hfull])

theorem exec_clLen (n : Nat) (hm : microStep s = some .dSym) (hdue : s.dI ≠ s.nLit + s.nDist) :
    exec (.clLen n) s = .next { setLen s.dI n s with dI := s.dI + 1 } :=
  (atStep_of_current hm _).trans (if_pos (lengthDue_iff.2 hdue))

/-- A repeat element that has been decoded while an entry is due starts. -/
theorem repeatElement_dSym {w base : Nat} (start : Answer) (hm : microStep s = some .dSym)
    (hdue : s.dI ≠ s.nLit + s.nDist) : repeatElement w base start s = start := by
  simp only [repeatElement, hm]
  exact if_pos (lengthDue_iff.2 hdue)

/-- CL.REP after at least one entry holds the previous one (R212). -/
theorem exec_clRep (hm : microStep s = some .dSym) (hdue : s.dI ≠ s.nLit + s.nDist) (h0 : 0 < s.dI) :
    exec .clRep s = .next (startRepeat 16 (getLen (s.dI - 1) s) s) :=
  (repeatElement_dSym _ hm hdue).trans (if_neg (Nat.ne_of_gt h0))

theorem exec_clRep_first (hm : microStep s = some .dSym) (hdue : s.dI ≠ s.nLit + s.nDist) (h0 : s.dI = 0) :
    exec .clRep s = .next (endRaised .badHuffmanCodeLengthRepetition s) :=
  (repeatElement_dSym _ hm hdue).trans (if_pos h0)

theorem setLen_litlen {i : Nat} (v : Nat) (h : i < s.nLit) : setLen i v s = { s with llLen := s.llLen.set i v } :=
  if_pos h

theorem setLen_dist {i : Nat} (v : Nat) (h : s.nLit ≤ i) :
    setLen i v s = { s with dLen := s.dLen.set (i - s.nLit) v } :=
  if_neg (Nat.not_lt.2 h)

theorem getLen_litlen {i : Nat} (h : i < s.nLit) : getLen i s = s.llLen.getD i 0 := if_pos h

theorem getLen_dist {i : Nat} (h : s.nLit ≤ i) : getLen i s = s.dLen.getD (i - s.nLit) 0 := if_neg (Nat.not_lt.2 h)

end

/-- Settles O20: the symbol that has been read decodes to its element, which writes the entry or holds the repeat. -/
theorem codeLengthSymbols : Obligations.CodeLengthSymbols := by
  unfold Obligations.CodeLengthSymbols
  refine ⟨fun s => step_dSym_end, fun s h hdue => ⟨?_, fun c u hr => ?_⟩, fun s hm hdue => ?_⟩
  · rw [step_dSym_read h hdue]
    exact fetchField_ends _ _
  · refine ⟨fun hc => step_dSym h hdue hr (decode_clsym_len (Nat.lt_succ_of_le hc)), ?_, ?_, ?_⟩
    all_goals rintro rfl; exact step_dSym h hdue hr rfl
  · refine ⟨fun n hn => ?_, fun n hn => ?_, fun h0 => ?_, fun h0 hn => ?_, fun h0 hn => ?_,
      repeatElement_dSym _ hm hdue, repeatElement_dSym _ hm hdue⟩
    · rw [exec_clLen n hm hdue, setLen_litlen n hn]
    · rw [exec_clLen n hm hdue, setLen_dist n hn]
    · rw [exec_clRep_first hm hdue h0]; exact raises_endRaised _ s
    · rw [exec_clRep hm hdue h0, getLen_litlen hn]; rfl
    · rw [exec_clRep hm hdue h0, getLen_dist hn]; rfl

/-! ## The runs (R209, R212 to R214) -/

section
variable {s : State}

theorem step_dExtra (h : Runs .dExtra s) {i : Instr} (hd : decode .clsym s.repSym = .ok i) : step s = exec i (tick s) :=
  step_of_field h (fun hm => by simp only [fetch, hm, tick_fields]) hd

/-- At D_EXTRA a repeat element is its run, however it has started. -/
theorem repeatElement_dExtra {w base : Nat} (start : Answer) (hm : microStep s = some .dExtra) :
    repeatElement w base start s = finish (runRepeat w base s) := by
  simp only [repeatElement, hm]

/-- A run that has read its extra bits is refused whole or written whole (R209). -/
theorem finish_runRepeat {w base v : Nat} {u : State} (hr : need w s = .ok v u) :
    finish (runRepeat w base s) =
      if u.nLit + u.nDist < u.dI + (base + v) then .next (endRaised .badHuffmanCodeLengthCount u)
      else .next { fillLens u.repVal (base + v) u.dI u with dI := u.dI + (base + v), dStep := .sym } := by
  rw [runRepeat, needPlus_bind, hr, Res.ok_bind]
  split <;> rfl

/-- A run whose extra bits are not there ends as their read does (R13). -/
theorem runRepeat_ends (w base : Nat) (s : State) : EndsWithRead (need w s) (finish (runRepeat w base s)) := by
  rw [runRepeat, needPlus_bind]
  exact finish_bind_ends _ _

/-! ## What a run writes (R216) -/

theorem fillLens_eq (v r i : Nat) (s : State) :
    fillLens v r i s = { s with llLen := (fillLens v r i s).llLen, dLen := (fillLens v r i s).dLen } := by
  induction r generalizing i s with
  | zero => rfl
  | succ r ih =>
    rw [fillLens, ih]
    rcases Nat.lt_or_ge i s.nLit with h | h
    · rw [setLen_litlen v h]
    · rw [setLen_dist v h]

theorem setLen_counts (i v : Nat) (s : State) : (setLen i v s).nLit = s.nLit ∧ (setLen i v s).nDist = s.nDist := by
  simp

theorem setLen_length (i v : Nat) (s : State) :
    (setLen i v s).llLen.length = s.llLen.length ∧ (setLen i v s).dLen.length = s.dLen.length := by
  rcases Nat.lt_or_ge i s.nLit with h | h
  · rw [setLen_litlen v h]; exact ⟨List.length_set, rfl⟩
  · rw [setLen_dist v h]; exact ⟨rfl, List.length_set⟩

theorem getD_set_of_ne {len : List Nat} {i k : Nat} (v : Nat) (h : i ≠ k) : (len.set i v).getD k 0 = len.getD k 0 := by
  rw [List.getD_eq_getElem?_getD, List.getElem?_set_ne h, ← List.getD_eq_getElem?_getD]

/-- The entries of both arrays past the counts are no entries of the sequence. -/
theorem setLen_beyond {i : Nat} (v : Nat) (hi : i < s.nLit + s.nDist) :
    (∀ k, s.nLit ≤ k → (setLen i v s).llLen.getD k 0 = s.llLen.getD k 0) ∧
      ∀ k, s.nDist ≤ k → (setLen i v s).dLen.getD k 0 = s.dLen.getD k 0 := by
  rcases Nat.lt_or_ge i s.nLit with h | h
  · rw [setLen_litlen v h]; exact ⟨fun k hk => getD_set_of_ne v (by omega), fun _ _ => rfl⟩
  · rw [setLen_dist v h]; exact ⟨fun _ _ => rfl, fun k hk => getD_set_of_ne v (by omega)⟩

theorem fillLens_length (v r i : Nat) (s : State) :
    (fillLens v r i s).llLen.length = s.llLen.length ∧ (fillLens v r i s).dLen.length = s.dLen.length := by
  induction r generalizing i s with
  | zero => exact ⟨rfl, rfl⟩
  | succ r ih =>
    obtain ⟨hl, hd⟩ := ih (i + 1) (setLen i v s)
    rw [fillLens, hl, hd]
    exact setLen_length i v s

/-- A run inside the sequence gives its entries the value and leaves the others. -/
theorem getLen_fillLens {v r i k : Nat} (hi : i + r ≤ s.nLit + s.nDist) (hk : k < s.nLit + s.nDist)
    (hll : s.nLit ≤ s.llLen.length) (hd : s.nDist ≤ s.dLen.length) :
    getLen k (fillLens v r i s) = if i ≤ k ∧ k < i + r then v else getLen k s := by
  induction r generalizing i s with
  | zero => rw [if_neg (by omega)]; rfl
  | succ r ih =>
    obtain ⟨hlit, hdist⟩ := setLen_counts i v s
    obtain ⟨hll', hd'⟩ := setLen_length i v s
    have hrest := ih (s := setLen i v s) (i := i + 1) (by omega) (by omega) (by omega) (by omega)
    rw [fillLens, hrest, getLen_setLen (by omega) hk hll hd]
    split_ifs <;> omega

theorem fillLens_beyond {v r i : Nat} (hi : i + r ≤ s.nLit + s.nDist) :
    (∀ k, s.nLit ≤ k → (fillLens v r i s).llLen.getD k 0 = s.llLen.getD k 0) ∧
      ∀ k, s.nDist ≤ k → (fillLens v r i s).dLen.getD k 0 = s.dLen.getD k 0 := by
  induction r generalizing i s with
  | zero => exact ⟨fun _ _ => rfl, fun _ _ => rfl⟩
  | succ r ih =>
    obtain ⟨hlit, hdist⟩ := setLen_counts i v s
    obtain ⟨hl, hd⟩ := setLen_beyond v (show i < s.nLit + s.nDist by omega)
    obtain ⟨hl', hd'⟩ := ih (s := setLen i v s) (i := i + 1) (by omega)
    rw [hlit] at hl'
    rw [hdist] at hd'
    exact ⟨fun k hk => (hl' k hk).trans (hl k hk), fun k hk => (hd' k hk).trans (hd k hk)⟩

/-- The state `t` is `s` with its run of `r` entries written, and nothing else (R209). -/
def RunWritten (r : Nat) (s t : State) : Prop :=
  t = { s with llLen := t.llLen, dLen := t.dLen, dI := s.dI + r, dStep := .sym } ∧
    t.llLen.length = s.llLen.length ∧ t.dLen.length = s.dLen.length ∧
    (∀ k, k < s.nLit + s.nDist → getLen k t = if s.dI ≤ k ∧ k < s.dI + r then s.repVal else getLen k s) ∧
    (∀ k, s.nLit ≤ k → t.llLen.getD k 0 = s.llLen.getD k 0) ∧ ∀ k, s.nDist ≤ k → t.dLen.getD k 0 = s.dLen.getD k 0

theorem runWritten_fillLens {r : Nat} (hr : s.dI + r ≤ s.nLit + s.nDist) (hll : s.nLit ≤ s.llLen.length)
    (hd : s.nDist ≤ s.dLen.length) :
    RunWritten r s { fillLens s.repVal r s.dI s with dI := s.dI + r, dStep := .sym } := by
  obtain ⟨hlen, hlen'⟩ := fillLens_length s.repVal r s.dI s
  obtain ⟨hpast, hpast'⟩ := fillLens_beyond (v := s.repVal) hr
  refine ⟨?_, hlen, hlen', fun k hk => getLen_fillLens hr hk hll hd, hpast, hpast'⟩
  rw [fillLens_eq]

end

/-- The repeat elements with the symbol, the extra bits and the shortest run of each (R209). -/
def repeatElements : List (Instr × Nat × Nat × Nat) := [(.clRep, 16, 2, 3), (.clZrep, 17, 3, 3), (.clZrepl, 18, 7, 11)]

/-- A repeat element is what its symbol decodes to, and at D_EXTRA it is the run of its row. -/
theorem repeatElements_meaning {i : Instr} {sym w base : Nat} (h : (i, sym, w, base) ∈ repeatElements) :
    decode .clsym sym = .ok i ∧ ∀ s, microStep s = some .dExtra → exec i s = finish (runRepeat w base s) := by
  simp only [repeatElements, List.mem_cons, Prod.mk.injEq, List.not_mem_nil, or_false] at h
  rcases h with ⟨rfl, rfl, rfl, rfl⟩ | ⟨rfl, rfl, rfl, rfl⟩ | ⟨rfl, rfl, rfl, rfl⟩
  · exact ⟨rfl, fun s hm => repeatElement_dExtra _ hm⟩
  · exact ⟨rfl, fun s hm => repeatElement_dExtra _ hm⟩
  · exact ⟨rfl, fun s hm => repeatElement_dExtra _ hm⟩

/-- Settles O21: the three repeats are one run, of which the read leaves everything but the reader alone. -/
theorem repeatRuns : Obligations.RepeatRuns := by
  unfold Obligations.RepeatRuns
  rintro ⟨i, sym, w, base⟩ hrow
  obtain ⟨hdecode, hexec⟩ := repeatElements_meaning hrow
  refine ⟨fun s h hsym => step_dExtra h (hsym ▸ hdecode), fun s hm => ?_⟩
  rw [hexec s hm]
  refine ⟨runRepeat_ends w base s, fun v u hr => ?_⟩
  obtain ⟨b, n, tot, bytes, cons, rfl⟩ :
      ∃ b n tot bytes cons, u = { s with bits := b, nBits := n, inTotal := tot, inBytes := bytes, consumed := cons } :=
    ⟨_, _, _, _, _, (need_ok hr).2⟩
  rw [finish_runRepeat hr]
  refine ⟨fun hover => ?_, fun hfits hll hd => ?_⟩
  · rw [if_pos hover]; exact raises_endRaised _ _
  · rw [if_neg (Nat.not_lt.2 hfits)]; exact ⟨_, rfl, runWritten_fillLens hfits hll hd⟩

/-! ## The tables of the block (R210) -/

section
variable {s : State}

theorem step_dBuild (h : Runs .dBuild s) : step s = finish (stepDBuild (tick s)) :=
  step_of_internal h fun hm => by rw [fetch, hm]

theorem buildError_tick (s : State) : buildError (tick s) = buildError s := by simp [buildError]

/-- D_BUILD ends the call with the first check that fails. -/
theorem dBuild_raises {e : Status} (h : Runs .dBuild s) (he : buildError s = some e) : Raises e s (step s) := by
  rw [step_dBuild h, stepDBuild, buildError_tick, he]
  exact raises_of_tick e s

theorem buildError_of_noEnd (h0 : s.llLen.getD 256 0 = 0) : buildError s = some .missingEndOfBlockCode := if_pos h0

theorem buildError_of_litlen {e : Status} (h0 : s.llLen.getD 256 0 ≠ 0) (hv : validate s.llLen false = some e) :
    buildError s = some e := by
  rw [buildError, if_neg h0, hv]

/-- With the first two checks passed, the distance table's is the last. -/
theorem buildError_of_litlen_ok (h0 : s.llLen.getD 256 0 ≠ 0) (hv : validate s.llLen false = none) :
    buildError s = validate s.dLen true := by
  rw [buildError, if_neg h0, hv]

end

/-- Settles O22: the first check of D_BUILD that fails is the error, and none is the way into the symbol loop. -/
theorem buildTables : Obligations.BuildTables := by
  unfold Obligations.BuildTables
  refine fun s h => ⟨fun h0 => dBuild_raises h (buildError_of_noEnd h0),
    fun h0 e he => dBuild_raises h (buildError_of_litlen h0 he),
    fun h0 hll e he => dBuild_raises h ((buildError_of_litlen_ok h0 hll).trans he), fun h0 hll hd => ?_⟩
  rw [step_dBuild h, stepDBuild, buildError_tick, buildError_of_litlen_ok h0 hll, hd]
  rfl

end Sys2Proof.Machine
end

section
/-! The symbol loop (spec/44_symbol_loop_window.md R231 to R247): literals and the end of the block, the lengths, the
distances and their check, the copy, and `Emit`. -/

namespace Sys2Proof.Machine

/-! ## Emit (R246, R247, R262) -/

/-- Settles O37: `Emit` is its four updates, of which the window's is a write in canonical form. -/
theorem emitEffects : Obligations.EmitEffects := by
  unfold Obligations.EmitEffects
  refine fun s b => ⟨rfl, fun d => rfl, fun hwf x => ?_⟩
  simp only [emit_fields]
  exact memRead_memWrite hwf _ b x

section
variable {s : State}

/-- A micro-step that emits a byte ends, where there is no room, as the test for room does (R66). -/
theorem emitChecked_bind_ends (b : Byte) (g : Unit → State → Res Unit) (s : State) :
    EndsWithRead (needOut s) (finish ((emitChecked b s).bind g)) := by
  have hassoc : (emitChecked b s).bind g = (needOut s).bind fun _ t => g () (emit b t) := by
    rw [emitChecked]; cases needOut s <;> rfl
  rw [hassoc]
  exact finish_bind_ends _ _

theorem emitChecked_of_room (b : Byte) (hroom : s.outBytes.length < s.outCap) :
    emitChecked b s = .ok () (emit b s) := by
  rw [emitChecked, needOut, if_pos hroom]; rfl

/-! ## Literals and the end of the block (R231 to R233, R236) -/

theorem exec_lit_yLitlen (b : Byte) (hm : microStep s = some .yLitlen) :
    exec (.lit b) s = .next { s with yLit := b, yStep := .emit } := by
  simp only [exec, execLit, hm]

theorem exec_lit_yEmit (b : Byte) (hm : microStep s = some .yEmit) :
    exec (.lit b) s = finish ((emitChecked b s).bind fun _ t => .ok () { t with yStep := .litlen }) := by
  simp only [exec, execLit, hm]

theorem exec_eob (hm : microStep s = some .yLitlen) : exec .eob s = .next { s with bStep := .blockEnd } :=
  atStep_of_current hm _

theorem lengthElement_yLitlen (sym : Nat) (hm : microStep s = some .yLitlen) :
    lengthElement sym s = .next { s with yLsym := sym, yStep := .lextra } := by
  simp only [lengthElement, hm]

theorem reservedLength_raises (hm : microStep s = some .yLitlen) : Raises .badHuffmanCode s (reservedLength s) := by
  rw [reservedLength, atStep_of_current hm]
  exact raises_endRaised _ s

theorem reservedDistance_raises (hm : microStep s = some .yDsym) : Raises .badHuffmanCode s (reservedDistance s) := by
  rw [reservedDistance, atStep_of_current hm]
  exact raises_endRaised _ s

/-- A symbol that has been read leaves its micro-step current (R168). -/
theorem microStep_of_huffDecode {m : MicroStep} {len : List Nat} {v : Nat} {u : State} (h : Runs m s)
    (hr : huffDecode len (tick s) = .ok v u) : microStep u = some m :=
  (huffDecode_only hr).microStep.trans (step_of_runs h).2

theorem step_yLitlen_read (h : Runs .yLitlen s) :
    step s = runFetched (fetchField .llsym (huffDecode s.llLen (tick s))) :=
  step_of_fetch h fun hm => by simp only [fetch, hm, tick_fields]

theorem step_yEmit (h : Runs .yEmit s) : step s = exec (.lit s.yLit) (tick s) := by
  have hd : decode .llsym s.yLit.toNat = .ok (.lit s.yLit) := decode_encode_llsym (i := .lit s.yLit) rfl
  exact step_of_field h (fun hm => by simp only [fetch, hm, tick_fields]) hd

end

/-- Settles O23: the symbol that has been read decodes to its element, which is current there. -/
theorem literalsAndEndOfBlock : Obligations.LiteralsAndEndOfBlock := by
  unfold Obligations.LiteralsAndEndOfBlock
  refine ⟨fun s h => ⟨?_, fun v u hr => ?_⟩, fun s b => exec_lit_yLitlen b, fun s => exec_eob, fun s => step_yEmit,
    fun s b hm => ?_⟩
  · rw [step_yLitlen_read h]
    exact fetchField_ends _ _
  · have hm := microStep_of_huffDecode h hr
    refine ⟨fun hv => ?_, fun hv => ?_, fun hv hv' => ?_, fun hv => ?_⟩
    · exact (step_yLitlen h hr (decode_lit hv)).trans (exec_lit_yLitlen _ hm)
    · exact (step_yLitlen h hr (hv ▸ decode_eob)).trans (exec_eob hm)
    · obtain ⟨i, hd, hexec⟩ := exec_length hv hv'
      rw [step_yLitlen h hr hd, hexec, lengthElement_yLitlen v hm]
    · obtain ⟨i, hd, hexec⟩ := exec_llRsvd (v := v) (by omega) (by omega)
      rw [step_yLitlen h hr hd, hexec]
      exact reservedLength_raises hm
  · rw [exec_lit_yEmit b hm]
    refine ⟨emitChecked_bind_ends b _ s, fun hroom => ?_⟩
    rw [emitChecked_of_room b hroom]; rfl

/-! ## The lengths (R234, R237) -/

section
variable {s : State} {i : Instr} {sym base ext : Nat}

/-- A row of the table is the symbol's entry of the alphabet and of the tables of bases and extra bits (R104). -/
theorem lengthRows_entry (h : (i, sym, base, ext) ∈ lengthRows) :
    decode .llsym sym = .ok i ∧ 257 ≤ sym ∧ sym ≤ 285 ∧ lbase.getD (sym - 257) 0 = base ∧
      lext.getD (sym - 257) 0 = ext := by
  have hrows : ∀ row ∈ lengthRows, decode .llsym row.2.1 = .ok row.1 ∧ 257 ≤ row.2.1 ∧ row.2.1 ≤ 285 ∧
      lbase.getD (row.2.1 - 257) 0 = row.2.2.1 ∧ lext.getD (row.2.1 - 257) 0 = row.2.2.2 := by decide
  exact hrows _ h

theorem exec_of_lengthRows (h : (i, sym, base, ext) ∈ lengthRows) (s : State) : exec i s = lengthElement sym s := by
  obtain ⟨hd, h1, h2, -, -⟩ := lengthRows_entry h
  obtain ⟨j, hj, hexec⟩ := exec_length h1 h2
  cases hd.symm.trans hj
  exact hexec s

/-- The codes of the symbols from 256 on in a fixed block: 7 bits from 0, then 8 bits from 11000000 (R107). -/
theorem fixLl_code (h : 256 ≤ sym) (h' : sym ≤ 287) :
    fixLl.getD sym 0 = (if sym < 280 then 7 else 8) ∧
      codeOf fixLl sym = (if sym < 280 then sym - 256 else 0b11000000 + (sym - 280)) := by
  have hcodes : ∀ k < 32, fixLl.getD (256 + k) 0 = (if 256 + k < 280 then 7 else 8) ∧
      codeOf fixLl (256 + k) = (if 256 + k < 280 then 256 + k - 256 else 0b11000000 + (256 + k - 280)) := by
    decide +kernel
  obtain ⟨k, rfl⟩ := Nat.exists_eq_add_of_le h
  exact hcodes k (by omega)

theorem step_yLextra (h : Runs .yLextra s) (hd : decode .llsym s.yLsym = .ok i) : step s = exec i (tick s) :=
  step_of_field h (fun hm => by simp only [fetch, hm, tick_fields]) hd

/-- At Y_LEXTRA a length element reads its extra bits and adds them to its base. -/
theorem exec_yLextra (h : (i, sym, base, ext) ∈ lengthRows) (hm : microStep s = some .yLextra) :
    exec i s = finish ((need ext s).bind fun v t => .ok () { t with yLength := base + v, yStep := .dsym }) := by
  obtain ⟨-, -, -, rfl, rfl⟩ := lengthRows_entry h
  rw [exec_of_lengthRows h]
  simp only [lengthElement, hm, readLength, needPlus_bind]

end

/-- Settles O24: a row's element is the length element of its symbol, whose operand is that of the tables. -/
theorem lengthElements : Obligations.LengthElements := by
  unfold Obligations.LengthElements
  rintro ⟨i, sym, base, ext⟩ hrow
  obtain ⟨hd, h1, h2, -, -⟩ := lengthRows_entry hrow
  obtain ⟨hlen, hcode⟩ := fixLl_code (sym := sym) (by omega) (by omega)
  refine ⟨hd, hlen, hcode, fun s hm => ?_, fun s h hsym => step_yLextra h (hsym ▸ hd), fun s hm => ?_,
    fun s hm hn => ?_⟩
  · rw [exec_of_lengthRows hrow, lengthElement_yLitlen sym hm]
  · rw [exec_yLextra hrow hm]
    exact ⟨finish_bind_ends _ _, fun v u hr => by rw [hr]; rfl⟩
  · rw [exec_yLextra hrow hm, need_of_le hn]; rfl

/-! ## The distances (R238, R239, R242) -/

section
variable {s : State} {i : Instr} {sym base ext : Nat}

theorem distanceElement_yDsym (sym : Nat) (hm : microStep s = some .yDsym) :
    distanceElement sym s = .next { s with yDsym := sym, yStep := .dextra } := by
  simp only [distanceElement, hm]

theorem step_yDsym_read (h : Runs .yDsym s) : step s = runFetched (fetchField .dsym (huffDecode s.dLen (tick s))) :=
  step_of_fetch h fun hm => by simp only [fetch, hm, tick_fields]

/-- A row of the table is the symbol's entry of the alphabet and of the tables of bases and extra bits (R105). -/
theorem distanceRows_entry (h : (i, sym, base, ext) ∈ distanceRows) :
    decode .dsym sym = .ok i ∧ sym ≤ 29 ∧ dbase.getD sym 0 = base ∧ dext.getD sym 0 = ext := by
  have hrows : ∀ row ∈ distanceRows, decode .dsym row.2.1 = .ok row.1 ∧ row.2.1 ≤ 29 ∧
      dbase.getD row.2.1 0 = row.2.2.1 ∧ dext.getD row.2.1 0 = row.2.2.2 := by decide
  exact hrows _ h

theorem exec_of_distanceRows (h : (i, sym, base, ext) ∈ distanceRows) (s : State) :
    exec i s = distanceElement sym s := by
  obtain ⟨hd, hsym, -, -⟩ := distanceRows_entry h
  obtain ⟨j, hj, hexec⟩ := exec_distance hsym
  cases hd.symm.trans hj
  exact hexec s

/-- The distance codes of a fixed block are the symbols themselves in 5 bits (R108). -/
theorem fixD_code (h : sym ≤ 31) : fixD.getD sym 0 = 5 ∧ codeOf fixD sym = sym := by
  have hcodes : ∀ k < 32, fixD.getD k 0 = 5 ∧ codeOf fixD k = k := by decide +kernel
  exact hcodes sym (Nat.lt_succ_of_le h)

theorem step_yDextra (h : Runs .yDextra s) (hd : decode .dsym s.yDsym = .ok i) : step s = exec i (tick s) :=
  step_of_field h (fun hm => by simp only [fetch, hm, tick_fields]) hd

/-- At Y_DEXTRA a distance element reads its extra bits, adds them to its base and checks the sum. -/
theorem exec_yDextra (h : (i, sym, base, ext) ∈ distanceRows) (hm : microStep s = some .yDextra) :
    exec i s = finish ((need ext s).bind fun v t =>
      if t.produced < base + v then .raise .badDistance { t with yDist := base + v }
      else .ok () { t with yDist := base + v, yRem := t.yLength, yStep := .copy }) := by
  obtain ⟨-, -, rfl, rfl⟩ := distanceRows_entry h
  rw [exec_of_distanceRows h]
  simp only [distanceElement, hm, startCopy, readDistance, needPlus_bind]

/-- With its extra bits read a distance element is an error or starts the copy, by the bytes produced so far (R239). -/
theorem exec_yDextra_ok {v : Nat} {u : State} (h : (i, sym, base, ext) ∈ distanceRows)
    (hm : microStep s = some .yDextra) (hr : need ext s = .ok v u) :
    exec i s = if s.produced < base + v then .next (endRaised .badDistance { u with yDist := base + v })
      else .next { u with yDist := base + v, yRem := s.yLength, yStep := .copy } := by
  obtain ⟨-, hu⟩ := need_ok hr
  have hproduced : u.produced = s.produced := by rw [hu]
  have hlength : u.yLength = s.yLength := by rw [hu]
  rw [exec_yDextra h hm, hr, Res.ok_bind, hproduced, hlength]
  split <;> rfl

end

/-- Settles O26: the symbol that has been read decodes to its element; a row's element is the distance element of its
symbol, whose operand is that of the tables. -/
theorem distanceElements : Obligations.DistanceElements := by
  unfold Obligations.DistanceElements
  refine ⟨fun s h => ⟨?_, fun v u hr => ?_⟩, ?_⟩
  · rw [step_yDsym_read h]
    exact fetchField_ends _ _
  · have hm := microStep_of_huffDecode h hr
    refine ⟨fun hv => ?_, fun hv => ?_⟩
    · obtain ⟨i, hd, hexec⟩ := exec_distance hv
      rw [step_yDsym h hr hd, hexec, distanceElement_yDsym v hm]
    · obtain ⟨i, hd, hexec⟩ := exec_dRsvd (v := v) (by omega) (by omega)
      rw [step_yDsym h hr hd, hexec]
      exact reservedDistance_raises hm
  rintro ⟨i, sym, base, ext⟩ hrow
  obtain ⟨hd, hsym, -, -⟩ := distanceRows_entry hrow
  obtain ⟨hlen, hcode⟩ := fixD_code (sym := sym) (by omega)
  refine ⟨hd, hlen, hcode, fun s hm => ?_, fun s h hs => step_yDextra h (hs ▸ hd), fun s hm => ⟨?_, fun v u hr => ?_⟩,
    fun s hm hn hle => ?_⟩
  · rw [exec_of_distanceRows hrow, distanceElement_yDsym sym hm]
  · rw [exec_yDextra hrow hm]
    exact finish_bind_ends _ _
  · rw [exec_yDextra_ok hrow hm hr]
    refine ⟨fun hfar => ?_, fun hle => if_neg (Nat.not_lt.2 hle)⟩
    rw [if_pos hfar]
    exact ⟨_, rfl, by simp [Raised]⟩
  · exact (exec_yDextra_ok hrow hm (need_of_le hn)).trans (if_neg (Nat.not_lt.2 hle))

/-! ## The copy (R240, R247) -/

section
variable {s : State} {i : Instr} {sym base ext : Nat}

theorem step_yCopy (h : Runs .yCopy s) (hd : decode .dsym s.yDsym = .ok i) : step s = exec i (tick s) :=
  step_of_field h (fun hm => by simp only [fetch, hm, tick_fields]) hd

theorem exec_yCopy (h : (i, sym, base, ext) ∈ distanceRows) (hm : microStep s = some .yCopy) :
    exec i s = finish (copyByte s) := by
  rw [exec_of_distanceRows h]
  simp only [distanceElement, hm]

theorem copyByte_end (h0 : s.yRem = 0) : copyByte s = .ok () { s with yStep := .litlen } := if_pos h0

theorem copyByte_due (h0 : s.yRem ≠ 0) :
    copyByte s = (emitChecked (histRead s.yDist s) s).bind fun _ t => .ok () { t with yRem := t.yRem - 1 } :=
  if_neg h0

end

/-- Settles O27: at Y_COPY every distance element is `copyByte`, which ends the copy or emits the byte it has read. -/
theorem copyOneByte : Obligations.CopyOneByte := by
  unfold Obligations.CopyOneByte
  rintro ⟨i, sym, base, ext⟩ hrow
  obtain ⟨hd, -⟩ := distanceRows_entry hrow
  refine ⟨fun s h hs => step_yCopy h (hs ▸ hd), fun s hm => ?_⟩
  rw [exec_yCopy hrow hm]
  refine ⟨fun h0 => ?_, fun h0 => ?_, fun h0 hroom => ?_⟩
  · rw [copyByte_end h0]; rfl
  · rw [copyByte_due h0]
    exact emitChecked_bind_ends _ _ s
  · rw [copyByte_due h0, emitChecked_of_room _ hroom]
    simp [finish, histRead, windowSize]

/-! ## The symbols without a meaning (R205, R235, R238) -/

section
variable {s : State} {m : MicroStep}

/-- In the symbol loop the tables in force have been accepted. -/
theorem LocalsOk.tablesOk (h : LocalsOk s m) (hm : m ∈ [.yLitlen, .yEmit, .yLextra, .yDsym, .yDextra, .yCopy]) :
    TablesOk s := by
  simp only [List.mem_cons, List.not_mem_nil, or_false] at hm
  rcases hm with rfl | rfl | rfl | rfl | rfl | rfl
  · exact h
  · exact h
  · exact h.1
  · exact h.1
  · exact h.1
  · exact h.1

/-- The tables of a dynamic block give the symbols without a meaning no code. -/
theorem TablesFromHeader.noCodes (h : TablesFromHeader s) (hb : s.btype = 2) :
    NoCodesFrom 286 s.llLen ∧ NoCodesFrom 30 s.dLen := by
  rcases h with ⟨h1, -⟩ | ⟨-, hll, hd⟩
  · rw [hb] at h1; cases h1
  · exact ⟨hll, hd⟩

/-- From D_BUILD on the arrays of a dynamic block give the symbols without a meaning no code. -/
theorem LocalsOk.noCodes (h : LocalsOk s m)
    (hm : m ∈ [.dBuild, .yLitlen, .yEmit, .yLextra, .yDsym, .yDextra, .yCopy]) (hb : s.btype = 2) :
    NoCodesFrom 286 s.llLen ∧ NoCodesFrom 30 s.dLen := by
  rcases List.mem_cons.1 hm with rfl | hm
  · obtain ⟨⟨-, hlit, -, hdist, -, hll, hd⟩, -⟩ := h
    exact ⟨hll.mono hlit, hd.mono hdist⟩
  · obtain ⟨-, -, htables⟩ := h.tablesOk hm
    exact htables.noCodes hb

/-- A symbol that is read has a code in its table (R168). -/
theorem getD_ne_zero_of_huffDecode {len : List Nat} {v : Nat} {u : State} (hb : s.bits.toNat < 2 ^ s.nBits)
    (hl : ∀ l ∈ len, l ≤ 15) (hr : huffDecode len s = .ok v u) : len.getD v 0 ≠ 0 := by
  have hmax : maxl len ≤ 15 := maxl_le hl
  rcases huffDecode_cases hb (show maxl len ≤ 24 by omega) with
    ⟨sym, t, hr', -, hpos, -⟩ | ⟨t, hst, -⟩ | ⟨t, -, -, -, -, hr'⟩
  · cases hr.symm.trans hr'
    exact Nat.one_le_iff_ne_zero.1 hpos
  · rw [hr] at hst; cases hst
  · cases hr.symm.trans hr'

end

/-- Settles O25: the codes by evaluation; where one of the four is read it has a code, which only the constant tables
give it. -/
theorem reservedSymbols : Obligations.ReservedSymbols := by
  unfold Obligations.ReservedSymbols
  refine ⟨rfl, rfl, rfl, rfl, by decide +kernel, by decide +kernel, by decide +kernel, by decide +kernel,
    fun s hm => ⟨reservedLength_raises hm, reservedLength_raises hm⟩,
    fun s hm => ⟨reservedDistance_raises hm, reservedDistance_raises hm⟩, fun m s hI h hm hb => ?_,
    fun s v u hI h hr hv => ?_, fun s v u hI h hr hv => ?_⟩
  · obtain ⟨hll, hd⟩ := (hI.localsOk h.1 h.2.2).noCodes hm hb
    exact ⟨hll 286 (by decide), hll 287 (by decide), hd 30 (by decide), hd 31 (by decide)⟩
  · obtain ⟨-, -, htables⟩ := (hI.localsOk h.1 h.2.2).tablesOk (by decide)
    obtain ⟨hfixed, hll, -⟩ :=
      htables.fixed (.inl ⟨v, hv, getD_ne_zero_of_huffDecode hI.tick.bits hI.llLen.2 hr⟩)
    exact ⟨hfixed, hll⟩
  · obtain ⟨-, -, htables⟩ := (hI.localsOk h.1 h.2.2).tablesOk (by decide)
    obtain ⟨hfixed, -, hd⟩ :=
      htables.fixed (.inr ⟨v, hv, getD_ne_zero_of_huffDecode hI.tick.bits hI.dLen.2 hr⟩)
    exact ⟨hfixed, hd⟩

end Sys2Proof.Machine
end

section
/-! The zlib envelope (spec/45_zlib_adler.md R263 to R268) and what DONE means (spec/46_host_operations.md R289). -/

namespace Sys2Proof.Machine

section
variable {s : State}

/-- `PullByte` in a step of a call takes the first unread byte and counts it (R64). -/
theorem pullByte_tick {b : Byte} {rest : List Byte} (hi : s.inBytes = b :: rest) :
    pullByte (tick s) =
      .ok b { tick s with inBytes := rest, inTotal := s.inTotal + 1, consumed := s.consumed + 1 } := by
  obtain ⟨hpull, -⟩ := streamPrimitives (tick s)
  rw [hpull b rest (by simpa using hi)]
  simp

/-! ## The header (R263 to R266) -/

theorem step_zCmf (h : Runs .zCmf s) : step s = finish (stepZCmf (tick s)) :=
  step_of_internal h fun hm => by rw [fetch, hm]

theorem step_zFlg (h : Runs .zFlg s) : step s = runFetched (fetchField .zhdr (readZhdr (tick s))) :=
  step_of_fetch h fun hm => by rw [fetch, hm]

/-- CMF above FLG fits the field of ZHDR (R91, R264). -/
theorem decode_zhdr_bytes (cmf flg : Byte) :
    decode .zhdr (cmf.toNat * 256 + flg.toNat) = .ok (.zhdr (BitVec.ofNat 16 (cmf.toNat * 256 + flg.toNat))) :=
  decode_eq_row (show cmf.toNat * 256 + flg.toNat < 2 ^ 16 by omega) rfl

/-- The four checks on the word of the header, in their order (R264, R265). -/
theorem headerError_eq (cfg : ZfdConfig) (x : Half) :
    headerError cfg x =
      if x.toNat % 31 ≠ 0 then some .invalidZlibParityCheck
      else if x.toNat / 256 % 16 ≠ 8 then some .invalidZlibCompressionMethod
      else if cfg.maxCinfo < x.toNat / 4096 then some .invalidZlibCompressionWindowSize
      else if x.toNat / 32 % 2 = 1 then some .unsupportedPresetDictionary
      else none := by
  simp [headerError, headerParityOk, headerMethod, headerCinfo, headerFdict]

/-- ZHDR ends the call with the first check that fails. -/
theorem zhdr_raises {x : Half} {e : Status} (hm : microStep s = some .zFlg) (he : headerError s.cfg x = some e) :
    Raises e s (exec (.zhdr x) s) := by
  have hexec : exec (.zhdr x) s = .next (endRaised e s) := (atStep_of_current hm _).trans (by rw [he])
  rw [hexec]
  exact raises_endRaised e s

/-- ZHDR with every check passed begins the DEFLATE stream. -/
theorem zhdr_accepts {x : Half} (hm : microStep s = some .zFlg) (he : headerError s.cfg x = none) :
    exec (.zhdr x) s = .next { s with zStep := .flate } :=
  (atStep_of_current hm _).trans (by rw [he])

end

/-- Settles O10: Z_CMF is the pull of a byte, which is kept where there is one. -/
theorem firstHeaderByte : Obligations.FirstHeaderByte := by
  unfold Obligations.FirstHeaderByte
  intro s h
  rw [step_zCmf h]
  refine ⟨finish_bind_ends _ _, fun b rest hi => ?_⟩
  rw [stepZCmf, pullByte_tick hi]; rfl

/-- Settles O11: the two header bytes are the word of ZHDR, and each error is that of the first check that fails. -/
theorem headerChecks : Obligations.HeaderChecks := by
  unfold Obligations.HeaderChecks
  refine ⟨fun s h => ?_, fun s x hm => ⟨fun hp => ?_, fun hp hc => ?_, fun hp hc hw => ?_, fun hp hc hw hd => ?_,
    fun hp hc hw hd => ?_⟩⟩
  · rw [step_zFlg h]
    refine ⟨fetchField_bind_ends _ _ _, fun b rest hi => ?_⟩
    rw [readZhdr, pullByte_tick hi, Res.ok_bind, runFetched_ok (decode_zhdr_bytes _ _)]
    simp only [tick_fields]
  · exact zhdr_raises hm (by simp [headerError_eq, hp])
  · exact zhdr_raises hm (by simp [headerError_eq, hp, hc])
  · exact zhdr_raises hm (by simp [headerError_eq, hp, hc, hw])
  · exact zhdr_raises hm (by simp [headerError_eq, hp, hc, Nat.not_lt.2 hw, hd])
  · exact zhdr_accepts hm (by simp [headerError_eq, hp, hc, Nat.not_lt.2 hw, hd])

/-! ## The trailer (R268) -/

section
variable {s : State}

theorem step_zTrailer_byte (h : Runs .zTrailer s) (hn : s.zTrlN < 4) : step s = finish (stepZTrailerByte (tick s)) :=
  step_of_internal h fun hm => by simp only [fetch, hm]; exact if_pos (by simpa using hn)

/-- The trailer bytes that have been read are the word of ZTRL (R92). -/
theorem step_zTrailer_word (h : Runs .zTrailer s) (hn : s.zTrlN = 4) : step s = exec (.ztrl s.zTrl) (tick s) := by
  obtain ⟨-, hstep, -⟩ := stepRunsDecodedElement s (.ztrl s.zTrl) 0 s
  exact hstep h hn.ge (decodeOfEncode (.ztrl s.zTrl) rfl rfl)

/-- ZTRL after four bytes is the comparison of its word with the checksum. -/
theorem exec_ztrl (x : Word) (hm : microStep s = some .zTrailer) (hn : s.zTrlN = 4) :
    exec (.ztrl x) s =
      if x = adlerValue s then .next (endDone { s with zStep := .done })
      else .next (endRaised .checksumMismatch s) :=
  (atStep_of_current hm _).trans (if_neg (by omega))

end

/-- Settles O12: Z_TRAILER is the pull of a byte, shifted in where there is one, and after four bytes ZTRL. -/
theorem trailerComparison : Obligations.TrailerComparison := by
  unfold Obligations.TrailerComparison
  refine ⟨fun s h hn => ?_, fun s => step_zTrailer_word, fun s x hm hn => ⟨fun hne => ?_, fun heq => ?_⟩⟩
  · rw [step_zTrailer_byte h hn]
    refine ⟨finish_bind_ends _ _, fun b rest hi => ?_⟩
    rw [stepZTrailerByte, pullByte_tick hi]
    simp [finish]
  · rw [exec_ztrl x hm hn, if_neg (show x ≠ adlerValue s from hne)]
    exact raises_endRaised _ s
  · rw [exec_ztrl x hm hn, if_pos (show x = adlerValue s from heq)]; rfl

/-! ## The end with `Ok` (R268, R289) -/

section
variable {m : MicroStep} {s t : State}

/-- The micro-step that makes an active instance DONE has compared a whole trailer with the checksum. -/
theorem Ends.verified_of_done (h : Ends m s t) (hs : s.phase = .active) (ht : t.phase = .done) :
    m = .zTrailer ∧ ¬ s.zTrlN < 4 ∧ s.zTrl = adlerValue s := by
  obtain ⟨u, hu, hcase⟩ := h.read
  have hp : u.phase = .active := by rw [← hu, readAt_only m s]; exact hs
  rcases hcase with ⟨k, rfl⟩ | ⟨e, rfl⟩ | ⟨v, hread, hperf⟩
  · simp [hp] at ht
  · simp at ht
  · cases hperf
    case zTrailerEnd hn heq =>
      have hn' : ¬ s.zTrlN < 4 := by rwa [onlyReader_of_readAt hread] at hn
      rw [readAt, if_neg hn'] at hread
      cases hread
      exact ⟨rfl, hn', by simpa using heq⟩
    all_goals simp [hp] at ht

/-- A call that a step has ended is answered with its status (R288, R289, R320). -/
theorem reply_of_step (h : Runs m s) (hst : step s = .next t) (ht : t.busy = false) : t.reply = some t.status := by
  obtain ⟨u, hu, hcase⟩ := (step_ends h hst).read
  rcases hcase with ⟨k, rfl⟩ | ⟨e, rfl⟩ | ⟨v, hread, hperf⟩
  · rfl
  · rfl
  · have hb : u.busy = true := by rw [onlyReader_of_readAt hread]; simpa using h.1
    cases hperf
    case zTrailerEnd => rfl
    case raised => rfl
    all_goals simp [hb] at ht

/-- A step that ends its call at the status `Ok` has completed (R289). -/
theorem done_of_status_ok (h : Runs m s) (hst : step s = .next t) (ht : t.busy = false) (hk : t.status = .ok) :
    t.phase = .done := by
  cases returned_of_step h hst ht with
  | done hp _ => exact hp
  | raised _ he => rw [hk] at he; cases he
  | full ht => subst ht; cases hk
  | short ht => subst ht; cases hk

/-- The comparison with a trailer that equals the checksum completes the call. -/
theorem step_of_verified (h : Runs .zTrailer s) (hn : s.zTrlN = 4) (heq : s.zTrl = adlerValue s) :
    step s = .next (endDone { tick s with zStep := .done }) := by
  have hval : s.zTrl = adlerValue (tick s) := by simpa [adlerValue] using heq
  rw [step_zTrailer_word h hn, exec_ztrl _ (step_of_runs h).2 (by simpa using hn), if_pos hval]

end

/-- Settles O51: only the comparison of Z_TRAILER sets DONE, and no suspension or error answers `Ok`. -/
theorem doneMeansVerified : Obligations.DoneMeansVerified := by
  unfold Obligations.DoneMeansVerified
  intro m s t hI h hst
  have hverified : t.phase = .done → m = .zTrailer ∧ s.zTrlN = 4 ∧ s.zTrl = adlerValue s := by
    intro ht
    obtain ⟨rfl, hn, heq⟩ := (step_ends h hst).verified_of_done (by simpa using hI.busy h.1) ht
    have hle : s.zTrlN ≤ 4 := hI.localsOk h.1 h.2.2
    have hge : ¬ s.zTrlN < 4 := by simpa using hn
    exact ⟨rfl, by omega, by simpa [adlerValue] using heq⟩
  have hends : m = .zTrailer ∧ s.zTrlN = 4 ∧ s.zTrl = adlerValue s → t = endDone { tick s with zStep := .done } := by
    rintro ⟨rfl, hn, heq⟩
    cases hst.symm.trans (step_of_verified h hn heq); rfl
  refine ⟨⟨hverified, fun hv => by rw [hends hv]; rfl⟩, fun hd => ?_, fun hb hr => ?_⟩
  · rw [hends (hverified hd)]
    exact ⟨rfl, rfl, rfl⟩
  · have hk : some t.status = some .ok := (reply_of_step h hst hb).symm.trans hr
    exact done_of_status_ok h hst hb (Option.some.inj hk)

end Sys2Proof.Machine
end

section
/-! The operations the host presents (spec/46_host_operations.md R280, R285, R291; spec/60_exceptions.md R311): when a
step executes one, and what DECODE's entry and an overlapping call answer. -/

namespace Sys2Proof.Machine

section
variable {s : State}

/-! ## DECODE's entry (R285) -/

/-- A DECODE outside a call whose entry checks fail is answered with the first error that applies. -/
theorem execDecode_fails {out : Option OutCursor} {inp : Option InCursor} {e : Status} (hb : s.busy = false)
    (he : entryError out inp s.phase = some e) :
    exec (.decode out inp) s = .next (endRaised e (openCall out inp s)) := by
  simp only [exec, execDecode, hb, he]; rfl

/-- A DECODE in phase ACTIVE with both cursors opens its call. -/
theorem execDecode_opens (o : OutCursor) (i : InCursor) (hb : s.busy = false) (hp : s.phase = .active) :
    exec (.decode (some o) (some i)) s = .next (openCall (some o) (some i) s) := by
  simp only [exec, execDecode, hb, hp]; rfl

/-- A DECODE during a call is refused (R291). -/
theorem execDecode_busy (out : Option OutCursor) (inp : Option InCursor) (hb : s.busy = true) :
    exec (.decode out inp) s = .next { s with reply := some .invalidCallSequence } := if_pos hb

/-! ## When an operation is presented (log entry 3) -/

section
variable {op : HostOp} {rest : List Request}

theorem presented_idle (hb : s.busy = false) (hr : s.requests = ⟨op, none⟩ :: rest) :
    presented s = some (op, { s with requests := rest }) := by
  simp [presented, hr, hb]

theorem presented_due (hr : s.requests = ⟨op, some 0⟩ :: rest) :
    presented s = some (op, { s with requests := rest }) := by
  simp [presented, hr]

theorem presented_notDue {n : Nat} (hr : s.requests = ⟨op, some (n + 1)⟩ :: rest) : presented s = none := by
  simp [presented, hr]

theorem tick_notDue {n : Nat} (hr : s.requests = ⟨op, some (n + 1)⟩ :: rest) :
    tick s = { s with requests := ⟨op, some n⟩ :: rest } := by
  simp [tick, hr]

end

end

/-- Settles O3: a call in progress is answered by the guard, the phase or an absent cursor by the first check that
fails, and what is left opens the call. -/
theorem decodeEntry : Obligations.DecodeEntry := by
  unfold Obligations.DecodeEntry
  intro s out inp fails
  have hfails : ∀ e, s.busy = false → entryError out inp s.phase = some e → fails e := fun e hb he =>
    ⟨_, execDecode_fails hb he, rfl, rfl, rfl, rfl, rfl, rfl⟩
  refine ⟨execDecode_busy out inp, fun hb hp => ?_, fun hb hp => ?_, fun hb hp => ?_, fun hb hp hnone => ?_, ?_⟩
  · exact hfails _ hb (by rw [hp]; rfl)
  · exact hfails _ hb (by rw [hp]; rfl)
  · exact hfails _ hb (by rw [hp]; rfl)
  · exact hfails _ hb (by rw [hp]; exact if_pos (by simpa using hnone))
  · rintro o i hb hp rfl rfl
    exact execDecode_opens o i hb hp

/-- Settles O4: of the three operations only RESET is executed during a call. -/
theorem overlappingCallsRejected : Obligations.OverlappingCallsRejected := by
  unfold Obligations.OverlappingCallsRejected
  intro s op t hb hp hop
  have ht := presented_eq hp
  have hbt : t.busy = true := by rw [ht]; exact hb
  refine ⟨?_, ht⟩
  rw [step_of_presented hp]
  cases op with
  | reset => exact absurd rfl hop
  | init v => exact execInit_busy v hbt
  | decode out inp => exact execDecode_busy out inp hbt

/-- Settles O5: the head of the list is presented, or it is not yet due and the step lets one step of its delay pass. -/
theorem hostOperationsRun : Obligations.HostOperationsRun := by
  unfold Obligations.HostOperationsRun
  refine ⟨fun s op rest hb hr => step_of_presented (presented_idle hb hr),
    fun s op rest hr => step_of_presented (presented_due hr), fun s hb hr => ?_, fun s op n rest hb hr => ?_⟩
  · rw [step_of_idle (presented_of_no_requests hr) hb, tick_of_no_requests hr]
  · rw [step_of_idle (presented_notDue hr) hb, tick_notDue hr]

end Sys2Proof.Machine
end

section
/-! From a state that meets the invariant no step stops (spec/46_host_operations.md R286, spec/60_exceptions.md R320):
the value a micro-step has read is in the range of the field it ends, every such value decodes, and the element it
decodes to is current there. -/

namespace Sys2Proof.Machine

/-! ## The values that are read fit their fields -/

/-- The value `v` is one that decodes in the format of the element whose field micro-step `m` ends (R91 to R101). -/
def FieldFits (v : Nat) : MicroStep → Prop
  | .zFlg => v < 2 ^ 16
  | .zTrailer => v < 2 ^ 32
  | .bHeader => v < 8
  | .sNlen => v < 2 ^ 32
  | .dHclen => v < 2 ^ 14
  | .dCllens => v < 8
  | .dSym => v < 19
  | .yLitlen => v < 288
  | .yDsym => v < 32
  | _ => True

/-- A value computed from what a read gives comes from a value that was read. -/
theorem Res.ok_of_map {α β : Type} {r : Res α} {g : α → State → β} {w : β} {u : State}
    (h : (r.bind fun v t => .ok (g v t) t) = .ok w u) : ∃ v, r = .ok v u ∧ g v u = w := by
  cases r with
  | ok v t => cases h; exact ⟨v, rfl, rfl⟩
  | suspend k t => cases h
  | raise e t => cases h

/-- A symbol that is read is one of its table's. -/
theorem lt_of_huffDecode {len : List Nat} {v n : Nat} {s u : State} (hb : s.bits.toNat < 2 ^ s.nBits)
    (hl : LensOk len n 15) (hr : huffDecode len s = .ok v u) : v < n := by
  obtain ⟨rfl, hle⟩ := hl
  by_contra hv
  exact getD_ne_zero_of_huffDecode hb hle hr (List.getD_eq_default _ _ (Nat.le_of_not_lt hv))

section
variable {m : MicroStep} {s u : State} {v : Nat}

theorem readAt_fits (hI : Inv s) (hl : LocalsOk s m) (hr : readAt m s = .ok v u) : FieldFits v m := by
  cases m with
  | zFlg =>
    obtain ⟨b, -, rfl⟩ := Res.ok_of_map hr
    exact show u.zCmf.toNat * 256 + b.toNat < 2 ^ 16 by omega
  | zTrailer =>
    dsimp only [readAt] at hr
    split at hr
    · obtain ⟨b, -, rfl⟩ := Res.ok_of_map (g := fun (b : Byte) _ => b.toNat) hr
      exact show b.toNat < 2 ^ 32 by omega
    · cases hr; exact s.zTrl.isLt
  | bHeader => exact (need_ok hr).1
  | sNlen =>
    obtain ⟨x, hx, rfl⟩ := Res.ok_of_map hr
    have hlt := (need_ok hx).1
    exact show x * 2 ^ 16 + u.sLen.toNat < 2 ^ 32 by omega
  | dHclen =>
    obtain ⟨-, -, hlit, -, hdist⟩ := hl
    obtain ⟨x, hx, rfl⟩ := Res.ok_of_map hr
    obtain ⟨hlt, hu⟩ := need_ok hx
    have hlu : u.nLit ≤ 288 := by rw [hu]; exact hlit
    have hdu : u.nDist ≤ 32 := by rw [hu]; exact hdist
    exact show x * 1024 + (u.nDist - 1) * 32 + (u.nLit - 257) < 2 ^ 14 by omega
  | dCllens =>
    dsimp only [readAt] at hr
    split at hr
    · exact (need_ok hr).1
    · cases hr; exact show 0 < 8 by decide
  | dSym =>
    dsimp only [readAt] at hr
    split at hr
    · exact lt_of_huffDecode hI.bits ⟨hI.clLen.1, fun l h => (hI.clLen.2 l h).trans (by decide)⟩ hr
    · cases hr; exact show 0 < 19 by decide
  | yLitlen => exact lt_of_huffDecode hI.bits hI.llLen hr
  | yDsym => exact lt_of_huffDecode hI.bits hI.dLen hr
  | _ => trivial

/-! ## What follows the read answers -/

theorem finish_next (r : Res Unit) : ∃ t, finish r = .next t := by cases r <;> exact ⟨_, rfl⟩

theorem atStep_next (hm : microStep u = some m) (t : State) : ∃ t', atStep m u (.next t) = .next t' :=
  ⟨t, atStep_of_current hm _⟩

/-- A field that decodes to an element that answers. -/
theorem runField_next {f : Format} {i : Instr} (hd : decode f v = .ok i) (h : ∃ t, exec i u = .next t) :
    ∃ t, runField f v u = .next t := by
  rwa [runField_ok hd]

theorem next_of_raises {e : Status} {a : Answer} (h : Raises e u a) : ∃ t, a = .next t := by
  obtain ⟨t, ht, -⟩ := h
  exact ⟨t, ht⟩

theorem zhdr_next (hm : microStep u = some .zFlg) (x : Half) : ∃ t, exec (.zhdr x) u = .next t := by
  cases he : headerError u.cfg x with
  | none => exact ⟨_, zhdr_accepts hm he⟩
  | some e => exact next_of_raises (zhdr_raises hm he)

theorem ztrl_next (hm : microStep u = some .zTrailer) (hn : ¬ u.zTrlN < 4) (x : Word) :
    ∃ t, exec (.ztrl x) u = .next t := by
  have hexec : exec (.ztrl x) u = _ := (atStep_of_current hm _).trans (if_neg hn)
  rw [hexec]
  split <;> exact ⟨_, rfl⟩

theorem block_next (hm : microStep u = some .bHeader) (final : Bool) (type : Nat) :
    ∃ t, exec (blockOfType final type) u = .next t := by
  match type with
  | 0 => exact atStep_next hm _
  | 1 => exact atStep_next hm _
  | 2 => exact atStep_next hm _
  | _ + 3 => exact atStep_next hm _

theorem sLen_next (hm : microStep u = some .sNlen) (len nlen : Half) : ∃ t, exec (.sLen len nlen) u = .next t := by
  have hexec : exec (.sLen len nlen) u = _ := atStep_of_current hm _
  rw [hexec]
  split <;> exact ⟨_, rfl⟩

theorem dCounts_next (hm : microStep u = some .dHclen) (hlit hdist hclen : Nat) :
    ∃ t, exec (.dCounts hlit hdist hclen) u = .next t := by
  have hexec : exec (.dCounts hlit hdist hclen) u = _ := atStep_of_current hm _
  rw [hexec]
  split <;> exact ⟨_, rfl⟩

theorem dCllen_next (hm : microStep u = some .dCllens) (hd : u.dI < u.nClen) (v : Nat) :
    ∃ t, exec (.dCllen v) u = .next t :=
  ⟨_, (atStep_of_current hm _).trans (if_pos hd)⟩

/-- A symbol of the code-length alphabet, while an entry is due (R208, R211 to R214). -/
theorem clsym_next (hm : microStep u = some .dSym) (hd : u.dI ≠ u.nLit + u.nDist) (hv : v < 19) :
    ∃ t, runField .clsym v u = .next t := by
  by_cases hlen : v < 16
  · exact runField_next (decode_clsym_len hlen) ⟨_, exec_clLen v hm hd⟩
  obtain rfl | rfl | rfl : v = 16 ∨ v = 17 ∨ v = 18 := by omega
  · rw [runField_clRep]
    by_cases h0 : u.dI = 0
    · exact ⟨_, exec_clRep_first hm hd h0⟩
    · exact ⟨_, exec_clRep hm hd (Nat.pos_of_ne_zero h0)⟩
  · rw [runField_clZrep]; exact ⟨_, repeatElement_dSym _ hm hd⟩
  · rw [runField_clZrepl]; exact ⟨_, repeatElement_dSym _ hm hd⟩

/-- A symbol of the literal/length alphabet at Y_LITLEN (R232 to R235). -/
theorem llsym_next (hm : microStep u = some .yLitlen) (hv : v < 288) : ∃ t, runField .llsym v u = .next t := by
  by_cases hlit : v < 256
  · exact runField_next (decode_lit hlit) ⟨_, exec_lit_yLitlen _ hm⟩
  by_cases heob : v = 256
  · exact runField_next (heob ▸ decode_eob) ⟨_, exec_eob hm⟩
  by_cases hlen : v ≤ 285
  · obtain ⟨i, hd, hexec⟩ := exec_length (v := v) (by omega) hlen
    exact runField_next hd ⟨_, (hexec u).trans (lengthElement_yLitlen v hm)⟩
  · obtain ⟨i, hd, hexec⟩ := exec_llRsvd (v := v) (by omega) (by omega)
    exact runField_next hd (hexec u ▸ next_of_raises (reservedLength_raises hm))

/-- A symbol of the distance alphabet at Y_DSYM (R238, R242). -/
theorem dsym_next (hm : microStep u = some .yDsym) (hv : v < 32) : ∃ t, runField .dsym v u = .next t := by
  by_cases hdist : v ≤ 29
  · obtain ⟨i, hd, hexec⟩ := exec_distance hdist
    exact runField_next hd ⟨_, (hexec u).trans (distanceElement_yDsym v hm)⟩
  · obtain ⟨i, hd, hexec⟩ := exec_dRsvd (v := v) (by omega) (by omega)
    exact runField_next hd (hexec u ▸ next_of_raises (reservedDistance_raises hm))

/-- What follows the read of a micro-step answers a next state. -/
theorem perform_next (hm : microStep u = some m) (hv : FieldFits v m) : ∃ t, perform m v u = .next t := by
  cases m with
  | zFlg => exact runField_next (decode_eq_row hv rfl) (zhdr_next hm _)
  | zTrailer =>
    dsimp only [perform]
    split
    · exact ⟨_, rfl⟩
    · next hn => exact runField_next (decode_eq_row hv rfl) (ztrl_next hm hn _)
  | bHeader => exact runField_next (decode_bhdr hv) (block_next hm _ _)
  | sNlen => exact runField_next (decode_eq_row hv rfl) (sLen_next hm _ _)
  | dHclen => exact runField_next (decode_eq_row hv rfl) (dCounts_next hm _ _ _)
  | dCllens =>
    dsimp only [perform]
    split
    · next hd => exact runField_next (decode_cllen hv) (dCllen_next hm hd v)
    · exact finish_next _
  | dSym =>
    dsimp only [perform]
    split
    · next hd => exact clsym_next hm (lengthDue_iff.1 hd) hv
    · exact ⟨_, rfl⟩
  | dBuild => exact finish_next _
  | yLitlen => exact llsym_next hm hv
  | yDsym => exact dsym_next hm hv
  | sCopy => dsimp only [perform]; split <;> exact ⟨_, rfl⟩
  | dExtra => dsimp only [perform]; split <;> exact ⟨_, rfl⟩
  | yDextra => dsimp only [perform]; split <;> exact ⟨_, rfl⟩
  | yCopy => dsimp only [perform]; split <;> exact ⟨_, rfl⟩
  | _ => exact ⟨_, rfl⟩

/-- A micro-step of a call has a next state, whichever way its read ends. -/
theorem step_next_of_runs (hI : Inv s) (h : Runs m s) : ∃ t, step s = .next t := by
  have hm := (step_of_runs h).2
  rw [step_eq_perform hI h]
  cases hr : readAt m (tick s) with
  | ok v u =>
    have hl := hI.tick.localsOk (by simpa using h.1) hm
    exact perform_next ((onlyReader_of_readAt hr).microStep.trans hm) (readAt_fits hI.tick hl hr)
  | suspend k u => exact ⟨_, rfl⟩
  | raise e u => exact ⟨_, rfl⟩

end

/-- Settles O50: an operation of the host always answers, an idle machine lets the step pass, and a micro-step of a
call ends with its read or executes the element its value decodes to. -/
theorem stepNeverStops : Obligations.StepNeverStops := by
  unfold Obligations.StepNeverStops
  intro s hI
  cases hp : presented s with
  | some r =>
    rw [step_of_presented hp]
    exact exec_next_of_isHost (by cases r.1 <;> rfl) r.2
  | none =>
    cases hb : s.busy with
    | false => exact ⟨_, step_of_idle hp hb⟩
    | true =>
      obtain ⟨m, h⟩ := hI.runs hp hb
      exact step_next_of_runs hI h

end Sys2Proof.Machine
end

section
/-! Every call ends (spec/46_host_operations.md R286): a step of a call takes bits of the input, or uses output space,
or goes on to a micro-step from which fewer steps can pass before one that does. -/

namespace Sys2Proof.Machine

/-! ## The bits a read takes -/

/-- How many bits of the stream are left to a call: those of its unread bytes, and the buffered ones. -/
def bitsLeft (s : State) : Nat := 8 * s.inBytes.length + s.nBits

theorem bitsLeft_eq (s : State) : bitsLeft s = (pendingBits s).length := by
  rw [pendingBits_length, bitsLeft, Nat.add_comm]

/-- What has been read from the front of the stream is no longer left. -/
theorem ReadOk.bitsLeft {s u : State} {bs : List Bool} (h : ReadOk s u bs) :
    bitsLeft s = bs.length + Machine.bitsLeft u := by
  rw [bitsLeft_eq, bitsLeft_eq, h.stream, List.length_append]

/-- The micro-steps that complete only by taking at least one bit of the stream. -/
def TakesBits (s : State) : MicroStep → Prop
  | .zTrailer => s.zTrlN < 4
  | .bEnd => False
  | .sAlign => False
  | .sCopy => s.sRem ≠ 0
  | .dCllens => s.dI < s.nClen
  | .dSym => lengthDue s = true
  | .dBuild => False
  | .yEmit => False
  | .yLextra => False
  | .yDextra => False
  | .yCopy => False
  | _ => True

theorem OnlyReader.takesBits {m : MicroStep} {s u : State} (h : OnlyReader s u) (ht : TakesBits u m) :
    TakesBits s m := by
  unfold OnlyReader at h
  rw [h] at ht
  cases m <;> exact ht

section
variable {m : MicroStep} {s u : State} {v : Nat}

theorem bitsLeft_of_pullByte {b : Byte} (h : pullByte s = .ok b u) : bitsLeft s = 8 + bitsLeft u := by
  rcases pullByte_cases s with ⟨c, rest, hi, hp⟩ | ⟨-, -, hp⟩ | ⟨-, -, hp⟩
  · cases h.symm.trans hp
    simp only [bitsLeft, hi, List.length_cons, dropInByte_fields]
    omega
  · cases h.symm.trans hp
  · cases h.symm.trans hp

theorem bitsLeft_of_needOut {x : Unit} (h : needOut s = .ok x u) : bitsLeft s = bitsLeft u := by
  have hleft := needOut_left s
  rw [h] at hleft
  rw [← hleft]; rfl

theorem bitsLeft_of_need {n : Nat} (hI : Inv s) (hn : n ≤ 24) (h : need n s = .ok v u) :
    bitsLeft s = n + bitsLeft u := by
  rcases need_cases hI.bits hn with ⟨w, t, hr, -, hok, -⟩ | ⟨t, hst, -⟩
  · cases h.symm.trans hr
    rw [hok.bitsLeft, plainBits_length]
  · rw [h] at hst; cases hst

/-- A Huffman symbol takes its code, which has a bit (R162). -/
theorem bitsLeft_of_huffDecode {len : List Nat} (hI : Inv s) (hm : maxl len ≤ 24) (h : huffDecode len s = .ok v u) :
    bitsLeft u < bitsLeft s := by
  rcases huffDecode_cases hI.bits hm with ⟨sym, t, hr, -, hpos, hok, -⟩ | ⟨t, hst, -⟩ | ⟨t, -, -, -, -, hr⟩
  · cases h.symm.trans hr
    rw [hok.bitsLeft, symbolBits_length]
    omega
  · rw [h] at hst; cases hst
  · cases h.symm.trans hr

theorem bitsLeft_of_readRaw (h : readRaw s = .ok v u) : bitsLeft s = 8 + bitsLeft u := by
  unfold readRaw at h
  cases ho : needOut s with
  | ok x t =>
    rw [ho] at h
    obtain ⟨b, hb, -⟩ := Res.ok_of_map (g := fun (b : Byte) _ => b.toNat) h
    rw [bitsLeft_of_needOut ho, bitsLeft_of_pullByte hb]
  | suspend k t => rw [ho] at h; cases h
  | raise e t => rw [ho] at h; cases h

/-- The run of a repeat is at least two bits wide (R212 to R214). -/
theorem two_le_repeatRow (n : Nat) : 2 ≤ (repeatRow n).2 := by
  unfold repeatRow
  split <;> decide

/-- A read that completes leaves no more bits than it found, and fewer where it takes any. -/
theorem bitsLeft_of_readAt (hI : Inv s) (hl : LocalsOk s m) (hr : readAt m s = .ok v u) :
    bitsLeft u ≤ bitsLeft s ∧ (TakesBits s m → bitsLeft u < bitsLeft s) := by
  have htakes : ∀ n, 0 < n → bitsLeft s = n + bitsLeft u → bitsLeft u ≤ bitsLeft s ∧
      (TakesBits s m → bitsLeft u < bitsLeft s) := fun n hn h => ⟨by omega, fun _ => by omega⟩
  have hkept : ¬ TakesBits s m → bitsLeft u ≤ bitsLeft s → bitsLeft u ≤ bitsLeft s ∧
      (TakesBits s m → bitsLeft u < bitsLeft s) := fun hn h => ⟨h, fun ht => absurd ht hn⟩
  cases m with
  | zCmf =>
    obtain ⟨b, hb, -⟩ := Res.ok_of_map (g := fun (b : Byte) _ => b.toNat) hr
    exact htakes 8 (by decide) (bitsLeft_of_pullByte hb)
  | zFlg =>
    obtain ⟨b, hb, -⟩ := Res.ok_of_map hr
    exact htakes 8 (by decide) (bitsLeft_of_pullByte hb)
  | zTrailer =>
    dsimp only [readAt] at hr
    split at hr
    · obtain ⟨b, hb, -⟩ := Res.ok_of_map (g := fun (b : Byte) _ => b.toNat) hr
      exact htakes 8 (by decide) (bitsLeft_of_pullByte hb)
    · next hn => cases hr; exact hkept hn le_rfl
  | bHeader => exact htakes 3 (by decide) (bitsLeft_of_need hI (by decide) hr)
  | bEnd => cases hr; exact hkept id le_rfl
  | sAlign => cases hr; exact hkept id le_rfl
  | sLen => exact htakes 16 (by decide) (bitsLeft_of_need hI (by decide) hr)
  | sNlen =>
    obtain ⟨x, hx, -⟩ := Res.ok_of_map hr
    exact htakes 16 (by decide) (bitsLeft_of_need hI (by decide) hx)
  | sCopy =>
    dsimp only [readAt] at hr
    split at hr
    · next h0 => cases hr; exact hkept (not_not.2 h0) le_rfl
    · exact htakes 8 (by decide) (bitsLeft_of_readRaw hr)
  | dHlit => exact htakes 5 (by decide) (bitsLeft_of_need hI (by decide) hr)
  | dHdist => exact htakes 5 (by decide) (bitsLeft_of_need hI (by decide) hr)
  | dHclen =>
    obtain ⟨x, hx, -⟩ := Res.ok_of_map hr
    exact htakes 4 (by decide) (bitsLeft_of_need hI (by decide) hx)
  | dCllens =>
    dsimp only [readAt] at hr
    split at hr
    · exact htakes 3 (by decide) (bitsLeft_of_need hI (by decide) hr)
    · next hd => cases hr; exact hkept hd le_rfl
  | dSym =>
    dsimp only [readAt] at hr
    split at hr
    · have hlt := bitsLeft_of_huffDecode hI ((maxl_le hI.clLen.2).trans (by decide)) hr
      exact ⟨hlt.le, fun _ => hlt⟩
    · next hd => cases hr; exact hkept hd le_rfl
  | dExtra =>
    obtain ⟨x, hx, -⟩ := Res.ok_of_map hr
    have h2 := two_le_repeatRow s.repSym
    have h7 := repeatRow_width s.repSym
    exact htakes _ (by omega) (bitsLeft_of_need hI (by omega) hx)
  | dBuild => cases hr; exact hkept id le_rfl
  | yLitlen =>
    have hlt := bitsLeft_of_huffDecode hI ((maxl_le hI.llLen.2).trans (by decide)) hr
    exact ⟨hlt.le, fun _ => hlt⟩
  | yEmit =>
    obtain rfl := needOut_completed hr
    exact hkept id le_rfl
  | yLextra =>
    obtain ⟨-, h1, h2⟩ := hl
    have hw := (length_range h1 h2).1
    obtain ⟨x, hx, -⟩ := Res.ok_of_map hr
    have heq := bitsLeft_of_need hI (by omega) hx
    exact hkept id (by omega)
  | yDsym =>
    have hlt := bitsLeft_of_huffDecode hI ((maxl_le hI.dLen.2).trans (by decide)) hr
    exact ⟨hlt.le, fun _ => hlt⟩
  | yDextra =>
    obtain ⟨-, -, -, h1⟩ := hl
    have hw := (distance_range h1).1
    obtain ⟨x, hx, -⟩ := Res.ok_of_map hr
    have heq := bitsLeft_of_need hI (by omega) hx
    exact hkept id (by omega)
  | yCopy =>
    dsimp only [readAt] at hr
    split at hr
    · cases hr; exact hkept id le_rfl
    · obtain rfl := needOut_completed hr
      exact hkept id le_rfl

end

/-! ## The micro-steps that take nothing -/

/-- How many steps there are at most from a micro-step up to one that takes a bit, appends a byte or ends the call, that
one included. -/
def stepsToProgress : MicroStep → Nat
  | .dCllens => 4
  | .sCopy => 3
  | .dSym => 3
  | .yDextra => 3
  | .bEnd => 2
  | .sAlign => 2
  | .dBuild => 2
  | .yLextra => 2
  | .yCopy => 2
  | _ => 1

theorem stepsToProgress_range (m : MicroStep) : 1 ≤ stepsToProgress m ∧ stepsToProgress m ≤ 4 := by
  cases m <;> decide

section
variable {m m' : MicroStep} {s u t : State} {v : Nat}

/-- A micro-step that lets the call go on without taking a bit or appending a byte goes on to one nearer to progress. -/
theorem Performs.stepsToProgress_lt (h : Performs v u m t) (hm : microStep u = some m) (hm' : microStep t = some m')
    (hb : t.busy = true) (hn : ¬ TakesBits u m) (ho : t.outBytes.length = u.outBytes.length) :
    stepsToProgress m' < stepsToProgress m := by
  have hnext : ∀ k, microStep t = some k → stepsToProgress k < stepsToProgress m →
      stepsToProgress m' < stepsToProgress m := fun k hk hlt => Option.some.inj (hk.symm.trans hm') ▸ hlt
  obtain ⟨hz, hbs, hss, hds, hys⟩ := discriminants_of_microStep hm
  cases h <;> simp only [discriminants, Option.mem_def, Option.some.injEq, forall_eq', reduceCtorEq, IsEmpty.forall_iff,
    implies_true] at hz hbs hss hds hys
  case bEndFinal => exact hnext .zTrailer (by simp [microStep]) (by decide)
  case bEndMore => exact hnext .bHeader (by simp [microStep, hz]) (by decide)
  case sAlign => exact hnext .sLen (by simp [microStep, hz, hbs]) (by decide)
  case sCopyEnd => exact hnext .bEnd (by simp [microStep, hz]) (by decide)
  case dCllensEnd => exact hnext .dSym (by simp [microStep, hz, hbs]) (by decide)
  case dSymEnd => exact hnext .dBuild (by simp [microStep, hz, hbs]) (by decide)
  case dBuild => exact hnext .yLitlen (by simp [microStep, hz]) (by decide)
  case yLextra => exact hnext .yDsym (by simp [microStep, hz, hbs]) (by decide)
  case yDextra => exact hnext .yCopy (by simp [microStep, hz, hbs]) (by decide)
  case yCopyEnd => exact hnext .yLitlen (by simp [microStep, hz, hbs]) (by decide)
  case sCopy => simp at ho
  case yEmit => simp at ho
  case yCopy => simp at ho
  case zTrailerEnd => cases hb
  case raised => cases hb
  case zTrailerByte hlt => exact absurd hlt hn
  case dCllens hd _ => exact absurd hd hn
  case dSymLength hd _ => exact absurd hd hn
  case dSymRepeat hd _ _ => exact absurd hd hn
  case dSymZeros hd _ => exact absurd hd hn
  all_goals exact absurd trivial hn

/-! ## The bound -/

/-- What a call at micro-step `m` has left: the bits and the output space, each of them good for at most four steps, and
the steps up to the next one of those. -/
def stepsLeft (m : MicroStep) (s : State) : Nat :=
  4 * (bitsLeft s + (s.outCap - s.outBytes.length)) + stepsToProgress m

theorem Performs.stepsLeft_lt (h : Performs v u m t) (hm : microStep u = some m) (hm' : microStep t = some m')
    (hb : t.busy = true) (hle : bitsLeft u ≤ bitsLeft s) (hlt : TakesBits u m → bitsLeft u < bitsLeft s)
    (hcap : u.outCap = s.outCap) (hout : u.outBytes = s.outBytes) : stepsLeft m' t < stepsLeft m s := by
  obtain ⟨hin, -, -, -, hcap', -⟩ := h.cursors
  have hbits : bitsLeft t ≤ bitsLeft u := by
    have hn := h.nBits_le
    simp only [bitsLeft, hin]; omega
  obtain ⟨hpos, -⟩ := stepsToProgress_range m
  obtain ⟨-, hmax⟩ := stepsToProgress_range m'
  simp only [stepsLeft, hcap', hcap]
  rcases h.output with ⟨hkept, -⟩ | ⟨b, hroom, happ, -⟩
  · rw [hkept, hout]
    by_cases htakes : TakesBits u m
    · have := hlt htakes
      omega
    · have := h.stepsToProgress_lt hm hm' hb htakes (by rw [hkept])
      omega
  · rw [hcap, hout] at hroom
    rw [happ, hout, List.length_append, List.length_singleton]
    omega

/-- A step that lets the call go on leaves it with less. -/
theorem stepsLeft_lt_of_step (hI : Inv s) (h : Runs m s) (hreq : s.requests = []) (hst : step s = .next t)
    (hb : t.busy = true) : ∃ m', Runs m' t ∧ stepsLeft m' t < stepsLeft m s := by
  have hq := step_quiet hI hreq hst
  obtain ⟨m', h'⟩ := hq.inv.runs (presented_of_no_requests hq.requests) hb
  have hends := step_ends h hst
  rw [tick_of_no_requests hreq] at hends
  cases hends with
  | suspended _ ht => subst ht; cases hb
  | raised _ ht => subst ht; cases hb
  | @completed v u hr hperf =>
    have hu := onlyReader_of_readAt hr
    obtain ⟨hle, hlt⟩ := bitsLeft_of_readAt hI (hI.localsOk h.1 h.2.2) hr
    exact ⟨m', h', hperf.stepsLeft_lt (hu.microStep.trans h.2.2) h'.2.2 hb hle (fun ht => hlt (hu.takesBits ht))
      (by rw [hu]) (by rw [hu])⟩

/-- A call ends in no more steps than it has left. -/
theorem callEnds_within (hI : Inv s) (h : Runs m s) (hreq : s.requests = []) :
    ∃ n t, n ≤ stepsLeft m s ∧ runSteps n s = .next t ∧ t.busy = false := by
  induction hk : stepsLeft m s using Nat.strong_induction_on generalizing m s with
  | h k ih =>
    subst hk
    obtain ⟨t, hst⟩ := step_next_of_runs hI h
    cases hb : t.busy with
    | false =>
      obtain ⟨hpos, -⟩ := stepsToProgress_range m
      exact ⟨1, t, by rw [stepsLeft]; omega, runSteps_of_step hst, hb⟩
    | true =>
      have hq := step_quiet hI hreq hst
      obtain ⟨m', h', hlt⟩ := stepsLeft_lt_of_step hI h hreq hst hb
      obtain ⟨n, w, hn, hrun, hw⟩ := ih _ hlt hq.inv h' hq.requests rfl
      exact ⟨n + 1, w, by omega, (runSteps_of_step hst).trans hrun, hw⟩

end

/-- Settles O53: each step of the call that does not end it lowers four times the bits and the output space left plus
the steps to the next progress, of which there are at most four. -/
theorem everyCallEnds : Obligations.EveryCallEnds := by
  unfold Obligations.EveryCallEnds
  intro s hI hb hreq
  obtain ⟨m, h⟩ := hI.runs (presented_of_no_requests hreq) hb
  obtain ⟨n, t, hn, hrun, ht⟩ := callEnds_within hI h hreq
  obtain ⟨-, hmax⟩ := stepsToProgress_range m
  refine ⟨n, t, ?_, hrun, ht⟩
  rw [stepsLeft, bitsLeft] at hn
  omega

end Sys2Proof.Machine
end

section
/-! A call retried with nothing new (spec/46_host_operations.md R293, spec/60_exceptions.md R312): a read that waited
for input waits again where it finds none, from the accumulator it has left, and a byte that waited for output space
waits again where there is none. -/

namespace Sys2Proof.Machine

/-! ## A read with no input left, or no output space (R64, R66) -/

/-- What a read that wants a byte answers where there is none. -/
def outOfInput {α : Type} (w : State) : Res α :=
  if w.inClosed then .raise .unexpectedEndOfFile w else .suspend .shortRead w

/-- What a micro-step that needs output space answers where there is none. -/
def outOfSpace {α : Type} (w : State) : Res α :=
  if w.outClosed then .raise .closedForWrites w else .suspend .shortWrite w

theorem needOut_of_full {w : State} (h : w.outCap ≤ w.outBytes.length) : needOut w = outOfSpace w :=
  if_neg (Nat.not_lt.2 h)

theorem outOfSpace_bind {α β : Type} (w : State) (f : α → State → Res β) :
    (outOfSpace w : Res α).bind f = outOfSpace w := by
  unfold outOfSpace
  split <;> rfl

theorem outOfInput_bind {α β : Type} (w : State) (f : α → State → Res β) :
    (outOfInput w : Res α).bind f = outOfInput w := by
  unfold outOfInput
  split <;> rfl

theorem pullByte_of_empty {w : State} (hi : w.inBytes = []) : pullByte w = outOfInput w := by
  rw [pullByte, hi]; rfl

theorem pullPush_of_empty {w : State} (hi : w.inBytes = []) : pullPush w = outOfInput w := by
  rw [pullPush, pullByte_of_empty hi, outOfInput_bind]

theorem eq_of_outOfInput {α : Type} {w u : State} {k : Status} (h : (outOfInput w : Res α) = .suspend k u) : u = w := by
  unfold outOfInput at h
  split at h
  · cases h
  · cases h; rfl

/-- A loop of the bit reader that has suspended wants another byte, whenever it finds the bits it has left. -/
theorem LoopsOnBits.waits {α : Type} {r : State → Res α} (h : LoopsOnBits r) {s u w : State} {k : Status}
    (hr : r s = .suspend k u) (hw : SameBits u w) (hi : w.inBytes = []) : r w = outOfInput w := by
  induction hs : s.inBytes generalizing s with
  | nil =>
    rcases h s with ⟨v, n, hstop⟩ | ⟨x, -, hstop⟩ | hpull
    · cases hr.symm.trans (hstop s ⟨rfl, rfl⟩)
    · cases hr.symm.trans (hstop s ⟨rfl, rfl⟩)
    · have hwant : ∀ t, SameBits s t → t.inBytes = [] → r t = outOfInput t := fun t ht hit => by
        rw [hpull t ht, pullPush_of_empty hit, outOfInput_bind]
      obtain rfl := eq_of_outOfInput ((hwant s ⟨rfl, rfl⟩ hs).symm.trans hr)
      exact hwant w hw hi
  | cons b rest ih =>
    rcases h s with ⟨v, n, hstop⟩ | ⟨x, -, hstop⟩ | hpull
    · cases hr.symm.trans (hstop s ⟨rfl, rfl⟩)
    · cases hr.symm.trans (hstop s ⟨rfl, rfl⟩)
    · have hpushed : r s = r (pushByte b (dropInByte rest s)) := by
        rw [hpull s ⟨rfl, rfl⟩, pullPush_cons hs]; rfl
      exact ih (hpushed.symm.trans hr) rfl

/-- A value computed from what a read gives waits as the read does. -/
theorem Res.suspend_of_map {α β : Type} {r : Res α} {g : α → State → β} {k : Status} {u : State}
    (h : (r.bind fun v t => .ok (g v t) t) = .suspend k u) : r = .suspend k u := by
  cases r with
  | ok v t => cases h
  | suspend k t => cases h; rfl
  | raise e t => cases h

/-! ## The read of a micro-step that suspended -/

section
variable {m : MicroStep} {s u w : State}

/-- A test for output space is not what waits for input. -/
theorem needOut_ne_shortRead {α : Type} {f : Unit → State → Res α} (hf : ∀ x t k v, f x t ≠ .suspend k v) :
    (needOut s).bind f ≠ .suspend .shortRead u := by
  intro h
  rcases needOut_cases s with ⟨-, ho⟩ | ⟨-, -, ho⟩ | ⟨-, -, ho⟩ <;> rw [ho] at h
  · exact hf _ _ _ _ h
  · cases h
  · cases h

/-- A micro-step whose read has waited for input waits for it again from the bits it has left, where there is room for
the byte it may append. -/
theorem readAt_waits (hr : readAt m s = .suspend .shortRead u) (hl : SameLocals s w) (hw : SameBits u w)
    (hi : w.inBytes = []) (hroom : w.outBytes.length < w.outCap) : readAt m w = outOfInput w := by
  have hpull : ∀ {β : Type} (g : Byte → State → β),
      ((pullByte w).bind fun b t => .ok (g b t) t) = outOfInput w := fun g => by
    rw [pullByte_of_empty hi, outOfInput_bind]
  have hneed : ∀ {n : Nat}, need n s = .suspend .shortRead u → need n w = outOfInput w := fun h =>
    (need_loops _).waits h hw hi
  have hneeds : ∀ {β : Type} {n : Nat} {g : Nat → State → β},
      ((need n s).bind fun v t => .ok (g v t) t) = .suspend .shortRead u →
        ((need n w).bind fun v t => .ok (g v t) t) = outOfInput w := fun h => by
    rw [hneed (Res.suspend_of_map h), outOfInput_bind]
  have hhuff : ∀ {len : List Nat}, huffDecode len s = .suspend .shortRead u → huffDecode len w = outOfInput w :=
    fun h => (huffDecode_loops _).waits h hw hi
  cases m with
  | zCmf => exact hpull _
  | zFlg => exact hpull _
  | zTrailer =>
    dsimp only [readAt] at hr
    split at hr
    · next hn => exact (if_pos (by rw [hl]; exact hn)).trans (hpull _)
    · cases hr
  | bHeader => exact hneed hr
  | bEnd => cases hr
  | sAlign => cases hr
  | sLen => exact hneed hr
  | sNlen => exact hneeds hr
  | sCopy =>
    dsimp only [readAt] at hr
    split at hr
    · cases hr
    · next hn =>
      have hraw : readRaw w = outOfInput w := by rw [readRaw_of_room hroom]; exact hpull _
      exact (if_neg (by rw [hl]; exact hn)).trans hraw
  | dHlit => exact hneed hr
  | dHdist => exact hneed hr
  | dHclen => exact hneeds hr
  | dCllens =>
    dsimp only [readAt] at hr
    split at hr
    · next hd => exact (if_pos (by rw [hl]; exact hd)).trans (hneed hr)
    · cases hr
  | dSym =>
    dsimp only [readAt] at hr
    split at hr
    · next hd =>
      rw [show s.clLen = w.clLen by rw [hl]] at hr
      exact (if_pos (by rw [hl]; exact hd)).trans (hhuff hr)
    · cases hr
  | dExtra =>
    rw [readAt, show s.repSym = w.repSym by rw [hl]] at hr
    exact hneeds hr
  | dBuild => cases hr
  | yLitlen =>
    rw [readAt, show s.llLen = w.llLen by rw [hl]] at hr
    exact hhuff hr
  | yEmit => exact absurd hr (needOut_ne_shortRead (by rintro _ _ _ _ ⟨⟩))
  | yLextra =>
    rw [readAt, show s.yLsym = w.yLsym by rw [hl]] at hr
    exact hneeds hr
  | yDsym =>
    rw [readAt, show s.dLen = w.dLen by rw [hl]] at hr
    exact hhuff hr
  | yDextra =>
    rw [readAt, show s.yDsym = w.yDsym by rw [hl]] at hr
    exact hneeds hr
  | yCopy =>
    dsimp only [readAt] at hr
    split at hr
    · cases hr
    · exact absurd hr (needOut_ne_shortRead (by rintro _ _ _ _ ⟨⟩))

/-- A micro-step that needs output space and finds none waits for it before anything else (R66, R312). -/
theorem readAt_full (hn : NeedsRoom m w) (hfull : w.outCap ≤ w.outBytes.length) :
    readAt m w = outOfSpace w := by
  have hout : ∀ f : Unit → State → Res Nat, (needOut w).bind f = outOfSpace w := fun f => by
    rw [needOut_of_full hfull, outOfSpace_bind]
  cases m with
  | sCopy => exact (if_neg hn).trans (hout _)
  | yEmit => exact hout _
  | yCopy => exact (if_neg hn).trans (hout _)
  | _ => exact hn.elim

theorem SameLocals.needsRoom (h : SameLocals s w) (hn : NeedsRoom m s) : NeedsRoom m w := by
  unfold SameLocals at h
  rw [h]
  cases m <;> exact hn

end

/-! ## The call that retries (R293) -/

section
variable {m : MicroStep} {s t u : State} {k : Status}

/-- A step that ends its call at one of the two suspensions has a read that suspends. -/
theorem suspended_of_status (hI : Inv s) (h : Runs m s) (hreq : s.requests = []) (hst : step s = .next t)
    (ht : t.busy = false) (hk : t.status = .shortRead ∨ t.status = .shortWrite) :
    ∃ u, readAt m s = .suspend t.status u ∧ t = endSuspended t.status u := by
  have hcursor : t.status ∈ cursorStatuses := by rcases hk with hk | hk <;> rw [hk] <;> decide
  have hread := readAt_reading m s
  rw [step_eq_perform hI h, tick_of_no_requests hreq] at hst
  cases hr : readAt m s with
  | ok v u =>
    have hu := onlyReader_of_readAt hr
    have hb : u.busy = true := by rw [hu]; exact h.1
    rw [hr] at hst
    rcases (perform_cursorFree v (hu.microStep.trans h.2.2)).status hst with hbusy | hne
    · rw [ht, hb] at hbusy; cases hbusy
    · exact absurd hcursor hne
  | suspend k u => rw [hr] at hst; cases hst; exact ⟨u, rfl, rfl⟩
  | raise x u =>
    rw [hr] at hst
    cases hst
    rcases hread.raises hr with ⟨rfl, -⟩ | ⟨rfl, -⟩ | hx
    · simp at hk
    · simp at hk
    · exact absurd hcursor hx

/-- A suspended call opened again has the locals with which it began. -/
theorem OnlyReader.sameLocals_openCall (hu : OnlyReader s u) (hb : s.busy = true) (k : Status)
    (out : Option OutCursor) (inp : Option InCursor) : SameLocals s (openCall out inp (endSuspended k u)) := by
  unfold OnlyReader at hu
  rw [hu]
  simp [SameLocals, openCall, endSuspended, hb]

/-- The first step of the call that retries is the micro-step that suspended. -/
theorem step_of_retry (hI : Inv s) (h : Runs m s) (hreq : s.requests = []) (hst : step s = .next (endSuspended k u))
    (hu : OnlyReader s u) (o : OutCursor) (i : InCursor) :
    step (openCall (some o) (some i) (endSuspended k u)) =
      (readAt m (openCall (some o) (some i) (endSuspended k u))).andThen (perform m) := by
  have hl := hu.sameLocals_openCall h.1 k (some o) (some i)
  have hp : u.phase = .active := by rw [hu]; exact hI.busy h.1
  have hnone : (openCall (some o) (some i) (endSuspended k u)).requests = [] := by rw [hl]; exact hreq
  have hIw := (stepKeepsInvariant s _ hI hst).openCall hp rfl o i
  have hw : Runs m (openCall (some o) (some i) (endSuspended k u)) :=
    ⟨rfl, presented_of_no_requests hnone, hl.microStep.trans h.2.2⟩
  rw [step_eq_perform hIw hw, tick_of_no_requests hnone]

/-- After `ShortRead`, with output space but no input: the read waits again. -/
theorem step_of_retry_shortRead (hI : Inv s) (h : Runs m s) (hreq : s.requests = [])
    (hst : step s = .next (endSuspended .shortRead u)) (hr : readAt m s = .suspend .shortRead u) {o : OutCursor}
    (hcap : 0 < o.cap) (c : Bool) :
    step (openCall (some o) (some ⟨[], c⟩) (endSuspended .shortRead u)) =
      (outOfInput (openCall (some o) (some ⟨[], c⟩) (endSuspended .shortRead u))).andThen (perform m) := by
  have hu := onlyReader_of_suspend hr
  have hl := hu.sameLocals_openCall h.1 .shortRead (some o) (some ⟨[], c⟩)
  rw [step_of_retry hI h hreq hst hu, readAt_waits hr hl ⟨rfl, rfl⟩ rfl hcap]

/-- After `ShortWrite`, without output space: the byte waits again. -/
theorem step_of_retry_shortWrite (hI : Inv s) (h : Runs m s) (hreq : s.requests = [])
    (hst : step s = .next (endSuspended .shortWrite u)) (hr : readAt m s = .suspend .shortWrite u) (c : Bool)
    (i : InCursor) :
    step (openCall (some ⟨0, c⟩) (some i) (endSuspended .shortWrite u)) =
      (outOfSpace (openCall (some ⟨0, c⟩) (some i) (endSuspended .shortWrite u))).andThen (perform m) := by
  have hu := onlyReader_of_suspend hr
  have hl := hu.sameLocals_openCall h.1 .shortWrite (some ⟨0, c⟩) (some i)
  have hn : NeedsRoom m s := by
    rcases (readAt_reading m s).suspends hr with ⟨hn, -⟩ | ⟨hk, -⟩
    · exact hn
    · cases hk
  rw [step_of_retry hI h hreq hst hu, readAt_full (hl.needsRoom hn) le_rfl]

end

/-- Settles O57: the call retried is at the micro-step that suspended, whose read waits again for what is not there. -/
theorem retryIsIdempotent : Obligations.RetryIsIdempotent := by
  unfold Obligations.RetryIsIdempotent
  intro m s t o i hI h hreq hst ht
  have hread : t.status = .shortRead → ∃ u, readAt m s = .suspend .shortRead u ∧ t = endSuspended .shortRead u :=
    fun hk => hk ▸ suspended_of_status hI h hreq hst ht (.inl hk)
  have hwrite : t.status = .shortWrite → ∃ u, readAt m s = .suspend .shortWrite u ∧ t = endSuspended .shortWrite u :=
    fun hk => hk ▸ suspended_of_status hI h hreq hst ht (.inr hk)
  refine ⟨fun hk hcap hi => ?_, fun hk hcap hi => ?_, fun hk ho => ?_, fun hk ho => ?_⟩
  · obtain ⟨u, hr, rfl⟩ := hread hk
    subst hi
    exact step_of_retry_shortRead hI h hreq hst hr hcap false
  · obtain ⟨u, hr, rfl⟩ := hread hk
    subst hi
    rw [step_of_retry_shortRead hI h hreq hst hr hcap true]
    exact raises_endRaised _ _
  · obtain ⟨u, hr, rfl⟩ := hwrite hk
    subst ho
    exact step_of_retry_shortWrite hI h hreq hst hr false i
  · obtain ⟨u, hr, rfl⟩ := hwrite hk
    subst ho
    rw [step_of_retry_shortWrite hI h hreq hst hr true i]
    exact raises_endRaised _ _

end Sys2Proof.Machine
end

section
/-! The statuses a call is answered with (spec/60_exceptions.md R300, R301, R303): their codes, and for each micro-step
which of them its read and what follows the read can end the call with. -/

namespace Sys2Proof.Machine

/-! ## The codes (R300, R301) -/

/-- The statuses in the order of their codes. -/
def statuses : List Status :=
  [.ok, .shortRead, .shortWrite, .badVersion, .badArgument, .initializerNotCalled, .invalidCallSequence,
   .closedForWrites, .unexpectedEndOfFile, .badHuffmanCodeOverSubscribed, .badHuffmanCodeUnderSubscribed,
   .badHuffmanCodeLengthCount, .badHuffmanCodeLengthRepetition, .badHuffmanCode, .badHuffmanMinimumCodeLength,
   .badDistance, .badDistanceCodeCount, .badFlateBlock, .badLiteralLengthCodeCount, .inconsistentStoredBlockLength,
   .missingEndOfBlockCode, .noHuffmanCodes, .checksumMismatch, .invalidZlibCompressionMethod,
   .invalidZlibCompressionWindowSize, .invalidZlibParityCheck, .unsupportedPresetDictionary, .internalInconsistency]

/-- The status with a given code, if there is one. -/
def statusOfCode (b : Byte) : Option Status := statuses.find? (·.code == b)

/-- No status stands in the table after another with its code. -/
theorem statusOfCode_code (k : Status) : statusOfCode k.code = some k := by cases k <;> rfl

theorem eq_of_code_eq {k k' : Status} (h : k.code = k'.code) : k = k' := by
  have hfind : some k = some k' := by rw [← statusOfCode_code k, h, statusOfCode_code]
  exact Option.some.inj hfind

theorem isTerminal_eq_false_iff (k : Status) : k.isTerminal = false ↔ k = .ok ∨ k = .shortRead ∨ k = .shortWrite := by
  cases k <;> simp [Status.isTerminal]

/-- Settles O59: a code has one status in the table; the codes themselves and the terminal statuses are the model's. -/
theorem statusCodes : Obligations.StatusCodes := by
  unfold Obligations.StatusCodes
  refine ⟨fun _ _ => eq_of_code_eq, isTerminal_eq_false_iff, ?_⟩
  decide

/-! ## The reads (R64, R66, R168) -/

/-- A read that does not complete stops with one of the statuses `l`. -/
def Res.StopsWith {α : Type} (l : List Status) : Res α → Prop
  | .ok _ _ => True
  | .suspend k _ => k ∈ l
  | .raise e _ => e ∈ l

/-- The statuses of a read that finds no input (R64). -/
def inputStatuses : List Status := [.shortRead, .unexpectedEndOfFile]

/-- The statuses of a read that finds no output space (R66). -/
def outputStatuses : List Status := [.shortWrite, .closedForWrites]

theorem Res.StopsWith.mono {α : Type} {l l' : List Status} {r : Res α} (h : r.StopsWith l) (hl : l ⊆ l') :
    r.StopsWith l' := by
  cases r with
  | ok v t => trivial
  | suspend k t => exact hl h
  | raise e t => exact hl h

theorem Res.StopsWith.bind {α β : Type} {l : List Status} {r : Res α} {f : α → State → Res β} (h : r.StopsWith l)
    (hf : ∀ v t, (f v t).StopsWith l) : (r.bind f).StopsWith l := by
  cases r with
  | ok v t => exact hf v t
  | suspend k t => exact h
  | raise e t => exact h

/-- What is computed from a read that has completed stops nothing. -/
theorem Res.StopsWith.bind_ok {α β : Type} {l : List Status} {r : Res α} {g : α → State → β} {f : α → State → State}
    (h : r.StopsWith l) : (r.bind fun v t => .ok (g v t) (f v t)).StopsWith l := h.bind fun _ _ => trivial

theorem stopsWith_ite {α : Type} {p : Prop} [Decidable p] {l l' : List Status} {a b : Res α} (ha : a.StopsWith l)
    (hb : b.StopsWith l') : (if p then a else b).StopsWith (if p then l else l') := by
  split <;> assumption

section
variable {s : State}

theorem pullByte_stopsWith (s : State) : (pullByte s).StopsWith inputStatuses := by
  rcases pullByte_cases s with ⟨b, rest, -, h⟩ | ⟨-, -, h⟩ | ⟨-, -, h⟩ <;> rw [h] <;>
    simp [Res.StopsWith, inputStatuses]

theorem needOut_stopsWith (s : State) : (needOut s).StopsWith outputStatuses := by
  rcases needOut_cases s with ⟨-, h⟩ | ⟨-, -, h⟩ | ⟨-, -, h⟩ <;> rw [h] <;>
    simp [Res.StopsWith, outputStatuses]

theorem ensureLoop_stopsWith (n fuel : Nat) (s : State) : (ensureLoop n fuel s).StopsWith inputStatuses := by
  induction fuel generalizing s with
  | zero => trivial
  | succ fuel ih =>
    rw [ensureLoop]
    split
    · exact (pullByte_stopsWith s).bind_ok.bind fun _ t => ih t
    · trivial

theorem need_stopsWith (n : Nat) (s : State) : (need n s).StopsWith inputStatuses :=
  (ensureLoop_stopsWith n _ s).bind_ok

theorem Starved.stopsWith {α : Type} {s t : State} {r : Res α} (h : Starved s r t) : r.StopsWith inputStatuses := by
  cases h <;> simp [Res.StopsWith, inputStatuses]

/-- The only error of `HuffDecode` itself is `BadHuffmanCode` (R168). -/
theorem huffDecode_stopsWith {len : List Nat} (hb : s.bits.toNat < 2 ^ s.nBits) (hm : maxl len ≤ 24) :
    (huffDecode len s).StopsWith (inputStatuses ++ [.badHuffmanCode]) := by
  rcases huffDecode_cases hb hm with ⟨v, t, h, -⟩ | ⟨t, h, -⟩ | ⟨t, -, -, -, -, h⟩
  · rw [h]; trivial
  · exact h.stopsWith.mono (List.subset_append_left _ _)
  · rw [h]; simp [Res.StopsWith]

/-- In a complete code some code always matches, so that `HuffDecode` only waits for input (R163, R168). -/
theorem huffDecode_stopsWith_of_complete {len : List Nat} (hb : s.bits.toNat < 2 ^ s.nBits) (hm : maxl len ≤ 24)
    (hv : validate len false = none) : (huffDecode len s).StopsWith inputStatuses := by
  rcases huffDecode_cases hb hm with ⟨v, t, h, -⟩ | ⟨t, h, -⟩ | ⟨t, -, hle, -, hnone, -⟩
  · rw [h]; trivial
  · exact h.stopsWith
  · exact absurd hnone (findCode_of_complete (kraft_of_validate hv) (le_min hle le_rfl))

/-- The output space is tested first, then a byte is pulled (R188). -/
theorem readRaw_stopsWith (s : State) : (readRaw s).StopsWith (outputStatuses ++ inputStatuses) :=
  ((needOut_stopsWith s).mono (List.subset_append_left _ _)).bind fun _ t =>
    ((pullByte_stopsWith t).mono (List.subset_append_right _ _)).bind_ok

/-- The read of a micro-step stops with a status of its row (R303). `D_SYM` reads in a table that has been validated as
a complete code, which is why `BadHuffmanCode` is not in its row (R207). -/
theorem readAt_stopsWith {m : MicroStep} (hI : Inv s) (hl : LocalsOk s m) :
    (readAt m s).StopsWith (mayReturn s m) := by
  cases m with
  | zCmf => exact (pullByte_stopsWith s).bind_ok
  | zFlg => exact (pullByte_stopsWith s).bind_ok.mono (by simp [inputStatuses, mayReturn])
  | zTrailer => exact stopsWith_ite (pullByte_stopsWith s).bind_ok trivial
  | bHeader => exact (need_stopsWith 3 s).mono (by simp [inputStatuses, mayReturn])
  | bEnd => trivial
  | sAlign => trivial
  | sLen => exact need_stopsWith 16 s
  | sNlen => exact (need_stopsWith 16 s).bind_ok.mono (by simp [inputStatuses, mayReturn])
  | sCopy =>
    rw [readAt]
    split
    · trivial
    · exact readRaw_stopsWith s
  | dHlit => exact need_stopsWith 5 s
  | dHdist => exact need_stopsWith 5 s
  | dHclen => exact (need_stopsWith 4 s).bind_ok.mono (by simp [inputStatuses, mayReturn])
  | dCllens => exact stopsWith_ite (need_stopsWith 3 s) trivial
  | dSym =>
    obtain ⟨-, hv, -⟩ := hl
    have hread := huffDecode_stopsWith_of_complete hI.bits ((maxl_le hI.clLen.2).trans (by decide)) hv
    rw [readAt]
    split
    · exact hread.mono (by simp [inputStatuses, mayReturn])
    · trivial
  | dExtra => exact (need_stopsWith _ s).bind_ok.mono (by simp [inputStatuses, mayReturn])
  | dBuild => trivial
  | yLitlen => exact huffDecode_stopsWith hI.bits ((maxl_le hI.llLen.2).trans (by decide))
  | yEmit => exact (needOut_stopsWith s).bind_ok
  | yLextra => exact (need_stopsWith _ s).bind_ok
  | yDsym => exact huffDecode_stopsWith hI.bits ((maxl_le hI.dLen.2).trans (by decide))
  | yDextra => exact (need_stopsWith _ s).bind_ok.mono (by simp [inputStatuses, mayReturn])
  | yCopy =>
    rw [readAt]
    split
    · trivial
    · exact (needOut_stopsWith s).bind_ok

end

/-! ## What follows the read (R303) -/

/-- From `u` to `t` the call has gone on, or it has got a status of `l`. -/
def ReturnsWithin (l : List Status) (u t : State) : Prop := t.busy = u.busy ∨ t.status ∈ l

section
variable {u t : State} {v : Nat}

theorem headerError_mem {cfg : ZfdConfig} {x : Half} {e : Status} (h : headerError cfg x = some e) :
    e ∈ mayReturn u .zFlg := by
  unfold headerError at h
  split_ifs at h <;> cases h <;> simp [mayReturn]

theorem countsError_mem {n k : Nat} {e : Status} (h : countsError n k = some e) : e ∈ mayReturn u .dHclen := by
  unfold countsError at h
  split_ifs at h <;> cases h <;> simp [mayReturn]

theorem buildError_mem {e : Status} (h : buildError u = some e) : e ∈ mayReturn u .dBuild := by
  unfold buildError at h
  split at h
  · cases h; simp [mayReturn]
  · split at h
    · next hv => cases h; rcases validate_cases hv with rfl | rfl | rfl <;> simp [mayReturn]
    · rcases validate_cases h with rfl | rfl | rfl <;> simp [mayReturn]

theorem zhdr_returns (h : runField .zhdr v u = .next t) : ReturnsWithin (mayReturn u .zFlg) u t := by
  have h := next_of_atStep (next_of_runField_row h rfl)
  split at h
  · next he => cases h; exact .inr (headerError_mem he)
  · cases h; exact .inl rfl

theorem ztrl_returns (hn : ¬ u.zTrlN < 4) (h : runField .ztrl v u = .next t) :
    ReturnsWithin (mayReturn u .zTrailer) u t := by
  have h := next_of_atStep (next_of_runField_row h rfl)
  rw [if_neg hn] at h
  rw [mayReturn, if_neg hn]
  split at h <;> cases h
  · exact .inr (by simp)
  · exact .inr (by simp)

theorem bhdr_returns (h : runField .bhdr v u = .next t) : ReturnsWithin (mayReturn u .bHeader) u t := by
  have h := next_of_runField_row h rfl
  generalize v / 2 = type at h
  match type with
  | 0 => cases next_of_atStep h; exact .inl rfl
  | 1 => cases next_of_atStep h; exact .inl rfl
  | 2 => cases next_of_atStep h; exact .inl rfl
  | _ + 3 => cases next_of_atStep h; exact .inr (by simp [mayReturn])

theorem stored_returns (h : runField .stored v u = .next t) : ReturnsWithin (mayReturn u .sNlen) u t := by
  have h := next_of_atStep (next_of_runField_row h rfl)
  split at h <;> cases h
  · exact .inl rfl
  · exact .inr (by simp [mayReturn])

theorem dynhdr_returns (h : runField .dynhdr v u = .next t) : ReturnsWithin (mayReturn u .dHclen) u t := by
  have h := next_of_atStep (next_of_runField_row h rfl)
  split at h
  · next he => cases h; exact .inr (countsError_mem he)
  · cases h; exact .inl rfl

theorem dCllens_returns (h : perform .dCllens v u = .next t) : ReturnsWithin (mayReturn u .dCllens) u t := by
  dsimp only [perform] at h
  by_cases hd : u.dI < u.nClen
  · rw [if_pos hd] at h
    have h := next_of_atStep (next_of_runField_row h rfl)
    rw [if_pos hd] at h
    cases h; exact .inl rfl
  · rw [if_neg hd, stepDCllensEnd] at h
    rw [mayReturn, if_neg hd]
    split at h <;> cases h
    · next he => exact .inr (by simpa using validate_cases he)
    · exact .inl rfl

theorem clsym_returns (hm : microStep u = some .dSym) (hd : u.dI ≠ u.nLit + u.nDist)
    (h : runField .clsym v u = .next t) : ReturnsWithin (mayReturn u .dSym) u t := by
  rcases clsym_of_next h with hv | rfl | rfl | rfl
  · rw [runField_ok (decode_clsym_len hv), exec_clLen v hm hd] at h
    cases h; exact .inl (by simp)
  · rw [runField_clRep, execClRep, repeatElement_dSym _ hm hd] at h
    split at h <;> cases h
    · exact .inr (by simp [mayReturn])
    · exact .inl rfl
  · rw [runField_clZrep, execClZrep, repeatElement_dSym _ hm hd] at h
    cases h; exact .inl rfl
  · rw [runField_clZrepl, execClZrepl, repeatElement_dSym _ hm hd] at h
    cases h; exact .inl rfl

theorem llsym_returns (hm : microStep u = some .yLitlen) (h : runField .llsym v u = .next t) :
    ReturnsWithin (mayReturn u .yLitlen) u t := by
  rcases runField_llsym v with ⟨b, hv⟩ | hv | ⟨-, -, hv⟩ | hv | hv <;> rw [hv] at h
  · simp only [execLit, hm] at h
    cases h; exact .inl rfl
  · cases next_of_atStep h; exact .inl rfl
  · rw [lengthElement_yLitlen v hm] at h
    cases h; exact .inl rfl
  · cases next_of_atStep h; exact .inr (by simp [mayReturn])
  · cases h

theorem dsym_returns (hm : microStep u = some .yDsym) (h : runField .dsym v u = .next t) :
    ReturnsWithin (mayReturn u .yDsym) u t := by
  rcases runField_dsym v with ⟨-, hv⟩ | hv | hv <;> rw [hv] at h
  · rw [distanceElement_yDsym v hm] at h
    cases h; exact .inl rfl
  · cases next_of_atStep h; exact .inr (by simp [mayReturn])
  · cases h

/-- A micro-step whose read has completed goes on, or ends the call with a status of its row (R303). -/
theorem perform_returns {m : MicroStep} (hm : microStep u = some m) (h : perform m v u = .next t) :
    ReturnsWithin (mayReturn u m) u t := by
  cases m with
  | zFlg => exact zhdr_returns h
  | zTrailer =>
    dsimp only [perform] at h
    split at h
    · cases h; exact .inl rfl
    · next hn => exact ztrl_returns hn h
  | bHeader => exact bhdr_returns h
  | bEnd =>
    have hbusy : (stepBEnd u).busy = u.busy := by unfold stepBEnd; split <;> rfl
    cases h; exact .inl hbusy
  | sNlen => exact stored_returns h
  | sCopy =>
    dsimp only [perform] at h
    split at h <;> cases h <;> exact .inl rfl
  | dHclen => exact dynhdr_returns h
  | dCllens => exact dCllens_returns h
  | dSym =>
    dsimp only [perform] at h
    split at h
    · next hd => exact clsym_returns hm (lengthDue_iff.1 hd) h
    · cases h; exact .inl rfl
  | dExtra =>
    dsimp only [perform] at h
    split at h <;> cases h
    · exact .inr (by simp [mayReturn])
    · exact .inl (by simp)
  | dBuild =>
    dsimp only [perform, stepDBuild] at h
    split at h <;> cases h
    · next he => exact .inr (buildError_mem he)
    · exact .inl rfl
  | yLitlen => exact llsym_returns hm h
  | yDsym => exact dsym_returns hm h
  | yDextra =>
    dsimp only [perform] at h
    split at h <;> cases h
    · exact .inr (by simp [mayReturn])
    · exact .inl rfl
  | yCopy =>
    dsimp only [perform] at h
    split at h <;> cases h <;> exact .inl rfl
  | _ => cases h; exact .inl rfl

end

/-! ## The step (R288, R289, R303, R320) -/

section
variable {m : MicroStep} {s t u : State}

theorem mayReturn_congr (hn : t.zTrlN = s.zTrlN) (hd : t.dI = s.dI) (hc : t.nClen = s.nClen) :
    mayReturn t m = mayReturn s m := by
  unfold mayReturn; rw [hn, hd, hc]

theorem OnlyReader.mayReturn (h : OnlyReader s u) : mayReturn u m = mayReturn s m := by
  unfold OnlyReader at h; rw [h]; rfl

/-- A step that ends its call ends it with a status of its micro-step's row. -/
theorem status_mem_mayReturn (hI : Inv s) (h : Runs m s) (hst : step s = .next t) (ht : t.busy = false) :
    t.status ∈ mayReturn s m := by
  have hm := (step_of_runs h).2
  have hb : (tick s).busy = true := by simpa using h.1
  have hread := readAt_stopsWith hI.tick (hI.tick.localsOk hb hm)
  rw [step_eq_perform hI h] at hst
  rw [← mayReturn_congr (t := tick s) (by simp) (by simp) (by simp)]
  cases hr : readAt m (tick s) with
  | ok v u =>
    have hu := onlyReader_of_readAt hr
    have hbu : u.busy = true := by rw [hu]; exact hb
    rw [hr] at hst
    rw [← hu.mayReturn]
    refine (perform_returns (hu.microStep.trans hm) hst).resolve_left fun hbusy => ?_
    rw [ht, hbu] at hbusy; cases hbusy
  | suspend k u => rw [hr] at hst hread; cases hst; exact hread
  | raise e u => rw [hr] at hst hread; cases hst; exact hread

/-- The phase, the status and the answer of `t` are those of `s`. -/
def ReturnKept (s t : State) : Prop := t.phase = s.phase ∧ t.status = s.status ∧ t.reply = s.reply

/-- What follows a read changes the phase, the status and the answer only where it ends the call. -/
theorem Performs.returnKept {v : Nat} (h : Performs v u m t) (ht : t.busy = true) : ReturnKept u t := by
  cases h
  case zTrailerEnd => cases ht
  case raised => cases ht
  all_goals simp [ReturnKept]

theorem returnKept_of_step (h : Runs m s) (hst : step s = .next t) (ht : t.busy = true) : ReturnKept s t := by
  obtain ⟨u, hu, hcase⟩ := (step_ends h hst).read
  have ho := readAt_only m (tick s)
  rw [hu] at ho
  rcases hcase with ⟨k, rfl⟩ | ⟨e, rfl⟩ | ⟨v, -, hperf⟩
  · cases ht
  · cases ht
  · have hkept := hperf.returnKept ht
    rw [ho] at hkept
    simpa [ReturnKept] using hkept

/-- The state in which a step leaves a call it has ended: DONE, suspended, or poisoned. -/
theorem phase_of_step (hI : Inv s) (h : Runs m s) (hst : step s = .next t) (ht : t.busy = false) :
    t.status = .ok ∧ t.phase = .done ∨ (t.status = .shortRead ∨ t.status = .shortWrite) ∧ t.phase = .active ∨
      t.status.isTerminal = true ∧ t.phase = .poisoned := by
  have hp : (tick s).phase = .active := by simpa using hI.busy h.1
  cases returned_of_step h hst ht with
  | done hd hk => exact .inl ⟨hk, hd⟩
  | raised hd hk _ => exact .inr (.inr ⟨hk, hd⟩)
  | full hu => subst hu; exact .inr (.inl ⟨.inr rfl, hp⟩)
  | short hu hpull =>
    subst hu
    exact .inr (.inl ⟨.inl rfl, by rw [hpull.only]; exact hp⟩)

end

/-- Settles O45: a call that goes on has kept its phase and its answer; one that has ended has been ended by its read or
by what follows it, with a status of the micro-step's row. -/
theorem statusesOfEachMicroStep : Obligations.StatusesOfEachMicroStep := by
  unfold Obligations.StatusesOfEachMicroStep
  intro m s t hI h hst
  cases ht : t.busy with
  | true =>
    obtain ⟨hphase, hstatus, hreply⟩ := returnKept_of_step h hst ht
    exact .inl ⟨rfl, hphase.trans (hI.busy h.1), hstatus, hreply⟩
  | false =>
    exact .inr ⟨rfl, reply_of_step h hst ht, status_mem_mayReturn hI h hst ht, phase_of_step hI h hst ht⟩

end Sys2Proof.Machine
end
